-- ==== Sys2Proof/Word.lean ====
section
/-! DEFINITION. The word types of the Phovis P32 and the two containers the state is made of. -/

namespace Sys2Proof

/-- A general register, an address or a control register: 64 bits (R126, R259). -/
abbrev Word := BitVec 64
/-- One byte of storage. -/
abbrev Byte := BitVec 8
/-- A vector register: 64 bytes, byte j in bits 8j+7:8j (R320). -/
abbrev VWord := BitVec 512

/-- A sparse table: an index that is not listed holds the default its reader names. -/
abbrev Tab (α : Type) := List (Nat × α)

/-- Byte-addressed storage as a list of cells in one canonical form (`Memory.wf`, Machine/Mem.lean). -/
abbrev Memory := List Host.Cell

end Sys2Proof
end

