-- ==== Sys2Proof/Machine/Msg.lean ====
section
/-! DEFINITION. The names of operand kinds and the messages that travel between the agents (R199, R200, R259, R114). -/

namespace Sys2Proof

/-- The four neighbour links (R14), in the order of the register codes 17 to 20 (R259). -/
inductive Dir where
  | east | west | north | south
  deriving DecidableEq, Repr

/-- A general register field (R259). -/
inductive Reg where
  | g (n : BitVec 4)
  | zr
  | link (d : Dir)
  | mb | cy | id
  deriving DecidableEq, Repr

/-- The guard of R261: bit 28 negates, bits 27:25 select p0 to p7. -/
structure Guard where
  neg : Bool
  p : BitVec 3
  deriving DecidableEq, Repr

/-- Access sizes: 8, 16, 32 and 64 bits (R276). -/
inductive Size where
  | b8 | b16 | b32 | b64
  deriving DecidableEq, Repr

/-- Scope codes 0 to 6 (R69, R114). -/
inductive Scope where
  | thr | core | sig | qre | die | pkg | sys
  deriving DecidableEq, Repr

/-- The conditions of a compare (R303). -/
inductive Cond where
  | eq | ne | lt | le | gt | ge | ltu | geu | leu | gtu
  deriving DecidableEq, Repr

/-- Lane types of `vcmp` (R333). -/
inductive CmpType where
  | f32 | i32 | bf16
  deriving DecidableEq, Repr

/-- Conversion kinds of `vcvt` (R334). -/
inductive CvtKind where
  | f32bf16 | f32e4m3 | f32e5m2 | f32i32 | f32i8 | i32f32 | i32i8
  deriving DecidableEq, Repr

/-- Rounding modes (R47). -/
inductive Mode where
  | rne | rtz | sat
  deriving DecidableEq, Repr

/-- Source formats of `vwid` (R336). -/
inductive WidFmt where
  | bf16 | e4m3 | e5m2 | i8 | cb8
  deriving DecidableEq, Repr

/-- Reduction kinds of `vred` (R337). -/
inductive VRed where
  | addF | maxF | minF | addI | maxI | minI | and | or
  deriving DecidableEq, Repr

/-- Kinds of `vamo` (R343). -/
inductive VAmo where
  | addI | minI | maxI | and | or | xor | addF
  deriving DecidableEq, Repr

/-- Kinds of `red` and of the local atomics (R374, R381). -/
inductive Amo where
  | add | and | or | xor | min | max | minu | maxu | swap
  deriving DecidableEq, Repr

/-- The matrix unit and the copy engine (R21). -/
inductive Engine where
  | mx | cp
  deriving DecidableEq, Repr

/-- The home of a byte in one package (R54). -/
inductive Home where
  | core (n : Nat)
  | hbm (stack chan : Nat)
  | host
  | spine
  deriving DecidableEq, Repr

/-- A home and the package that holds it. -/
structure Place where
  pkg : Nat
  home : Home
  deriving DecidableEq, Repr

/-- The franking of a message (R57, R199), and the launch that its sender works for (R121), none off the package. -/
structure Frank where
  pkg : Nat
  core : Nat
  ctx : Nat
  sup : Bool
  frame : Nat
  launch : Option Nat
  deriving DecidableEq, Repr

/-- A task record (R131) with the launch of the party that pushed it (R134). -/
structure Task where
  entry : Word
  arg : Word
  join : Word
  word : Word
  launch : Option Nat
  ctx : Nat
  sup : Bool
  deriving DecidableEq, Repr

/-- A claim that `mclaim` left with a frame (R233): the claim word's physical address where it stands in this package, and
the mesh and handle it was taken through. -/
structure Claim where
  word : Option Nat
  dest : Place
  addr : Nat
  va : Word
  gh : Word
  deriving DecidableEq, Repr

/-- The frame image a migrating thread travels as (R145). -/
structure Image where
  g : Vector Word 16
  pc : Word
  npc : Word
  nnpc : Word
  sw : Word
  tname : Word
  tjoin : Word
  launch : Option Nat
  ctx : Nat
  poisoned : List (Nat × Word)
  claims : List Claim
  slots : List Word
  deriving DecidableEq, Repr

/-- The named fields of a mesh record that `mget` and `mnext` return (R390). -/
inductive MLink where
  | link | twin | origin | edge | face | next
  deriving DecidableEq, Repr

/-- The topology edits (R223). -/
inductive Edit where
  | split | collapse | flip | refine
  deriving DecidableEq, Repr

/-- The class 110 operations as their home sees them (R387). `gosset` carries the configuration image that the core
reads at issue, none where its offset is not allowed (R246); an edit in a replay carries
the outcome that its record holds (R151). -/
inductive ObjOp where
  | mget (k : MLink)
  | mfld (j : Nat) | mfst (j : Nat)
  | mval | mclaim | mrel
  | edit (e : Edit) (expect : Option Bool)
  | mround
  | verpub | verpubO | verpubFin | verstop | verwait
  | verchk | verchkD | versettle | versettleT
  | gosadd | gosest | gosspr
  | gosset (img : Option (List Byte))
  | bar | barv | bwait | chsend | chrecv
  | hqput | hqpeek | hqrel | hqveto
  deriving DecidableEq, Repr

/-- What an object's home answers (R387): values for gd and pd, a trap, or that a withdrawal came first (R177). -/
inductive ObjAns where
  | ok (gd : Word) (pd : Bool)
  | trap (cause detail : Nat) (eaddr : Word)
  | withdrawn
  deriving DecidableEq, Repr

/-- What a message carries, by kind (R200). `notice`, `settle`, `countDown`, `taskPush` and `withdraw` are the
messages of R236, R241, R142, R311 and R177, which the spec names without a kind code of their own. `piece` is the put of an
engine's piece, and `invalid` a kind code that names no kind. -/
inductive Body where
  | put (data : List Byte) (ctr : Option Nat)
  | piece (data : List Byte)
  | get (n : Nat)
  | reply (data : List Byte) (poison : Bool)
  | active (handler arg : Word) (data : List Byte)
  | exhaustion (data : List Byte)
  | migrate (im : Image)
  | reduce (k : Amo) (v : Word)
  | vreduce (k : VAmo) (v : BitVec 32)
  | reserve (n : Nat)
  | condStore (n : Nat) (v : Word) (expect : Option Bool)
  | ack (status : Nat)
  | nack (status : Nat)
  | object (op : ObjOp) (x y : Word)
  | objReply (a : ObjAns)
  | notice (ctr version : Nat)
  | settle (brk : Bool)
  | countDown
  | taskPush (t : Task)
  | withdraw
  | mass (gid index : Nat) (words : List Word)
  | commit (pmark : Nat)
  | withdrawal (pmark : Nat)
  | deliveryAck (pmark : Nat)
  | invalid (code : Nat)
  deriving DecidableEq, Repr

/-- A message: head and payload (R199). `id` is the requester's slot or tracker entry; `va` the virtual address or
the target word the instruction named (R369, R376); `pri` the sender's class (R147); `sib` the position that R150
orders by, where it does; `lctx` the local context that an export entry gives (R211); `waits` holds once the
request waits in the crossbar (R451), where an active message has written its payload before (R380). `exhaustion` is the active message of R166. -/
structure Msg where
  id : Nat
  frank : Frank
  dest : Place
  addr : Nat
  va : Word
  scope : Option Scope
  pri : Nat
  sib : Option Nat
  pmark : Nat
  epoch : Nat
  body : Body
  lctx : Option Nat
  waits : Bool
  deriving DecidableEq, Repr

/-- A party that asks for a pre-emption: a supervisor frame or the command processor (R163). -/
inductive Asker where
  | frame (core frame : Nat)
  | processor (paddr : Word)
  deriving DecidableEq, Repr

/-- The state of an external port (R206). -/
inductive PortSt where
  | down | training | up | degraded | quarantined
  deriving DecidableEq, Repr

/-- The blocks that self-test and the health log name (R425, R426). -/
inductive Block where
  | signature (n : Nat)
  | channel (stack chan : Nat)
  | port (n : Nat)
  | die (n : Nat)
  deriving DecidableEq, Repr

/-- The granule of a memory error (R453), or a link buffer. -/
inductive Granule where
  | pad (core dword : Nat)
  | hbm (sector : Nat)
  | link (port : Nat)
  deriving DecidableEq, Repr

/-- How a block's self-test ends (R425); a repair that fails names the sectors of the rows it leaves. -/
inductive TestEnd where
  | pass | spare | noSpare | repaired | unrepaired (sectors : List Nat) | portFailed
  deriving DecidableEq, Repr

end Sys2Proof
end

