-- ==== Sys2Proof/Syntax.lean ====
section
/-! DEFINITION. The steps of the Phovis P32: one constructor per row of the opcode table. The first 202 rows are the
instructions that words encode (R280 to R288); each carries its guard first and its operands in the order d, a, b, then
literals. The other 129 rows are the steps of the other agents (spec/95): an event names who it happens to by core,
frame, queue or position in a list of the state. -/

namespace Sys2Proof

/-- One step of the machine, by row of the opcode table. -/
inductive Instr where
  /-- R292-R297: register arithmetic, logic, shifts. -/
  | add (g : Guard) (d a b : Reg)
  | sub (g : Guard) (d a b : Reg)
  | mul (g : Guard) (d a b : Reg)
  | mulh (g : Guard) (d a b : Reg)
  | mulhu (g : Guard) (d a b : Reg)
  | div (g : Guard) (d a b : Reg)
  | divu (g : Guard) (d a b : Reg)
  | rem (g : Guard) (d a b : Reg)
  | remu (g : Guard) (d a b : Reg)
  | and (g : Guard) (d a b : Reg)
  | or (g : Guard) (d a b : Reg)
  | xor (g : Guard) (d a b : Reg)
  | andn (g : Guard) (d a b : Reg)
  | shl (g : Guard) (d a b : Reg)
  | shr (g : Guard) (d a b : Reg)
  | sar (g : Guard) (d a b : Reg)
  | rol (g : Guard) (d a b : Reg)
  | ror (g : Guard) (d a b : Reg)
  | min (g : Guard) (d a b : Reg)
  | max (g : Guard) (d a b : Reg)
  | minu (g : Guard) (d a b : Reg)
  | maxu (g : Guard) (d a b : Reg)
  /-- R298, R299: bit counts and extensions. -/
  | popc (g : Guard) (d a : Reg)
  | clz (g : Guard) (d a : Reg)
  | ctz (g : Guard) (d a : Reg)
  | sext8 (g : Guard) (d a : Reg)
  | sext16 (g : Guard) (d a : Reg)
  | sext32 (g : Guard) (d a : Reg)
  | zext8 (g : Guard) (d a : Reg)
  | zext16 (g : Guard) (d a : Reg)
  | zext32 (g : Guard) (d a : Reg)
  /-- R300: bit fields. -/
  | bfx (g : Guard) (d a b : Reg)
  | bfxu (g : Guard) (d a b : Reg)
  | bfi (g : Guard) (d a b : Reg)
  /-- R301 -/
  | lea (g : Guard) (d a b : Reg) (s : BitVec 4)
  /-- R303 -/
  | cmp (g : Guard) (p : BitVec 3) (a b : Reg) (c : Cond)
  /-- R304 -/
  | sel (g : Guard) (d a b : Reg) (neg : Bool) (q : BitVec 3)
  /-- R305 -/
  | pand (g : Guard) (p a b : BitVec 3)
  | por (g : Guard) (p a b : BitVec 3)
  | pxor (g : Guard) (p a b : BitVec 3)
  | pandn (g : Guard) (p a b : BitVec 3)
  /-- R302 -/
  | mov (g : Guard) (d a : Reg)
  /-- R292, R295: immediate forms. -/
  | addImm (g : Guard) (d a : Reg) (i : BitVec 11)
  | subImm (g : Guard) (d a : Reg) (i : BitVec 11)
  | andImm (g : Guard) (d a : Reg) (i : BitVec 11)
  | orImm (g : Guard) (d a : Reg) (i : BitVec 11)
  | xorImm (g : Guard) (d a : Reg) (i : BitVec 11)
  /-- R296: immediate shifts. -/
  | shlImm (g : Guard) (d a : Reg) (i : BitVec 6)
  | shrImm (g : Guard) (d a : Reg) (i : BitVec 6)
  | sarImm (g : Guard) (d a : Reg) (i : BitVec 6)
  /-- R303 -/
  | cmpImm (g : Guard) (p : BitVec 3) (c : BitVec 3) (a : Reg) (i : BitVec 12)
  /-- R302 -/
  | movi (g : Guard) (d : Reg) (s : BitVec 2) (i : BitVec 16)
  /-- R307: an is 0 plain, 1 annul if not taken, 2 annul if taken. -/
  | br (g : Guard) (an : BitVec 2) (i : BitVec 19)
  | call (g : Guard) (an : BitVec 2) (i : BitVec 19)
  /-- R308 -/
  | jr (g : Guard) (an : BitVec 2) (a : Reg)
  /-- R308 -/
  | ret (g : Guard) (an : BitVec 2)
  /-- R310 -/
  | fork (g : Guard) (c : Reg) (i : BitVec 16)
  /-- R313: k is 1 for `.ge`. -/
  | join (g : Guard) (k : Bool) (c t a : Reg)
  /-- R311 -/
  | spawn (g : Guard) (a : Reg)
  /-- R312 -/
  | wtab (g : Guard) (k : Bool) (d c t a : Reg)
  /-- R314 -/
  | wclr (g : Guard) (d a : Reg)
  /-- R316 -/
  | yield (g : Guard)
  /-- R315 -/
  | wait (g : Guard) (c t : Reg)
  /-- R317 -/
  | go (g : Guard) (a : Reg)
  /-- R318; `endThread` is `end`. -/
  | tail (g : Guard)
  | endThread (g : Guard)
  /-- R370: o is the offset divided by the size. -/
  | ld (g : Guard) (z : Size) (d a : Reg) (o : BitVec 10)
  | lds (g : Guard) (z : Size) (d a : Reg) (o : BitVec 10)
  | st (g : Guard) (z : Size) (d a : Reg) (o : BitVec 10)
  /-- R371: q is the acquire (load) or release (store) scope. -/
  | gld (g : Guard) (z : Size) (d a : Reg) (q : Option Scope) (o : BitVec 6)
  | gst (g : Guard) (z : Size) (d a : Reg) (q : Option Scope) (o : BitVec 6)
  /-- R373 -/
  | tlk (g : Guard) (d a : Reg)
  | tins (g : Guard) (a b : Reg)
  | tinv (g : Guard) (a : Reg)
  | tinvAll (g : Guard)
  /-- R372 -/
  | fence (g : Guard) (k : Scope)
  | fenceRel (g : Guard) (k : Scope)
  | fenceAcq (g : Guard) (k : Scope)
  /-- R374: z is true for the 64-bit form. -/
  | cas (g : Guard) (d a b : Reg) (z : Bool)
  /-- R106, R375 -/
  | qwait (g : Guard) (d : Reg) (q : BitVec 3)
  | qroom (g : Guard) (d : Reg) (q : BitVec 3)
  | qadvP (g : Guard) (q : BitVec 3)
  | qadvC (g : Guard) (q : BitVec 3)
  /-- R105 -/
  | qset (g : Guard) (a : Reg) (q : BitVec 3)
  | qpos (g : Guard) (d : Reg) (q : BitVec 3)
  /-- R374 -/
  | amoAdd (g : Guard) (d a b : Reg) (z : Bool)
  | amoAnd (g : Guard) (d a b : Reg) (z : Bool)
  | amoOr (g : Guard) (d a b : Reg) (z : Bool)
  | amoXor (g : Guard) (d a b : Reg) (z : Bool)
  | amoMin (g : Guard) (d a b : Reg) (z : Bool)
  | amoMax (g : Guard) (d a b : Reg) (z : Bool)
  | amoMinu (g : Guard) (d a b : Reg) (z : Bool)
  | amoMaxu (g : Guard) (d a b : Reg) (z : Bool)
  | amoSwap (g : Guard) (d a b : Reg) (z : Bool)
  /-- R330: w is the issue gap, sd sa sb the stagger bits. -/
  | vfmaF32 (g : Guard) (w : BitVec 2) (sd sa sb : Bool) (d a b : BitVec 5)
  | vfmaBf16 (g : Guard) (w : BitVec 2) (sd sa sb : Bool) (d a b : BitVec 5)
  | vaddF32 (g : Guard) (w : BitVec 2) (sd sa sb : Bool) (d a b : BitVec 5)
  | vsubF32 (g : Guard) (w : BitVec 2) (sd sa sb : Bool) (d a b : BitVec 5)
  | vmulF32 (g : Guard) (w : BitVec 2) (sd sa sb : Bool) (d a b : BitVec 5)
  | vmaxF32 (g : Guard) (w : BitVec 2) (sd sa sb : Bool) (d a b : BitVec 5)
  | vminF32 (g : Guard) (w : BitVec 2) (sd sa sb : Bool) (d a b : BitVec 5)
  | vaddI32 (g : Guard) (w : BitVec 2) (sd sa sb : Bool) (d a b : BitVec 5)
  | vsubI32 (g : Guard) (w : BitVec 2) (sd sa sb : Bool) (d a b : BitVec 5)
  | vmulI32 (g : Guard) (w : BitVec 2) (sd sa sb : Bool) (d a b : BitVec 5)
  /-- R331 -/
  | vdotF0 (g : Guard) (w : BitVec 2) (sd sa sb : Bool) (d a b : BitVec 5)
  | vdotF1 (g : Guard) (w : BitVec 2) (sd sa sb : Bool) (d a b : BitVec 5)
  | vdotF2 (g : Guard) (w : BitVec 2) (sd sa sb : Bool) (d a b : BitVec 5)
  | vdotF3 (g : Guard) (w : BitVec 2) (sd sa sb : Bool) (d a b : BitVec 5)
  | vmaxI32 (g : Guard) (w : BitVec 2) (sd sa sb : Bool) (d a b : BitVec 5)
  | vminI32 (g : Guard) (w : BitVec 2) (sd sa sb : Bool) (d a b : BitVec 5)
  /-- R327: n is count - 1, x the stride. -/
  | rep (g : Guard) (n : BitVec 4) (a : Reg) (x : BitVec 5)
  /-- R332 -/
  | vand (g : Guard) (w : BitVec 2) (sd sa : Bool) (d a : BitVec 5) (x : BitVec 5)
  | vor (g : Guard) (w : BitVec 2) (sd sa : Bool) (d a : BitVec 5) (x : BitVec 5)
  | vxor (g : Guard) (w : BitVec 2) (sd sa : Bool) (d a : BitVec 5) (x : BitVec 5)
  | vandn (g : Guard) (w : BitVec 2) (sd sa : Bool) (d a : BitVec 5) (x : BitVec 5)
  | vshlI32 (g : Guard) (w : BitVec 2) (sd sa : Bool) (d a : BitVec 5) (x : BitVec 5)
  | vshrI32 (g : Guard) (w : BitVec 2) (sd sa : Bool) (d a : BitVec 5) (x : BitVec 5)
  | vsarI32 (g : Guard) (w : BitVec 2) (sd sa : Bool) (d a : BitVec 5) (x : BitVec 5)
  /-- R333 -/
  | vcmpEq (g : Guard) (w : BitVec 2) (sa : Bool) (t : CmpType) (k : BitVec 3) (a x : BitVec 5)
  | vcmpLt (g : Guard) (w : BitVec 2) (sa : Bool) (t : CmpType) (k : BitVec 3) (a x : BitVec 5)
  | vcmpLe (g : Guard) (w : BitVec 2) (sa : Bool) (t : CmpType) (k : BitVec 3) (a x : BitVec 5)
  | vsel (g : Guard) (w : BitVec 2) (sd sa : Bool) (d a : BitVec 5) (k : BitVec 3)
  /-- R334, R335 -/
  | vcvt (g : Guard) (w : BitVec 2) (sd sa : Bool) (d a : BitVec 5) (k : CvtKind) (m : Mode)
  | vcvtOl (g : Guard) (w : BitVec 2) (sd sa : Bool) (d a : BitVec 5) (k : CvtKind) (m : Mode)
  /-- R336 -/
  | vwid (g : Guard) (w : BitVec 2) (sd sa : Bool) (d a : BitVec 5) (c : BitVec 2) (f : WidFmt)
  /-- R337 -/
  | vred (g : Guard) (w : BitVec 2) (sd sa : Bool) (d a : BitVec 5) (k : VRed)
  /-- R338 -/
  | vperm (g : Guard) (w : BitVec 2) (sd sa : Bool) (d a : BitVec 5) (x : BitVec 5)
  | vbcst (g : Guard) (w : BitVec 2) (sd : Bool) (d : BitVec 5) (a : Reg) (z : Size)
  | vext (g : Guard) (w : BitVec 2) (sa : Bool) (d : Reg) (a : BitVec 5) (l : BitVec 4)
  | vlane (g : Guard) (w : BitVec 2) (sd : Bool) (d : BitVec 5)
  /-- R339 -/
  | vexp2F32 (g : Guard) (w : BitVec 2) (sd sa : Bool) (d a : BitVec 5)
  | vrcpF32 (g : Guard) (w : BitVec 2) (sd sa : Bool) (d a : BitVec 5)
  | vrsqF32 (g : Guard) (w : BitVec 2) (sd sa : Bool) (d a : BitVec 5)
  /-- R341: f is the offset divided by 64. -/
  | vld (g : Guard) (w : BitVec 2) (sd : Bool) (d : BitVec 5) (a : Reg) (f : BitVec 4)
  | vldG (g : Guard) (w : BitVec 2) (sd : Bool) (d : BitVec 5) (a : Reg) (f : BitVec 4)
  | vst (g : Guard) (w : BitVec 2) (sd : Bool) (d : BitVec 5) (a : Reg) (f : BitVec 4)
  | vstG (g : Guard) (w : BitVec 2) (sd : Bool) (d : BitVec 5) (a : Reg) (f : BitVec 4)
  /-- R342 -/
  | vgather (g : Guard) (w : BitVec 2) (sd : Bool) (d : BitVec 5) (a : Reg) (x : BitVec 5)
  | vscatter (g : Guard) (w : BitVec 2) (sd : Bool) (d : BitVec 5) (a : Reg) (x : BitVec 5)
  /-- R343 -/
  | vamo (g : Guard) (w : BitVec 2) (sd : Bool) (d : BitVec 5) (a : Reg) (k : VAmo)
  | vamoG (g : Guard) (w : BitVec 2) (sd : Bool) (d : BitVec 5) (a : Reg) (k : VAmo)
  /-- R378: q is the release scope. -/
  | put (g : Guard) (d a b : Reg) (q : Option Scope) (z : Size)
  | putv (g : Guard) (d a : Reg) (b : BitVec 5) (q : Option Scope)
  /-- R379 -/
  | get (g : Guard) (d a : Reg) (q : Option Scope) (z : Size)
  /-- R380 -/
  | amsg (g : Guard) (d a b : Reg)
  /-- R381 -/
  | red (g : Guard) (a b : Reg) (k : Amo)
  /-- R382: z is true for the 64-bit form. -/
  | rll (g : Guard) (d a : Reg) (q : Option Scope) (z : Bool)
  | rsc (g : Guard) (d a b : Reg) (q : Option Scope) (z : Bool)
  /-- R345 -/
  | postMx (g : Guard) (a : BitVec 5)
  | postCp (g : Guard) (a : BitVec 5)
  /-- R384 -/
  | fwd (g : Guard) (d a : Dir)
  /-- R366 -/
  | corr (g : Guard) (a b : Reg)
  /-- R390 -/
  | mgetLink (g : Guard) (d a b : Reg) (p : BitVec 3)
  | mgetTwin (g : Guard) (d a b : Reg) (p : BitVec 3)
  | mgetOrigin (g : Guard) (d a b : Reg) (p : BitVec 3)
  | mgetEdge (g : Guard) (d a b : Reg) (p : BitVec 3)
  | mgetFace (g : Guard) (d a b : Reg) (p : BitVec 3)
  | mnext (g : Guard) (d a b : Reg) (p : BitVec 3)
  /-- R391: j mod 4. -/
  | mfldLow (g : Guard) (d a b : Reg) (p : BitVec 3) (j : BitVec 2)
  | mfldHigh (g : Guard) (d a b : Reg) (p : BitVec 3) (j : BitVec 2)
  | mfstLow (g : Guard) (s a b : Reg) (p : BitVec 3) (j : BitVec 2)
  | mfstHigh (g : Guard) (s a b : Reg) (p : BitVec 3) (j : BitVec 2)
  /-- R392 -/
  | mval (g : Guard) (a b : Reg) (p : BitVec 3)
  | mclaim (g : Guard) (a b : Reg) (p : BitVec 3)
  | mrel (g : Guard) (a b : Reg) (p : BitVec 3)
  /-- R393 -/
  | msplit (g : Guard) (d a b : Reg) (p : BitVec 3)
  | mcoll (g : Guard) (d a b : Reg) (p : BitVec 3)
  | mflip (g : Guard) (d a b : Reg) (p : BitVec 3)
  | mref (g : Guard) (d a b : Reg) (p : BitVec 3)
  /-- R229, R237 -/
  | mround (g : Guard) (d a : Reg)
  | verpub (g : Guard) (d a : Reg)
  | verpubO (g : Guard) (d a : Reg)
  | verpubFin (g : Guard) (d a : Reg)
  | verstop (g : Guard) (d a : Reg)
  /-- R238 -/
  | verwait (g : Guard) (d a b : Reg)
  /-- R239 -/
  | verchk (g : Guard) (a b : Reg) (p : BitVec 3)
  | verchkD (g : Guard) (a b : Reg) (p : BitVec 3)
  /-- R242 -/
  | versettle (g : Guard) (a : Reg) (p : BitVec 3)
  | versettleT (g : Guard) (a : Reg) (p : BitVec 3)
  /-- R251 -/
  | gosadd (g : Guard) (a b : Reg)
  | gosest (g : Guard) (d a : Reg) (p : BitVec 3)
  | gosspr (g : Guard) (d a : Reg)
  | gosset (g : Guard) (d a b : Reg)
  /-- R172 -/
  | bar (g : Guard) (d a : Reg)
  | barv (g : Guard) (d a b : Reg)
  | bwait (g : Guard) (a b : Reg) (p : BitVec 3)
  | chsend (g : Guard) (a b : Reg) (p : BitVec 3)
  | chrecv (g : Guard) (d a : Reg) (p : BitVec 3)
  /-- R110 -/
  | hqput (g : Guard) (d a b : Reg)
  | hqpeek (g : Guard) (d a b : Reg)
  | hqrel (g : Guard) (d a b : Reg)
  | hqveto (g : Guard) (d a b : Reg)
  /-- R401 -/
  | trap (g : Guard) (i : BitVec 11)
  /-- R158 -/
  | rfe (g : Guard)
  /-- R403 -/
  | getc (g : Guard) (d : Reg) (s : BitVec 10)
  | setc (g : Guard) (a : Reg) (s : BitVec 10)
  /-- R405 -/
  | sleep (g : Guard) (a : Reg)
  /-- R407 -/
  | xinv (g : Guard) (a b : Reg)
  /-- R408, R409 -/
  | brkpt (g : Guard)
  | halt (g : Guard)
  /-- R410, R411 -/
  | olog (g : Guard) (d a : Reg)
  | probe (g : Guard) (d a : Reg)
  /-- The setc forms with a behaviour of their own (R59, R63, R93, R264, R352, R406). -/
  | windowWrite (g : Guard) (a : Reg) (n : BitVec 2)
  | tgcfgWrite (g : Guard) (a : Reg)
  | tvbaseWrite (g : Guard) (a : Reg)
  | swWrite (g : Guard) (a : Reg)
  | errorRegisterClear (g : Guard) (a : Reg) (e : Engine)
  | slpcfgWrite (g : Guard) (a : Reg)
  /-- R163, R164, R167: the four requests on a target frame. -/
  | preqPreempt (q : Asker) (core frame : Nat)
  | preqResumeReissue (q : Asker) (core frame : Nat)
  | preqResumeSkip (q : Asker) (core frame : Nat)
  | preqDiscard (q : Asker) (core frame : Nat)
  | framePark (core frame : Nat)
  | fatalTrapReport (core frame : Nat)
  | engineErrorDelivery (core frame : Nat)
  | frameReady (core frame : Nat)
  | framePromotion (core frame : Nat)
  | divideComplete (core : Nat)
  | sequencerReissue (core : Nat)
  | taskPop (core launch : Nat)
  | handlerStart (core : Nat)
  /-- n is a position in the list of messages in flight. -/
  | migrateArrival (n : Nat)
  | stealRequest (core launch : Nat)
  | stealService (n : Nat)
  | stealReply (n : Nat)
  | stealBackoffExpiry (core : Nat)
  | deferredTaskPush (core entry : Nat)
  | remoteTaskPush (n : Nat)
  | joinCountdown (n : Nat)
  | retirementDrainComplete (core frame : Nat)
  | trackerDrainComplete (core t : Nat)
  | putArrival (n : Nat)
  | getArrival (n : Nat)
  | reply (n : Nat)
  | ack (n : Nat)
  | nack (n : Nat)
  | activeArrival (n : Nat)
  | reduceArrival (n : Nat)
  | reserveArrival (n : Nat)
  | conditionalStoreArrival (n : Nat)
  | objectRequest (n : Nat)
  | objectReply (n : Nat)
  | notice (n : Nat)
  | waiterWithdrawal (n : Nat)
  /-- e is a position in the list of mesh edits under way. -/
  | meshClaim (e : Nat)
  /-- R354-R364: the command at the head of the core's queue. -/
  | mxSetf (core : Nat)
  | mxLda (core : Nat)
  | mxLdb (core : Nat)
  | mxMac (core : Nat)
  | mxPass (core : Nat)
  | mxZero (core : Nat)
  | mxDrain (core : Nat)
  | mxMark (core : Nat)
  | cpCopy2d (core : Nat)
  | cpGather (core : Nat)
  | cpScatter (core : Nat)
  | cpFill (core : Nat)
  | cpMark (core : Nat)
  | commandCompletion (core : Nat) (e : Engine)
  | engineWaitTimeout (core : Nat) (e : Engine)
  | orderLogWatchdog (core frame : Nat)
  | translationWalk (die : Nat)
  | pageMovedRetry (core id : Nat)
  | pageSeal
  | pageCopyComplete
  | pageReleased
  /-- q is 16 times the context plus the queue number; v the value the host writes. -/
  | queueEnable (q : Nat) (v : Word)
  | queueDisable (q : Nat) (v : Word)
  | queueDoorbell (q : Nat) (v : Word)
  | queueResume (q : Nat) (v : Word)
  | queueFlush (q : Nat) (v : Word)
  /-- The record at the head of queue q. -/
  | launch (q : Nat)
  | create (q : Nat)
  | activate (q : Nat)
  | close (q : Nat)
  | kill (q : Nat)
  | map (q : Nat)
  | unmap (q : Nat)
  | migrate (q : Nat)
  | park (q : Nat)
  | restore (q : Nat)
  | grant (q : Nat)
  | accept (q : Nat)
  | revoke (q : Nat)
  | createHoldingQueue (q : Nat)
  | launchPlacement (l : Nat)
  | launchCompletion (l : Nat)
  | contextDrained (c : Nat)
  | killComplete (c : Nat)
  | contextCleanup (c : Nat)
  | hqStream (h : Nat)
  | pqackWrite (h : Nat) (v : Word)
  /-- r is a position in the list of gossip regions. -/
  | gossipRound (r : Nat)
  | gossipDrainComplete (r : Nat)
  | gossipMass (n : Nat)
  | gossipCommit (n : Nat)
  | gossipWithdrawal (n : Nat)
  /-- i is a position in the retention buffer. -/
  | gossipMassTimeout (i : Nat)
  | offpackageSend (n : Nat)
  | postmarkArrival (port : Nat) (m : Msg)
  | deliveryAck (m : Msg)
  | retentionResend (i : Nat)
  | requestTimeout (core id : Nat)
  | noRouteReturn (n : Nat)
  | nonrequestDrop (n : Nat)
  /-- cls is 0 requests, 1 replies, 2 gossip. -/
  | creditReturn (port cls flits : Nat)
  | linkReplay (port : Nat)
  | linkTrainingStart (port : Nat)
  /-- rate is coded as in `lkst`. -/
  | linkTrained (port lanes rate : Nat)
  | linkTrainingTimeout (port : Nat)
  | linkFault (port : Nat)
  | linkDisable (port : Nat)
  | linkRelease (port : Nat)
  | linkRetrain (port : Nat)
  | registerWrite (off : Nat) (v : Word)
  | sleepExpiry (core frame : Nat)
  | coreSleep (core : Nat)
  | coreWake (core : Nat)
  | eccError (at_ : Granule) (corrected : Bool)
  | selfTestComplete (blk : Block) (r : TestEnd)
  /-- temp is the reading in 1/16 degree. -/
  | thermalWarning (die : Nat) (temp : BitVec 16)
  | thermalStop (die : Nat) (temp : BitVec 16)
  /-- hang: the step the start is cut off at; bad: the steps whose form taken fails (R421). -/
  | packageStart (hang : Option Nat) (bad : List Nat)
  | journalReset
  /-- v is the value written to `atctl`. -/
  | attestReport (v : Word)
  | attestExtend (v : Word)
  | attestComplete
  | illegalInstruction (w : BitVec 32)
  | vectorResultWrite (core : Nat)
  | unassignedEngineCommand (core : Nat) (e : Engine)
  | malformedRecord (q : Nat)
  deriving DecidableEq, Repr

end Sys2Proof
end

