-- ==== Sys2Proof/WellFormed.lean ====
section
/-! DEFINITION. Which instructions a word can encode: the limits on operands beyond their types (R259 to R289). -/

namespace Sys2Proof

/-- A link register (R259). -/
def Reg.isLink : Reg → Bool
  | .link _ => true
  | _ => false

/-- The selectors that name a control register (R403). -/
def isSelector (s : BitVec 10) : Bool :=
  [0x000, 0x001, 0x002, 0x010, 0x011, 0x012, 0x013, 0x014, 0x015, 0x016, 0x020, 0x021, 0x030, 0x031, 0x032, 0x033,
   0x034, 0x035, 0x036, 0x037, 0x040, 0x041, 0x050, 0x051, 0x052, 0x060, 0x070, 0x071, 0x072].contains s.toNat

/-- A term that some word encodes. Predicate destinations name p1 to p7 (R260), the annul field is not 3 (R267), a
returning instruction names no link (R368), `lds` has no 64-bit form (R283), `vwid` names a context only for CB8
(R285), `red` has no swap (R286) and a selector names a register (R403). An event has no word and no limit here. -/
def WellFormed : Instr → Bool
  | .cmp _ p .. | .cmpImm _ p .. | .pand _ p .. | .por _ p .. | .pxor _ p .. | .pandn _ p .. => p != 0
  | .br _ an _ | .call _ an _ | .jr _ an _ | .ret _ an => an != 3
  | .lds _ z .. => z != .b64
  | .gld _ _ d .. | .get _ d .. | .rll _ d .. | .rsc _ d .. => !d.isLink
  | .vwid _ _ _ _ _ _ c f => c == 0 || f == .cb8
  | .red _ _ _ k => k != .swap
  | .mgetLink _ _ _ _ p | .mgetTwin _ _ _ _ p | .mgetOrigin _ _ _ _ p | .mgetEdge _ _ _ _ p | .mgetFace _ _ _ _ p
  | .mnext _ _ _ _ p | .mfldLow _ _ _ _ p _ | .mfldHigh _ _ _ _ p _ | .mfstLow _ _ _ _ p _ | .mfstHigh _ _ _ _ p _
  | .mval _ _ _ p | .mclaim _ _ _ p | .mrel _ _ _ p | .msplit _ _ _ _ p | .mcoll _ _ _ _ p | .mflip _ _ _ _ p
  | .mref _ _ _ _ p | .verchk _ _ _ p | .verchkD _ _ _ p | .versettle _ _ p | .versettleT _ _ p | .gosest _ _ _ p
  | .bwait _ _ _ p | .chsend _ _ _ p | .chrecv _ _ _ p => p != 0
  | .getc _ _ s | .setc _ _ s => isSelector s
  | _ => true

end Sys2Proof
end

