-- ==== Sys2Proof/Decode.lean ====
section
/-! DEFINITION. Words to instructions and back, from the formats of R272 to R278 and the opcode map of R279 to R289.
A word is cut once into the fields of its format, most significant first; a word the map does not assign decodes to
`none` (R289) and issues as the step `illegalInstruction`. The encoder packs the same fields. -/

namespace Sys2Proof

/-! ## Fields -/

/-- The fields of the given widths, most significant first, of a number. -/
def cut : List Nat → Nat → List Nat
  | [], _ => []
  | w :: ws, n => n / 2 ^ ws.sum % 2 ^ w :: cut ws n

/-- The number whose fields, most significant first, are given with their widths. -/
def pack : List (Nat × Nat) → Nat
  | [] => 0
  | (_, v) :: r => v * 2 ^ (r.map Prod.fst).sum + pack r

/-- Guard field (R261). -/
def Guard.ofCode (n : Nat) : Guard := ⟨n / 8 % 2 == 1, BitVec.ofNat 3 n⟩
/-- Guard field (R261). -/
def Guard.code (g : Guard) : Nat := g.neg.toNat * 8 + g.p.toNat

/-- Link codes 17 to 20 (R259). -/
def Dir.code : Dir → Nat
  | .east => 17 | .west => 18 | .north => 19 | .south => 20
/-- Link codes 17 to 20 (R259). -/
def Dir.ofCode : Nat → Option Dir
  | 17 => some .east | 18 => some .west | 19 => some .north | 20 => some .south | _ => none

/-- Register codes 0 to 23 (R259). -/
def Reg.code : Reg → Nat
  | .g n => n.toNat | .zr => 16 | .link d => d.code | .mb => 21 | .cy => 22 | .id => 23
/-- Register codes 0 to 23; 24 to 31 name nothing (R259). -/
def Reg.ofCode (n : Nat) : Option Reg :=
  if n < 16 then some (.g (BitVec.ofNat 4 n)) else
  match n with
  | 16 => some .zr | 17 => some (.link .east) | 18 => some (.link .west) | 19 => some (.link .north)
  | 20 => some (.link .south) | 21 => some .mb | 22 => some .cy | 23 => some .id | _ => none

/-- Size codes (R276). -/
def Size.code : Size → Nat
  | .b8 => 0 | .b16 => 1 | .b32 => 2 | .b64 => 3
/-- Size codes (R276). -/
def Size.ofCode : Nat → Option Size
  | 0 => some .b8 | 1 => some .b16 | 2 => some .b32 | 3 => some .b64 | _ => none

/-- Scope codes (R114). -/
def Scope.code : Scope → Nat
  | .thr => 0 | .core => 1 | .sig => 2 | .qre => 3 | .die => 4 | .pkg => 5 | .sys => 6
/-- Scope codes; 7 names none (R114, R276). -/
def Scope.ofCode : Nat → Option Scope
  | 0 => some .thr | 1 => some .core | 2 => some .sig | 3 => some .qre | 4 => some .die | 5 => some .pkg
  | 6 => some .sys | _ => none

/-- The o and scope fields: scope is zero when o is 0 (R276, R286). -/
def ordOf (o s : Nat) : Option (Option Scope) :=
  if o = 0 then (if s = 0 then some none else none) else (Scope.ofCode s).map some
/-- The o bit of an ordering. -/
def ordBit (q : Option Scope) : Nat := if q.isSome then 1 else 0
/-- The scope field of an ordering. -/
def ordScope : Option Scope → Nat
  | none => 0 | some s => s.code

/-- Condition codes 0 to 9 (R280). -/
def Cond.code : Cond → Nat
  | .eq => 0 | .ne => 1 | .lt => 2 | .le => 3 | .gt => 4 | .ge => 5 | .ltu => 6 | .geu => 7 | .leu => 8 | .gtu => 9
/-- Condition codes 0 to 9 (R280). -/
def Cond.ofCode : Nat → Option Cond
  | 0 => some .eq | 1 => some .ne | 2 => some .lt | 3 => some .le | 4 => some .gt | 5 => some .ge
  | 6 => some .ltu | 7 => some .geu | 8 => some .leu | 9 => some .gtu | _ => none

/-- Type codes of `vcmp` (R285). -/
def CmpType.code : CmpType → Nat
  | .f32 => 0 | .i32 => 1 | .bf16 => 2
/-- Type codes of `vcmp` (R285). -/
def CmpType.ofCode : Nat → Option CmpType
  | 0 => some .f32 | 1 => some .i32 | 2 => some .bf16 | _ => none

/-- Conversion kinds (R285). -/
def CvtKind.code : CvtKind → Nat
  | .f32bf16 => 0 | .f32e4m3 => 1 | .f32e5m2 => 2 | .f32i32 => 3 | .f32i8 => 4 | .i32f32 => 5 | .i32i8 => 6
/-- Conversion kinds (R285). -/
def CvtKind.ofCode : Nat → Option CvtKind
  | 0 => some .f32bf16 | 1 => some .f32e4m3 | 2 => some .f32e5m2 | 3 => some .f32i32 | 4 => some .f32i8
  | 5 => some .i32f32 | 6 => some .i32i8 | _ => none

/-- Rounding modes (R285). -/
def Mode.code : Mode → Nat
  | .rne => 0 | .rtz => 1 | .sat => 2
/-- Rounding modes (R285). -/
def Mode.ofCode : Nat → Option Mode
  | 0 => some .rne | 1 => some .rtz | 2 => some .sat | _ => none

/-- Source format codes of `vwid` (R39, R285). -/
def WidFmt.code : WidFmt → Nat
  | .bf16 => 1 | .e4m3 => 2 | .e5m2 => 3 | .i8 => 4 | .cb8 => 6
/-- Source format codes of `vwid` (R39, R285). -/
def WidFmt.ofCode : Nat → Option WidFmt
  | 1 => some .bf16 | 2 => some .e4m3 | 3 => some .e5m2 | 4 => some .i8 | 6 => some .cb8 | _ => none

/-- Kinds of `vred` (R285). -/
def VRed.code : VRed → Nat
  | .addF => 0 | .maxF => 1 | .minF => 2 | .addI => 3 | .maxI => 4 | .minI => 5 | .and => 6 | .or => 7
/-- Kinds of `vred` (R285). -/
def VRed.ofCode : Nat → Option VRed
  | 0 => some .addF | 1 => some .maxF | 2 => some .minF | 3 => some .addI | 4 => some .maxI | 5 => some .minI
  | 6 => some .and | 7 => some .or | _ => none

/-- Kinds of `vamo` (R285). -/
def VAmo.code : VAmo → Nat
  | .addI => 0 | .minI => 1 | .maxI => 2 | .and => 3 | .or => 4 | .xor => 5 | .addF => 6
/-- Kinds of `vamo` (R285). -/
def VAmo.ofCode : Nat → Option VAmo
  | 0 => some .addI | 1 => some .minI | 2 => some .maxI | 3 => some .and | 4 => some .or | 5 => some .xor
  | 6 => some .addF | _ => none

/-- Kinds of `red` (R286); `swap` is not one. -/
def Amo.redCode : Amo → Nat
  | .add => 0 | .and => 1 | .or => 2 | .xor => 3 | .min => 4 | .max => 5 | .minu => 6 | .maxu => 7 | .swap => 8
/-- Kinds of `red` (R286). -/
def Amo.ofRedCode : Nat → Option Amo
  | 0 => some .add | 1 => some .and | 2 => some .or | 3 => some .xor | 4 => some .min | 5 => some .max
  | 6 => some .minu | 7 => some .maxu | _ => none

/-- A register that a returning instruction may name: no link register (R368). -/
def retReg (n : Nat) : Option Reg := (Reg.ofCode n).bind fun r => if r.isLink then none else some r
/-- A predicate destination p1 to p7 (R260). -/
def predDest (n : Nat) : Option (BitVec 3) := if 1 ≤ n ∧ n < 8 then some (BitVec.ofNat 3 n) else none
/-- A predicate or queue number in a wider field whose upper bits are zero. -/
def low3 (n : Nat) : Option (BitVec 3) := if n < 8 then some (BitVec.ofNat 3 n) else none
/-- A one-bit flag. -/
def bit (n : Nat) : Bool := n == 1
/-- The annul field: 3 names nothing (R267). -/
def annul (n : Nat) : Option (BitVec 2) := if n < 3 then some (BitVec.ofNat 2 n) else none
/-- A control register selector that names a register (R403). -/
def selector (n : Nat) : Option (BitVec 10) :=
  if isSelector (BitVec.ofNat 10 n) then some (BitVec.ofNat 10 n) else none
/-- Zero fields (R289): the value if the condition on the other fields holds. -/
def when_ (c : Bool) (i : Option Instr) : Option Instr := if c then i else none

/-! ## The shapes of operands -/

/-- Three registers d, a, b. -/
def dab (k : Guard → Reg → Reg → Reg → Instr) (g d a b : Nat) : Option Instr := do
  some (k (Guard.ofCode g) (← Reg.ofCode d) (← Reg.ofCode a) (← Reg.ofCode b))
/-- Two registers. -/
def da (k : Guard → Reg → Reg → Instr) (g d a : Nat) : Option Instr := do
  some (k (Guard.ofCode g) (← Reg.ofCode d) (← Reg.ofCode a))
/-- One register. -/
def one (k : Guard → Reg → Instr) (g a : Nat) : Option Instr := do
  some (k (Guard.ofCode g) (← Reg.ofCode a))
/-- Two registers and a predicate destination. -/
def abp (k : Guard → Reg → Reg → BitVec 3 → Instr) (g a b p : Nat) : Option Instr := do
  some (k (Guard.ofCode g) (← Reg.ofCode a) (← Reg.ofCode b) (← predDest p))
/-- Three registers and a predicate destination. -/
def dabp (k : Guard → Reg → Reg → Reg → BitVec 3 → Instr) (g d a b p : Nat) : Option Instr := do
  some (k (Guard.ofCode g) (← Reg.ofCode d) (← Reg.ofCode a) (← Reg.ofCode b) (← predDest p))
/-- Three predicates. -/
def ppp (k : Guard → BitVec 3 → BitVec 3 → BitVec 3 → Instr) (g p a b : Nat) : Option Instr := do
  some (k (Guard.ofCode g) (← predDest p) (← low3 a) (← low3 b))
/-- Two vector registers with their gap and stagger bits (V2). -/
def v2 {β : Type} (k : Guard → BitVec 2 → Bool → Bool → BitVec 5 → BitVec 5 → β → Instr) (g w s d a : Nat) (x : β) :
    Instr :=
  k (Guard.ofCode g) (BitVec.ofNat 2 w) (bit (s / 2)) (bit (s % 2)) (BitVec.ofNat 5 d) (BitVec.ofNat 5 a) x
/-- A vector register and a scalar one (V2): the stagger bit of a is zero. -/
def vs (k : Guard → BitVec 2 → Bool → BitVec 5 → Reg → Instr) (g w s d a : Nat) : Option Instr := do
  when_ (s % 2 == 0) (some (k (Guard.ofCode g) (BitVec.ofNat 2 w) (bit (s / 2)) (BitVec.ofNat 5 d)
    (← Reg.ofCode a)))

/-! ## The opcode map -/

/-- Class 000 (R280). -/
def decode0 (g d a b m op : Nat) : Option Instr :=
  match op with
  | 0x01 => when_ (m == 0) (dab .add g d a b)
  | 0x02 => when_ (m == 0) (dab .sub g d a b)
  | 0x03 => when_ (m == 0) (dab .mul g d a b)
  | 0x04 => when_ (m == 0) (dab .mulh g d a b)
  | 0x05 => when_ (m == 0) (dab .mulhu g d a b)
  | 0x06 => when_ (m == 0) (dab .div g d a b)
  | 0x07 => when_ (m == 0) (dab .divu g d a b)
  | 0x08 => when_ (m == 0) (dab .rem g d a b)
  | 0x09 => when_ (m == 0) (dab .remu g d a b)
  | 0x0a => when_ (m == 0) (dab .and g d a b)
  | 0x0b => when_ (m == 0) (dab .or g d a b)
  | 0x0c => when_ (m == 0) (dab .xor g d a b)
  | 0x0d => when_ (m == 0) (dab .andn g d a b)
  | 0x0e => when_ (m == 0) (dab .shl g d a b)
  | 0x0f => when_ (m == 0) (dab .shr g d a b)
  | 0x10 => when_ (m == 0) (dab .sar g d a b)
  | 0x11 => when_ (m == 0) (dab .rol g d a b)
  | 0x12 => when_ (m == 0) (dab .ror g d a b)
  | 0x13 => when_ (m == 0) (dab .min g d a b)
  | 0x14 => when_ (m == 0) (dab .max g d a b)
  | 0x15 => when_ (m == 0) (dab .minu g d a b)
  | 0x16 => when_ (m == 0) (dab .maxu g d a b)
  | 0x17 => when_ (b == 0 && m == 0) (da .popc g d a)
  | 0x18 => when_ (b == 0 && m == 0) (da .clz g d a)
  | 0x19 => when_ (b == 0 && m == 0) (da .ctz g d a)
  | 0x1a => when_ (b == 0) (match m with | 0 => da .sext8 g d a | 1 => da .sext16 g d a | 2 => da .sext32 g d a | _ => none)
  | 0x1b => when_ (b == 0) (match m with | 0 => da .zext8 g d a | 1 => da .zext16 g d a | 2 => da .zext32 g d a | _ => none)
  | 0x1c => when_ (m == 0) (dab .bfx g d a b)
  | 0x1d => when_ (m == 0) (dab .bfxu g d a b)
  | 0x1e => when_ (m == 0) (dab .bfi g d a b)
  | 0x1f => dab (fun g d a b => .lea g d a b (BitVec.ofNat 4 m)) g d a b
  | 0x20 => do some (.cmp (Guard.ofCode g) (← predDest d) (← Reg.ofCode a) (← Reg.ofCode b) (← Cond.ofCode m))
  | 0x21 => dab (fun g d a b => .sel g d a b (bit (m / 8)) (BitVec.ofNat 3 m)) g d a b
  | 0x22 => when_ (m == 0) (ppp .pand g d a b)
  | 0x23 => when_ (m == 0) (ppp .por g d a b)
  | 0x24 => when_ (m == 0) (ppp .pxor g d a b)
  | 0x25 => when_ (m == 0) (ppp .pandn g d a b)
  | 0x26 => when_ (b == 0 && m == 0) (da .mov g d a)
  | _ => none

/-- Class 001, ALU-imm (R281): op 0 to 7. -/
def decode1 (g op d a i : Nat) : Option Instr :=
  match op with
  | 0 => da (fun g d a => .addImm g d a (BitVec.ofNat 11 i)) g d a
  | 1 => da (fun g d a => .subImm g d a (BitVec.ofNat 11 i)) g d a
  | 2 => da (fun g d a => .andImm g d a (BitVec.ofNat 11 i)) g d a
  | 3 => da (fun g d a => .orImm g d a (BitVec.ofNat 11 i)) g d a
  | 4 => da (fun g d a => .xorImm g d a (BitVec.ofNat 11 i)) g d a
  | 5 => when_ (i / 64 == 0) (da (fun g d a => .shlImm g d a (BitVec.ofNat 6 i)) g d a)
  | 6 => when_ (i / 64 == 0) (da (fun g d a => .shrImm g d a (BitVec.ofNat 6 i)) g d a)
  | 7 => when_ (i / 64 == 0) (da (fun g d a => .sarImm g d a (BitVec.ofNat 6 i)) g d a)
  | _ => none

/-- Class 010, format W (R282): op 5 to 13. -/
def decode2 (g op k d c t a : Nat) : Option Instr :=
  match op with
  | 5 => when_ (d == 0) (do some (.join (Guard.ofCode g) (bit k) (← Reg.ofCode c) (← Reg.ofCode t) (← Reg.ofCode a)))
  | 6 => when_ (k == 0 && d == 0 && c == 0 && t == 0) (one .spawn g a)
  | 7 => do some (.wtab (Guard.ofCode g) (bit k) (← Reg.ofCode d) (← Reg.ofCode c) (← Reg.ofCode t) (← Reg.ofCode a))
  | 8 => when_ (k == 0 && c == 0 && t == 0) (da .wclr g d a)
  | 9 => when_ (k == 0 && d == 0 && c == 0 && t == 0 && a == 0) (some (.yield (Guard.ofCode g)))
  | 10 => when_ (k == 0 && d == 0 && a == 0) (da .wait g c t)
  | 11 => when_ (k == 0 && d == 0 && c == 0 && t == 0) (one .go g a)
  | 12 => when_ (k == 0 && d == 0 && c == 0 && t == 0 && a == 0) (some (.tail (Guard.ofCode g)))
  | 13 => when_ (k == 0 && d == 0 && c == 0 && t == 0 && a == 0) (some (.endThread (Guard.ofCode g)))
  | _ => none

/-- A local load or store of class 011, format L. -/
def fmtL (k : Guard → Size → Reg → Reg → BitVec 10 → Instr) (g z d a o : Nat) : Option Instr := do
  some (k (Guard.ofCode g) (← Size.ofCode z) (← Reg.ofCode d) (← Reg.ofCode a) (BitVec.ofNat 10 o))

/-- Class 011, format M (R283): sub 0 to 0x12. -/
def decode3 (g sub d a b m : Nat) : Option Instr :=
  match sub with
  | 0x00 => when_ (b == 0 && m == 0) (da .tlk g d a)
  | 0x01 => when_ (d == 0 && m == 0) (da .tins g a b)
  | 0x02 => when_ (d == 0 && b == 0)
      (match m with
       | 0 => one .tinv g a
       | 1 => when_ (a == 0) (some (.tinvAll (Guard.ofCode g)))
       | _ => none)
  | 0x03 => when_ (d == 0 && a == 0)
      (match m with
       | 0 => do some (.fence (Guard.ofCode g) (← Scope.ofCode b))
       | 1 => do some (.fenceRel (Guard.ofCode g) (← Scope.ofCode b))
       | 2 => do some (.fenceAcq (Guard.ofCode g) (← Scope.ofCode b))
       | _ => none)
  | 0x04 => when_ (m / 2 == 0) (dab (fun g d a b => .cas g d a b (bit m)) g d a b)
  | 0x05 => when_ (a == 0 && m == 0) (do some (.qwait (Guard.ofCode g) (← Reg.ofCode d) (← low3 b)))
  | 0x06 => when_ (a == 0 && m == 0) (do some (.qroom (Guard.ofCode g) (← Reg.ofCode d) (← low3 b)))
  | 0x07 => when_ (d == 0 && a == 0)
      (match m with
       | 0 => do some (.qadvP (Guard.ofCode g) (← low3 b))
       | 1 => do some (.qadvC (Guard.ofCode g) (← low3 b))
       | _ => none)
  | 0x08 => when_ (d == 0 && m == 0) (do some (.qset (Guard.ofCode g) (← Reg.ofCode a) (← low3 b)))
  | 0x09 => when_ (a == 0 && m == 0) (do some (.qpos (Guard.ofCode g) (← Reg.ofCode d) (← low3 b)))
  | 0x0a => when_ (m / 2 == 0) (dab (fun g d a b => .amoAdd g d a b (bit m)) g d a b)
  | 0x0b => when_ (m / 2 == 0) (dab (fun g d a b => .amoAnd g d a b (bit m)) g d a b)
  | 0x0c => when_ (m / 2 == 0) (dab (fun g d a b => .amoOr g d a b (bit m)) g d a b)
  | 0x0d => when_ (m / 2 == 0) (dab (fun g d a b => .amoXor g d a b (bit m)) g d a b)
  | 0x0e => when_ (m / 2 == 0) (dab (fun g d a b => .amoMin g d a b (bit m)) g d a b)
  | 0x0f => when_ (m / 2 == 0) (dab (fun g d a b => .amoMax g d a b (bit m)) g d a b)
  | 0x10 => when_ (m / 2 == 0) (dab (fun g d a b => .amoMinu g d a b (bit m)) g d a b)
  | 0x11 => when_ (m / 2 == 0) (dab (fun g d a b => .amoMaxu g d a b (bit m)) g d a b)
  | 0x12 => when_ (m / 2 == 0) (dab (fun g d a b => .amoSwap g d a b (bit m)) g d a b)
  | _ => none

/-- Class 100, format V3 (R284). -/
def v3 (k : Guard → BitVec 2 → Bool → Bool → Bool → BitVec 5 → BitVec 5 → BitVec 5 → Instr) (g w s d a b : Nat) : Instr :=
  k (Guard.ofCode g) (BitVec.ofNat 2 w) (bit (s / 4)) (bit (s / 2 % 2)) (bit (s % 2)) (BitVec.ofNat 5 d)
    (BitVec.ofNat 5 a) (BitVec.ofNat 5 b)

/-- Class 100, format V3 (R284). -/
def decodeV3 (g op w s d a b : Nat) : Option Instr :=
  match op with
  | 0x0 => some (v3 .vfmaF32 g w s d a b)
  | 0x1 => some (v3 .vfmaBf16 g w s d a b)
  | 0x2 => some (v3 .vaddF32 g w s d a b)
  | 0x3 => some (v3 .vsubF32 g w s d a b)
  | 0x4 => some (v3 .vmulF32 g w s d a b)
  | 0x5 => some (v3 .vmaxF32 g w s d a b)
  | 0x6 => some (v3 .vminF32 g w s d a b)
  | 0x7 => some (v3 .vaddI32 g w s d a b)
  | 0x8 => some (v3 .vsubI32 g w s d a b)
  | 0x9 => some (v3 .vmulI32 g w s d a b)
  | 0xa => some (v3 .vdotF0 g w s d a b)
  | 0xb => some (v3 .vdotF1 g w s d a b)
  | 0xc => some (v3 .vdotF2 g w s d a b)
  | 0xd => some (v3 .vdotF3 g w s d a b)
  | 0xe => some (v3 .vmaxI32 g w s d a b)
  | 0xf => some (v3 .vminI32 g w s d a b)
  | _ => none

/-- The compares of class 100: the stagger bit of d is zero, d holds the type and the mask register (R285, R333). -/
def vcmp (k : Guard → BitVec 2 → Bool → CmpType → BitVec 3 → BitVec 5 → BitVec 5 → Instr) (g w s d a x : Nat) :
    Option Instr := do
  when_ (s / 2 == 0) (some (k (Guard.ofCode g) (BitVec.ofNat 2 w) (bit (s % 2)) (← CmpType.ofCode (d / 8))
    (BitVec.ofNat 3 d) (BitVec.ofNat 5 a) (BitVec.ofNat 5 x)))

/-- Class 100, format V2 (R285). -/
def decodeV2 (g op w s d a x : Nat) : Option Instr :=
  match op with
  | 0x00 => when_ (w == 0 && s == 0 && d / 16 == 0)
      (do some (.rep (Guard.ofCode g) (BitVec.ofNat 4 d) (← Reg.ofCode a) (BitVec.ofNat 5 x)))
  | 0x01 => some (v2 .vand g w s d a (BitVec.ofNat 5 x))
  | 0x02 => some (v2 .vor g w s d a (BitVec.ofNat 5 x))
  | 0x03 => some (v2 .vxor g w s d a (BitVec.ofNat 5 x))
  | 0x04 => some (v2 .vandn g w s d a (BitVec.ofNat 5 x))
  | 0x05 => some (v2 .vshlI32 g w s d a (BitVec.ofNat 5 x))
  | 0x06 => some (v2 .vshrI32 g w s d a (BitVec.ofNat 5 x))
  | 0x07 => some (v2 .vsarI32 g w s d a (BitVec.ofNat 5 x))
  | 0x08 => vcmp .vcmpEq g w s d a x
  | 0x09 => vcmp .vcmpLt g w s d a x
  | 0x0a => vcmp .vcmpLe g w s d a x
  | 0x0b => do some (v2 .vsel g w s d a (← low3 x))
  | 0x0c => do
      let m ← Mode.ofCode (x % 4)
      some (v2 (fun g w sd sa d a k => .vcvt g w sd sa d a k m) g w s d a (← CvtKind.ofCode (x / 4)))
  | 0x0d => do
      let m ← Mode.ofCode (x % 4)
      some (v2 (fun g w sd sa d a k => .vcvtOl g w sd sa d a k m) g w s d a (← CvtKind.ofCode (x / 4)))
  | 0x0e => when_ (x / 8 == 0 || x % 8 == 6) (do
      some (v2 (fun g w sd sa d a f => .vwid g w sd sa d a (BitVec.ofNat 2 (x / 8)) f) g w s d a (← WidFmt.ofCode (x % 8))))
  | 0x0f => do some (v2 .vred g w s d a (← VRed.ofCode x))
  | 0x10 => some (v2 .vperm g w s d a (BitVec.ofNat 5 x))
  | 0x11 => do
      let z ← Size.ofCode x
      vs (fun g w sd d a => .vbcst g w sd d a z) g w s d a
  | 0x12 => when_ (s / 2 == 0 && x / 16 == 0) (do
      some (.vext (Guard.ofCode g) (BitVec.ofNat 2 w) (bit (s % 2)) (← Reg.ofCode d) (BitVec.ofNat 5 a) (BitVec.ofNat 4 x)))
  | 0x13 => when_ (s % 2 == 0 && a == 0 && x == 0)
      (some (.vlane (Guard.ofCode g) (BitVec.ofNat 2 w) (bit (s / 2)) (BitVec.ofNat 5 d)))
  | 0x14 => when_ (x == 0) (some (v2 (fun g w sd sa d a (_ : Unit) => .vexp2F32 g w sd sa d a) g w s d a ()))
  | 0x15 => when_ (x == 0) (some (v2 (fun g w sd sa d a (_ : Unit) => .vrcpF32 g w sd sa d a) g w s d a ()))
  | 0x16 => when_ (x == 0) (some (v2 (fun g w sd sa d a (_ : Unit) => .vrsqF32 g w sd sa d a) g w s d a ()))
  | 0x17 => if x / 16 = 0 then vs (fun g w sd d a => .vld g w sd d a (BitVec.ofNat 4 x)) g w s d a
            else vs (fun g w sd d a => .vldG g w sd d a (BitVec.ofNat 4 x)) g w s d a
  | 0x18 => if x / 16 = 0 then vs (fun g w sd d a => .vst g w sd d a (BitVec.ofNat 4 x)) g w s d a
            else vs (fun g w sd d a => .vstG g w sd d a (BitVec.ofNat 4 x)) g w s d a
  | 0x19 => vs (fun g w sd d a => .vgather g w sd d a (BitVec.ofNat 5 x)) g w s d a
  | 0x1a => vs (fun g w sd d a => .vscatter g w sd d a (BitVec.ofNat 5 x)) g w s d a
  | 0x1b => when_ (x / 8 % 2 == 0) (do
      let k ← VAmo.ofCode (x % 8)
      if x / 16 = 0 then vs (fun g w sd d a => .vamo g w sd d a k) g w s d a
      else vs (fun g w sd d a => .vamoG g w sd d a k) g w s d a)
  | _ => none

/-- Class 101 (R286). -/
def decode5 (g op d a b s m : Nat) : Option Instr :=
  match op with
  | 0 => do
      let q ← ordOf (m % 2) s; let z ← Size.ofCode (m / 2)
      dab (fun g d a b => .put g d a b q z) g d a b
  | 1 => when_ (m / 2 == 3) (do
      let q ← ordOf (m % 2) s
      da (fun g d a => .putv g d a (BitVec.ofNat 5 b) q) g d a)
  | 2 => when_ (b == 0) (do
      some (.get (Guard.ofCode g) (← retReg d) (← Reg.ofCode a) (← ordOf (m % 2) s) (← Size.ofCode (m / 2))))
  | 3 => when_ (s == 0 && m == 0) (dab .amsg g d a b)
  | 4 => when_ (d == 0 && s == 0) (do
      let k ← Amo.ofRedCode m
      da (fun g a b => .red g a b k) g a b)
  | 5 => when_ (b == 0 && m / 4 == 1) (do
      some (.rll (Guard.ofCode g) (← retReg d) (← Reg.ofCode a) (← ordOf (m % 2) s) (bit (m / 2 % 2))))
  | 6 => when_ (m / 4 == 1) (do
      some (.rsc (Guard.ofCode g) (← retReg d) (← Reg.ofCode a) (← Reg.ofCode b) (← ordOf (m % 2) s) (bit (m / 2 % 2))))
  | 7 => when_ (d == 0 && b == 0 && s == 0)
      (match m with
       | 1 => some (.postMx (Guard.ofCode g) (BitVec.ofNat 5 a))
       | 2 => some (.postCp (Guard.ofCode g) (BitVec.ofNat 5 a))
       | _ => none)
  | 8 => when_ (b == 0 && s == 0 && m == 0) (do some (.fwd (Guard.ofCode g) (← Dir.ofCode d) (← Dir.ofCode a)))
  | 9 => when_ (d == 0 && s == 0 && m == 0) (da .corr g a b)
  | _ => none

/-- Class 110 (R287). -/
def decode6 (g op d a b p m : Nat) : Option Instr :=
  match op, m with
  | 0x00, 0 => dabp .mgetLink g d a b p
  | 0x00, 1 => dabp .mgetTwin g d a b p
  | 0x00, 2 => dabp .mgetOrigin g d a b p
  | 0x00, 3 => dabp .mgetEdge g d a b p
  | 0x01, 0 => dabp .mgetFace g d a b p
  | 0x02, 0 => dabp .mnext g d a b p
  | 0x03, m => dabp (fun g d a b p => .mfldLow g d a b p (BitVec.ofNat 2 m)) g d a b p
  | 0x04, m => dabp (fun g d a b p => .mfldHigh g d a b p (BitVec.ofNat 2 m)) g d a b p
  | 0x05, m => dabp (fun g d a b p => .mfstLow g d a b p (BitVec.ofNat 2 m)) g d a b p
  | 0x06, m => dabp (fun g d a b p => .mfstHigh g d a b p (BitVec.ofNat 2 m)) g d a b p
  | 0x07, 0 => when_ (d == 0) (abp .mval g a b p)
  | 0x07, 1 => when_ (d == 0) (abp .mclaim g a b p)
  | 0x07, 2 => when_ (d == 0) (abp .mrel g a b p)
  | 0x08, 0 => dabp .msplit g d a b p
  | 0x09, 0 => dabp .mcoll g d a b p
  | 0x0a, 0 => dabp .mflip g d a b p
  | 0x0b, 0 => dabp .mref g d a b p
  | 0x0c, 0 => when_ (b == 0 && p == 0) (da .mround g d a)
  | 0x0d, 0 => when_ (b == 0 && p == 0) (da .verpub g d a)
  | 0x0d, 1 => when_ (b == 0 && p == 0) (da .verpubO g d a)
  | 0x0d, 2 => when_ (b == 0 && p == 0) (da .verpubFin g d a)
  | 0x0e, 0 => when_ (b == 0 && p == 0) (da .verstop g d a)
  | 0x0f, 0 => when_ (p == 0) (dab .verwait g d a b)
  | 0x10, 0 => when_ (d == 0) (abp .verchk g a b p)
  | 0x10, 1 => when_ (d == 0) (abp .verchkD g a b p)
  | 0x11, 0 => when_ (d == 0 && b == 0) (do some (.versettle (Guard.ofCode g) (← Reg.ofCode a) (← predDest p)))
  | 0x11, 1 => when_ (d == 0 && b == 0) (do some (.versettleT (Guard.ofCode g) (← Reg.ofCode a) (← predDest p)))
  | 0x12, 0 => when_ (d == 0 && p == 0) (da .gosadd g a b)
  | 0x13, 0 => when_ (b == 0) (abp .gosest g d a p)
  | 0x14, 0 => when_ (b == 0 && p == 0) (da .gosspr g d a)
  | 0x15, 0 => when_ (p == 0) (dab .gosset g d a b)
  | 0x16, 0 => when_ (b == 0 && p == 0) (da .bar g d a)
  | 0x16, 1 => when_ (p == 0) (dab .barv g d a b)
  | 0x17, 0 => when_ (d == 0) (abp .bwait g a b p)
  | 0x18, 0 => when_ (d == 0) (abp .chsend g a b p)
  | 0x19, 0 => when_ (b == 0) (abp .chrecv g d a p)
  | 0x1a, 0 => when_ (p == 0) (dab .hqput g d a b)
  | 0x1b, 0 => when_ (p == 0) (dab .hqpeek g d a b)
  | 0x1c, 0 => when_ (p == 0) (dab .hqrel g d a b)
  | 0x1d, 0 => when_ (p == 0) (dab .hqveto g d a b)
  | _, _ => none

/-- Class 111 (R288): low is bits 10:0. -/
def decode7 (g op d a low : Nat) : Option Instr :=
  match op with
  | 0 => when_ (d == 0 && a == 0) (some (.trap (Guard.ofCode g) (BitVec.ofNat 11 low)))
  | 1 => when_ (d == 0 && a == 0 && low == 0) (some (.rfe (Guard.ofCode g)))
  | 2 => when_ (a == 0 && low / 1024 == 0) (do some (.getc (Guard.ofCode g) (← Reg.ofCode d) (← selector low)))
  | 3 => when_ (d == 0 && low / 1024 == 0) (do some (.setc (Guard.ofCode g) (← Reg.ofCode a) (← selector low)))
  | 4 => when_ (d == 0 && low == 0) (one .sleep g a)
  | 5 => when_ (d == 0 && low % 64 == 0) (da .xinv g a (low / 64))
  | 6 => when_ (d == 0 && a == 0 && low == 0) (some (.brkpt (Guard.ofCode g)))
  | 7 => when_ (d == 0 && a == 0 && low == 0) (some (.halt (Guard.ofCode g)))
  | 8 => when_ (low == 0) (da .olog g d a)
  | 9 => when_ (low == 0) (da .probe g d a)
  | _ => none

/-- The instruction that a word encodes; none for a word that the map does not assign (R272, R289). -/
def decode (w : BitVec 32) : Option Instr :=
  let n := w.toNat
  match n / 2 ^ 29 with
  | 0 => match cut [3, 4, 5, 5, 5, 4, 6] n with
    | [_, g, d, a, b, m, op] => decode0 g d a b m op
    | _ => none
  | 1 =>
    if n / 2 ^ 24 % 2 = 0 then
      match cut [3, 4, 4, 5, 5, 11] n with
      | [_, g, op, d, a, i] => decode1 g op d a i
      | _ => none
    else if n / 2 ^ 23 % 2 = 0 then
      match cut [3, 4, 2, 3, 3, 5, 12] n with
      | [_, g, _, p, c, a, i] => do
        some (.cmpImm (Guard.ofCode g) (← predDest p) (BitVec.ofNat 3 c) (← Reg.ofCode a) (BitVec.ofNat 12 i))
      | _ => none
    else
      match cut [3, 4, 2, 5, 2, 16] n with
      | [_, g, _, d, s, i] => do
        some (.movi (Guard.ofCode g) (← Reg.ofCode d) (BitVec.ofNat 2 s) (BitVec.ofNat 16 i))
      | _ => none
  | 2 =>
    match n / 2 ^ 21 % 16 with
    | 0 => match cut [3, 4, 4, 2, 19] n with
      | [_, g, _, an, i] => do some (.br (Guard.ofCode g) (← annul an) (BitVec.ofNat 19 i))
      | _ => none
    | 1 => match cut [3, 4, 4, 2, 19] n with
      | [_, g, _, an, i] => do some (.call (Guard.ofCode g) (← annul an) (BitVec.ofNat 19 i))
      | _ => none
    | 2 => match cut [3, 4, 4, 2, 5, 14] n with
      | [_, g, _, an, a, z] => when_ (z == 0) (do some (.jr (Guard.ofCode g) (← annul an) (← Reg.ofCode a)))
      | _ => none
    | 3 => match cut [3, 4, 4, 2, 5, 14] n with
      | [_, g, _, an, a, z] => when_ (a == 0 && z == 0) (do some (.ret (Guard.ofCode g) (← annul an)))
      | _ => none
    | 4 => match cut [3, 4, 4, 5, 16] n with
      | [_, g, _, c, i] => do some (.fork (Guard.ofCode g) (← Reg.ofCode c) (BitVec.ofNat 16 i))
      | _ => none
    | _ => match cut [3, 4, 4, 1, 5, 5, 5, 5] n with
      | [_, g, op, k, d, c, t, a] => decode2 g op k d c t a
      | _ => none
  | 3 =>
    match n / 2 ^ 22 % 8 with
    | 0 => match cut [3, 4, 3, 2, 5, 5, 10] n with
      | [_, g, _, z, d, a, o] => fmtL .ld g z d a o
      | _ => none
    | 1 => match cut [3, 4, 3, 2, 5, 5, 10] n with
      | [_, g, _, z, d, a, o] => when_ (z != 3) (fmtL .lds g z d a o)
      | _ => none
    | 2 => match cut [3, 4, 3, 2, 5, 5, 10] n with
      | [_, g, _, z, d, a, o] => fmtL .st g z d a o
      | _ => none
    | 3 => match cut [3, 4, 3, 2, 5, 5, 1, 3, 6] n with
      | [_, g, _, z, d, a, q, s, o] => do
        some (.gld (Guard.ofCode g) (← Size.ofCode z) (← retReg d) (← Reg.ofCode a) (← ordOf q s) (BitVec.ofNat 6 o))
      | _ => none
    | 4 => match cut [3, 4, 3, 2, 5, 5, 1, 3, 6] n with
      | [_, g, _, z, d, a, q, s, o] => do
        some (.gst (Guard.ofCode g) (← Size.ofCode z) (← Reg.ofCode d) (← Reg.ofCode a) (← ordOf q s) (BitVec.ofNat 6 o))
      | _ => none
    | 5 => match cut [3, 4, 3, 5, 5, 5, 5, 2] n with
      | [_, g, _, sub, d, a, b, m] => decode3 g sub d a b m
      | _ => none
    | _ => none
  | 4 =>
    if n / 2 ^ 24 % 2 = 0 then
      match cut [3, 4, 1, 4, 2, 3, 5, 5, 5] n with
      | [_, g, _, op, w, s, d, a, b] => decodeV3 g op w s d a b
      | _ => none
    else
      match cut [3, 4, 1, 5, 2, 2, 5, 5, 5] n with
      | [_, g, _, op, w, s, d, a, x] => decodeV2 g op w s d a x
      | _ => none
  | 5 => match cut [3, 4, 4, 5, 5, 5, 3, 3] n with
    | [_, g, op, d, a, b, s, m] => decode5 g op d a b s m
    | _ => none
  | 6 => match cut [3, 4, 5, 5, 5, 5, 3, 2] n with
    | [_, g, op, d, a, b, p, m] => decode6 g op d a b p m
    | _ => none
  | 7 => match cut [3, 4, 4, 5, 5, 11] n with
    | [_, g, op, d, a, low] => decode7 g op d a low
    | _ => none
  | _ => none

/-- The word of an opcode-table row given by its bits: one little-endian 32-bit word (R272). A row without an
encoding has no bits to decode. -/
def decodeTableWord (nbits w : Nat) : Option Instr :=
  if nbits = 32 then decode (BitVec.ofNat 32 w) else none

/-! ## The encoder -/

/-- The word whose fields are given, most significant first. -/
def word (l : List (Nat × Nat)) : Option (BitVec 32) := some (BitVec.ofNat 32 (pack l))

/-- Class 000 (R273). -/
def wR (g : Guard) (d a b m op : Nat) : Option (BitVec 32) :=
  word [(3, 0), (4, g.code), (5, d), (5, a), (5, b), (4, m), (6, op)]
/-- Class 001, ALU-imm (R274). -/
def wI (g : Guard) (op d a i : Nat) : Option (BitVec 32) := word [(3, 1), (4, g.code), (4, op), (5, d), (5, a), (11, i)]
/-- Class 010, format W (R275). -/
def wW (g : Guard) (op k d c t a : Nat) : Option (BitVec 32) :=
  word [(3, 2), (4, g.code), (4, op), (1, k), (5, d), (5, c), (5, t), (5, a)]
/-- Class 011, format L (R276). -/
def wL (g : Guard) (op z d a o : Nat) : Option (BitVec 32) :=
  word [(3, 3), (4, g.code), (3, op), (2, z), (5, d), (5, a), (10, o)]
/-- Class 011, format G (R276). -/
def wG (g : Guard) (op z d a : Nat) (q : Option Scope) (o : Nat) : Option (BitVec 32) :=
  word [(3, 3), (4, g.code), (3, op), (2, z), (5, d), (5, a), (1, ordBit q), (3, ordScope q), (6, o)]
/-- Class 011, format M (R276). -/
def wM (g : Guard) (sub d a b m : Nat) : Option (BitVec 32) :=
  word [(3, 3), (4, g.code), (3, 5), (5, sub), (5, d), (5, a), (5, b), (2, m)]
/-- Class 100, format V3 (R277). -/
def wV3 (g : Guard) (op : Nat) (w : BitVec 2) (sd sa sb : Bool) (d a b : BitVec 5) : Option (BitVec 32) :=
  word [(3, 4), (4, g.code), (1, 0), (4, op), (2, w.toNat), (3, sd.toNat * 4 + sa.toNat * 2 + sb.toNat), (5, d.toNat),
    (5, a.toNat), (5, b.toNat)]
/-- Class 100, format V2 (R277). -/
def wV2 (g : Guard) (op : Nat) (w : BitVec 2) (sd sa : Bool) (d a x : Nat) : Option (BitVec 32) :=
  word [(3, 4), (4, g.code), (1, 1), (5, op), (2, w.toNat), (2, sd.toNat * 2 + sa.toNat), (5, d), (5, a), (5, x)]
/-- Class 101 (R278). -/
def w5 (g : Guard) (op d a b s m : Nat) : Option (BitVec 32) :=
  word [(3, 5), (4, g.code), (4, op), (5, d), (5, a), (5, b), (3, s), (3, m)]
/-- Class 110 (R386). -/
def w6 (g : Guard) (op d a b p m : Nat) : Option (BitVec 32) :=
  word [(3, 6), (4, g.code), (5, op), (5, d), (5, a), (5, b), (3, p), (2, m)]
/-- Class 111 (R400). -/
def w7 (g : Guard) (op d a low : Nat) : Option (BitVec 32) :=
  word [(3, 7), (4, g.code), (4, op), (5, d), (5, a), (11, low)]

/-- The word of an instruction; a row without an encoding has none. -/
def encode : Instr → Option (BitVec 32)
  | .add g d a b => wR g d.code a.code b.code 0 0x1
  | .sub g d a b => wR g d.code a.code b.code 0 0x2
  | .mul g d a b => wR g d.code a.code b.code 0 0x3
  | .mulh g d a b => wR g d.code a.code b.code 0 0x4
  | .mulhu g d a b => wR g d.code a.code b.code 0 0x5
  | .div g d a b => wR g d.code a.code b.code 0 0x6
  | .divu g d a b => wR g d.code a.code b.code 0 0x7
  | .rem g d a b => wR g d.code a.code b.code 0 0x8
  | .remu g d a b => wR g d.code a.code b.code 0 0x9
  | .and g d a b => wR g d.code a.code b.code 0 0xa
  | .or g d a b => wR g d.code a.code b.code 0 0xb
  | .xor g d a b => wR g d.code a.code b.code 0 0xc
  | .andn g d a b => wR g d.code a.code b.code 0 0xd
  | .shl g d a b => wR g d.code a.code b.code 0 0xe
  | .shr g d a b => wR g d.code a.code b.code 0 0xf
  | .sar g d a b => wR g d.code a.code b.code 0 0x10
  | .rol g d a b => wR g d.code a.code b.code 0 0x11
  | .ror g d a b => wR g d.code a.code b.code 0 0x12
  | .min g d a b => wR g d.code a.code b.code 0 0x13
  | .max g d a b => wR g d.code a.code b.code 0 0x14
  | .minu g d a b => wR g d.code a.code b.code 0 0x15
  | .maxu g d a b => wR g d.code a.code b.code 0 0x16
  | .popc g d a => wR g d.code a.code 0 0 0x17
  | .clz g d a => wR g d.code a.code 0 0 0x18
  | .ctz g d a => wR g d.code a.code 0 0 0x19
  | .sext8 g d a => wR g d.code a.code 0 0 0x1a
  | .sext16 g d a => wR g d.code a.code 0 1 0x1a
  | .sext32 g d a => wR g d.code a.code 0 2 0x1a
  | .zext8 g d a => wR g d.code a.code 0 0 0x1b
  | .zext16 g d a => wR g d.code a.code 0 1 0x1b
  | .zext32 g d a => wR g d.code a.code 0 2 0x1b
  | .bfx g d a b => wR g d.code a.code b.code 0 0x1c
  | .bfxu g d a b => wR g d.code a.code b.code 0 0x1d
  | .bfi g d a b => wR g d.code a.code b.code 0 0x1e
  | .lea g d a b s => wR g d.code a.code b.code s.toNat 0x1f
  | .cmp g p a b c => wR g p.toNat a.code b.code c.code 0x20
  | .sel g d a b neg q => wR g d.code a.code b.code (neg.toNat * 8 + q.toNat) 0x21
  | .pand g p a b => wR g p.toNat a.toNat b.toNat 0 0x22
  | .por g p a b => wR g p.toNat a.toNat b.toNat 0 0x23
  | .pxor g p a b => wR g p.toNat a.toNat b.toNat 0 0x24
  | .pandn g p a b => wR g p.toNat a.toNat b.toNat 0 0x25
  | .mov g d a => wR g d.code a.code 0 0 0x26
  | .addImm g d a i => wI g 0 d.code a.code i.toNat
  | .subImm g d a i => wI g 1 d.code a.code i.toNat
  | .andImm g d a i => wI g 2 d.code a.code i.toNat
  | .orImm g d a i => wI g 3 d.code a.code i.toNat
  | .xorImm g d a i => wI g 4 d.code a.code i.toNat
  | .shlImm g d a i => wI g 5 d.code a.code i.toNat
  | .shrImm g d a i => wI g 6 d.code a.code i.toNat
  | .sarImm g d a i => wI g 7 d.code a.code i.toNat
  | .cmpImm g p c a i => word [(3, 1), (4, g.code), (2, 2), (3, p.toNat), (3, c.toNat), (5, a.code), (12, i.toNat)]
  | .movi g d s i => word [(3, 1), (4, g.code), (2, 3), (5, d.code), (2, s.toNat), (16, i.toNat)]
  | .br g an i => word [(3, 2), (4, g.code), (4, 0), (2, an.toNat), (19, i.toNat)]
  | .call g an i => word [(3, 2), (4, g.code), (4, 1), (2, an.toNat), (19, i.toNat)]
  | .jr g an a => word [(3, 2), (4, g.code), (4, 2), (2, an.toNat), (5, a.code), (14, 0)]
  | .ret g an => word [(3, 2), (4, g.code), (4, 3), (2, an.toNat), (5, 0), (14, 0)]
  | .fork g c i => word [(3, 2), (4, g.code), (4, 4), (5, c.code), (16, i.toNat)]
  | .join g k c t a => wW g 5 k.toNat 0 c.code t.code a.code
  | .spawn g a => wW g 6 0 0 0 0 a.code
  | .wtab g k d c t a => wW g 7 k.toNat d.code c.code t.code a.code
  | .wclr g d a => wW g 8 0 d.code 0 0 a.code
  | .yield g => wW g 9 0 0 0 0 0
  | .wait g c t => wW g 10 0 0 c.code t.code 0
  | .go g a => wW g 11 0 0 0 0 a.code
  | .tail g => wW g 12 0 0 0 0 0
  | .endThread g => wW g 13 0 0 0 0 0
  | .ld g z d a o => wL g 0 z.code d.code a.code o.toNat
  | .lds g z d a o => wL g 1 z.code d.code a.code o.toNat
  | .st g z d a o => wL g 2 z.code d.code a.code o.toNat
  | .gld g z d a q o => wG g 3 z.code d.code a.code q o.toNat
  | .gst g z d a q o => wG g 4 z.code d.code a.code q o.toNat
  | .tlk g d a => wM g 0x0 d.code a.code 0 0
  | .tins g a b => wM g 0x1 0 a.code b.code 0
  | .tinv g a => wM g 0x2 0 a.code 0 0
  | .tinvAll g => wM g 0x2 0 0 0 1
  | .fence g k => wM g 0x3 0 0 k.code 0
  | .fenceRel g k => wM g 0x3 0 0 k.code 1
  | .fenceAcq g k => wM g 0x3 0 0 k.code 2
  | .cas g d a b z => wM g 0x4 d.code a.code b.code z.toNat
  | .qwait g d q => wM g 0x5 d.code 0 q.toNat 0
  | .qroom g d q => wM g 0x6 d.code 0 q.toNat 0
  | .qadvP g q => wM g 0x7 0 0 q.toNat 0
  | .qadvC g q => wM g 0x7 0 0 q.toNat 1
  | .qset g a q => wM g 0x8 0 a.code q.toNat 0
  | .qpos g d q => wM g 0x9 d.code 0 q.toNat 0
  | .amoAdd g d a b z => wM g 0xa d.code a.code b.code z.toNat
  | .amoAnd g d a b z => wM g 0xb d.code a.code b.code z.toNat
  | .amoOr g d a b z => wM g 0xc d.code a.code b.code z.toNat
  | .amoXor g d a b z => wM g 0xd d.code a.code b.code z.toNat
  | .amoMin g d a b z => wM g 0xe d.code a.code b.code z.toNat
  | .amoMax g d a b z => wM g 0xf d.code a.code b.code z.toNat
  | .amoMinu g d a b z => wM g 0x10 d.code a.code b.code z.toNat
  | .amoMaxu g d a b z => wM g 0x11 d.code a.code b.code z.toNat
  | .amoSwap g d a b z => wM g 0x12 d.code a.code b.code z.toNat
  | .vfmaF32 g w sd sa sb d a b => wV3 g 0x0 w sd sa sb d a b
  | .vfmaBf16 g w sd sa sb d a b => wV3 g 0x1 w sd sa sb d a b
  | .vaddF32 g w sd sa sb d a b => wV3 g 0x2 w sd sa sb d a b
  | .vsubF32 g w sd sa sb d a b => wV3 g 0x3 w sd sa sb d a b
  | .vmulF32 g w sd sa sb d a b => wV3 g 0x4 w sd sa sb d a b
  | .vmaxF32 g w sd sa sb d a b => wV3 g 0x5 w sd sa sb d a b
  | .vminF32 g w sd sa sb d a b => wV3 g 0x6 w sd sa sb d a b
  | .vaddI32 g w sd sa sb d a b => wV3 g 0x7 w sd sa sb d a b
  | .vsubI32 g w sd sa sb d a b => wV3 g 0x8 w sd sa sb d a b
  | .vmulI32 g w sd sa sb d a b => wV3 g 0x9 w sd sa sb d a b
  | .vdotF0 g w sd sa sb d a b => wV3 g 0xa w sd sa sb d a b
  | .vdotF1 g w sd sa sb d a b => wV3 g 0xb w sd sa sb d a b
  | .vdotF2 g w sd sa sb d a b => wV3 g 0xc w sd sa sb d a b
  | .vdotF3 g w sd sa sb d a b => wV3 g 0xd w sd sa sb d a b
  | .vmaxI32 g w sd sa sb d a b => wV3 g 0xe w sd sa sb d a b
  | .vminI32 g w sd sa sb d a b => wV3 g 0xf w sd sa sb d a b
  | .rep g n a x => wV2 g 0x00 0 false false n.toNat a.code x.toNat
  | .vand g w sd sa d a x => wV2 g 0x01 w sd sa d.toNat a.toNat x.toNat
  | .vor g w sd sa d a x => wV2 g 0x02 w sd sa d.toNat a.toNat x.toNat
  | .vxor g w sd sa d a x => wV2 g 0x03 w sd sa d.toNat a.toNat x.toNat
  | .vandn g w sd sa d a x => wV2 g 0x04 w sd sa d.toNat a.toNat x.toNat
  | .vshlI32 g w sd sa d a x => wV2 g 0x05 w sd sa d.toNat a.toNat x.toNat
  | .vshrI32 g w sd sa d a x => wV2 g 0x06 w sd sa d.toNat a.toNat x.toNat
  | .vsarI32 g w sd sa d a x => wV2 g 0x07 w sd sa d.toNat a.toNat x.toNat
  | .vcmpEq g w sa t k a x => wV2 g 0x08 w false sa (t.code * 8 + k.toNat) a.toNat x.toNat
  | .vcmpLt g w sa t k a x => wV2 g 0x09 w false sa (t.code * 8 + k.toNat) a.toNat x.toNat
  | .vcmpLe g w sa t k a x => wV2 g 0x0a w false sa (t.code * 8 + k.toNat) a.toNat x.toNat
  | .vsel g w sd sa d a k => wV2 g 0x0b w sd sa d.toNat a.toNat k.toNat
  | .vcvt g w sd sa d a k m => wV2 g 0x0c w sd sa d.toNat a.toNat (k.code * 4 + m.code)
  | .vcvtOl g w sd sa d a k m => wV2 g 0x0d w sd sa d.toNat a.toNat (k.code * 4 + m.code)
  | .vwid g w sd sa d a c f => wV2 g 0x0e w sd sa d.toNat a.toNat (c.toNat * 8 + f.code)
  | .vred g w sd sa d a k => wV2 g 0x0f w sd sa d.toNat a.toNat k.code
  | .vperm g w sd sa d a x => wV2 g 0x10 w sd sa d.toNat a.toNat x.toNat
  | .vbcst g w sd d a z => wV2 g 0x11 w sd false d.toNat a.code z.code
  | .vext g w sa d a l => wV2 g 0x12 w false sa d.code a.toNat l.toNat
  | .vlane g w sd d => wV2 g 0x13 w sd false d.toNat 0 0
  | .vexp2F32 g w sd sa d a => wV2 g 0x14 w sd sa d.toNat a.toNat 0
  | .vrcpF32 g w sd sa d a => wV2 g 0x15 w sd sa d.toNat a.toNat 0
  | .vrsqF32 g w sd sa d a => wV2 g 0x16 w sd sa d.toNat a.toNat 0
  | .vld g w sd d a f => wV2 g 0x17 w sd false d.toNat a.code f.toNat
  | .vldG g w sd d a f => wV2 g 0x17 w sd false d.toNat a.code (16 + f.toNat)
  | .vst g w sd d a f => wV2 g 0x18 w sd false d.toNat a.code f.toNat
  | .vstG g w sd d a f => wV2 g 0x18 w sd false d.toNat a.code (16 + f.toNat)
  | .vgather g w sd d a x => wV2 g 0x19 w sd false d.toNat a.code x.toNat
  | .vscatter g w sd d a x => wV2 g 0x1a w sd false d.toNat a.code x.toNat
  | .vamo g w sd d a k => wV2 g 0x1b w sd false d.toNat a.code k.code
  | .vamoG g w sd d a k => wV2 g 0x1b w sd false d.toNat a.code (16 + k.code)
  | .put g d a b q z => w5 g 0 d.code a.code b.code (ordScope q) (z.code * 2 + ordBit q)
  | .putv g d a b q => w5 g 1 d.code a.code b.toNat (ordScope q) (3 * 2 + ordBit q)
  | .get g d a q z => w5 g 2 d.code a.code 0 (ordScope q) (z.code * 2 + ordBit q)
  | .amsg g d a b => w5 g 3 d.code a.code b.code 0 0
  | .red g a b k => w5 g 4 0 a.code b.code 0 k.redCode
  | .rll g d a q z => w5 g 5 d.code a.code 0 (ordScope q) (4 + z.toNat * 2 + ordBit q)
  | .rsc g d a b q z => w5 g 6 d.code a.code b.code (ordScope q) (4 + z.toNat * 2 + ordBit q)
  | .postMx g a => w5 g 7 0 a.toNat 0 0 1
  | .postCp g a => w5 g 7 0 a.toNat 0 0 2
  | .fwd g d a => w5 g 8 d.code a.code 0 0 0
  | .corr g a b => w5 g 9 0 a.code b.code 0 0
  | .mgetLink g d a b p => w6 g 0x0 d.code a.code b.code p.toNat 0
  | .mgetTwin g d a b p => w6 g 0x0 d.code a.code b.code p.toNat 1
  | .mgetOrigin g d a b p => w6 g 0x0 d.code a.code b.code p.toNat 2
  | .mgetEdge g d a b p => w6 g 0x0 d.code a.code b.code p.toNat 3
  | .mgetFace g d a b p => w6 g 0x1 d.code a.code b.code p.toNat 0
  | .mnext g d a b p => w6 g 0x2 d.code a.code b.code p.toNat 0
  | .mfldLow g d a b p j => w6 g 0x3 d.code a.code b.code p.toNat j.toNat
  | .mfldHigh g d a b p j => w6 g 0x4 d.code a.code b.code p.toNat j.toNat
  | .mfstLow g s a b p j => w6 g 0x5 s.code a.code b.code p.toNat j.toNat
  | .mfstHigh g s a b p j => w6 g 0x6 s.code a.code b.code p.toNat j.toNat
  | .mval g a b p => w6 g 0x7 0 a.code b.code p.toNat 0
  | .mclaim g a b p => w6 g 0x7 0 a.code b.code p.toNat 1
  | .mrel g a b p => w6 g 0x7 0 a.code b.code p.toNat 2
  | .msplit g d a b p => w6 g 0x8 d.code a.code b.code p.toNat 0
  | .mcoll g d a b p => w6 g 0x9 d.code a.code b.code p.toNat 0
  | .mflip g d a b p => w6 g 0xa d.code a.code b.code p.toNat 0
  | .mref g d a b p => w6 g 0xb d.code a.code b.code p.toNat 0
  | .mround g d a => w6 g 0xc d.code a.code 0 0 0
  | .verpub g d a => w6 g 0xd d.code a.code 0 0 0
  | .verpubO g d a => w6 g 0xd d.code a.code 0 0 1
  | .verpubFin g d a => w6 g 0xd d.code a.code 0 0 2
  | .verstop g d a => w6 g 0xe d.code a.code 0 0 0
  | .verwait g d a b => w6 g 0xf d.code a.code b.code 0 0
  | .verchk g a b p => w6 g 0x10 0 a.code b.code p.toNat 0
  | .verchkD g a b p => w6 g 0x10 0 a.code b.code p.toNat 1
  | .versettle g a p => w6 g 0x11 0 a.code 0 p.toNat 0
  | .versettleT g a p => w6 g 0x11 0 a.code 0 p.toNat 1
  | .gosadd g a b => w6 g 0x12 0 a.code b.code 0 0
  | .gosest g d a p => w6 g 0x13 d.code a.code 0 p.toNat 0
  | .gosspr g d a => w6 g 0x14 d.code a.code 0 0 0
  | .gosset g d a b => w6 g 0x15 d.code a.code b.code 0 0
  | .bar g d a => w6 g 0x16 d.code a.code 0 0 0
  | .barv g d a b => w6 g 0x16 d.code a.code b.code 0 1
  | .bwait g a b p => w6 g 0x17 0 a.code b.code p.toNat 0
  | .chsend g a b p => w6 g 0x18 0 a.code b.code p.toNat 0
  | .chrecv g d a p => w6 g 0x19 d.code a.code 0 p.toNat 0
  | .hqput g d a b => w6 g 0x1a d.code a.code b.code 0 0
  | .hqpeek g d a b => w6 g 0x1b d.code a.code b.code 0 0
  | .hqrel g d a b => w6 g 0x1c d.code a.code b.code 0 0
  | .hqveto g d a b => w6 g 0x1d d.code a.code b.code 0 0
  | .trap g i => w7 g 0 0 0 i.toNat
  | .rfe g => w7 g 1 0 0 0
  | .getc g d s => w7 g 2 d.code 0 s.toNat
  | .setc g a s => w7 g 3 0 a.code s.toNat
  | .sleep g a => w7 g 4 0 a.code 0
  | .xinv g a b => w7 g 5 0 a.code (b.code * 64)
  | .brkpt g => w7 g 6 0 0 0
  | .halt g => w7 g 7 0 0 0
  | .olog g d a => w7 g 8 d.code a.code 0
  | .probe g d a => w7 g 9 d.code a.code 0
  | .windowWrite .. => none
  | .tgcfgWrite .. => none
  | .tvbaseWrite .. => none
  | .swWrite .. => none
  | .errorRegisterClear .. => none
  | .slpcfgWrite .. => none
  | .preqPreempt .. => none
  | .preqResumeReissue .. => none
  | .preqResumeSkip .. => none
  | .preqDiscard .. => none
  | .framePark .. => none
  | .fatalTrapReport .. => none
  | .engineErrorDelivery .. => none
  | .frameReady .. => none
  | .framePromotion .. => none
  | .divideComplete .. => none
  | .sequencerReissue .. => none
  | .taskPop .. => none
  | .handlerStart .. => none
  | .migrateArrival .. => none
  | .stealRequest .. => none
  | .stealService .. => none
  | .stealReply .. => none
  | .stealBackoffExpiry .. => none
  | .deferredTaskPush .. => none
  | .remoteTaskPush .. => none
  | .joinCountdown .. => none
  | .retirementDrainComplete .. => none
  | .trackerDrainComplete .. => none
  | .putArrival .. => none
  | .getArrival .. => none
  | .reply .. => none
  | .ack .. => none
  | .nack .. => none
  | .activeArrival .. => none
  | .reduceArrival .. => none
  | .reserveArrival .. => none
  | .conditionalStoreArrival .. => none
  | .objectRequest .. => none
  | .objectReply .. => none
  | .notice .. => none
  | .waiterWithdrawal .. => none
  | .meshClaim .. => none
  | .mxSetf .. => none
  | .mxLda .. => none
  | .mxLdb .. => none
  | .mxMac .. => none
  | .mxPass .. => none
  | .mxZero .. => none
  | .mxDrain .. => none
  | .mxMark .. => none
  | .cpCopy2d .. => none
  | .cpGather .. => none
  | .cpScatter .. => none
  | .cpFill .. => none
  | .cpMark .. => none
  | .commandCompletion .. => none
  | .engineWaitTimeout .. => none
  | .orderLogWatchdog .. => none
  | .translationWalk .. => none
  | .pageMovedRetry .. => none
  | .pageSeal .. => none
  | .pageCopyComplete .. => none
  | .pageReleased .. => none
  | .queueEnable .. => none
  | .queueDisable .. => none
  | .queueDoorbell .. => none
  | .queueResume .. => none
  | .queueFlush .. => none
  | .launch .. => none
  | .create .. => none
  | .activate .. => none
  | .close .. => none
  | .kill .. => none
  | .map .. => none
  | .unmap .. => none
  | .migrate .. => none
  | .park .. => none
  | .restore .. => none
  | .grant .. => none
  | .accept .. => none
  | .revoke .. => none
  | .createHoldingQueue .. => none
  | .launchPlacement .. => none
  | .launchCompletion .. => none
  | .contextDrained .. => none
  | .killComplete .. => none
  | .contextCleanup .. => none
  | .hqStream .. => none
  | .pqackWrite .. => none
  | .gossipRound .. => none
  | .gossipDrainComplete .. => none
  | .gossipMass .. => none
  | .gossipCommit .. => none
  | .gossipWithdrawal .. => none
  | .gossipMassTimeout .. => none
  | .offpackageSend .. => none
  | .postmarkArrival .. => none
  | .deliveryAck .. => none
  | .retentionResend .. => none
  | .requestTimeout .. => none
  | .noRouteReturn .. => none
  | .nonrequestDrop .. => none
  | .creditReturn .. => none
  | .linkReplay .. => none
  | .linkTrainingStart .. => none
  | .linkTrained .. => none
  | .linkTrainingTimeout .. => none
  | .linkFault .. => none
  | .linkDisable .. => none
  | .linkRelease .. => none
  | .linkRetrain .. => none
  | .registerWrite .. => none
  | .sleepExpiry .. => none
  | .coreSleep .. => none
  | .coreWake .. => none
  | .eccError .. => none
  | .selfTestComplete .. => none
  | .thermalWarning .. => none
  | .thermalStop .. => none
  | .packageStart .. => none
  | .journalReset .. => none
  | .attestReport .. => none
  | .attestExtend .. => none
  | .attestComplete .. => none
  | .illegalInstruction .. => none
  | .vectorResultWrite .. => none
  | .unassignedEngineCommand .. => none
  | .malformedRecord .. => none

/-- The word that `ecause.word` holds for an instruction (R154): its encoding, and for a setc form with a behaviour of
its own the word of that `setc` (R403). -/
def causeWord (i : Instr) : BitVec 32 :=
  let s := fun (g : Guard) (a : Reg) (sel : Nat) => (w7 g 3 0 a.code sel).getD 0
  match i with
  | .windowWrite g a n => s g a (0x30 + n.toNat)
  | .tgcfgWrite g a => s g a 0x34
  | .tvbaseWrite g a => s g a 0x41
  | .swWrite g a => s g a 0
  | .errorRegisterClear g a .mx => s g a 0x36
  | .errorRegisterClear g a .cp => s g a 0x37
  | .slpcfgWrite g a => s g a 0x60
  | .illegalInstruction w => w
  | i => (encode i).getD 0

/-- The guard of an instruction; an event has none and stands unguarded. -/
def guardOf : Instr → Guard
  | .add g .. => g
  | .sub g .. => g
  | .mul g .. => g
  | .mulh g .. => g
  | .mulhu g .. => g
  | .div g .. => g
  | .divu g .. => g
  | .rem g .. => g
  | .remu g .. => g
  | .and g .. => g
  | .or g .. => g
  | .xor g .. => g
  | .andn g .. => g
  | .shl g .. => g
  | .shr g .. => g
  | .sar g .. => g
  | .rol g .. => g
  | .ror g .. => g
  | .min g .. => g
  | .max g .. => g
  | .minu g .. => g
  | .maxu g .. => g
  | .popc g .. => g
  | .clz g .. => g
  | .ctz g .. => g
  | .sext8 g .. => g
  | .sext16 g .. => g
  | .sext32 g .. => g
  | .zext8 g .. => g
  | .zext16 g .. => g
  | .zext32 g .. => g
  | .bfx g .. => g
  | .bfxu g .. => g
  | .bfi g .. => g
  | .lea g .. => g
  | .cmp g .. => g
  | .sel g .. => g
  | .pand g .. => g
  | .por g .. => g
  | .pxor g .. => g
  | .pandn g .. => g
  | .mov g .. => g
  | .addImm g .. => g
  | .subImm g .. => g
  | .andImm g .. => g
  | .orImm g .. => g
  | .xorImm g .. => g
  | .shlImm g .. => g
  | .shrImm g .. => g
  | .sarImm g .. => g
  | .cmpImm g .. => g
  | .movi g .. => g
  | .br g .. => g
  | .call g .. => g
  | .jr g .. => g
  | .ret g .. => g
  | .fork g .. => g
  | .join g .. => g
  | .spawn g .. => g
  | .wtab g .. => g
  | .wclr g .. => g
  | .yield g .. => g
  | .wait g .. => g
  | .go g .. => g
  | .tail g .. => g
  | .endThread g .. => g
  | .ld g .. => g
  | .lds g .. => g
  | .st g .. => g
  | .gld g .. => g
  | .gst g .. => g
  | .tlk g .. => g
  | .tins g .. => g
  | .tinv g .. => g
  | .tinvAll g .. => g
  | .fence g .. => g
  | .fenceRel g .. => g
  | .fenceAcq g .. => g
  | .cas g .. => g
  | .qwait g .. => g
  | .qroom g .. => g
  | .qadvP g .. => g
  | .qadvC g .. => g
  | .qset g .. => g
  | .qpos g .. => g
  | .amoAdd g .. => g
  | .amoAnd g .. => g
  | .amoOr g .. => g
  | .amoXor g .. => g
  | .amoMin g .. => g
  | .amoMax g .. => g
  | .amoMinu g .. => g
  | .amoMaxu g .. => g
  | .amoSwap g .. => g
  | .vfmaF32 g .. => g
  | .vfmaBf16 g .. => g
  | .vaddF32 g .. => g
  | .vsubF32 g .. => g
  | .vmulF32 g .. => g
  | .vmaxF32 g .. => g
  | .vminF32 g .. => g
  | .vaddI32 g .. => g
  | .vsubI32 g .. => g
  | .vmulI32 g .. => g
  | .vdotF0 g .. => g
  | .vdotF1 g .. => g
  | .vdotF2 g .. => g
  | .vdotF3 g .. => g
  | .vmaxI32 g .. => g
  | .vminI32 g .. => g
  | .rep g .. => g
  | .vand g .. => g
  | .vor g .. => g
  | .vxor g .. => g
  | .vandn g .. => g
  | .vshlI32 g .. => g
  | .vshrI32 g .. => g
  | .vsarI32 g .. => g
  | .vcmpEq g .. => g
  | .vcmpLt g .. => g
  | .vcmpLe g .. => g
  | .vsel g .. => g
  | .vcvt g .. => g
  | .vcvtOl g .. => g
  | .vwid g .. => g
  | .vred g .. => g
  | .vperm g .. => g
  | .vbcst g .. => g
  | .vext g .. => g
  | .vlane g .. => g
  | .vexp2F32 g .. => g
  | .vrcpF32 g .. => g
  | .vrsqF32 g .. => g
  | .vld g .. => g
  | .vldG g .. => g
  | .vst g .. => g
  | .vstG g .. => g
  | .vgather g .. => g
  | .vscatter g .. => g
  | .vamo g .. => g
  | .vamoG g .. => g
  | .put g .. => g
  | .putv g .. => g
  | .get g .. => g
  | .amsg g .. => g
  | .red g .. => g
  | .rll g .. => g
  | .rsc g .. => g
  | .postMx g .. => g
  | .postCp g .. => g
  | .fwd g .. => g
  | .corr g .. => g
  | .mgetLink g .. => g
  | .mgetTwin g .. => g
  | .mgetOrigin g .. => g
  | .mgetEdge g .. => g
  | .mgetFace g .. => g
  | .mnext g .. => g
  | .mfldLow g .. => g
  | .mfldHigh g .. => g
  | .mfstLow g .. => g
  | .mfstHigh g .. => g
  | .mval g .. => g
  | .mclaim g .. => g
  | .mrel g .. => g
  | .msplit g .. => g
  | .mcoll g .. => g
  | .mflip g .. => g
  | .mref g .. => g
  | .mround g .. => g
  | .verpub g .. => g
  | .verpubO g .. => g
  | .verpubFin g .. => g
  | .verstop g .. => g
  | .verwait g .. => g
  | .verchk g .. => g
  | .verchkD g .. => g
  | .versettle g .. => g
  | .versettleT g .. => g
  | .gosadd g .. => g
  | .gosest g .. => g
  | .gosspr g .. => g
  | .gosset g .. => g
  | .bar g .. => g
  | .barv g .. => g
  | .bwait g .. => g
  | .chsend g .. => g
  | .chrecv g .. => g
  | .hqput g .. => g
  | .hqpeek g .. => g
  | .hqrel g .. => g
  | .hqveto g .. => g
  | .trap g .. => g
  | .rfe g .. => g
  | .getc g .. => g
  | .setc g .. => g
  | .sleep g .. => g
  | .xinv g .. => g
  | .brkpt g .. => g
  | .halt g .. => g
  | .olog g .. => g
  | .probe g .. => g
  | .windowWrite g .. => g
  | .tgcfgWrite g .. => g
  | .tvbaseWrite g .. => g
  | .swWrite g .. => g
  | .errorRegisterClear g .. => g
  | .slpcfgWrite g .. => g
  | _ => ⟨false, 0⟩

end Sys2Proof
end

