-- ==== Sys2Proof/Machine/Mem.lean ====
section
/-! DEFINITION. The two containers: sparse tables, and memory in canonical form. Byte order is decided here once
(R5: little-endian). A byte that nothing has written reads as zero (log 2). -/

namespace Sys2Proof

/-- The value at an index, the default where the table lists none. -/
def tget {α : Type} (d : α) : Tab α → Nat → α
  | [], _ => d
  | (j, v) :: r, k => if j = k then v else tget d r k

/-- Whether the table lists an index. -/
def thas {α : Type} : Tab α → Nat → Bool
  | [], _ => false
  | (j, _) :: r, k => j == k || thas r k

/-- The listed value at an index. -/
def tfind {α : Type} : Tab α → Nat → Option α
  | [], _ => none
  | (j, v) :: r, k => if j = k then some v else tfind r k

/-- The table with a value at an index. -/
def tset {α : Type} : Tab α → Nat → α → Tab α
  | [], k, v => [(k, v)]
  | (j, w) :: r, k, v =>
    if j = k then (k, v) :: r
    else if k < j then (k, v) :: (j, w) :: r
    else (j, w) :: tset r k v

/-- The table without an index. -/
def tdel {α : Type} : Tab α → Nat → Tab α
  | [], _ => []
  | (j, w) :: r, k => if j = k then r else (j, w) :: tdel r k

/-- A value put in its place in an ordered list. -/
def insertBy {α : Type} (le : α → α → Bool) (x : α) : List α → List α
  | [] => [x]
  | y :: r => if le x y then x :: y :: r else y :: insertBy le x r
/-- A list in order; equals keep their order. -/
def sortBy {α : Type} (le : α → α → Bool) (l : List α) : List α := l.foldr (insertBy le) []

/-- The canonical form of memory: addresses strictly rising, no byte equal to what an unlisted address reads as. -/
def Memory.wf : Memory → Bool
  | [] => true
  | [(_, v)] => v != 0
  | (a, v) :: (b, w) :: r => v != 0 && decide (a < b) && Memory.wf ((b, w) :: r)

/-- What an unlisted address reads as (log 2). -/
def unwritten : Byte := 0

/-- One byte. -/
def rdByte : Memory → Nat → Byte
  | [], _ => unwritten
  | (b, v) :: r, a => if b = a then v else rdByte r a

/-- Memory with one byte written; the canonical form is kept. -/
def wrByte : Memory → Nat → Byte → Memory
  | [], a, v => if v = unwritten then [] else [(a, v)]
  | (b, w) :: r, a, v =>
    if a < b then (if v = unwritten then (b, w) :: r else (a, v) :: (b, w) :: r)
    else if a = b then (if v = unwritten then r else (a, v) :: r)
    else (b, w) :: wrByte r a v

/-- n bytes from an address upward. -/
def rdBytes (m : Memory) (a : Nat) : Nat → List Byte
  | 0 => []
  | n + 1 => rdByte m a :: rdBytes m (a + 1) n

/-- Memory with the bytes written from an address upward. -/
def wrBytes (m : Memory) (a : Nat) : List Byte → Memory
  | [] => m
  | b :: r => wrBytes (wrByte m a b) (a + 1) r

/-- The number that bytes hold, least significant first (R5). -/
def leNat : List Byte → Nat
  | [] => 0
  | b :: r => b.toNat + 256 * leNat r

/-- The low n bytes of a number, least significant first (R5). -/
def toLe : Nat → Nat → List Byte
  | 0, _ => []
  | n + 1, v => BitVec.ofNat 8 v :: toLe n (v / 256)

/-- The n-byte little-endian number at an address. -/
def rdLe (m : Memory) (a n : Nat) : Nat := leNat (rdBytes m a n)
/-- The doubleword at an address. -/
def rd64 (m : Memory) (a : Nat) : Word := BitVec.ofNat 64 (rdLe m a 8)
/-- Memory with an n-byte little-endian number written. -/
def wrLe (m : Memory) (a n v : Nat) : Memory := wrBytes m a (toLe n v)
/-- Memory with a doubleword written. -/
def wr64 (m : Memory) (a : Nat) (v : Word) : Memory := wrLe m a 8 v.toNat

/-- The bits h to l of a word as a number (R271). -/
def bits {n : Nat} (x : BitVec n) (h l : Nat) : Nat := x.toNat / 2 ^ l % 2 ^ (h + 1 - l)
/-- Bit i of a word. -/
def tst {n : Nat} (x : BitVec n) (i : Nat) : Bool := x.getLsbD i
/-- A word with the bits h to l replaced. -/
def putBits {n : Nat} (x : BitVec n) (h l v : Nat) : BitVec n :=
  let w := h + 1 - l
  BitVec.ofNat n (x.toNat - x.toNat / 2 ^ l % 2 ^ w * 2 ^ l + v % 2 ^ w * 2 ^ l)
/-- A field of a byte list: n bytes at position i as a number. -/
def field (b : List Byte) (i n : Nat) : Nat := leNat ((b.drop i).take n)
/-- Whether every byte of a range of a byte list is zero. -/
def zeroBytes (b : List Byte) (i n : Nat) : Bool := ((b.drop i).take n).all (· == 0)

end Sys2Proof
end

