-- ==== Sys2Proof/Config.lean ====
section
/-! DEFINITION. What one part fixes and the spec leaves open: the free values. None has a body, so no proof can
see one (log 9). The figures of R2 that other files use stand here as plain constants. -/

namespace Sys2Proof.Config

/-- Cores of the package (R2). -/
def cores : Nat := 32768
/-- Frames of a core (R18). -/
def frames : Nat := 96
/-- First offset beyond the data banks (R18). -/
def dataEnd : Nat := 0x2C000
/-- Installed bytes of one stack: 96 GB (R2, R4). -/
def stackBytes : Nat := 96000000000
/-- Cycles of one microsecond at 1.25 GHz (R2). -/
def cyclesPerUs : Nat := 1250

/-- FREE VALUE. Which entry a full translation cache replaces (R185), by the n-th replacement (log 9). -/
opaque tlbVictim : Nat → Nat
/-- FREE VALUE. The device's ECDSA P-384 signature over a 48-byte digest: r then s (R123, R417, log 9). -/
opaque sign : BitVec 384 → BitVec 768
/-- FREE VALUE. The public half of the device identity key: x then y (R417, log 9). -/
opaque publicKey : BitVec 768
/-- FREE VALUE. Byte n of the certificate chain (R417, log 9). -/
opaque certByte : Nat → Byte
/-- FREE VALUE. The length in bytes of the certificate chain (R417, log 9). -/
opaque certLength : Word
/-- FREE VALUE. The digests that extend MR0 to MR3 at start number n, register i (R418, log 9). -/
opaque startDigest : Nat → Nat → BitVec 384

/-- FREE VALUE. The address of the Dalox handler that an exhaustion record starts (R166, log 12). -/
opaque supervisorHandler : Word
/-- FREE VALUE. The scratchpad offset at which the n-th exhaustion record is written, over 32 (R166, log 12). -/
opaque supervisorRecord : Nat → Nat
/-- FREE VALUE. The data of the n-th answer that delivers none and poisons its register (R369, log 9). -/
opaque lostData : Nat → Word

/-- FREE VALUE. The 32 bytes that a rounded edit's pending entry holds in memory: its op, the key handle and t, in a layout
that the spec does not give (R228, log 26). -/
opaque pendingEntry : Nat → Word → Word → BitVec 256

end Sys2Proof.Config
end

