-- ==== Sys2Proof/Machine/State.lean ====
section
/-! DEFINITION. The state of one Phovis P32 package as plain data: everything the spec gives the machine, and the
model's own bookkeeping (agenda, turn, counters), said in INVENTORY.md and in the assumption log. -/

namespace Sys2Proof.Machine

/-- An exact number as the units compute on it (R29): not a number, a signed infinity, or plus or minus m times 2^e. -/
inductive FVal where
  | nan
  | inf (neg : Bool)
  | fin (neg : Bool) (m : Nat) (e : Int)
  deriving DecidableEq, Repr

/-- Why a frame is not ready (R17, R127). The reason names what FRAME_READY waits for; `counter`
holds whether its test has succeeded and the links that `wait` pops when it completes (R141, R315); `answer`, `request`
and `report` end by a step of another agent; `request` is a `setc preq` on its way (R163), and `drain` waits for accesses
sent before `since` by a context to a range (R189). -/
inductive Wait where
  | reg (r : Nat)
  | vreg (v : Nat)
  | replySlots
  | tracker
  | acquire
  | release (s : Scope)
  | answers (s : Scope)
  | reads (s : Scope)
  | linkIn (d : Dir)
  | linkOut (d : Dir)
  | queueFull (e : Engine)
  | vectorOwner
  | matrixOwner
  | sequencer
  | divider
  | cycle (n : Nat)
  | counter (ctr : Nat) (threshold : Word) (met : Bool) (pops : List Dir)
  | filled (q : Nat)
  | room (q : Nat)
  | handleFree (q : Nat)
  | home (addr n : Nat)
  | sleep (till : Nat)
  | walk (page : Nat)
  | moved (page : Nat)
  | answer (id : Nat)
  | request (op core frame : Nat)
  | report
  | drain (since ctx lo size : Nat)
  | replay (since kind : Nat) (word : BitVec 32)
  deriving DecidableEq, Repr

/-- Frame states (R127, R164). -/
inductive FSt where
  | free
  | ready
  | stalled (w : Wait)
  | retiring (isJoin : Bool) (word : BitVec 32)
  | parked
  deriving DecidableEq, Repr

/-- A refusal not yet reported (R62, R369): at the first instruction that names `reg`, or at the first release, fence or
retirement. -/
structure Refusal_ where
  acq : Bool
  cause : Nat
  detail : Nat
  eaddr : Word
  reg : Option Nat
  vreg : Option Nat
  deriving DecidableEq, Repr

/-- What another package has answered to an access of an instruction that goes through it: the bytes of a read, a write performed,
or a refusal by its nack status (R335, R366, R369). -/
inductive FarAns where
  | data (b : List Byte) (bad : Bool)
  | done
  | refused (status : Nat)
  deriving DecidableEq, Repr

/-- A trap that waits for the walk of its vector's page (R155, R186). -/
structure Trapping where
  word : BitVec 32
  seq : Bool
  cause : Nat
  detail : Nat
  eaddr : Word
  deriving DecidableEq, Repr

/-- One of the 96 frames of a core: the registers of R126, R154 and R335 and its hidden state. `freeAt` is the cycle
from which a frame that is free takes a thread (R142), `trapping` is a trap under way, and `far` lists the answers to the accesses that the instruction under way
has made in another package (R335, R366). -/
structure Frame where
  g : Vector Word 16
  pc : Word
  npc : Word
  nnpc : Word
  sw : Word
  st : FSt
  tname : Word
  tjoin : Word
  epc : Word
  enpc : Word
  ennpc : Word
  esw : Word
  ecause : Word
  eaddr : Word
  esave : Word
  volist : Word
  vobase : Word
  ctx : Nat
  launch : Option Nat
  origin : Option Nat
  reservedFor : Option Nat
  thread : Nat
  poisoned : List (Nat × Word)
  refusals : List Refusal_
  resv : Option (Word × Nat)
  claims : List Claim
  preempt : Option Asker
  engErr : List (BitVec 32 × Nat × Word)
  walkFault : Option (Nat × Nat)
  trapping : Option Trapping
  readySince : Nat
  promoted : Nat
  freeAt : Nat
  far : List FarAns
  slots : List Word
  eslots : List Word
  fatal : Bool
  savedVec : Bool
  savedCap : Nat
  savedAcc : Bool
  deriving DecidableEq, Repr

/-- A frame as reset leaves it: free, its registers at the values of log 1. -/
def Frame.reset : Frame :=
  { g := Vector.replicate 16 0, pc := 0, npc := 0, nnpc := 0, sw := 1, st := .free, tname := 0, tjoin := 0, epc := 0,
    enpc := 0, ennpc := 0, esw := 0, ecause := 0, eaddr := 0, esave := 0, volist := 0, vobase := 0, ctx := 0,
    launch := none, origin := none, reservedFor := none, thread := 0, poisoned := [], refusals := [], resv := none, claims := [],
    preempt := none, engErr := [], walkFault := none, trapping := none, readySince := 0, promoted := 0, freeAt := 0, far := [], slots := [], eslots := [],
    fatal := false, savedVec := false, savedCap := 0, savedAcc := false }

/-- Who a request belongs to: a thread in a frame, a tail's tracker entry, an engine, the core itself as it writes its slice of
a launch's order log (R454), or a thread that was discarded. -/
inductive Owner where
  | frame (f : Nat)
  | tracker (t : Nat)
  | engine (e : Engine)
  | log (launch : Nat)
  | gone
  deriving DecidableEq, Repr

/-- An object that a launch has entered, as the command processor lists it (R178): where its header stands, which follows its page
as that moves; and while the page is parked, the context and the address of that page (R193). -/
structure Listed where
  place : Place
  addr : Nat
  parked : Option (Nat × Nat)
  deriving DecidableEq, Repr

/-- What the answer to a request does (R369, R387). `piece` is a read or a write of the engine command with that tag,
`listed` one of an instruction that reads or appends to a list in another package (R335, R366). -/
inductive Want where
  | load (d : Reg) (n : Nat)
  | stored (d : Reg) (log : Option (Nat × Nat))
  | vpart (v lo : Nat)
  | posted
  | object (gd : Option Reg) (pd : Option (BitVec 3)) (log : Option (Nat × Nat))
  | move (target : Nat)
  | piece (tag : Nat) (read : Bool)
  | listed
  deriving DecidableEq, Repr

/-- An outstanding request: a reply slot or a write-tracker entry (R61, R368), with the message as it was sent, which
a page-moved answer sends again (R191). `slot` is the number of its reply slot, which its head carries (R199). -/
structure Req where
  owner : Owner
  want : Want
  msg : Msg
  acq : Bool
  word : BitVec 32
  sent : Nat
  retry : Option Nat
  slot : Nat
  deriving DecidableEq, Repr

/-- A destination of the vector unit in flight (R324): a register, the lowest 32-bit lanes of one, a mask or a scalar register. -/
inductive VDest where
  | v (n : Nat) (x : VWord) (bad : Option Word)
  | low (n lanes : Nat) (x : VWord)
  | k (n : Nat) (x : Word)
  | g (r : Reg) (x : Word)
  deriving DecidableEq, Repr

/-- A result that is written at the end of cycle `due` (R324). -/
structure VWrite where
  due : Nat
  frame : Nat
  dest : VDest
  deriving DecidableEq, Repr

/-- The vector state of a core (R161, R320, R321, R327, R162) and the results in flight. `capturing` counts the
instructions still to capture; `stopped` holds while a trap handler of the owner holds the sequencer back (R160); `lost`
lists the registers of which a part in flight was refused (R341). -/
structure Vec where
  v : Vector VWord 32
  k : Vector Word 8
  owner : Option Nat
  words : List (BitVec 32)
  count : Nat
  position : Nat
  stride : Nat
  iteration : Nat
  remaining : Nat
  capturing : Nat
  running : Bool
  stopped : Bool
  nextAt : Nat
  pipeAt : Nat
  writes : List VWrite
  stage : Tab VWord
  poisoned : List (Nat × Word)
  lost : List Nat
  deriving DecidableEq, Repr

/-- The vector state at reset (log 1). -/
def Vec.reset : Vec :=
  { v := Vector.replicate 32 0, k := Vector.replicate 8 0, owner := none, words := [], count := 0, position := 0,
    stride := 0, iteration := 0, remaining := 0, capturing := 0, running := false, stopped := false, nextAt := 0, pipeAt := 0,
    writes := [], stage := [], poisoned := [], lost := [] }

/-- An engine command with the thread that posted it (R345). `ran` holds once its effects are performed. `tag` tells it from
other commands; until it runs, `leaves` holds the translations that its walks have brought back, by page (R186), and `fault` the
page that has none. A command that stops for an answer of another package goes on from there (R364, R365): `seen` holds what it
has read so far, in order, `wrote` counts the writes that it has made, and `far` is the answer. -/
structure Cmd where
  data : VWord
  frame : Nat
  thread : Nat
  ctx : Nat
  sup : Bool
  launch : Option Nat
  word : BitVec 32
  since : Nat
  ran : Bool
  tag : Nat
  leaves : List (Nat × Word × Nat)
  fault : Option Nat
  seen : List (List Byte)
  wrote : Nat
  far : Option FarAns
  deriving DecidableEq, Repr

/-- A wait-table entry (R138): its two doublewords, the task of a fired entry whose push waits (R134), and what a `join` found in
the part of the record that it writes (R313). -/
structure WEntry where
  ctl : Word
  threshold : Word
  ctx : Nat
  sup : Bool
  launch : Option Nat
  binder : Option Nat
  fired : Option Task
  was : List Byte
  deriving DecidableEq, Repr

/-- A free wait-table entry (log 1). -/
def WEntry.reset : WEntry :=
  { ctl := 0, threshold := 0, ctx := 0, sup := false, launch := none, binder := none, fired := none, was := [] }

/-- A circular-buffer handle (R105). -/
structure Handle where
  cfg : Word
  owner : Option Nat
  pi : BitVec 16
  ci : BitVec 16
  deriving DecidableEq, Repr

/-- A valid tag-table entry (R64): its line number and owning context. -/
structure Tag where
  line : Nat
  ctx : Nat
  deriving DecidableEq, Repr

/-- A reservation at a home (R383): the word, its size, who holds it and since when. -/
structure Resv where
  addr : Nat
  size : Nat
  pkg : Nat
  core : Nat
  frame : Nat
  since : Nat
  deriving DecidableEq, Repr

/-- A divide in progress (R291), of a thread in a frame. -/
structure Divide where
  frame : Nat
  thread : Nat
  dest : Reg
  value : Word
  due : Nat
  deriving DecidableEq, Repr

/-- A retirement-tracker entry (R142, R318). -/
structure Tracker where
  frame : Nat
  thread : Nat
  ctx : Nat
  launch : Option Nat
  tjoin : Word
  tname : Word
  pri : Nat
  sup : Bool
  refused : Bool
  deriving DecidableEq, Repr

/-- A round of steals of a core for one launch (R143): whether its request is out, the victims still to ask, the back-off
end, and the record of the order log that the request has taken (R454). -/
structure Steal where
  launch : Nat
  waiting : Bool
  victims : List Nat
  backoff : Option Nat
  log : Option (Nat × Nat)
  deriving DecidableEq, Repr

/-- What an access does at a bank (R78, R79): a plain write, a read and a write in one, or an atomic's read alone. -/
inductive TouchKind where
  | write | update | look
  deriving DecidableEq, Repr

/-- An access of the step in hand to the scratchpad, for the merge steps of its cycle. -/
structure Touch where
  lo : Nat
  len : Nat
  kind : TouchKind
  deriving DecidableEq, Repr

/-- An access that a merge step took (R78): its place in the order of the step, its bytes, what it does, the frame and the launch
that it is made for (128 and the frame for the sequencer's, 127 for none), and what its bytes held before. -/
structure MergePart where
  rank : Nat
  lo : Nat
  len : Nat
  kind : TouchKind
  frame : Nat
  launch : Option Nat
  was : List Byte
  deriving DecidableEq, Repr

/-- A write that a merge step withholds, since the slice of the launch `log` has no record for its collision (R454), and the bytes
that it writes. -/
structure Stuck where
  part : MergePart
  data : List Byte
  log : Nat
  deriving DecidableEq, Repr

/-- What a core's banks and handles have done in cycle `at_` (R78, R79, R107): the accesses of its merge steps in their order, the
handles that have advanced with the place of the party in the order of R78, and by bank the record that its collision has taken,
as launch and number (R454). -/
structure Cycle where
  at_ : Nat
  parts : List MergePart
  advs : List (Nat × Nat)
  records : List (Nat × Nat × Nat)
  deriving DecidableEq, Repr

/-- A cycle in which nothing has been done. -/
def Cycle.fresh (now : Nat) : Cycle := { at_ := now, parts := [], advs := [], records := [] }

/-- One core (R17, R18, R21, R22). `touched`, `advanced` and `dequeOps` note the accesses, the handle advances and the deque
operations of the step in hand, for `cycle` and `dequeTill`, the cycle from which the deque is free for another operation (log 48);
`stuck` lists the writes of the merge steps that a collision without a record withholds (R454). `winOld` holds the windows as they
stood before a `setc` of cycle `winAt` (R404), and `handlesOld` the handles as they stood before an advance of cycle `handlesAt`
(R107). A vector or matrix owner of 128 and up is the tracker entry of a tail (R161). -/
structure Core where
  pad : Memory
  padPoison : List Nat
  wtab : Vector WEntry 32
  ctl : Memory
  links : Vector (List (Word × Nat)) 4
  pops : Vector (List Nat) 4
  win : Vector Word 4
  winOld : Vector Word 4
  winAt : Nat
  tgcfg : Word
  tags : Tab Tag
  handles : Vector Handle 8
  handlesOld : Vector Handle 8
  handlesAt : Option Nat
  mxq : List Cmd
  cpq : List Cmd
  mxerr : Word
  cperr : Word
  acc : Tab (BitVec 32)
  abuf : Tab FVal
  afmt : Nat
  latch : Option (List Byte)
  fctx : Vector VWord 4
  vec : Vec
  mowner : Option Nat
  divide : Option Divide
  deque : List Task
  trackers : Tab Tracker
  postbox : List Msg
  reqs : Tab Req
  resv : List Resv
  waiters : List Msg
  stealing : List Steal
  held : List Msg
  logSeq : Tab Nat
  touched : List Touch
  advanced : List Nat
  dequeOps : Nat
  dequeTill : Nat
  stuck : List Stuck
  cycle : Cycle
  slpcfg : Word
  asleep : Bool
  wakeAt : Nat
  pstat : Word
  paddr : Word
  lastIssue : Option Nat
  rr : Vector Nat 5
  frames : Tab Frame
  deriving DecidableEq, Repr

/-- A core as reset leaves it (R58, R63, R105, R352, R353, R406; log 1 for what the spec does not give). -/
def Core.reset : Core :=
  { pad := [], padPoison := [], wtab := Vector.replicate 32 WEntry.reset, ctl := [], links := Vector.replicate 4 [], pops := Vector.replicate 4 [],
    win := Vector.replicate 4 0, winOld := Vector.replicate 4 0, winAt := 0, tgcfg := 0, tags := [], handles := Vector.replicate 8 ⟨0, none, 0, 0⟩, handlesOld := Vector.replicate 8 ⟨0, none, 0, 0⟩, handlesAt := none, mxq := [],
    cpq := [], mxerr := 0, cperr := 0, acc := [], abuf := [], afmt := 0, latch := none, fctx := Vector.replicate 4 0,
    vec := Vec.reset, mowner := none, divide := none, deque := [], trackers := [], postbox := [], reqs := [],
    resv := [], waiters := [], stealing := [], held := [], logSeq := [], touched := [], advanced := [], dequeOps := 0, dequeTill := 0, stuck := [], cycle := Cycle.fresh 0, slpcfg := 0, asleep := false, wakeAt := 0,
    pstat := 0, paddr := 0, lastIssue := none, rr := Vector.replicate 5 95, frames := [] }

/-- Context states (R84). -/
inductive CSt where
  | free | building | live | draining | killing | closing
  deriving DecidableEq, Repr

/-- A context: its state and its descriptor (R83). -/
structure Ctx where
  st : CSt
  ptroot : Word
  tvbase : Word
  rtbase : Word
  rtcount : Nat
  maxpri : Nat
  flags : Nat
  nqueue : Nat
  deriving DecidableEq, Repr

/-- A free context number. -/
def Ctx.reset : Ctx :=
  { st := .free, ptroot := 0, tvbase := 0, rtbase := 0, rtcount := 0, maxpri := 0, flags := 0, nqueue := 0 }

/-- Host command queue states (R95, R101). -/
inductive QSt where
  | disabled | running | error | stopped
  deriving DecidableEq, Repr

/-- A host command queue (R94, R95). -/
structure HostQueue where
  base : Word
  cpl : Word
  lsize : Nat
  st : QSt
  head : Nat
  tail : Nat
  err : Word
  deriving DecidableEq, Repr

/-- A queue page at reset (log 1): disabled, registers zero. -/
def HostQueue.reset : HostQueue :=
  { base := 0, cpl := 0, lsize := 0, st := .disabled, head := 0, tail := 0, err := 0 }

/-- A holding queue (R108, R109). -/
structure HoldQueue where
  owner : Nat
  base : Word
  nx : Nat
  rt : Nat
  sn : Nat
  vt : Bool
  cap : Nat
  sring : Word
  sent : Nat
  scount : Word
  pqack : Word
  tokens : Tab (BitVec 32)
  broken : Bool
  deriving DecidableEq, Repr

/-- A held grant (R92). `object` is the base of its object in the owner's space, where that is known. -/
structure Grant where
  giver : Nat
  taker : Nat
  base : Word
  rights : Nat
  len : Nat
  kind : Nat
  owner : Nat
  object : Option Word
  deriving DecidableEq, Repr

/-- An area that a context maps under the handshake of R90, as its accept record made it, and the object's base in its owner's
space where that is known. -/
structure Share where
  owner : Nat
  holder : Nat
  base : Word
  len : Nat
  object : Option Word
  deriving DecidableEq, Repr

/-- A launch (R113, R116 to R124): its record, where it came from, and where it stands. -/
structure Launch where
  ctx : Nat
  queue : Nat
  index : Nat
  record : List Byte
  sup : Bool
  placed : Bool
  cores : List Nat
  killed : Bool
  objects : List Listed
  olen : Nat
  deriving DecidableEq, Repr

/-- A translation cache entry (R185). -/
structure Tlb where
  ctx : Nat
  page : Nat
  size : Nat
  leaf : Word
  deriving DecidableEq, Repr

/-- A walk request in a die's pool (R186): the context, the virtual address, and who asked: frames, and engine commands
by core and tag. -/
structure Walk where
  ctx : Nat
  va : Nat
  sigs : List Nat
  frames : List (Nat × Nat)
  cmds : List (Nat × Nat)
  deriving DecidableEq, Repr

/-- The states of a page under migration or park (R190). -/
inductive PSt where
  | mapped | sealed_ | moved
  deriving DecidableEq, Repr

/-- What the command processor does page by page, or waits to drain. -/
inductive JobKind where
  | migrate | park | drain
  deriving DecidableEq, Repr

/-- The record that the command processor is working on: a migrate or a park (R190, R193), or one that waits for the drain
of R189. `va` and `size` give the range, `psize` the
page size code, `page` the page in hand, `old` its leaf, `since` the first request that the drain
does not wait for. -/
structure PageJob where
  kind : JobKind
  ctx : Nat
  queue : Nat
  index : Nat
  record : List Byte
  va : Nat
  size : Nat
  psize : Nat
  page : Nat
  st : PSt
  old : Word
  since : Nat
  deriving DecidableEq, Repr

/-- A message on the steal network (R143): a request, or a reply with the task taken. `expect` is the outcome that a
replay prescribes (R151). -/
structure StealMsg where
  reply : Bool
  thief : Nat
  victim : Nat
  launch : Nat
  task : Option Task
  expect : Option Word
  deriving DecidableEq, Repr

/-- A copy in the retention buffer (R203): the port that carried it, or 16 and up where port - 16 has left (R209), when it was
sent, and since when no port is a candidate for it (R205). -/
structure Retained where
  msg : Msg
  port : Nat
  sent : Nat
  since : Nat
  deriving DecidableEq, Repr

/-- A message that waits in the package switch (R198), and since when no port is a candidate for it (R205). -/
structure Waiting where
  msg : Msg
  since : Nat
  deriving DecidableEq, Repr

/-- The receiving end of a stream (R202, R204). -/
structure Stream where
  pkg : Nat
  core : Nat
  epoch : Nat
  last : Nat
  held : List Msg
  deriving DecidableEq, Repr

/-- An external port (R201, R206, R207). `seq` is the next link-level sequence number, and `buffer` the replay buffer: the frames
that the far end has not acknowledged, by number and flits. `bad` holds while its receive buffer has an uncorrectable error that
no message has met (R425). -/
structure Port where
  st : PortSt
  lanes : Nat
  rate : Nat
  replay : Nat
  trains : Nat
  dis : Bool
  since : Nat
  credits : Vector Nat 3
  recentReplays : List Nat
  entries : List Nat
  seq : Nat
  buffer : List (Nat × Nat)
  bad : Bool
  deriving DecidableEq, Repr

/-- A port after each start: down, held by `lkctl.dis` (R207). -/
def Port.reset : Port :=
  { st := .down, lanes := 0, rate := 0, replay := 0, trains := 0, dis := true, since := 0,
    credits := Vector.replicate 3 0, recentReplays := [], entries := [], seq := 0, buffer := [], bad := false }

/-- States of a gossip region (R247). -/
inductive GSt where
  | stopped | running | draining | broken
  deriving DecidableEq, Repr

/-- A configured gossip region (R244 to R248): its owner, the image of R246, the physical places of its pages, which stay while
it is configured (R184, R245), and its state.
`wNow` and `wPrev` are W of the last and the round before, `tag` is the round tag that every word holds between passes,
`spread` is S of the last ended pass where it is valid, and `sent` lists the mass messages not yet committed, withdrawn or
refused, by message id: first index and words; `committed` keeps those whose commit is acknowledged, in case their refusal
still comes. -/
structure Region where
  owner : Nat
  base : Word
  n : Nat
  gid : Nat
  ws : Nat
  period : Nat
  sh : Word
  nbr : List Nat
  pages : List Nat
  spages : List Nat
  st : GSt
  ovf : Bool
  k : Nat
  started : Nat
  wNow : Word
  wPrev : Word
  tag : Nat
  spread : Option Word
  sent : Tab (Nat × List Word)
  committed : Tab (Nat × List Word)
  deriving DecidableEq, Repr

/-- Gossip mass held pending at the receiver (R210, R249). -/
structure Pending where
  pkg : Nat
  core : Nat
  pmark : Nat
  gid : Nat
  index : Nat
  words : List Word
  deriving DecidableEq, Repr

/-- The phases of a mesh edit at its descriptor's home (R225, R228): claiming, giving `left` claims back, placing the
claims of a pending entry, and an entry whose claims are placed. -/
inductive EPhase where
  | claim (next : Nat)
  | release (left : Nat) (ans : ObjAns)
  | place (entry next : Nat)
  | pending (entry : Nat)
  deriving DecidableEq, Repr

/-- A mesh edit under way: the request, the context it acts in, its cavity in ascending handle order, its phase, and the places of
the claim words that it holds, by leaf, page size and address, the last taken first. -/
structure EditRun where
  msg : Msg
  ctx : Nat
  base : Word
  edit : Edit
  expect : Option Bool
  cavity : List Word
  phase : EPhase
  held : List (Word × Nat × Nat)
  dead : Bool
  deriving DecidableEq, Repr

/-- A report to the command processor: a fatal trap (R156), a halt (R409), a slice of the order
log that could not be reached (R454), a refused write of a tail (R318) or an engine error of a thread whose frame is gone
(R351). -/
inductive Report where
  | fatal (core frame : Nat)
  | halt (core frame : Nat)
  | slice (core launch : Nat)
  | lost (ctx : Nat) (launch : Option Nat)
  deriving DecidableEq, Repr

/-- What a home knows of a versioned tile beyond its header (R234, R243): the owner that an instruction or its break found, whether
it is broken, by slot the context that subscribed and the consumer's fields (R235), and while its page is parked, the context and
the address of that page (R193). -/
structure TileRec where
  home : Home
  addr : Nat
  owner : Option Nat
  broken : Bool
  subs : Tab (Nat × Nat × Nat × Nat)
  parked : Option (Nat × Nat)
  deriving DecidableEq, Repr

/-- The monitors of one die (R424). -/
structure Monitor where
  tmon : Word
  vmon : Word
  pmon : Word
  deriving DecidableEq, Repr

/-- The package: cores, memories, agents, fabric, host-visible registers. -/
structure Chip where
  now : Nat
  started : Nat
  core : Nat
  frame : Nat
  word : BitVec 32
  cores : Tab Core
  hbm : Memory
  hbmPoison : List Nat
  dead : List Nat
  host : Memory
  hostBad : List (Nat × Nat)
  far : Memory
  agentResv : Tab (List Resv)
  agentWait : Tab (List Msg)
  ctxs : Tab Ctx
  queues : Tab HostQueue
  turn : Nat
  hqs : Tab HoldQueue
  grants : List Grant
  shares : List Share
  launches : Tab Launch
  nextLaunch : Nat
  foreign : List (Word × Listed)
  ring : Tab (BitVec 1024)
  signatures : Tab (BitVec 1024)
  tlb : Tab (List Tlb)
  walks : Tab (List Walk)
  job : Option PageJob
  shut : List (Nat × Nat)
  net : List Msg
  steals : List StealMsg
  out : List Waiting
  retained : List Retained
  streamsOut : Tab Nat
  streamsIn : List Stream
  ports : Vector Port 16
  fabcfg : Word
  exports : Memory
  regions : List Region
  pending : List Pending
  edits : List EditRun
  rounds : List (Msg × Nat)
  claimed : List Nat
  tiles : List TileRec
  reports : List Report
  testing : List (Block × Nat)
  failed : List Nat
  spares : List Nat
  corrected : List (Block × Nat)
  monitors : Vector Monitor 9
  health : Tab (BitVec 256)
  hlhead : BitVec 32
  msix : List Nat
  starts : Nat
  devState : Nat
  devStep : Nat
  journal : Tab Byte
  jstarted : List Nat
  jalt : List Nat
  jreset : Bool
  nonce : BitVec 384
  atst : Nat
  atstSince : Nat
  report : List Byte
  nextReq : Nat
  nextThread : Nat
  freeCount : Nat
  deriving DecidableEq, Repr

/-- The package with power applied and no start run yet: every field at the spec's value or the log's (log 1). -/
def Chip.reset : Chip :=
  { now := 0, started := 0, core := 0, frame := 0, word := 0, cores := [], hbm := [], hbmPoison := [], dead := [], host := [], hostBad := [], far := [], agentResv := [],
    agentWait := [], ctxs := [(0, { Ctx.reset with st := .live })], queues := [], turn := 0, hqs := [], grants := [], shares := [],
    launches := [], nextLaunch := 1, foreign := [], ring := [], signatures := [], tlb := [], walks := [], job := none,
    shut := [], net := [], steals := [], out := [], retained := [], streamsOut := [], streamsIn := [],
    ports := Vector.replicate 16 Port.reset, fabcfg := 0x3E8, exports := [], regions := [], pending := [], edits := [],
    rounds := [], claimed := [], tiles := [], reports := [], testing := [], failed := [], spares := [], corrected := [],
    monitors := Vector.replicate 9 ⟨0, 0, 0⟩, health := [], hlhead := 0, msix := [], starts := 0, devState := 0,
    devStep := 0, journal := [], jstarted := [], jalt := [], jreset := false, nonce := 0, atst := 0, atstSince := 0,
    report := [], nextReq := 1, nextThread := 1, freeCount := 0 }

/-- What one step of the model does next (log 3): a core's issue slot, a step of another agent, bytes that the host
or another package changes in its own memory, the ranges of host memory that the host answers with an error or poisoned data
from now on (R100, R413), a die's new sensor readings (R424), the far end of a link acknowledging its oldest frames (R206), or
another package's command processor at the objects that its launch has entered here: clearing its slots or breaking them (R178,
R179). -/
inductive Act where
  | issue (core : Nat)
  | event (i : Instr)
  | hostWrite (addr : Nat) (bytes : List Byte)
  | farWrite (addr : Nat) (bytes : List Byte)
  | hostFails (ranges : List (Nat × Nat))
  | sense (die : Nat) (temp rail power speed : BitVec 16)
  | linkAck (port n : Nat)
  | farLaunch (w : Word) (brk : Bool)
  deriving DecidableEq, Repr

/-- One entry of the agenda (log 3); `after` lets that many cycles pass first. -/
structure Turn where
  after : Nat
  act : Act
  deriving DecidableEq, Repr

/-- The machine: the package, the measurement registers of its security block (R418), and the model's own agenda and
turn (log 3). -/
structure State where
  chip : Chip
  mr : Vector (BitVec 384) 8
  agenda : List Turn
  turnCore : Nat
  deriving DecidableEq, Repr

/-- Power applied, before the first start (R419): measurement registers zero, nothing on the agenda. -/
def State.reset : State :=
  { chip := Chip.reset, mr := Vector.replicate 8 0, agenda := [], turnCore := 0 }

/-- The one fault. `notEnabled` is raised by an event whose precondition does not hold in this state: the step cannot
be the next one. It is safe: the machine is said to do nothing (log 5). -/
inductive Fault where
  | notEnabled
  deriving DecidableEq, Repr

/-- The one refusal. `notModelled` is raised by an arm of `exec` that has no meaning yet. It is safe: no claim about
the instruction can be proved. -/
inductive Refusal where
  | notModelled (mnemonic : String)
  deriving DecidableEq, Repr

end Sys2Proof.Machine
end

