-- ==== Sys2Proof/Machine/Ops.lean ====
section
/-! DEFINITION. The shared operations: cores and frames, homes and their bytes, translation, requests, the wait table,
taking a trap and returning from one, and the issue of an instruction. -/

namespace Sys2Proof.Machine

/-! ## Cores and frames -/

/-- Core n. -/
def Chip.coreAt (c : Chip) (n : Nat) : Core := tget Core.reset c.cores n
/-- Core n changed. -/
def Chip.modCore (c : Chip) (n : Nat) (f : Core → Core) : Chip := { c with cores := tset c.cores n (f (c.coreAt n)) }
/-- Frame f of a core. -/
def Core.frameAt (k : Core) (f : Nat) : Frame := tget Frame.reset k.frames f
/-- Frame f of a core changed. -/
def Core.modFrame (k : Core) (f : Nat) (u : Frame → Frame) : Core :=
  { k with frames := tset k.frames f (u (k.frameAt f)) }
/-- Frame f of core n. -/
def Chip.frameAt (c : Chip) (n f : Nat) : Frame := (c.coreAt n).frameAt f
/-- Frame f of core n changed. -/
def Chip.modFrame (c : Chip) (n f : Nat) (u : Frame → Frame) : Chip := c.modCore n fun k => k.modFrame f u

/-- The package id (R208). -/
def Chip.pkg (c : Chip) : Nat := bits c.fabcfg 43 32
/-- Die of a core number (R3). -/
def dieOf (n : Nat) : Nat := n / 4096
/-- Quire number in the package of a core number (R3). -/
def quireOf (n : Nat) : Nat := n / 256
/-- Signature number in the package of a core number (R3). -/
def sigOf (n : Nat) : Nat := n / 16

/-- At supervisor privilege (R265). -/
def Frame.sup (f : Frame) : Bool := tst f.sw 19
/-- In a trap handler (R155). -/
def Frame.inTrap (f : Frame) : Bool := tst f.sw 18
/-- Priority class of `sw` (R263). -/
def Frame.pri (f : Frame) : Nat := bits f.sw 31 30
/-- Resume element index (R159). -/
def Frame.vidx (f : Frame) : Nat := bits f.sw 29 24
/-- `sw` as it reads: vo and mo show ownership as it stands (R263, R264). -/
def Core.swOf (k : Core) (f : Nat) : Word :=
  let w := putBits (k.frameAt f).sw 16 16 (if k.vec.owner = some f then 1 else 0)
  putBits w 15 15 (if k.mowner = some f then 1 else 0)

/-- The launch a thread works for: that of its task, or for a handler that of the sender (R121, log 18). -/
def Frame.owner (f : Frame) : Option Nat := f.launch.orElse fun _ => f.origin

/-- The issue class: supervisor frames first, then pri less the promotions of ageing (R128, R129). -/
def Frame.issueClass (f : Frame) : Nat := if f.sup then 0 else 1 + (f.pri - f.promoted)

/-- The frame's context (R81). -/
def Chip.ctxAt (c : Chip) (n : Nat) : Ctx := tget Ctx.reset c.ctxs n
/-- A context changed. -/
def Chip.modCtx (c : Chip) (n : Nat) (f : Ctx → Ctx) : Chip := { c with ctxs := tset c.ctxs n (f (c.ctxAt n)) }

/-- The franking of a frame's messages (R57). -/
def Chip.frankOf (c : Chip) (n f : Nat) : Frank :=
  let fr := c.frameAt n f
  ⟨c.pkg, n, fr.ctx, fr.sup, f, fr.owner⟩

/-! ## Homes and their bytes -/

/-- Whether n bytes at a physical HBM address lie in the installed space of one stack (R4, R180). -/
def installed (a n : Nat) : Bool := decide (a / 2 ^ 37 < 8) && decide (a % 2 ^ 37 + n ≤ Config.stackBytes)
/-- The home of a physical HBM address: its stack, and its channel by bits 12:8 (R55). -/
def hbmHome (a : Nat) : Home := .hbm (a / 2 ^ 37) (a / 256 % 32)
/-- The index of a channel's memory agent. -/
def agentOf (stack chan : Nat) : Nat := stack * 32 + chan
/-- Two byte ranges meet. -/
def overlap (a n b m : Nat) : Bool := decide (a < b + m) && decide (b < a + n)
/-- Granules of size g that a range covers whole (R453). -/
def covers (a n g i : Nat) : Bool := decide (a ≤ i * g) && decide (i * g + g ≤ a + n)

/-- The bytes at a home of this package. -/
def Chip.readHome (c : Chip) (h : Home) (a n : Nat) : List Byte :=
  match h with
  | .core k => rdBytes (c.coreAt k).pad a n
  | .hbm _ _ => rdBytes c.hbm a n
  | .host => rdBytes c.host a n
  | .spine => rdBytes [] a n
/-- A little-endian number at a home. -/
def Chip.readNat (c : Chip) (h : Home) (a n : Nat) : Nat := leNat (c.readHome h a n)
/-- A doubleword at a home. -/
def Chip.read64 (c : Chip) (h : Home) (a : Nat) : Word := BitVec.ofNat 64 (c.readNat h a 8)
/-- Whether the host answers a read of its memory with an error or with poisoned data (R413). -/
def Chip.hostFails (c : Chip) (a n : Nat) : Bool := c.hostBad.any fun r => overlap a n r.1 r.2
/-- The longest self-test of a signature, 2 ms, in cycles (R425). -/
def testLimit : Nat := 2000 * Config.cyclesPerUs
/-- Whether a core's signature is under self-test (R425). -/
def Chip.underTest (c : Chip) (core : Nat) : Bool :=
  c.testing.any fun p => p.1 == .signature (sigOf core) && decide (c.now < p.2 + testLimit)

/-- Whether a read of the range delivers poisoned data: a poisoned granule (R453), or a row that could not be repaired
(R425). -/
def Chip.poisonAt (c : Chip) (h : Home) (a n : Nat) : Bool :=
  match h with
  | .core k => (c.coreAt k).padPoison.any fun d => overlap a n (d * 8) 8
  | .hbm _ _ => (c.hbmPoison.any fun d => overlap a n (d * 32) 32) || c.dead.any fun d => overlap a n (d * 32) 32
  | _ => false

/-- A task pushed at the top of a deque (R134). -/
def Core.push (k : Core) (t : Task) : Core := { k with deque := t :: k.deque, dequeOps := k.dequeOps + 1 }
/-- Deque entries (R134). -/
def Core.dequeFull (k : Core) : Bool := decide (128 ≤ k.deque.length)

/-- A task record as 32 bytes in memory hold it (R131). -/
def taskOfBytes (b : List Byte) (e : WEntry) : Task :=
  ⟨BitVec.ofNat 64 (field b 0 8), BitVec.ofNat 64 (field b 8 8), BitVec.ofNat 64 (field b 16 8),
   BitVec.ofNat 64 (field b 24 8), e.launch, e.ctx, e.sup⟩

/-- Whether a wait-table entry is bound (R138). -/
def WEntry.bound (e : WEntry) : Bool := tst e.ctl 63
/-- Whether a wait-table entry is free: neither bound nor waiting to be pushed (R134). -/
def WEntry.isFree (e : WEntry) : Bool := !e.bound && e.fired.isNone
/-- The counter offset of an entry (R138). -/
def WEntry.ctr (e : WEntry) : Nat := bits e.ctl 17 0
/-- The entry's condition on a counter value: equal, or at least, signed (R138). -/
def WEntry.holds (e : WEntry) (v : Word) : Bool :=
  if tst e.ctl 62 then e.threshold.sle v else v == e.threshold

/-- Whether the thread that bound an entry by `join` has not finished its drain (R313). -/
def Core.binderDraining (k : Core) (e : WEntry) : Bool :=
  match e.binder with
  | none => false
  | some t => k.frames.any fun p => p.2.thread == t && p.2.st != .free

/-- Whether a core's read of a range meets a poisoned granule (R453). -/
def Core.padBad (k : Core) (a n : Nat) : Bool := k.padPoison.any fun d => overlap a n (d * 8) 8
/-- The offset of a wait-table entry (R138). -/
def entryOff (i : Fin 32) : Nat := 0x2FC00 + 16 * i.val

/-- One entry tested against its counter; a success fires it (R140). The push waits while the deque is full (R134) or
the joining thread drains (R313). Nothing fires from poisoned data (log 64). -/
def Core.testEntry (k : Core) (i : Fin 32) : Core :=
  let e := k.wtab[i]
  if e.bound && e.holds (rd64 k.pad e.ctr)
    && !(k.padBad e.ctr 8 || k.padBad (bits e.ctl 49 32) 32 || k.padBad (entryOff i) 16) then
    let t := taskOfBytes (rdBytes k.pad (bits e.ctl 49 32) 32) e
    if k.dequeFull || k.binderDraining e then
      { k with wtab := k.wtab.set i { e with ctl := putBits e.ctl 63 63 0, fired := some t } }
    else { k with wtab := k.wtab.set i WEntry.reset }.push t
  else k

/-- A frame that `wait` stalls, tested after a write of its counter: a success is kept until the frame is ready (R141). -/
def Frame.testWait (f : Frame) (k : Core) (a n : Nat) : Frame :=
  match f.st with
  | .stalled (.counter o t false ds) =>
    if overlap a n o 8 && t.sle (rd64 k.pad o) && !k.padBad o 8 then { f with st := .stalled (.counter o t true ds) } else f
  | _ => f
/-- The frames that `wait` stalls, tested after a write of a range. -/
def Core.testWaits (k : Core) (a n : Nat) : Core := { k with frames := k.frames.map fun p => (p.1, p.2.testWait k a n) }

/-- The tests that follow writes of ranges: entries on their counters, in ascending number (R140), and waiting frames
(R141). -/
def Core.testEntries (k : Core) (l : List (Nat × Nat)) : Core :=
  l.foldl (fun k p => k.testWaits p.1 p.2)
    ((List.finRange 32).foldl (fun k i => if l.any fun p => overlap p.1 p.2 (k.wtab[i].ctr) 8 then k.testEntry i else k) k)

/-- An atomic's read of one core's scratchpad, which takes part in the merge steps of its cycle (R79). -/
def Core.padLook (k : Core) (a n : Nat) : Core := { k with touched := k.touched ++ [⟨a, n, .look⟩] }
/-- Bytes of one core's scratchpad written: poison of whole granules cleared (R453), reservations broken (R79). -/
def Core.padPut (k : Core) (a : Nat) (b : List Byte) (kind : TouchKind := .write) : Core :=
  { k with
    pad := wrBytes k.pad a b
    padPoison := k.padPoison.filter fun d => !covers a b.length 8 d
    resv := k.resv.filter fun r => !overlap a b.length r.addr r.size
    touched := k.touched ++ [⟨a, b.length, kind⟩] }
/-- A write of one core's scratchpad, and the tests that follow it (R140). -/
def Core.padWrite (k : Core) (a : Nat) (b : List Byte) (kind : TouchKind := .write) : Core :=
  if b.isEmpty then k else (k.padPut a b kind).testEntries [(a, b.length)]
/-- Words of one core's scratchpad updated in one indivisible step, the tests after all of them (R140, R142). Poisoned data is
not combined: its word stays as it is (log 64). -/
def Core.padUpdate (k : Core) (l : List (Nat × (Word → Word))) : Core :=
  (l.foldl (fun k p => if k.padBad p.1 8 then k else k.padPut p.1 (toLe 8 (p.2 (rd64 k.pad p.1)).toNat) .update) k).testEntries
    (l.map fun p => (p.1, 8))
/-- A counter word counted up by one. -/
def Core.countOne (k : Core) (o : Nat) : Core := k.padUpdate [(o, (· + 1))]

/-- A write performed at its home (R65). -/
def Chip.writeHome (c : Chip) (h : Home) (a : Nat) (b : List Byte) (kind : TouchKind := .write) : Chip :=
  match h with
  | .core k => c.modCore k fun x => x.padWrite a b kind
  | .hbm _ _ =>
    { c with
      hbm := wrBytes c.hbm a b
      hbmPoison := c.hbmPoison.filter fun d => !covers a b.length 32 d
      agentResv := c.agentResv.map fun p => (p.1, p.2.filter fun r => !overlap a b.length r.addr r.size) }
  | .host => { c with host := wrBytes c.host a b }
  | .spine => c
/-- A little-endian number written at a home. -/
def Chip.writeNat (c : Chip) (h : Home) (a n v : Nat) : Chip := c.writeHome h a (toLe n v)
/-- A doubleword written at a home. -/
def Chip.write64 (c : Chip) (h : Home) (a : Nat) (v : Word) : Chip := c.writeNat h a 8 v.toNat

/-! ## Translation -/

/-- What an access needs of its page (R182): execute, read, write or atomic. -/
inductive Need where
  | x | r | w
  deriving DecidableEq, Repr

/-- What a translation names: the leaf, its page size code and the physical address. -/
structure Phys where
  leaf : Word
  size : Nat
  pa : Nat
  deriving DecidableEq, Repr

/-- loc of a leaf (R181). -/
def Phys.loc (p : Phys) : Nat := bits p.leaf 11 10
/-- log2 of a page of size code 0, 1, 2 (R180). -/
def pageShift (size : Nat) : Nat := match size with | 0 => 16 | 1 => 21 | _ => 30
/-- Bytes of a size code. -/
def pageBytes (size : Nat) : Nat := 2 ^ pageShift size
/-- The physical address a leaf gives an address. -/
def leafAddr (leaf : Word) (size va : Nat) : Nat :=
  let s := pageShift size
  bits leaf 51 16 * 2 ^ 16 / 2 ^ s * 2 ^ s + va % 2 ^ s

/-- A leaf is well formed at a level (R181, R182). -/
def leafOk (e : Word) (level : Nat) : Bool :=
  bits e 15 12 == 0 && bits e 9 6 == 0 && bits e 2 2 == 0 && (bits e 11 10 == 1 || bits e 63 52 == 0)
  && (level == 0 || (level == 1 && bits e 20 16 == 0) || (level == 2 && bits e 29 16 == 0))
/-- A pointer is well formed at a level (R181, R182). -/
def pointerOk (e : Word) (level : Nat) : Bool :=
  bits e 63 52 == 0 && bits e 7 1 == 0 && level != 0 && (level == 1 || bits e 11 8 == 0)
/-- The index bits of a level (R180). -/
def levelIndex (va level : Nat) : Nat :=
  match level with
  | 4 => va / 2 ^ 48 % 512 | 3 => va / 2 ^ 39 % 512 | 2 => va / 2 ^ 30 % 512 | 1 => va / 2 ^ 21 % 512
  | _ => va / 2 ^ 16 % 32
/-- The size code of a leaf at a level. -/
def levelSize (level : Nat) : Nat := level

/-- The walk from a table at a level (R182): the leaf with its size, or none for a fault. -/
def walkFrom (m : Memory) (va : Nat) : Nat → Nat → Option (Word × Nat)
  | level, table =>
    let e := rd64 m (table + 8 * levelIndex va level)
    if !tst e 0 then none
    else if tst e 1 then (if level ≤ 2 && leafOk e level then some (e, levelSize level) else none)
    else match level with
      | 0 => none
      | l + 1 => if pointerOk e (l + 1) then walkFrom m va l (bits e 51 8 * 256) else none

/-- Whether a walk reads an entry that is poisoned. -/
def walkBad (m : Memory) (bad : Nat → Bool) (va : Nat) : Nat → Nat → Bool
  | level, table =>
    let a := table + 8 * levelIndex va level
    let e := rd64 m a
    bad a || (tst e 0 && !tst e 1 && (match level with
      | 0 => false
      | l + 1 => pointerOk e (l + 1) && walkBad m bad va l (bits e 51 8 * 256)))

/-- The walk of a context's tables (R182). Tables lie in this package's HBM (R180). An entry that is poisoned gives no
translation (log 64). -/
def Chip.walk (c : Chip) (ctx va : Nat) : Option (Word × Nat) :=
  let root := (c.ctxAt ctx).ptroot.toNat
  if walkBad c.hbm (fun a => c.poisonAt (hbmHome a) a 8) va 4 root then none else walkFrom c.hbm va 4 root

/-- A cached translation (R185). -/
def Chip.cached (c : Chip) (sig ctx va : Nat) : Option (Word × Nat) :=
  ((tget [] c.tlb sig).find? fun e => e.ctx == ctx && va / 2 ^ pageShift e.size == e.page).map fun e => (e.leaf, e.size)

/-- A leaf's rights against an access (R182): 0x07 when one lacks, or for a plain access to a spine page. -/
def leafRights (leaf : Word) (need : Need) (object : Bool) : Bool :=
  (match need with
   | .x => tst leaf 5
   | .r => tst leaf 3
   | .w => tst leaf 4 && tst leaf 3) && (object || bits leaf 11 10 != 3)

/-- The checks on the address itself (R53): the cause they raise. -/
def addrCheck (va : Word) (sup : Bool) : Option Nat :=
  if bits va 63 57 != 0 then some 6 else if tst va 56 && !sup then some 7 else none

/-- A translation that does not wait: through the cache, or by a walk of its own. The cause on failure. -/
def Chip.translateNow (c : Chip) (sig ctx : Nat) (sup : Bool) (va : Word) (need : Need) (object : Bool) :
    Except Nat Phys :=
  match addrCheck va sup with
  | some k => .error k
  | none =>
    match (c.cached sig ctx va.toNat).orElse fun _ => c.walk ctx va.toNat with
    | none => .error 6
    | some (leaf, size) =>
      if leafRights leaf need object then .ok ⟨leaf, size, leafAddr leaf size va.toNat⟩ else .error 7

/-- The home that a translation names (R54, R181). -/
def Chip.placeOf (c : Chip) (p : Phys) : Place :=
  match p.loc with
  | 0 => ⟨c.pkg, hbmHome p.pa⟩
  | 1 => ⟨bits p.leaf 63 52, hbmHome p.pa⟩
  | 2 => ⟨c.pkg, .host⟩
  | _ => ⟨c.pkg, .spine⟩

/-- The bytes that a translated range holds: this package's HBM, host memory, or what another package answers (log 8). -/
def Chip.readPhys (c : Chip) (p : Phys) (n : Nat) : List Byte :=
  match p.loc with
  | 0 => rdBytes c.hbm p.pa n
  | 1 => rdBytes c.far (bits p.leaf 63 52 * 2 ^ 52 + p.pa) n
  | 2 => rdBytes c.host p.pa n
  | _ => rdBytes [] p.pa n
/-- Whether a translated range delivers poison, or lies outside what is installed (log 20), or the host fails it. -/
def Chip.physBad (c : Chip) (p : Phys) (n : Nat) : Bool :=
  (p.loc == 0 && (c.poisonAt (hbmHome p.pa) p.pa n || !installed p.pa n)) || (p.loc == 2 && c.hostFails p.pa n)

/-! ## The monad of one instruction -/

/-- How an instruction ends without completing: a trap with its cause, detail and `eaddr` (R152), not ready, or not ready
while what it has taken stays its frame's (R161). -/
inductive Stop where
  | trap (cause detail : Nat) (eaddr : Word)
  | wait (w : Wait)
  | hold (w : Wait)
  deriving DecidableEq, Repr

/-- The effects of one instruction on the package, in the order written (R271). -/
abbrev M := EStateM Stop Chip

/-- Raise a trap: a trapping instruction changes nothing but what its entry performs before the trap (R271, R290, R367);
the words it popped from links stay in their queues, and it issues again. -/
def raise {α : Type} (cause : Nat) (eaddr : Word := 0) (detail : Nat := 0) : M α := throw (.trap cause detail eaddr)
/-- The frame is not ready (R271): the test repeats when it is. -/
def notReady {α : Type} (w : Wait) : M α := throw (.wait w)
/-- Raise a trap if a condition holds. -/
def raiseIf (b : Bool) (cause : Nat) (eaddr : Word := 0) (detail : Nat := 0) : M Unit :=
  if b then raise cause eaddr detail else pure ()
/-- Not ready while a condition holds. -/
def waitIf (b : Bool) (w : Wait) : M Unit := if b then notReady w else pure ()

/-- The issuing core. -/
def theCore : M Core := do let c ← get; pure (c.coreAt c.core)
/-- The issuing frame. -/
def theFrame : M Frame := do let c ← get; pure (c.frameAt c.core c.frame)
/-- Change the issuing core. -/
def modCore (f : Core → Core) : M Unit := modify fun c => c.modCore c.core f
/-- Change the issuing frame. -/
def modFrame (f : Frame → Frame) : M Unit := modify fun c => c.modFrame c.core c.frame f

/-! ## The triple -/

/-- Whether the instruction at pc stands in a delay slot: `slots` lists the addresses of the slots still to issue (R266, log 7). -/
def Frame.inSlot (f : Frame) : Bool := f.slots.head? == some f.pc
/-- A non-branch instruction leaves (npc, nnpc, nnpc + 4) (R157). -/
def Frame.advance (f : Frame) : Frame :=
  { f with pc := f.npc, npc := f.nnpc, nnpc := f.nnpc + 4, slots := f.slots.tail }
/-- The issuing frame goes on to its next instruction (R157). -/
def advance : M Unit := modFrame Frame.advance

/-! ## Taking a trap, and returning -/

/-- `ecause` (R154). -/
def ecauseOf (word : BitVec 32) (seq : Bool) (cause detail : Nat) : Word :=
  BitVec.ofNat 64 (word.toNat * 2 ^ 32 + seq.toNat * 2 ^ 16 + detail % 256 * 2 ^ 8 + cause)

/-- The entry of a cause in a context's vector table (R155). -/
def Chip.vectorEntry (c : Chip) (ctx cause : Nat) : Word := (c.ctxAt ctx).tvbase + BitVec.ofNat 64 (8 * cause)
/-- The page of a vector table's entry that the signature's cache does not hold: its walk comes first (R186). -/
def Chip.vectorMiss (c : Chip) (core ctx cause : Nat) : Option Nat :=
  let va := c.vectorEntry ctx cause
  if (addrCheck va (ctx == 0)).isNone && (c.cached (sigOf core) ctx va.toNat).isNone then some (va.toNat / 2 ^ 16) else none
/-- The handler address of the vector table, none when it is zero or cannot be read (R155). The table is read at the
context's privilege (log 62). -/
def Chip.handlerOf (c : Chip) (core ctx cause : Nat) : Option Word :=
  let va := c.vectorEntry ctx cause
  match addrCheck va (ctx == 0), c.cached (sigOf core) ctx va.toNat with
  | none, some (leaf, size) =>
    let p : Phys := ⟨leaf, size, leafAddr leaf size va.toNat⟩
    let h := BitVec.ofNat 64 (leNat (c.readPhys p 8))
    if !leafRights leaf .r false || c.physBad p 8 || h == 0 then none else some h
  | _, _ => none

/-- A report on a pre-emption request (R163): the status is readable in `pstat`, and the writing frame goes on. -/
def Chip.reportPreempt (c : Chip) (q : Option Asker) (status : Nat) : Chip :=
  match q with
  | some (.frame core f) =>
    let c := c.modCore core fun k => { k with pstat := BitVec.ofNat 64 status }
    c.modFrame core f fun fr => { fr.advance with st := .ready, readySince := c.now }
  | _ => c
/-- The frame parks at a trap that leads to no handler (R164): a pre-emption that waits for it finds it parked (R165). -/
def Chip.parkAt (c : Chip) (core frame : Nat) (fatal : Bool) : Chip :=
  let q := (c.frameAt core frame).preempt
  (c.modFrame core frame fun f =>
    { f with st := .parked, fatal := fatal, preempt := none, walkFault := none, trapping := none, far := [] }).reportPreempt q 0
/-- A fatal trap parks the frame and reports it (R156, R164). -/
def Chip.fatal (c : Chip) (core frame : Nat) : Chip :=
  let c := c.parkAt core frame true
  { c with reports := c.reports ++ [.fatal core frame] }

/-- The frame as the handler starts it (R155). -/
def Frame.enter (f : Frame) (sw h : Word) (ecause eaddr : Word) (after : Bool) : Frame :=
  { f with
    st := .ready
    epc := if after then f.npc else f.pc
    enpc := if after then f.nnpc else f.npc
    ennpc := if after then f.nnpc + 4 else f.nnpc
    eslots := if after then f.slots.tail else f.slots
    walkFault := none
    trapping := none
    far := []
    esw := sw
    ecause := ecause
    eaddr := eaddr
    sw := putBits (putBits (putBits f.sw 18 18 1) 29 24 0) 17 17 0
    pc := h
    npc := h + 4
    nnpc := h + 8
    slots := [] }

/-- The exhaustion record (R166), and the message that carries it to the quire's supervisor frame (log 12). -/
def Chip.sendExhaustion (c : Chip) (core frame ctx : Nat) (ecause addr pc : Word) : Chip :=
  let whereW := ctx * 2 ^ 48 + frame * 2 ^ 32 + core
  let rec_ := toLe 8 ecause.toNat ++ toLe 8 whereW ++ toLe 8 addr.toNat ++ toLe 8 pc.toNat
  let home := quireOf core * 256
  let m : Msg := ⟨0, ⟨c.pkg, core, 0, true, frame, none⟩, ⟨c.pkg, .core home⟩, Config.supervisorRecord c.freeCount % 5632 * 32, 0, none, 0, none,
    0, 0, .exhaustion rec_, none, false⟩
  { c with net := c.net ++ [m], freeCount := c.freeCount + 1 }
/-- The exhaustion record of a trapping frame (R166). -/
def Chip.exhausted (c : Chip) (core frame : Nat) (ecause addr : Word) : Chip :=
  c.sendExhaustion core frame (c.frameAt core frame).ctx ecause addr (c.frameAt core frame).pc

/-- The sequencer, or a capture, of a frame that enters a handler stops until `rfe` (R160). -/
def Core.stopSeq (k : Core) (f : Nat) : Core :=
  if k.vec.owner == some f && (k.vec.running || decide (0 < k.vec.capturing)) then
    { k with vec := { k.vec with stopped := true } }
  else k
/-- The sequencer of a frame goes on (R160). -/
def Core.resumeSeq (k : Core) (f : Nat) : Core :=
  if k.vec.owner == some f then { k with vec := { k.vec with stopped := false } } else k
/-- Whether the sequencer runs for a frame (R160, R326). -/
def Core.sequencing (k : Core) (f : Nat) : Bool := k.vec.owner == some f && k.vec.running && !k.vec.stopped

/-- Requests that a die's pool takes (R186). -/
def poolRoom : Nat := 256
/-- Two walk requests for one context and page. -/
def Walk.same (x y : Walk) : Bool := x.ctx == y.ctx && x.va / 2 ^ 16 == y.va / 2 ^ 16
/-- A walk request with the requesters of another one for its page. -/
def Walk.join (x y : Walk) : Walk :=
  { x with sigs := x.sigs ++ y.sigs, frames := x.frames ++ y.frames, cmds := x.cmds ++ y.cmds }
/-- A request that reaches the pool, the requests that wait in their signatures behind it (R186): it coalesces with one of the
pool's 256 for its page, or stands last. -/
def addWalk (l : List Walk) (w : Walk) : List Walk :=
  if (l.take poolRoom).any w.same then
    ((l.take poolRoom).map fun x => if w.same x then x.join w else x) ++ l.drop poolRoom
  else l ++ [w]
/-- The pool filled with the requests that wait in their signatures, the oldest first: one for a page that it holds coalesces
(R186). -/
def fillPool (pool : List Walk) : List Walk → List Walk
  | [] => pool
  | w :: rest =>
    if pool.any w.same then fillPool (pool.map fun x => if w.same x then x.join w else x) rest
    else if pool.length < poolRoom then fillPool (pool ++ [w]) rest
    else pool ++ w :: rest
/-- The pool with its oldest request taken, and the first that wait outside let in (R186). -/
def nextWalks (l : List Walk) : List Walk := fillPool (l.take poolRoom).tail (l.drop poolRoom)
/-- A walk request of a frame. -/
def Chip.askWalk (c : Chip) (core frame page : Nat) : Chip :=
  let die := dieOf core
  { c with walks := tset c.walks die (addWalk (tget [] c.walks die)
      ⟨(c.frameAt core frame).ctx, page * 2 ^ 16, [sigOf core], [(core, frame)], []⟩) }
/-- Whether a frame's request for a page stands in its die's pool, or waits for it. -/
def Chip.walking (c : Chip) (core frame page : Nat) : Bool :=
  (tget [] c.walks (dieOf core)).any fun x => x.va / 2 ^ 16 == page && x.frames.contains (core, frame)

/-- A trap whose vector is not in the cache waits for its walk (R155, R186). A sequencer that traps stops at once (R160). -/
def Chip.awaitVector (c : Chip) (core frame page : Nat) (t : Trapping) : Chip :=
  let c := (c.modCore core fun k => if t.seq then k.stopSeq frame else k).modFrame core frame fun f =>
    { f with st := .stalled (.walk page), trapping := some t }
  if c.walking core frame page then c else c.askWalk core frame page
/-- Taking a trap, the one operation (R152 to R156, R166): cause 0x0B parks the frame and reports to the quire's
supervisor; any other enters the handler of the context's vector table, which may wait for the walk of its page, or is fatal. -/
def Chip.takeTrap (c : Chip) (core frame : Nat) (word : BitVec 32) (seq : Bool) (cause detail : Nat) (eaddr : Word) : Chip :=
  let f := c.frameAt core frame
  let ec := ecauseOf word seq cause detail
  if cause = 0x0B then (c.exhausted core frame ec eaddr).parkAt core frame false
  else if f.inTrap then c.fatal core frame
  else match c.vectorMiss core f.ctx cause with
    | some page =>
      if f.walkFault.any (·.1 == page) then c.fatal core frame else c.awaitVector core frame page ⟨word, seq, cause, detail, eaddr⟩
    | none => match c.handlerOf core f.ctx cause with
      | none => c.fatal core frame
      | some h => (c.modCore core fun k => k.stopSeq frame).modFrame core frame fun f =>
          { f.enter ((c.coreAt core).swOf frame) h ec eaddr (cause == 0x11) with
            readySince := if f.st = .ready then f.readySince else c.now }

/-- Returning from a trap (R158): the triple and `sw` come back from the saved words. Slots that the handler has stepped over
are passed (log 7). -/
def Frame.leave (f : Frame) : Frame :=
  { f with pc := f.epc, npc := f.enpc, nnpc := f.ennpc, slots := f.eslots.dropWhile (· != f.epc),
           sw := putBits (putBits f.esw 16 15 0) 0 0 1 }

/-! ## Waiting -/

/-- The frame stalls (R127). A wait for a walk also sends the walk request to the die's pool (R186). -/
def Chip.stall (c : Chip) (core frame : Nat) (w : Wait) : Chip :=
  let c := c.modFrame core frame fun f => { f with st := .stalled w }
  match w with
  | .walk page => if c.walking core frame page then c else c.askWalk core frame page
  | _ => c

/-! ## Guards and issue -/

/-- Predicate n of a status word; p0 reads as 1 (R260). -/
def predOf (sw : Word) (n : BitVec 3) : Bool := n == 0 || tst sw n.toNat
/-- The guard as the frame's predicates give it (R261). -/
def guardHolds (g : Guard) (sw : Word) : Bool := predOf sw g.p != g.neg

/-- The links of core n as they stood in another state. -/
def Chip.linksOf (c old : Chip) (n : Nat) : Chip :=
  c.modCore n fun k => { k with links := (old.coreAt n).links, pops := (old.coreAt n).pops }

/-- What the body of a word came to, made the package's next state. -/
def finishWord (word : BitVec 32) (seq : Bool) (body : M Unit) (c : Chip) : Chip :=
  match body { c with word := word } with
  | .ok _ c' => c'
  | .error (.wait w) _ => c.stall c.core c.frame w
  | .error (.hold w) c' => (c'.linksOf c c.core).stall c.core c.frame w
  | .error (.trap k d e) c' => (c'.linksOf c c.core).takeTrap c.core c.frame word seq k d e
/-- What the body of an instruction came to. -/
def finish (i : Instr) (seq : Bool) (body : M Unit) (c : Chip) : Chip := finishWord (causeWord i) seq body c

/-- Whether the issuing frame is capturing a repetition (R269): the vector state is its own, or stands in its saved image
with instructions still to capture. A handler entered since captures nothing (R160). -/
def Chip.capturing (c : Chip) : Bool :=
  let k := c.coreAt c.core
  let f := k.frameAt c.frame
  (k.vec.owner == some c.frame && !k.vec.stopped && decide (0 < k.vec.capturing))
  || (f.savedVec && !f.inTrap && decide (0 < f.savedCap))
/-- A capture dropped whole (R269). -/
def Core.dropCapture (k : Core) (f : Nat) : Core :=
  let k := k.modFrame f fun x => { x with savedCap := 0 }
  if k.vec.owner == some f then { k with vec := { k.vec with capturing := 0, words := [], count := 0 } } else k

/-- The issue of an instruction in the current frame (R261, R290): 0x01 while capturing (R269), 0x02 in a slot where
`slotOk` is false, then the guard, then the body. -/
def issueChip (i : Instr) (slotOk : Bool) (body : M Unit) (c : Chip) : Chip :=
  finish i false (do
    let c ← get
    if c.capturing then
      modCore fun k => k.dropCapture c.frame
      raise 1
    let f ← theFrame
    raiseIf (!slotOk && f.inSlot) 2
    if guardHolds (guardOf i) f.sw then body else advance) c

/-- An instruction that goes on to the next one when its body completes. -/
def plain (i : Instr) (body : M Unit) (s : State) : Host.Outcome State Fault Refusal :=
  .next { s with chip := issueChip i true (do body; advance) s.chip }
/-- An instruction that may not stand in a delay slot (R266) and sets the triple itself. -/
def slotless (i : Instr) (body : M Unit) (s : State) : Host.Outcome State Fault Refusal :=
  .next { s with chip := issueChip i false body s.chip }
/-- An instruction that sets the triple itself. -/
def steers (i : Instr) (body : M Unit) (s : State) : Host.Outcome State Fault Refusal :=
  .next { s with chip := issueChip i true body s.chip }

/-- A step of another agent: the package it leaves, or `notEnabled` where it cannot be the next step (log 5). -/
def event (f : Chip → Option Chip) (s : State) : Host.Outcome State Fault Refusal :=
  match f s.chip with
  | some c => .next { s with chip := c }
  | none => .fault .notEnabled

end Sys2Proof.Machine
end

