-- ==== Sys2Proof/Machine/Flags.lean ====
section
/-! DEFINITION. The computations behind predicates: the ten conditions of a compare (R303), and the predicate bits of
`sw` (R260). -/

namespace Sys2Proof.Machine

/-- A condition on two values (R303): 0 to 5 signed, the rest unsigned. -/
def condHolds (c : Cond) (a b : Word) : Bool :=
  match c with
  | .eq => a == b | .ne => a != b
  | .lt => a.slt b | .le => a.sle b | .gt => b.slt a | .ge => b.sle a
  | .ltu => a.ult b | .geu => b.ule a | .leu => a.ule b | .gtu => b.ult a

/-- The conditions of the immediate form, by code (R281). -/
def condOfCode (n : BitVec 3) : Cond :=
  match n.toNat with
  | 0 => .eq | 1 => .ne | 2 => .lt | 3 => .le | 4 => .gt | 5 => .ge | 6 => .ltu | _ => .geu

/-- A status word with predicate n written; p0 keeps its 1 (R260). -/
def withPred (sw : Word) (n : BitVec 3) (b : Bool) : Word :=
  if n == 0 then sw else putBits sw n.toNat n.toNat b.toNat

/-- Predicate n of the issuing frame. -/
def readPred (n : BitVec 3) : M Bool := do let f ← theFrame; pure (predOf f.sw n)
/-- Write predicate n of the issuing frame. -/
def writePred (n : BitVec 3) (b : Bool) : M Unit := modFrame fun f => { f with sw := withPred f.sw n b }

end Sys2Proof.Machine
end

