-- ==== Sys2Proof/Machine/Operands.lean ====
section
/-! DEFINITION. Operand forms: register fields with links, pending and poisoned registers (R61, R259, R369), access
checks, addresses, and the requests that instructions send (R367 to R369). -/

namespace Sys2Proof.Machine

/-! ## Register fields -/

/-- The general register number of a field, if it names one. -/
def Reg.num : Reg → Option Nat
  | .g n => some n.toNat
  | _ => none

/-- The core a link reaches (R14): row and column modulo 4 inside the signature. -/
def neighbour (core : Nat) (d : Dir) : Nat :=
  let row := core / 4 % 4
  let col := core % 4
  let base := core / 16 * 16
  match d with
  | .east => base + row * 4 + (col + 1) % 4
  | .west => base + row * 4 + (col + 3) % 4
  | .north => base + (row + 3) % 4 * 4 + col
  | .south => base + (row + 1) % 4 * 4 + col
/-- The link by which the neighbour sees this core. -/
def opposite : Dir → Dir
  | .east => .west | .west => .east | .north => .south | .south => .north
/-- The index of a link's queue. -/
def dirIx : Dir → Fin 4
  | .east => 0 | .west => 1 | .north => 2 | .south => 3

/-- Words that can be popped from an incoming link: pushed in an earlier cycle (R15). -/
def Chip.poppable (c : Chip) (core : Nat) (d : Dir) : Nat :=
  (((c.coreAt core).links[dirIx d]).filter fun w => decide (w.2 < c.now)).length
/-- Words that an outgoing link takes now: one in a cycle, if a place is free; a word popped this cycle still holds its place
(R15). -/
def Chip.pushRoom (c : Chip) (core : Nat) (d : Dir) : Nat :=
  let k := c.coreAt (neighbour core d)
  let i := dirIx (opposite d)
  if k.links[i].any fun w => w.2 == c.now then 0
  else min 1 (4 - (k.links[i].length + (k.pops[i].filter (· == c.now)).length))

/-- Pop a word from an incoming link (R15). -/
def popLink (d : Dir) : M Word := do
  let c ← get
  let k := c.coreAt c.core
  match k.links[dirIx d] with
  | [] => notReady (.linkIn d)
  | (w, t) :: r =>
    waitIf (c.now ≤ t) (.linkIn d)
    modCore fun k => { k with
      links := k.links.set (dirIx d) r
      pops := k.pops.set (dirIx d) (c.now :: (k.pops[dirIx d]).filter (· == c.now)) }
    pure w
/-- Push a word onto an outgoing link (R15). -/
def pushLink (d : Dir) (v : Word) : M Unit := do
  let c ← get
  waitIf (c.pushRoom c.core d == 0) (.linkOut d)
  set (c.modCore (neighbour c.core d) fun k =>
    { k with links := k.links.set (dirIx (opposite d)) (k.links[dirIx (opposite d)] ++ [(v, c.now)]) })

/-- Whether a register, by its code, awaits a reply, the divider or a result of the vector unit (R61, R291, R326): a general
register, or a link. -/
def Core.pendingReg (k : Core) (f n : Nat) : Bool :=
  (k.reqs.any fun p => p.2.owner == .frame f &&
    (match p.2.want with
     | .load (.g r) _ | .stored (.g r) _ => r.toNat == n
     | _ => false))
  || (match k.divide with
      | some d => d.frame == f && d.thread == (k.frameAt f).thread && d.dest.code == n
      | none => false)
  || (k.vec.writes.any fun w => w.frame == f && (match w.dest with | .g r _ => r.code == n | _ => false))

/-- A refusal taken off a frame's list, and raised (R369). -/
def reportRefusal (p : Refusal_ → Bool) : M Unit := do
  let f ← theFrame
  match f.refusals.find? p with
  | none => pure ()
  | some r => do
    modFrame fun f => { f with refusals := f.refusals.erase r }
    raise r.cause r.eaddr r.detail

/-- The registers that the captured words of a running repetition name, by code, when this frame owns it (R326). -/
def Core.shared (k : Core) (regsOf : BitVec 32 → List Nat) (f n : Nat) : Bool :=
  k.sequencing f && k.vec.words.any fun w => (regsOf w).contains n

/-- The scalar register of a class 100 word, by its code (R326): a link is one too. -/
def scalarsOf (w : BitVec 32) : List Nat :=
  match decode w with
  | some (.vbcst _ _ _ _ a _) | some (.vld _ _ _ _ a _) | some (.vldG _ _ _ _ a _)
  | some (.vst _ _ _ _ a _) | some (.vstG _ _ _ _ a _) | some (.vgather _ _ _ _ a _)
  | some (.vscatter _ _ _ _ a _) | some (.vamo _ _ _ _ a _) | some (.vamoG _ _ _ _ a _)
  | some (.vext _ _ _ a ..) => [a.code]
  | _ => []

/-- The checks on one named register (R61, R326, R369): it stalls while pending or shared with the sequencer, and
reports a refusal of its request. Nothing is shared in `zr`. -/
def checkReg (r : Reg) : M Unit :=
  match r with
  | .g n => do
    let c ← get
    let k := c.coreAt c.core
    waitIf (k.pendingReg c.frame n.toNat) (.reg n.toNat)
    waitIf (k.shared scalarsOf c.frame n.toNat) .sequencer
    reportRefusal fun x => x.reg == some n.toNat
  | .zr => pure ()
  | r => do
    let c ← get
    let k := c.coreAt c.core
    waitIf (k.pendingReg c.frame r.code) (.reg r.code)
    waitIf (k.shared scalarsOf c.frame r.code) .sequencer

/-- The sequencer's own register checks: pending results and refusals only (R326). -/
def checkRegSeq (r : Reg) : M Unit :=
  match r with
  | .g n => do
    let c ← get
    waitIf ((c.coreAt c.core).pendingReg c.frame n.toNat) (.reg n.toNat)
    reportRefusal fun x => x.reg == some n.toNat
  | .zr => pure ()
  | r => do
    let c ← get
    waitIf ((c.coreAt c.core).pendingReg c.frame r.code) (.reg r.code)

/-- A poisoned register read raises 0x0E, detail 0x52 (R61). -/
def checkPoison (r : Reg) : M Unit :=
  match r with
  | .g n => do
    let f ← theFrame
    match f.poisoned.find? fun p => p.1 == n.toNat with
    | some p => raise 0x0E p.2 0x52
    | none => pure ()
  | _ => pure ()

/-- Links: every word needed can be popped, and every push has room (R259). -/
def checkLinks (src dst : List Reg) : M Unit := do
  let c ← get
  for d in [Dir.east, .west, .north, .south] do
    waitIf (c.poppable c.core d < src.count (.link d)) (.linkIn d)
    waitIf (c.pushRoom c.core d < dst.count (.link d)) (.linkOut d)

/-- The register fields of an instruction made ready: sources and destinations in any order (R61, R259, R369). -/
def use (src dst : List Reg) : M Unit := do
  for r in src ++ dst do checkReg r
  for r in src do checkPoison r
  checkLinks src dst

/-- The header word of a postbox arrival (R22). It shows and counts the arrivals that wait for a frame, not those held for
their turn (R150, log 65). An exhaustion record is an active message (R166). -/
def headerOf (m : Msg) (waiting : Nat) : Word :=
  let kind := match m.body with | .active .. | .exhaustion _ => 4 | .migrate .. => 5 | _ => 6
  let len := match m.body with
    | .active _ _ b | .exhaustion b => 1 + (b.length + 31) / 32
    | .migrate .. => 6
    | _ => 1
  BitVec.ofNat 64 (kind * 2 ^ 56 + len * 2 ^ 52 + m.frank.ctx * 2 ^ 42 + m.frank.sup.toNat * 2 ^ 41 + m.frank.core * 2 ^ 26
    + m.frank.pkg * 2 ^ 14 + waiting * 2 ^ 8)

/-- The identity word (R20). -/
def Chip.idWord (c : Chip) : Word :=
  BitVec.ofNat 64 ((c.frameAt c.core c.frame).ctx * 2 ^ 48 + c.pkg * 2 ^ 32 + c.frame * 2 ^ 16 + c.core)

/-- G(f): read a register field (R259). -/
def rd (r : Reg) : M Word :=
  match r with
  | .g n => do let f ← theFrame; pure (f.g[n.toFin])
  | .zr => pure 0
  | .link d => popLink d
  | .mb => do
    let k ← theCore
    match k.postbox with
    | [] => pure 0
    | m :: _ => pure (headerOf m k.postbox.length)
  | .cy => do let c ← get; pure (BitVec.ofNat 64 (c.now - c.started))
  | .id => do let c ← get; pure c.idWord

/-- A frame with a general register written: the write clears its poison. -/
def Frame.setReg (f : Frame) (n : BitVec 4) (v : Word) : Frame :=
  { f with g := f.g.set n.toFin v, poisoned := f.poisoned.filter fun p => p.1 != n.toNat }

/-- SetG(f, v): write a register field (R259). -/
def wr (r : Reg) (v : Word) : M Unit :=
  match r with
  | .g n => modFrame fun f => f.setReg n v
  | .link d => pushLink d v
  | _ => pure ()

/-! ## Holds -/

/-- The instruction waits while the sequencer runs for its frame (R326, R367). -/
def notSequencing : M Unit := do
  let c ← get
  let k := c.coreAt c.core
  waitIf (k.sequencing c.frame) .sequencer

/-- No earlier acquire of the thread is outstanding (R71); a refused one is reported (R369). -/
def acquired : M Unit := do
  let c ← get
  waitIf ((c.coreAt c.core).reqs.any fun p => p.2.owner == .frame c.frame && p.2.acq) .acquire
  reportRefusal (·.acq)

/-- A held access: memory, message, engine, object and vector-memory instructions wait for the sequencer (R367) and for
an earlier acquire (R71, R371); a refused acquire is reported here (R369). -/
def access : M Unit := do
  notSequencing
  acquired

/-- Whether a scope holds a home, for a core (R69). -/
def Chip.inScope (c : Chip) (s : Scope) (core : Nat) (p : Place) : Bool :=
  match s with
  | .thr | .sys => true
  | .pkg => p.pkg == c.pkg && (match p.home with | .host => false | _ => true)
  | _ => p.pkg == c.pkg && (match p.home with
    | .core n => (match s with
      | .core => n == core | .sig => sigOf n == sigOf core | .qre => quireOf n == quireOf core
      | _ => dieOf n == dieOf core)
    | .hbm st _ => s == .die && st == dieOf core
    | _ => false)

/-- Whether a thread has an engine command not yet completed (R70, R348). -/
def Core.commandsOf (k : Core) (thread : Nat) : Bool :=
  (k.mxq ++ k.cpq).any fun m => m.thread == thread
/-- Requests of an owner to homes in a scope that have not been answered. -/
def Chip.openIn (c : Chip) (core : Nat) (o : Owner) (s : Scope) (p : Req → Bool) : Bool :=
  (c.coreAt core).reqs.any fun r => r.2.owner == o && c.inScope s core r.2.msg.dest && p r.2
/-- A request that returns a value: a read, or `rsc` (R73, R368, R372). -/
def Req.isRead (r : Req) : Bool :=
  match r.want with
  | .load .. | .vpart .. | .stored .. => true
  | _ => false
/-- Whether the release of a frame at a scope holds (R70). -/
def Chip.released (c : Chip) (core frame : Nat) (s : Scope) : Bool :=
  !c.openIn core (.frame frame) s (fun _ => true) && !(c.coreAt core).commandsOf (c.frameAt core frame).thread

/-- A release at a scope: refusals are reported, then earlier accesses and commands complete (R70, R369). -/
def release (s : Scope) : M Unit := do
  reportRefusal fun _ => true
  let c ← get
  waitIf (!c.released c.core c.frame s) (.release s)
/-- A release if the instruction carries one. -/
def releaseIf (q : Option Scope) : M Unit := match q with | none => pure () | some s => release s
/-- Earlier reads of homes in a scope have been performed (R73). -/
def readsDone (s : Scope) : M Unit := do
  reportRefusal fun _ => true
  let c ← get
  waitIf (c.openIn c.core (.frame c.frame) s Req.isRead) (.reads s)

/-- The bytes a request touches in a scratchpad. -/
def spans (m : Msg) : List (Nat × Nat) :=
  match m.body with
  | .put d ctr => (m.addr, d.length) :: (match ctr with | some o => [(o, 8)] | none => [])
  | .piece d => [(m.addr, d.length)]
  | .get n | .reserve n | .condStore n _ _ => [(m.addr, n)]
  | .active _ _ d => if d.isEmpty then [(m.addr / 64 * 64, 64)] else [(m.addr, d.length)]
  | .reduce .. => [(m.addr, 8)]
  | .vreduce .. => [(m.addr, 4)]
  | _ => []
/-- The banks that a byte range touches: bank of a byte is bits 8:6 of its offset (R18). -/
def banksOf (s : Nat × Nat) : List Nat :=
  (List.range ((s.1 + (s.2 - 1)) / 64 - s.1 / 64 + 1)).map fun i => (s.1 / 64 + i) % 8
/-- Two byte ranges of one scratchpad that meet in a bank. -/
def bankMeets (x y : Nat × Nat) : Bool := (banksOf x).any (banksOf y).contains
/-- Whether a message of a thread to its own core, which may not have been performed yet, stands before its access to a range
there: they meet in a bank, which is their home (R54, R68). -/
def Chip.ahead (c : Chip) (core frame a n : Nat) : Bool :=
  (c.coreAt core).reqs.any fun r => r.2.owner == .frame frame && r.2.msg.dest == ⟨c.pkg, .core core⟩
    && ((spans r.2.msg).isEmpty || (spans r.2.msg).any fun x => bankMeets x (a, n))
/-- The thread's earlier messages to a range of its own core are performed first (R68). -/
def inOrder (a n : Nat) : M Unit := do
  let c ← get
  waitIf (c.ahead c.core c.frame a n) (.home a n)

/-! ## Ownership -/

/-- The saved image read back when a frame takes ownership (R161, R162): v, k and the repetition buffer, or a0 to a3. -/
def Core.restoreVec (k : Core) (m : Memory) (bad : Nat → Bool) (a now cap : Nat) (inTrap : Bool) : Core :=
  let words := (List.range 16).map fun i => BitVec.ofNat 32 (rdLe m (a + 0x840 + 4 * i) 4)
  let st := rd64 m (a + 0x880)
  let count := bits st 4 0
  let invalid := (words.take count).any fun w => w.toNat / 2 ^ 29 != 4
  { k with vec := { k.vec with
      v := Vector.ofFn fun i => BitVec.ofNat 512 (rdLe m (a + 64 * i.val) 64)
      k := Vector.ofFn fun i => rd64 m (a + 0x800 + 8 * i.val)
      words := if invalid then [] else words.take count
      count := if invalid then 0 else count
      poisoned := ((List.range 32).filter fun i => bad (a + 64 * i)).map fun i => (i, BitVec.ofNat 64 (a + 64 * i))
      position := bits st 12 8
      stride := bits st 20 16
      remaining := bits st 63 32
      iteration := rdLe m (a + 0x888) 4
      running := !invalid && count != 0 && cap == 0 && bits st 63 32 != 0
      stopped := inTrap
      capturing := if invalid then 0 else cap
      nextAt := now } }
/-- Whether a saved image holds a word outside class 100 (R328). -/
def imageBad (m : Memory) (a : Nat) : Bool :=
  let count := bits (rd64 m (a + 0x880)) 4 0
  (List.range count).any fun i => rdLe m (a + 0x840 + 4 * i) 4 / 2 ^ 29 != 4
/-- The accumulators of a saved image (R162). -/
def Core.restoreAcc (k : Core) (m : Memory) (a : Nat) : Core :=
  { k with acc := (List.range 1024).foldl (fun t i => tset t i (BitVec.ofNat 32 (rdLe m (a + 0x8C0 + 4 * i) 4))) k.acc }

/-- Take the vector state (R161): not ready while another frame owns it; a saved image is read back first, and a
capture found no longer valid raises 0x0E, detail 0x24 (R328). A repetition that the image holds goes on before the
instruction (R326). -/
def takeVector : M Unit := do
  let c ← get
  let k := c.coreAt c.core
  match k.vec.owner with
  | some f => waitIf (f != c.frame) .vectorOwner
  | none => do
    let f ← theFrame
    modCore fun k => { k with vec := { k.vec with owner := some c.frame } }
    if f.esave != 0 then
      let a := f.esave.toNat
      if f.savedAcc then
        waitIf (k.mowner.isSome && k.mowner != some c.frame) .matrixOwner
        modCore fun k => { k.restoreAcc c.hbm a with mowner := some c.frame }
      if f.savedVec then modCore fun k => k.restoreVec c.hbm (fun x => c.poisonAt (hbmHome x) x 64) a c.now f.savedCap f.inTrap
      modFrame fun f => { f with esave := 0, savedVec := false, savedCap := 0, savedAcc := false }
      raiseIf (f.savedVec && imageBad c.hbm a) 0x0E 0 0x24
      let k ← theCore
      if k.sequencing c.frame then throw (.hold .sequencer)
/-- Take the matrix state (R161). -/
def takeMatrix : M Unit := do
  let c ← get
  let k := c.coreAt c.core
  waitIf (k.mowner.isSome && k.mowner != some c.frame) .matrixOwner
  modCore fun k => { k with mowner := some c.frame }

/-- A vector register ready to be read by a scalar-side instruction (R326, R341): not pending, its refusal reported. -/
def vectorReady (v : Nat) : M Unit := do
  let c ← get
  let k := c.coreAt c.core
  waitIf (k.reqs.any fun p => match p.2.want with | .vpart x _ => x == v | _ => false) (.vreg v)
  waitIf (k.vec.writes.any fun w => match w.dest with | .v n _ _ | .low n _ _ => n == v | _ => false) (.vreg v)
  reportRefusal fun x => x.vreg == some v
  match k.vec.poisoned.find? fun p => p.1 == v with
  | some p => raise 0x0E p.2 0x23
  | none => pure ()

/-! ## Addresses -/

/-- Whether a physical range meets an area of len bytes on the pages given (R244). -/
def inArea (pages : List Nat) (len a n : Nat) : Bool :=
  pages.zipIdx.any fun p => overlap p.1 (min (2 ^ 16) (len - p.2 * 2 ^ 16)) a n
/-- Whether a physical range lies in a gossip replica or shadow area, where plain stores are refused (R245). -/
def Chip.inRegion (c : Chip) (a n : Nat) : Bool :=
  c.regions.any fun r => inArea r.pages (8 * (r.n + 1)) a n || inArea r.spages (24 * (r.n + 1)) a n

/-- A translation at issue (R53, R182, R186): the traps of the address, a fault that a walk brought back, then the cache;
a miss waits for its walk. A store into a gossip region raises 0x07 (R245). -/
def Chip.lookup (c : Chip) (va : Word) (need : Need) (object : Bool) : Except Stop Phys :=
  let f := c.frameAt c.core c.frame
  let page := va.toNat / 2 ^ 16
  match addrCheck va f.sup with
  | some k => .error (.trap k 0 va)
  | none =>
    match f.walkFault.bind fun p => if p.1 == page then some p.2 else none with
    | some k => .error (.trap k 0 va)
    | none =>
      match c.cached (sigOf c.core) f.ctx va.toNat with
      | none => .error (.wait (.walk page))
      | some (leaf, size) =>
        if leafRights leaf need object
          && !(need == .w && (c.placeOf ⟨leaf, size, 0⟩).pkg == c.pkg && bits leaf 11 10 < 2
            && c.inRegion (leafAddr leaf size va.toNat) 1) then
          .ok ⟨leaf, size, leafAddr leaf size va.toNat⟩
        else .error (.trap 7 0 va)

/-- A stop passed on; a fault that a walk brought back is used up by its trap. -/
def stopped {α : Type} (e : Stop) : M α := do
  modFrame fun f => { f with walkFault := none }
  throw e

/-- The translation of an address at issue. -/
def translate (va : Word) (need : Need) (object : Bool := false) : M Phys := do
  let c ← get
  match c.lookup va need object with
  | .ok p => pure p
  | .error e => stopped e

/-- The bytes of a size (R276). -/
def sizeBytes : Size → Nat
  | .b8 => 1 | .b16 => 2 | .b32 => 4 | .b64 => 8
/-- The low n bytes of a word, zero-extended. -/
def zeroExt (v : Word) (n : Nat) : Word := BitVec.ofNat 64 (v.toNat % 2 ^ (8 * n))
/-- The low n bytes of a word, sign-extended. -/
def signExt (v : Word) (n : Nat) : Word :=
  match n with
  | 1 => (v.setWidth 8).signExtend 64
  | 2 => (v.setWidth 16).signExtend 64
  | 4 => (v.setWidth 32).signExtend 64
  | _ => v

/-- Where a message target lies (R376): a core of some package, or a translated virtual address. -/
inductive Target where
  | ref (pkg core off : Nat)
  | virt (p : Phys)
  deriving DecidableEq, Repr

/-- Package, core and offset of a reference (R376, R132). -/
def refPkg (w : Word) : Nat := bits w 45 34
/-- Core number of a reference. -/
def refCore (w : Word) : Nat := bits w 33 19
/-- Offset of a reference. -/
def refOff (w : Word) : Nat := bits w 17 0
/-- A reference with a nonzero field that must be zero (R376). -/
def refBad (w : Word) : Bool := bits w 62 46 != 0 || tst w 18

/-- The checks of a target word, in order (R376), for n bytes aligned to `al`. -/
def targetOf (w : Word) (n al : Nat) (need : Need) : M Target := do
  raiseIf (tst w 63 && refBad w) 4 w
  raiseIf (w.toNat % al != 0) 3 w
  if tst w 63 then
    raiseIf (refOff w + n > Config.dataEnd) 4 w
    pure (.ref (refPkg w) (refCore w) (refOff w))
  else
    let p ← translate w need
    pure (.virt p)

/-- The place and the address of a target. -/
def Chip.destOf (c : Chip) : Target → Place × Nat
  | .ref pkg core off => (⟨pkg, .core core⟩, off)
  | .virt p => (c.placeOf p, p.pa)

/-! ## Requests -/

/-- Reply slots in use: returning requests hold one (R61, R368). -/
def Core.slotsUsed (k : Core) : Nat :=
  (k.reqs.filter fun p => match p.2.want with | .load .. | .stored .. | .vpart .. => true | _ => false).length
/-- Write-tracker entries in use (R368). -/
def Core.trackerUsed (k : Core) : Nat := (k.reqs.filter fun p => p.2.want == .posted).length

/-- A message on its way: on this package in flight, else waiting in the package switch (R196, R198). -/
def Chip.post (c : Chip) (m : Msg) : Chip :=
  if m.dest.pkg == c.pkg then { c with net := c.net ++ [m] } else { c with out := c.out ++ [⟨m, c.now⟩] }

/-- The lowest reply slot that no request holds (R61, R199). -/
def Core.nextSlot (k : Core) : Nat := ((List.range 64).find? fun n => !k.reqs.any fun p => p.2.slot == n).getD 0
/-- A request recorded at its core and sent. -/
def Chip.ask (c : Chip) (core : Nat) (owner : Owner) (want : Want) (acq : Bool) (m : Msg) : Chip :=
  let m := { m with id := c.nextReq }
  (({ c with nextReq := c.nextReq + 1 }).modCore core fun k =>
    { k with reqs := tset k.reqs c.nextReq ⟨owner, want, m, acq, c.word, c.now, none, match want with | .posted | .piece .. | .listed => 64 | _ => k.nextSlot⟩ }).post m

/-- log2 of the page that an address of a context lies in, by its leaf: 16 where it has none. -/
def Chip.shiftAt (c : Chip) (core ctx va : Nat) : Nat :=
  (((c.cached (sigOf core) ctx va).orElse fun _ => c.walk ctx va).map fun p => pageShift p.2).getD 16
/-- Whether a request names an address in the page of another address, a page of 2^sh bytes. -/
def inPage (m : Msg) (sh : Nat) (va : Word) : Bool := !tst m.va 63 && m.va.toNat / 2 ^ sh == va.toNat / 2 ^ sh
/-- Whether a page-moved answer of an owner's request to a page waits for its reissue (R191). -/
def Core.reissuing (k : Core) (o : Owner) (sh : Nat) (va : Word) : Bool :=
  k.reqs.any fun p => p.2.owner == o && p.2.retry.isSome && inPage p.2.msg sh va

/-- The page of memory that a request is for: the package, whether it is host memory, and the number of the page. -/
def pageBlock (sh : Nat) (dest : Place) (addr : Nat) : Nat × Bool × Nat := (dest.pkg, dest.home == .host, addr / 2 ^ sh)
/-- Whether an owner's request to a virtual page must wait for an earlier one (R191): one that is to be issued again, or one that
stands before the old home of the page. -/
def Core.behind (k : Core) (o : Owner) (sh : Nat) (va : Word) (dest : Place) (addr : Nat) : Bool :=
  k.reqs.any fun p => p.2.owner == o && inPage p.2.msg sh va
    && (p.2.retry.isSome || pageBlock sh p.2.msg.dest p.2.msg.addr != pageBlock sh dest addr)
/-- Whether a request of the issuing frame must wait for an earlier one to its page (R191). -/
def Chip.behind (c : Chip) (va : Word) (dest : Place) (addr : Nat) : Bool :=
  (c.coreAt c.core).behind (.frame c.frame) (c.shiftAt c.core (c.frameAt c.core c.frame).ctx va.toNat) va dest addr

/-- The issuing thread's requests to a page wait behind those to be issued again, and those that may have to be (R191). -/
def holdMoved (va : Word) (dest : Place) (addr : Nat) : M Unit := do
  let c ← get
  waitIf (!tst va 63 && c.behind va dest addr) (.moved (va.toNat / 2 ^ 16))

/-- Send a request of the issuing frame (R368): a returning one needs a reply slot, a posted one a tracker entry. -/
def send (want : Want) (acq : Bool) (dest : Place) (addr : Nat) (va : Word) (scope : Option Scope) (body : Body) : M Unit := do
  let c ← get
  let k := c.coreAt c.core
  let f := c.frameAt c.core c.frame
  holdMoved va dest addr
  match want with
  | .posted => waitIf (128 ≤ k.trackerUsed) .tracker
  | .load .. | .stored .. | .vpart .. => waitIf (64 ≤ k.slotsUsed) .replySlots
  | _ => pure ()
  set (c.ask c.core (.frame c.frame) want acq
    ⟨0, c.frankOf c.core c.frame, dest, addr, va, scope, f.pri, none, 0, 0, body, none, false⟩)

/-- The issuing frame stalls on the answer to the request it has just sent (R387). -/
def awaitAnswer : M Unit := do
  let c ← get
  modFrame fun f => { f with st := .stalled (.answer (c.nextReq - 1)) }

end Sys2Proof.Machine
end

