-- ==== Sys2Proof/Machine/Tasks.lean ====
section
/-! DEFINITION. Launches as tasks see them, join blocks, spawning, frames that start and end (R127, R131 to R150). -/

namespace Sys2Proof.Machine

/-! ## Launch records (R113, R114) -/

/-- mode: 0 free, 1 deterministic with logging, 2 replay. -/
def Launch.mode (l : Launch) : Nat := field l.record 67 1 % 4
/-- Priority class. -/
def Launch.pri (l : Launch) : Nat := field l.record 66 1 % 4
/-- A level entry's domain code. -/
def Launch.domain (l : Launch) (i : Nat) : Nat := field l.record (128 + 16 * i) 1
/-- Levels in use. -/
def Launch.nlev (l : Launch) : Nat := field l.record 68 1
/-- Cores in one unit of a domain (R115). -/
def domainCores (d : Nat) : Nat :=
  match d with | 0 => 1 | 1 => 1 | 2 => 16 | 3 => 256 | 4 => 4096 | _ => 32768
/-- The launch a frame runs in. -/
def Chip.launchOf (c : Chip) (l : Option Nat) : Option Launch := l.bind (tfind c.launches)
/-- The mode of a thread: 0 where it holds no task of a launch (R410). -/
def Chip.modeOf (c : Chip) (l : Option Nat) : Nat := match c.launchOf l with | some x => x.mode | none => 0
/-- Whether a launch holds a reservation on a core. -/
def Chip.holds (c : Chip) (l core : Nat) : Bool :=
  match tfind c.launches l with | some x => x.placed && x.cores.contains core | none => false

/-- `mix(n, k)` (R136). -/
def mixName (n k : Nat) : Nat := (n * 0x10001 + k + 1) % 2 ^ 30
/-- `placecore(n)` among N cores (R149). -/
def placeIndex (n count : Nat) : Nat := n % 2 ^ 30 * 0x9E3779B1 % 2 ^ 32 * count / 2 ^ 32
/-- The core a spawn pushes to: this one in mode 0, else by the hash of the child's name among the cores of the
spawner's level-0 unit (R136, R149). -/
def Chip.placeCore (c : Chip) (core : Nat) (launch : Option Nat) (name : Nat) : Nat :=
  match c.launchOf launch with
  | none => core
  | some l =>
    if l.mode = 0 then core else
    let unit := domainCores (l.domain 0)
    let mine := l.cores.filter fun k => k / unit == core / unit
    mine.getD (placeIndex name mine.length) core

/-! ## Join blocks -/

/-- A reference word (R132, R376). -/
def refWord (pkg core off : Nat) : Word := BitVec.ofNat 64 (2 ^ 63 + pkg * 2 ^ 34 + core * 2 ^ 19 + off)

/-- The update of a count-down: count - 1 and merged + 1 in one step (R142). -/
def Core.countDown (k : Core) (o : Nat) : Core := k.padUpdate [(o + 16, (· + 1)), (o, (· - 1))]
/-- merged of a join block (R133). -/
def Core.merged (k : Core) (o : Nat) : Nat := (rd64 k.pad (o + 16)).toNat

/-- One step of the reduction of `red` (R381). -/
def amoApply (k : Amo) (n : Nat) (w s : Nat) : Nat :=
  let m := 2 ^ (8 * n)
  let sg := fun (x : Nat) => if x < m / 2 then (x : Int) else (x : Int) - m
  match k with
  | .add => (w + s) % m | .and => w &&& s | .or => w ||| s | .xor => w ^^^ s
  | .min => if sg s < sg w then s else w
  | .max => if sg w < sg s then s else w
  | .minu => if s < w then s else w
  | .maxu => if w < s then s else w
  | .swap => s

/-- A held count-down or reduction performed at its block (R150). -/
def Core.performHeld (k : Core) (m : Msg) : Core :=
  match m.body with
  | .reduce op v => k.padWrite m.addr (toLe 8 (amoApply op 8 (rd64 k.pad m.addr).toNat v.toNat)) .update
  | _ => k.countDown m.addr

/-- The block a held arrival waits for: a reduction names the acc word at 8 (R150). -/
def blockOf (m : Msg) : Nat := match m.body with | .reduce .. => m.addr - 8 | _ => m.addr

/-- Whether an arrival must be held: it carries a sib that merged has not reached (R150). -/
def Core.mustHold (k : Core) (m : Msg) : Bool :=
  match m.sib with | some s => k.merged (blockOf m) % 2 ^ 16 != s | none => false

/-- The answer of a home to a request, sent to the core that its franking names (R200, R369). -/
def Chip.answer (c : Chip) (m : Msg) (body : Body) : Chip :=
  let core := match m.dest.home with | .core n => n | _ => m.frank.core
  c.post { m with frank := { m.frank with pkg := c.pkg, core := core }, dest := ⟨m.frank.pkg, .core m.frank.core⟩, addr := 0,
                  scope := none, sib := none, pmark := 0, epoch := 0, body := body, lctx := none, waits := false }

/-- Held arrivals that have come to be in order, performed in ascending order (R150); a reduction is acknowledged when
it is performed. -/
def Chip.settleHeld (c : Chip) (core : Nat) : Nat → Chip
  | 0 => c
  | n + 1 =>
    let k := c.coreAt core
    match k.held.find? fun m => !k.mustHold m with
    | none => c
    | some m =>
      let c := c.modCore core fun k => { k.performHeld m with held := k.held.erase m }
      let c := match m.body with | .reduce .. => c.answer m (.ack 0) | _ => c
      c.settleHeld core n

/-- Arrivals that occupy postbox entries: those that wait for a frame and those held (R22, R150). -/
def Core.postboxUsed (k : Core) : Nat := k.postbox.length + k.held.length

/-- A count-down or an ordered reduction at its block's core: performed, or held (R150). The hold that takes the last of the 32
postbox entries for held arrivals raises 0x0B, kind 3, to the quire's supervisor frame. -/
def Chip.arriveOrdered (c : Chip) (core : Nat) (m : Msg) : Chip :=
  let k := c.coreAt core
  if k.mustHold m then
    let c := c.modCore core fun k => { k with held := k.held ++ [m] }
    if (c.coreAt core).held.length = 32 then c.exhausted core 0x7F (ecauseOf 0 false 0x0B 3) 0 else c
  else
    let c := c.modCore core fun k => k.performHeld m
    let c := match m.body with | .reduce .. => c.answer m (.ack 0) | _ => c
    c.settleHeld core 32

/-- The message of a thread's count-down (R142): none without a join reference. -/
def countDownMsg (pkg core frame ctx : Nat) (sup : Bool) (pri : Nat) (tjoin tname : Word) (ordered : Bool) (launch : Option Nat) : Option Msg :=
  if tst tjoin 63 then
    some ⟨0, ⟨pkg, core, ctx, sup, frame, launch⟩, ⟨refPkg tjoin, .core (refCore tjoin)⟩, refOff tjoin, tjoin, some .sys, pri,
      if ordered then some (bits tname 61 46) else none, 0, 0, .countDown, none, false⟩
  else none

/-- A count-down made: at once on this core, else as a message to the block's home (R142). One that must be held while no
postbox entry is free waits as a message does (R22, R150). -/
def Chip.sendCountDown (c : Chip) (core : Nat) : Option Msg → Chip
  | none => c
  | some m =>
    if m.dest == ⟨c.pkg, .core core⟩ && !((c.coreAt core).mustHold m && decide (32 ≤ (c.coreAt core).postboxUsed)) then
      c.arriveOrdered core m
    else c.post m

/-! ## Frames that end -/

/-- A claim word written at its element's home: the words that hold st 1 or 3 are the ones that keep a page from being
sealed (R221, R226). -/
def Chip.setClaim (c : Chip) (pa : Nat) (w : Word) : Chip :=
  let c := c.write64 (hbmHome pa) pa w
  let rest := c.claimed.filter (· != pa)
  { c with claimed := if bits w 63 62 % 2 = 1 then pa :: rest else rest }

/-- A claim that `mclaim` left, given back (R233): the word is cleared here, or by a message to the mesh's package. -/
def Chip.dropClaim (c : Chip) (core frame : Nat) (q : Claim) : Chip :=
  match q.word with
  | some pa => c.setClaim pa 0
  | none => c.post ⟨0, c.frankOf core frame, q.dest, q.addr, q.va, none, 0, none, 0, 0, .object .mrel q.gh 0, none, false⟩
/-- The claims of a frame given back. -/
def Chip.dropClaims (c : Chip) (core frame : Nat) (l : List Claim) : Chip :=
  l.foldl (fun c q => c.dropClaim core frame q) c

/-- The vector state without an owner, its sequencer idle and its repetition buffer empty (R161, R269). -/
def Vec.disown (v : Vec) : Vec :=
  { v with owner := none, words := [], count := 0, running := false, stopped := false, capturing := 0,
           writes := [], stage := [], poisoned := v.poisoned.filter (fun p => decide (p.1 < 32)), lost := [] }
/-- The ownership that a party holds ends (R161). A tail's tracker entry t owns as party 128 + t. -/
def Core.disown (k : Core) (party : Nat) : Core :=
  let k := if k.vec.owner == some party then { k with vec := k.vec.disown } else k
  if k.mowner == some party then { k with mowner := none } else k
/-- The party of a tail's tracker entry. -/
def tailParty (t : Nat) : Nat := 128 + t
/-- A frame's ownership passed to the tracker entry of its tail, until the drain ends (R142, R161). -/
def Core.passOwner (k : Core) (frame t : Nat) : Core :=
  let k := if k.vec.owner == some frame then { k with vec := { k.vec with owner := some (tailParty t) } } else k
  if k.mowner == some frame then { k with mowner := some (tailParty t) } else k

/-- A frame whose thread has ended (R127): its registers stay as they are until another thread starts in it. -/
def Frame.vacate (f : Frame) : Frame :=
  { f with
    st := .free, ctx := 0, launch := none, origin := none, refusals := [], resv := none, claims := [], preempt := none,
    engErr := [], walkFault := none, trapping := none, far := [], promoted := 0, slots := [], eslots := [], fatal := false, savedVec := false,
    savedCap := 0, savedAcc := false }

/-- A frame freed: ownership ends (R161), held claims are released (R233), its reservation stays, and a pre-emption that
waited finds no thread (R164). -/
def Chip.freeFrame (c : Chip) (core frame : Nat) : Chip :=
  let f := c.frameAt core frame
  let c := c.dropClaims core frame f.claims
  let c := c.reportPreempt f.preempt 1
  c.modCore core fun k => (k.modFrame frame Frame.vacate).disown frame

/-- Whether every access and engine command of an owner has completed, and every result on its way to it is written
(R61, R142). -/
def Chip.drained (c : Chip) (core : Nat) (o : Owner) (thread : Nat) : Bool :=
  let k := c.coreAt core
  !(k.reqs.any fun r => r.2.owner == o) && !k.commandsOf thread
  && !(k.vec.writes.any fun w => o == .frame w.frame)
  && !(match k.divide with | some d => o == .frame d.frame && d.thread == thread | none => false)

/-! ## Frames that start -/

/-- `sw` of a fresh frame (R264, R265). -/
def freshSw (pri : Nat) (sup : Bool) : Word := BitVec.ofNat 64 (pri * 2 ^ 30 + sup.toNat * 2 ^ 19 + 1)

/-- A join field with its reserved bits zero, as `tjoin` reads (R6, R132). -/
def joinField (j : Word) : Word := j &&& 0x80003FFFFFFBFFFF
/-- The frame of a task (R24). -/
def Chip.taskFrame (c : Chip) (t : Task) (old : Frame) : Frame :=
  { Frame.reset with
    g := ((Vector.replicate 16 (0 : Word)).set 0 t.arg).set 1 t.join
    pc := t.entry, npc := t.entry + 4, nnpc := t.entry + 8
    sw := freshSw (bits t.word 63 62) t.sup
    st := .ready, tname := t.word, tjoin := joinField t.join, ctx := t.ctx, launch := t.launch
    reservedFor := old.reservedFor, thread := c.nextThread, readySince := c.now }

/-- The lowest free frame that satisfies a test: one whose thread has ended by its count-down takes another a cycle after that
(R142, log 80). -/
def Core.lowest (k : Core) (now : Nat) (p : Frame → Bool) : Option Nat :=
  (List.range Config.frames).find? fun f => (k.frameAt f).st == .free && decide ((k.frameAt f).freeAt ≤ now) && p (k.frameAt f)

/-- Whether a context still takes arrivals (R86). -/
def Chip.ctxOpen (c : Chip) (n : Nat) : Bool :=
  match (c.ctxAt n).st with | .killing | .closing | .free => false | _ => true

/-- A frame's whole image written: its granules are sound again (R453). -/
def Core.freshImage (k : Core) (frame : Nat) : Core :=
  { k with padPoison := k.padPoison.filter fun d => decide (d < (0x2C000 + 160 * frame) / 8) || decide ((0x2C000 + 160 * frame) / 8 + 20 ≤ d) }
/-- A thread started in a frame. -/
def Chip.startIn (c : Chip) (core frame : Nat) (u : Frame → Frame) : Chip :=
  { c.modCore core fun k => (k.modFrame frame u).freshImage frame with nextThread := c.nextThread + 1 }
/-- Start a task in a frame. -/
def Chip.startTask (c : Chip) (core frame : Nat) (t : Task) : Chip := c.startIn core frame (c.taskFrame t)

/-! ## Spawning -/

/-- A scratchpad read by an instruction itself, in its place among its thread's accesses (R68): poisoned data raises 0x0E,
detail 0x52 (log 21). -/
def spad (a n : Nat) : M Nat := do
  inOrder a n
  let c ← get
  raiseIf (c.poisonAt (.core c.core) a n) 0x0E (BitVec.ofNat 64 a) 0x52
  pure (c.readNat (.core c.core) a n)
/-- A doubleword of the issuing core's scratchpad. -/
def spad64 (a : Nat) : M Word := do let n ← spad a 8; pure (BitVec.ofNat 64 n)
/-- A write to the issuing core's data banks. -/
def spadWrite (a n v : Nat) (kind : TouchKind := .write) : M Unit := modCore fun k => k.padWrite a (toLe n v) kind

/-- The image checks of a spawn on its entry (R311, steps 3 and 4). -/
def entryChecks (e : Word) : M Unit := do
  raiseIf (e.toNat % 4 != 0) 3 e
  raiseIf (bits e 63 57 != 0) 6 e
/-- The check of a join field (R311, step 5). -/
def joinCheck (j : Word) : M Unit :=
  let o := bits j 17 0
  raiseIf (j != 0 && (!tst j 63 || bits j 62 18 != 0 || o % 32 != 0 || decide (o + 32 > Config.dataEnd))) 4 j

/-- The count-up and the task word of a spawn (R136): the reference and the word. -/
def countUp (j : Word) : M (Word × Word) := do
  let c ← get
  let f ← theFrame
  let o := bits j 17 0
  let s ← (if j == 0 then pure 0 else do
    let _ ← spad64 o
    spad64 (o + 24))
  if j != 0 then modCore fun k => k.padUpdate [(o + 24, (· + 1)), (o, (· + 1))]
  let n := bits f.tname 45 30
  let name := mixName (bits f.tname 29 0) n
  modFrame fun f => { f with tname := putBits f.tname 45 30 (n + 1) }
  pure (if j == 0 then 0 else refWord c.pkg c.core o,
    BitVec.ofNat 64 (f.pri * 2 ^ 62 + s.toNat % 2 ^ 16 * 2 ^ 46 + name))

/-- The supervisor bit of tasks of a launch (R265). -/
def Chip.supOf (c : Chip) (l : Option Nat) : Bool := match c.launchOf l with | some x => x.sup | none => false

/-- Whether a core's deque takes an operation in this cycle (R134). -/
def Chip.dequeFree (c : Chip) (core : Nat) : Bool := decide ((c.coreAt core).dequeTill ≤ c.now)

/-- R136 from the point where its image has been read: checks, release at package scope, count-up, push. -/
def spawnTask (e x j : Word) (addr : Word) : M Unit := do
  entryChecks e
  joinCheck j
  let c ← get
  let f ← theFrame
  let name := mixName (bits f.tname 29 0) (bits f.tname 45 30)
  let target := c.placeCore c.core f.launch name
  raiseIf (target == c.core && (c.coreAt c.core).dequeFull) 0x0B addr 2
  waitIf (target == c.core && !c.dequeFree c.core) (.cycle (c.coreAt c.core).dequeTill)
  release .pkg
  let (ref, w) ← countUp j
  let t : Task := ⟨e, x, ref, w, f.owner, f.ctx, c.supOf f.owner⟩
  if target == c.core then modCore fun k => k.push t
  else modify fun c => c.post ⟨0, c.frankOf c.core c.frame, ⟨c.pkg, .core target⟩, 0, 0, some .pkg, f.pri, none, 0, 0,
    .taskPush t, none, false⟩

/-- The operand checks that `wtab` and `join` share (R312). -/
def bindChecks (gc ga : Word) : M Unit := do
  raiseIf (gc.toNat % 8 != 0) 3 gc
  raiseIf (gc.toNat + 8 > Config.dataEnd) 4 gc
  raiseIf (ga.toNat % 32 != 0) 3 ga
  raiseIf (ga.toNat + 32 > Config.dataEnd) 4 ga

/-- The lowest free wait-table entry. -/
def Core.freeEntry (k : Core) : Option (Fin 32) := (List.finRange 32).find? fun i => k.wtab[i].isFree

/-- Bind an entry, whose two doublewords are written whole (R453), and test it at the bind's own position (R139, R140). -/
def bindEntry (i : Fin 32) (ge : Bool) (kind : Nat) (gc gt ga : Word) (was : List Byte := []) : M Unit := do
  let c ← get
  let f ← theFrame
  let ctl := 2 ^ 63 + ge.toNat * 2 ^ 62 + kind * 2 ^ 61 + ga.toNat * 2 ^ 32 + gc.toNat
  modCore fun k => { k with
    wtab := k.wtab.set i ⟨BitVec.ofNat 64 ctl, gt, f.ctx, c.supOf f.owner, f.owner, if kind = 1 then some f.thread else none, none, was⟩
    padPoison := k.padPoison.filter fun d => !covers (entryOff i) 16 8 d }
  modCore fun k => k.testEntry i

end Sys2Proof.Machine
end

