-- ==== Sys2Proof/Machine/Control.lean ====
section
/-! DEFINITION. Class 010: branches with two delay slots (R266 to R268, R307 to R309), and the task and thread
instructions (R310 to R318). -/

namespace Sys2Proof.Machine

/-! ## Branches -/

/-- The triple a branch leaves (R267), and the slots that remain: none where the branch annuls them. -/
def Frame.branch (f : Frame) (an : BitVec 2) (taken : Bool) (target : Word) : Frame :=
  if taken && an == 2 then { f with pc := target, npc := target + 4, nnpc := target + 8, slots := [] }
  else if !taken && an == 1 then { f with pc := f.nnpc + 4, npc := f.nnpc + 8, nnpc := f.nnpc + 12, slots := [] }
  else if taken then { f with pc := f.npc, npc := f.nnpc, nnpc := target, slots := [f.npc, f.nnpc] }
  else { f with pc := f.npc, npc := f.nnpc, nnpc := f.nnpc + 4, slots := [f.npc, f.nnpc] }

/-- The issue of a branch: its guard is its condition (R267). -/
def branches (i : Instr) (body : Bool → M Unit) (s : State) : Host.Outcome State Fault Refusal :=
  .next { s with chip := finish i false (do
    let c ← get
    if c.capturing then
      modCore fun k => k.dropCapture c.frame
      raise 1
    let f ← theFrame
    body (guardHolds (guardOf i) f.sw)) s.chip }

/-- The target of a relative branch (R307). -/
def relTarget (pc : Word) (d : Word) : Word := pc + d * 4

/-- R307 -/
def execBr (g : Guard) (an : BitVec 2) (i : BitVec 19) (s : State) : Host.Outcome State Fault Refusal :=
  branches (.br g an i) (fun taken => do
    let f ← theFrame
    let t := relTarget f.pc (i.signExtend 64)
    raiseIf (taken && bits t 63 57 != 0) 6 t
    modFrame fun f => f.branch an taken t) s

/-- R307: a taken call writes the address after its second slot into g15. -/
def execCall (g : Guard) (an : BitVec 2) (i : BitVec 19) (s : State) : Host.Outcome State Fault Refusal :=
  branches (.call g an i) (fun taken => do
    let f ← theFrame
    let t := relTarget f.pc (i.signExtend 64)
    raiseIf (taken && bits t 63 57 != 0) 6 t
    if taken then
      use [] [.g 15]
      wr (.g 15) (f.nnpc + 4)
    modFrame fun f => f.branch an taken t) s

/-- The register branches (R308): the register is read, and a link popped, only when taken. -/
def branchTo (an : BitVec 2) (a : Reg) (taken : Bool) : M Unit := do
  if taken then
    use [a] []
    let t ← rd a
    raiseIf (t.toNat % 4 != 0) 3 t
    raiseIf (bits t 63 57 != 0) 6 t
    modFrame fun f => f.branch an true t
  else modFrame fun f => f.branch an false 0

/-- R308 -/
def execJr (g : Guard) (an : BitVec 2) (a : Reg) (s : State) : Host.Outcome State Fault Refusal :=
  branches (.jr g an a) (branchTo an a) s
/-- R308 -/
def execRet (g : Guard) (an : BitVec 2) (s : State) : Host.Outcome State Fault Refusal :=
  branches (.ret g an) (branchTo an (.g 15)) s

/-! ## Tasks and threads -/

/-- R310: the child's entry is the address after the second slot; the parent goes on to the label after both slots. -/
def execFork (g : Guard) (j : Reg) (i : BitVec 16) (s : State) : Host.Outcome State Fault Refusal :=
  .next { s with chip := finish (.fork g j i) false (do
    let c ← get
    if c.capturing then
      modCore fun k => k.dropCapture c.frame
      raise 1
    let f ← theFrame
    raiseIf f.inSlot 2
    if guardHolds g f.sw then
      notSequencing
      use [.g 0, j] []
      let x ← rd (.g 0)
      let w ← rd j
      spawnTask (f.nnpc + 4) x w w
      modFrame fun f => f.branch 0 true (relTarget f.pc (i.signExtend 64))
    else modFrame fun f => f.branch 0 false 0) s.chip }

/-- R311 -/
def execSpawn (g : Guard) (a : Reg) (s : State) : Host.Outcome State Fault Refusal :=
  slotless (.spawn g a) (do
    notSequencing
    use [a] []
    let ga ← rd a
    raiseIf (ga.toNat % 8 != 0) 3 ga
    raiseIf (ga.toNat + 24 > Config.dataEnd) 4 ga
    let e ← spad64 ga.toNat
    let x ← spad64 (ga.toNat + 8)
    let j ← spad64 (ga.toNat + 16)
    spawnTask e x j ga
    advance) s

/-- R312 -/
def execWtab (g : Guard) (k : Bool) (d c t a : Reg) (s : State) : Host.Outcome State Fault Refusal :=
  plain (.wtab g k d c t a) (do
    notSequencing
    use [c, t, a] [d]
    let gc ← rd c
    let gt ← rd t
    let ga ← rd a
    bindChecks gc ga
    let e ← spad64 ga.toNat
    let j ← spad64 (ga.toNat + 16)
    entryChecks e
    joinCheck j
    let core ← theCore
    match core.freeEntry with
    | none => raise 0x0B gc 1
    | some i => do
      let (ref, w) ← countUp j
      spadWrite (ga.toNat + 16) 8 ref.toNat
      spadWrite (ga.toNat + 24) 8 w.toNat
      bindEntry i k 0 gc gt ga
      wr d (BitVec.ofNat 64 i.val)) s

/-- R313: the thread retires as `end` does, without the count-down. -/
def execJoin (g : Guard) (k : Bool) (c t a : Reg) (s : State) : Host.Outcome State Fault Refusal :=
  slotless (.join g k c t a) (do
    notSequencing
    use [c, t, a] []
    let gc ← rd c
    let gt ← rd t
    let ga ← rd a
    bindChecks gc ga
    let e ← spad64 ga.toNat
    entryChecks e
    let core ← theCore
    match core.freeEntry with
    | none => raise 0x0B gc 1
    | some i => do
      let f ← theFrame
      let c ← get
      let was := c.readHome (.core c.core) (ga.toNat + 16) 16
      spadWrite (ga.toNat + 16) 8 f.tjoin.toNat
      spadWrite (ga.toNat + 24) 8 f.tname.toNat
      modFrame fun f => { f with st := .retiring true c.word }
      bindEntry i k 1 gc gt ga was) s

/-- R314: a bound entry is cleared and its count-up undone, in its turn where the entry's launch is in mode 1 or 2 (R139,
R150). -/
def execWclr (g : Guard) (d a : Reg) (s : State) : Host.Outcome State Fault Refusal :=
  plain (.wclr g d a) (do
    notSequencing
    use [a] [d]
    let n ← rd a
    raiseIf (decide (32 ≤ n.toNat) && decide (n.toNat < 256)) 0x0B n 1
    if h : n.toNat < 32 then
      let c ← get
      let f ← theFrame
      let i : Fin 32 := ⟨n.toNat, h⟩
      let k ← theCore
      let e := k.wtab[i]
      if e.bound then
        raiseIf (tst e.ctl 61 && !f.sup) 7 n
        modCore fun k => { k with wtab := k.wtab.set i WEntry.reset }
        if !tst e.ctl 61 then
          let rec_ := bits e.ctl 49 32
          let ref := rd64 k.pad (rec_ + 16)
          let word := rd64 k.pad (rec_ + 24)
          modify fun x => x.sendCountDown c.core (countDownMsg c.pkg c.core c.frame f.ctx f.sup f.pri ref word
            (c.modeOf e.launch != 0) f.owner)
        wr d 1
      else wr d 0
    else raise 4 n) s

/-- R316: the round-robin position stands at the yielding frame already, since it has just issued (R128). -/
def execYield (g : Guard) (s : State) : Host.Outcome State Fault Refusal := slotless (.yield g) advance s

/-- The links that a list of fields pops. -/
def linksIn (l : List Reg) : List Dir := l.filterMap fun r => match r with | .link d => some d | _ => none

/-- R315: a satisfied test is an acquire. The frame stalls until the test succeeds, which every write of the counter repeats
(R141); the words that gc and gt pop leave their links when it completes. -/
def execWait (g : Guard) (c t : Reg) (s : State) : Host.Outcome State Fault Refusal :=
  plain (.wait g c t) (do
    access
    use [c, t] []
    let gc ← rd c
    let gt ← rd t
    raiseIf (gc.toNat % 8 != 0) 3 gc
    raiseIf (gc.toNat + 8 > Config.dataEnd) 4 gc
    let v ← spad64 gc.toNat
    waitIf (v.slt gt) (.counter gc.toNat gt false (linksIn [c, t]))) s

/-- The frame image of a migrating thread: it resumes at its npc (R145). -/
def imageOf (f : Frame) : Image :=
  ⟨f.g, f.npc, f.nnpc, f.nnpc + 4, f.sw, f.tname, f.tjoin, f.launch, f.ctx, f.poisoned, f.claims, f.slots.tail⟩

/-- The migration itself (R145): once every reply has arrived and every access completed, the image is sent and the
frame waits for the answer. `again` keeps the triple at this instruction, which issues again on arrival (R146). -/
def migrate (target : Nat) (again : Bool) : M Unit := do
  let c ← get
  let f ← theFrame
  reportRefusal fun _ => true
  waitIf (!c.drained c.core (.frame c.frame) f.thread) (.release .thr)
  let im := if again then { imageOf f with pc := f.pc, npc := f.npc, nnpc := f.nnpc, slots := f.slots } else imageOf f
  send (.move target) false ⟨c.pkg, .core target⟩ 0 (refWord c.pkg target 0) none (.migrate im)
  awaitAnswer

/-- R317: in a slot the trap is 0x02, whatever the guard; the rest follows a true guard. -/
def execGo (g : Guard) (a : Reg) (s : State) : Host.Outcome State Fault Refusal :=
  .next { s with chip := finish (.go g a) false (do
    let c ← get
    if c.capturing then
      modCore fun k => k.dropCapture c.frame
      raise 1
    let f ← theFrame
    let yes := guardHolds g f.sw
    raiseIf (yes && f.inTrap) 1
    raiseIf f.inSlot 2
    if yes then
      notSequencing
      use [a] []
      let v ← rd a
      raiseIf (bits v 63 15 != 0) 4 v
      if v.toNat == c.core then advance
      else
        let k ← theCore
        raiseIf (k.vec.owner == some c.frame || k.mowner == some c.frame) 0x0E
        migrate v.toNat false
    else advance) s.chip }

/-- Enter retiring: the drain of R142 follows. -/
def retire : M Unit := do
  let c ← get
  modFrame fun f => { f with st := .retiring false c.word }

/-- The scalar results in flight of a frame dropped. -/
def Core.dropScalars (k : Core) (f : Nat) : Core :=
  { k with vec := { k.vec with writes := k.vec.writes.filter fun w =>
      !(w.frame == f && (match w.dest with | .g (.g _) _ => true | _ => false)) } }

/-- R318: the drain and the count-down pass to a tracker entry, with what the frame owns (R161), and the frame is freed; with
all 8 busy, as `end`. -/
def execTail (g : Guard) (s : State) : Host.Outcome State Fault Refusal :=
  slotless (.tail g) (do
    notSequencing
    reportRefusal fun _ => true
    let c ← get
    let k ← theCore
    let f ← theFrame
    match (List.range 8).find? fun t => !thas k.trackers t with
    | none => retire
    | some t =>
      modCore fun k => { (k.passOwner c.frame t).dropScalars c.frame with
        trackers := tset k.trackers t ⟨c.frame, f.thread, f.ctx, f.launch, f.tjoin, f.tname, f.pri, f.sup, false⟩
        reqs := k.reqs.map fun r => if r.2.owner == .frame c.frame then (r.1, { r.2 with owner := .tracker t }) else r }
      modify fun x => x.freeFrame c.core c.frame) s

/-- R318 -/
def execEndThread (g : Guard) (s : State) : Host.Outcome State Fault Refusal :=
  slotless (.endThread g) (do
    notSequencing
    retire) s

end Sys2Proof.Machine
end

