-- ==== Sys2Proof/Machine/MemLocal.lean ====
section
/-! DEFINITION. Class 011 on the core itself: local loads and stores with the frame store and core block (R19, R370), the
tag table (R63, R64, R373), local atomics (R374), and circular-buffer handles (R105, R106, R375). -/

namespace Sys2Proof.Machine

/-! ## The frame store and the core block (R18, R19, R126, R138) -/

/-- The doubleword at an offset from 0x2_C000 up. -/
def Core.highDword (k : Core) (o : Nat) : Word :=
  if o < 0x2FC00 then
    let f := (o - 0x2C000) / 160
    let i := (o - 0x2C000) % 160 / 8
    let fr := k.frameAt f
    if h : i < 16 then fr.g[i] else if i = 16 then fr.pc else if i = 17 then fr.npc else if i = 18 then fr.nnpc
    else k.swOf f
  else if o < 0x2FE00 then
    let e := k.wtab[(o - 0x2FC00) / 16 % 32]'(Nat.mod_lt _ (by decide))
    if o % 16 < 8 then e.ctl else e.threshold
  else rd64 k.ctl (o / 8 * 8)

/-- Whether the doubleword at an offset from 0x2_C000 up is poisoned (R453). -/
def Core.highPoison (k : Core) (o : Nat) : Bool :=
  let i := (o - 0x2C000) % 160 / 8
  if o < 0x2FC00 && decide (i < 16) then (k.frameAt ((o - 0x2C000) / 160)).poisoned.any fun p => p.1 == i
  else k.padPoison.contains (o / 8)

/-- The fields of `sw` that a store to its image writes: pri, vidx, tr, mig, p7 to p1 (R19). -/
def storeSw (old v : Word) : Word :=
  let keep := putBits (putBits (putBits (putBits old 31 24 (bits v 31 24)) 18 17 (bits v 18 17)) 7 1 (bits v 7 1)) 63 32 0
  keep

/-- The bound entry's control word as stored: reserved bits are zero (R138). -/
def storeCtl (v : Word) : Word := putBits (putBits v 60 50 0) 31 18 0

/-- A wait-table entry with a doubleword stored by a supervisor frame: an entry it binds starts its task in that frame's
context (R138, log 22). -/
def WEntry.store (e : WEntry) (first : Bool) (v : Word) (f : Frame) (sup : Bool) : WEntry :=
  if !first then { e with threshold := v }
  else if tst v 63 && !e.bound then
    { e with ctl := storeCtl v, ctx := f.ctx, sup := sup, launch := f.owner, binder := none }
  else { e with ctl := storeCtl v }

/-- The doubleword at an offset from 0x2_C000 up, stored whole or in part (R19). -/
def Core.setHigh (k : Core) (o : Nat) (v : Word) (whole : Bool) (by_ : Frame) (sup : Bool) : Core :=
  let k := if whole then { k with padPoison := k.padPoison.filter (· != o / 8) } else k
  if o < 0x2FC00 then
    let i := (o - 0x2C000) % 160 / 8
    k.modFrame ((o - 0x2C000) / 160) fun f =>
      if h : i < 16 then { f with
        g := f.g.set i v
        poisoned := if whole then f.poisoned.filter fun p => p.1 != i else f.poisoned }
      else if i = 16 then { f with pc := v }
      else if i = 17 then { f with npc := v }
      else if i = 18 then { f with nnpc := v }
      else { f with sw := storeSw f.sw v }
  else if o < 0x2FE00 then
    let e : Fin 32 := ⟨(o - 0x2FC00) / 16 % 32, Nat.mod_lt _ (by decide)⟩
    { k with wtab := k.wtab.set e (k.wtab[e].store (decide (o % 16 < 8)) v by_ sup) }
  else { k with ctl := wr64 k.ctl (o / 8 * 8) v }

/-! ## Local loads and stores (R370) -/

/-- The offset of a local access and its checks. -/
def localAddr (a : Reg) (off n : Nat) : M Nat := do
  let x ← rd a
  let o := x + BitVec.ofNat 64 off
  raiseIf (o.toNat % n != 0) 3 o
  raiseIf (o.toNat + n > 0x30000) 4 o
  let f ← theFrame
  raiseIf (decide (0x2C000 ≤ o.toNat) && !f.sup) 7 o
  pure o.toNat

/-- A register written with data that may be poisoned (R61). -/
def wrData (d : Reg) (v : Word) (poison : Bool) (addr : Word) : M Unit := do
  wr d v
  match d with
  | .g n => if poison then modFrame fun f => { f with poisoned := f.poisoned ++ [(n.toNat, addr)] }
  | _ => pure ()

/-- The n bytes at a local offset, and whether they are poisoned. -/
def Chip.localRead (c : Chip) (o n : Nat) : Nat × Bool :=
  let k := c.coreAt c.core
  if o < 0x2C000 then (rdLe k.pad o n, c.poisonAt (.core c.core) o n)
  else ((k.highDword (o / 8 * 8)).toNat / 2 ^ (8 * (o % 8)) % 2 ^ (8 * n), k.highPoison o)

/-- `ld` and `lds` (R370). -/
def localLoad (d a : Reg) (off n : Nat) (ext : Word → Nat → Word) : M Unit := do
  access
  use [a] [d]
  let o ← localAddr a off n
  inOrder o n
  let c ← get
  let (v, bad) := c.localRead o n
  wrData d (ext (BitVec.ofNat 64 v) n) bad (BitVec.ofNat 64 o)

/-- The general register of the issuing frame whose image holds an offset, if one does (R126). -/
def ownRegister (frame o : Nat) : Option (BitVec 4) :=
  let base := 0x2C000 + 160 * frame
  if base ≤ o ∧ o < base + 128 then some (BitVec.ofNat 4 ((o - base) / 8)) else none

/-- `st`, after which the frame is at its next instruction: a store to its own triple replaces the member that the
store itself leaves, and one to its own register image is a write of that register (R19, R61). -/
def localStore (d a : Reg) (off n : Nat) : M Unit := do
  access
  use [d, a] []
  let v ← rd d
  let o ← localAddr a off n
  inOrder o n
  let c ← get
  match ownRegister c.frame o with
  | some r => checkReg (.g r)
  | none => pure ()
  advance
  if o < 0x2C000 then spadWrite o n v.toNat
  else
    let c ← get
    let f ← theFrame
    modCore fun k => k.setHigh o (putBits (k.highDword (o / 8 * 8)) (8 * (o % 8) + 8 * n - 1) (8 * (o % 8)) v.toNat)
      (n == 8) f (c.supOf f.owner)

/-- R370 -/
def execLd (g : Guard) (z : Size) (d a : Reg) (o : BitVec 10) (s : State) : Host.Outcome State Fault Refusal :=
  plain (.ld g z d a o) (localLoad d a (o.toNat * sizeBytes z) (sizeBytes z) zeroExt) s
/-- R370 -/
def execLds (g : Guard) (z : Size) (d a : Reg) (o : BitVec 10) (s : State) : Host.Outcome State Fault Refusal :=
  plain (.lds g z d a o) (localLoad d a (o.toNat * sizeBytes z) (sizeBytes z) signExt) s
/-- R370 -/
def execSt (g : Guard) (z : Size) (d a : Reg) (o : BitVec 10) (s : State) : Host.Outcome State Fault Refusal :=
  steers (.st g z d a o) (localStore d a (o.toNat * sizeBytes z) (sizeBytes z)) s

/-! ## Tag table (R63, R64, R373) -/

/-- log2 of the line size (R63). -/
def lineShift (cfg : Word) : Nat := 8 + 2 * bits cfg 19 18
/-- Enabled entries (R63). -/
def tagSlots (cfg : Word) : Nat := bits cfg 8 0
/-- The slot that holds a line for a context, if any (R64). -/
def Core.findTag (k : Core) (ctx line : Nat) : Option Nat :=
  (k.tags.find? fun p => p.2.ctx == ctx && p.2.line == line).map (·.1)

/-- R373 -/
def execTlk (g : Guard) (d a : Reg) (s : State) : Host.Outcome State Fault Refusal :=
  plain (.tlk g d a) (do
    access
    use [a] [d]
    let x ← rd a
    let k ← theCore
    let f ← theFrame
    let hit := if tagSlots k.tgcfg = 0 then none else k.findTag f.ctx (x.toNat / 2 ^ lineShift k.tgcfg)
    match hit with
    | some n => wr d (BitVec.ofNat 64 n)
    | none => wr d (BitVec.allOnes 64)) s

/-- R373 -/
def execTins (g : Guard) (a b : Reg) (s : State) : Host.Outcome State Fault Refusal :=
  plain (.tins g a b) (do
    access
    use [a, b] []
    let x ← rd a
    let y ← rd b
    let k ← theCore
    let f ← theFrame
    let line := x.toNat / 2 ^ lineShift k.tgcfg
    raiseIf (decide (255 < y.toNat) || decide (tagSlots k.tgcfg ≤ y.toNat) || y.toNat / 4 != line % 64) 4 y
    modCore fun k => { k with
      tags := tset (k.tags.filter fun p => p.2.ctx != f.ctx || p.2.line != line) y.toNat ⟨line, f.ctx⟩ }) s

/-- R373 -/
def execTinv (g : Guard) (a : Reg) (s : State) : Host.Outcome State Fault Refusal :=
  plain (.tinv g a) (do
    access
    use [a] []
    let x ← rd a
    let f ← theFrame
    modCore fun k => { k with
      tags := k.tags.filter fun p => p.2.ctx != f.ctx || p.2.line != x.toNat / 2 ^ lineShift k.tgcfg }) s

/-- R373 -/
def execTinvAll (g : Guard) (s : State) : Host.Outcome State Fault Refusal :=
  plain (.tinvAll g) (do
    access
    let f ← theFrame
    modCore fun k => { k with tags := k.tags.filter fun p => p.2.ctx != f.ctx }) s

/-! ## Local atomics (R374) -/

/-- The size of a local atomic. -/
def wordBytes (z : Bool) : Nat := if z then 8 else 4

/-- The offset of a local atomic and its checks. -/
def atomicAddr (x : Word) (n : Nat) : M Nat := do
  raiseIf (x.toNat % n != 0) 3 x
  raiseIf (x.toNat + n > Config.dataEnd) 4 x
  pure x.toNat

/-- `amo`: the word is read and written in one operation. -/
def localAmo (k : Amo) (d a b : Reg) (z : Bool) : M Unit := do
  access
  use [a, b] [d]
  let x ← rd a
  let s ← rd b
  let n := wordBytes z
  let o ← atomicAddr x n
  inOrder o n
  let c ← get
  let (w, bad) := c.localRead o n
  spadWrite o n (amoApply k n w (s.toNat % 2 ^ (8 * n))) .update
  wrData d (BitVec.ofNat 64 w) bad (BitVec.ofNat 64 o)

/-- R374: the expected value is in gd. -/
def execCas (g : Guard) (d a b : Reg) (z : Bool) (s : State) : Host.Outcome State Fault Refusal :=
  plain (.cas g d a b z) (do
    access
    use [d, a, b] [d]
    let e ← rd d
    let x ← rd a
    let v ← rd b
    let n := wordBytes z
    let o ← atomicAddr x n
    inOrder o n
    let c ← get
    let (w, bad) := c.localRead o n
    if w = e.toNat % 2 ^ (8 * n) then spadWrite o n v.toNat .update else modCore fun k => k.padLook o n
    wrData d (BitVec.ofNat 64 w) bad (BitVec.ofNat 64 o)) s

/-- R374 -/
def execAmoAdd (g : Guard) (d a b : Reg) (z : Bool) (s : State) : Host.Outcome State Fault Refusal :=
  plain (.amoAdd g d a b z) (localAmo .add d a b z) s
/-- R374 -/
def execAmoAnd (g : Guard) (d a b : Reg) (z : Bool) (s : State) : Host.Outcome State Fault Refusal :=
  plain (.amoAnd g d a b z) (localAmo .and d a b z) s
/-- R374 -/
def execAmoOr (g : Guard) (d a b : Reg) (z : Bool) (s : State) : Host.Outcome State Fault Refusal :=
  plain (.amoOr g d a b z) (localAmo .or d a b z) s
/-- R374 -/
def execAmoXor (g : Guard) (d a b : Reg) (z : Bool) (s : State) : Host.Outcome State Fault Refusal :=
  plain (.amoXor g d a b z) (localAmo .xor d a b z) s
/-- R374 -/
def execAmoMin (g : Guard) (d a b : Reg) (z : Bool) (s : State) : Host.Outcome State Fault Refusal :=
  plain (.amoMin g d a b z) (localAmo .min d a b z) s
/-- R374 -/
def execAmoMax (g : Guard) (d a b : Reg) (z : Bool) (s : State) : Host.Outcome State Fault Refusal :=
  plain (.amoMax g d a b z) (localAmo .max d a b z) s
/-- R374 -/
def execAmoMinu (g : Guard) (d a b : Reg) (z : Bool) (s : State) : Host.Outcome State Fault Refusal :=
  plain (.amoMinu g d a b z) (localAmo .minu d a b z) s
/-- R374 -/
def execAmoMaxu (g : Guard) (d a b : Reg) (z : Bool) (s : State) : Host.Outcome State Fault Refusal :=
  plain (.amoMaxu g d a b z) (localAmo .maxu d a b z) s
/-- R374 -/
def execAmoSwap (g : Guard) (d a b : Reg) (z : Bool) (s : State) : Host.Outcome State Fault Refusal :=
  plain (.amoSwap g d a b z) (localAmo .swap d a b z) s

/-! ## Circular-buffer handles (R105, R106, R375) -/

/-- Slots of a handle. -/
def Handle.slots (h : Handle) : Nat := bits h.cfg 47 40 + 1
/-- Bytes of a slot. -/
def Handle.slotBytes (h : Handle) : Nat := (bits h.cfg 31 24 + 1) * 64
/-- Offset of slot 0. -/
def Handle.base (h : Handle) : Nat := bits h.cfg 11 0 * 64
/-- Enabled. -/
def Handle.en (h : Handle) : Bool := tst h.cfg 63
/-- Filled slots: (pi - ci) mod 2^16. -/
def Handle.filled (h : Handle) : Nat := (h.pi - h.ci).toNat
/-- The slot at the consumer position. -/
def Handle.consumer (h : Handle) : Nat := h.base + h.ci.toNat % h.slots * h.slotBytes
/-- The slot at the producer position. -/
def Handle.producer (h : Handle) : Nat := h.base + h.pi.toNat % h.slots * h.slotBytes

/-- Whether a command names a handle (R347). -/
def Cmd.names (m : Cmd) (q : Nat) : Bool :=
  let op := bits m.data 7 0
  let qin := bits m.data 71 64
  let qout := bits m.data 79 72
  let src := [0x41, 0x42, 0x43, 0x47, 0x81, 0x82, 0x83].contains op
  let dst := [0x46, 0x81, 0x82, 0x83, 0x84].contains op
  (src && qin == 0x80 + q) || (dst && qout == 0x80 + q)

/-- The owner check of every handle instruction (R105). -/
def handleOwned (q : BitVec 3) : M Handle := do
  let k ← theCore
  let f ← theFrame
  let h := k.handles[q.toFin]
  raiseIf (h.owner.isSome && h.owner != some f.ctx) 7
  pure h
/-- A handle in use by every instruction but `qset` (R375). -/
def handleReady (q : BitVec 3) : M Handle := do
  let h ← handleOwned q
  raiseIf (!h.en) 0x0E 0 0x50
  pure h
/-- A handle as it stood when the cycle began (R107). -/
def Core.handleSeen (k : Core) (now : Nat) (q : Fin 8) : Handle :=
  if k.handlesAt = some now then k.handlesOld[q] else k.handles[q]
/-- A handle that advances: how the handles stood when the cycle began is kept (R107). -/
def Core.advHandle (k : Core) (now : Nat) (q : Fin 8) (h : Handle) : Core :=
  { k with
    handles := k.handles.set q h
    handlesOld := if k.handlesAt = some now then k.handlesOld else k.handles
    handlesAt := some now
    advanced := k.advanced ++ [q.val] }
/-- A handle in use, as it stood when the cycle began. -/
def handleBegun (q : BitVec 3) : M Handle := do
  let _ ← handleReady q
  let c ← get
  pure ((c.coreAt c.core).handleSeen c.now q.toFin)
/-- A handle advanced by the issuing frame. -/
def advHandle (q : BitVec 3) (h : Handle) : M Unit := do
  let c ← get
  modCore fun k => k.advHandle c.now q.toFin h
/-- A handle set anew. -/
def setHandle (q : BitVec 3) (h : Handle) : M Unit :=
  modCore fun k => { k with handles := k.handles.set q.toFin h, handlesOld := k.handlesOld.set q.toFin h }

/-- R106: an acquire at core scope once the slot is filled. -/
def execQwait (g : Guard) (d : Reg) (q : BitVec 3) (s : State) : Host.Outcome State Fault Refusal :=
  plain (.qwait g d q) (do
    access
    use [] [d]
    let h ← handleBegun q
    waitIf (h.filled == 0) (.filled q.toNat)
    wr d (BitVec.ofNat 64 h.consumer)) s

/-- R106: an acquire at core scope once the slot is free. -/
def execQroom (g : Guard) (d : Reg) (q : BitVec 3) (s : State) : Host.Outcome State Fault Refusal :=
  plain (.qroom g d q) (do
    access
    use [] [d]
    let h ← handleBegun q
    waitIf (h.filled == h.slots) (.room q.toNat)
    wr d (BitVec.ofNat 64 h.producer)) s

/-- R106: a release at core scope. -/
def execQadvP (g : Guard) (q : BitVec 3) (s : State) : Host.Outcome State Fault Refusal :=
  plain (.qadvP g q) (do
    access
    let h ← handleReady q
    raiseIf (h.filled == h.slots) 0x0E 0 0x51
    release .core
    advHandle q { h with pi := h.pi + 1 }) s

/-- R106: a release at core scope. -/
def execQadvC (g : Guard) (q : BitVec 3) (s : State) : Host.Outcome State Fault Refusal :=
  plain (.qadvC g q) (do
    access
    let h ← handleReady q
    raiseIf (h.filled == 0) 0x0E 0 0x51
    release .core
    advHandle q { h with ci := h.ci + 1 }) s

/-- A malformed configuration word (R105): a nonzero reserved field, or a ring beyond 0x2_C000. -/
def badRing (w : Word) : Bool :=
  let h : Handle := ⟨w, none, 0, 0⟩
  bits w 62 48 != 0 || bits w 39 32 != 0 || bits w 23 12 != 0
  || decide (h.base + h.slots * h.slotBytes > Config.dataEnd)

/-- R105: it waits until no queued or running command names the handle. -/
def execQset (g : Guard) (a : Reg) (q : BitVec 3) (s : State) : Host.Outcome State Fault Refusal :=
  plain (.qset g a q) (do
    access
    use [a] []
    let w ← rd a
    let _ ← handleOwned q
    raiseIf (tst w 63 && badRing w) 4 w
    let k ← theCore
    waitIf ((k.mxq ++ k.cpq).any fun m => m.names q.toNat) (.handleFree q.toNat)
    let f ← theFrame
    setHandle q (if tst w 63 then ⟨w, some f.ctx, 0, 0⟩ else ⟨0, none, 0, 0⟩)) s

/-- R106 -/
def execQpos (g : Guard) (d : Reg) (q : BitVec 3) (s : State) : Host.Outcome State Fault Refusal :=
  plain (.qpos g d q) (do
    access
    use [] [d]
    let h ← handleBegun q
    wr d (BitVec.ofNat 64 ((h.slots - 1) * 2 ^ 32 + h.ci.toNat * 2 ^ 16 + h.pi.toNat))) s

end Sys2Proof.Machine
end

