-- ==== Sys2Proof/Machine/OrderLog.lean ====
section
/-! DEFINITION. The order log of deterministic and replayed launches (R151, R454). -/

namespace Sys2Proof.Machine

/-- The slice of a core in its launch's order log (R151): its virtual address and its length in records. -/
def Launch.slice (l : Launch) (core : Nat) : Nat × Nat :=
  let n := l.cores.length
  let z := field l.record 80 4 / (64 * max n 1) * 64
  (field l.record 72 8 + (l.cores.filter fun k => decide (k < core)).length * z, z / 16)

/-- Records of a launch's slice that a core has taken (R151). -/
def Core.taken (k : Core) (launch : Nat) : Nat := tget 0 k.logSeq launch

/-- The core's own access to its slice, through the launching context's tables at that context's privilege (R454). -/
def Chip.slicePhys (c : Chip) (core : Nat) (l : Launch) (seq : Nat) (need : Need) : Option Phys :=
  match c.translateNow (sigOf core) l.ctx (l.ctx == 0) (BitVec.ofNat 64 ((l.slice core).1 + 16 * seq)) need false with
  | .error _ => none
  | .ok p => if c.physBad p 16 then none else some p

/-- A doubleword of a core's slice written at its translated place: its home here, or by a put to another package, franked with
the core, the launching context and its privilege (R57, R454). -/
def Chip.writeSlice (c : Chip) (core launch : Nat) (l : Launch) (p : Phys) (off : Nat) (v : Word) : Chip :=
  match p.loc with
  | 0 => c.write64 (hbmHome p.pa) (p.pa + off) v
  | 2 => c.write64 .host (p.pa + off) v
  | _ => c.ask core (.log launch) (.piece 0 false) false
      ⟨0, ⟨c.pkg, core, l.ctx, l.ctx == 0, 0x7F, some launch⟩, ⟨bits p.leaf 63 52, hbmHome p.pa⟩, p.pa + off, 0, none, 0, none,
        0, 0, .put (toLe 8 v.toNat) none, none, false⟩

/-- A slice that could not be reached, reported to the command processor (R454). -/
def Chip.lostSlice (c : Chip) (core launch : Nat) : Chip :=
  if c.reports.contains (.slice core launch) then c else { c with reports := c.reports ++ [.slice core launch] }

/-- One half of a record written: 0 for its head, 8 for its outcome. A refusal is reported (R454). -/
def Chip.logPut (c : Chip) (core launch seq off : Nat) (v : Word) : Chip :=
  match tfind c.launches launch with
  | none => c
  | some l => match c.slicePhys core l seq .w with
    | none => c.lostSlice core launch
    | some p => c.writeSlice core launch l p off v

/-- The head of a record (R151). -/
def logHead (kind frame seq : Nat) : Word := BitVec.ofNat 64 (kind * 2 ^ 56 + frame * 2 ^ 32 + seq)

/-- The order log bytes of a launch counted up by a record (R123). -/
def Chip.countLog (c : Chip) (launch : Nat) : Chip :=
  { c with launches := c.launches.map fun p => if p.1 == launch then (p.1, { p.2 with olen := p.2.olen + 16 }) else p }

/-- The next record taken for a choice (R151, R454): its head is written in mode 1, and its number is answered. -/
def Chip.logTake (c : Chip) (core launch kind frame : Nat) : Chip × Nat :=
  let seq := (c.coreAt core).taken launch
  let c := c.modCore core fun k => { k with logSeq := tset k.logSeq launch (seq + 1) }
  let c : Chip := c.countLog launch
  (if c.modeOf (some launch) = 1 then c.logPut core launch seq 0 (logHead kind frame seq) else c, seq)

/-- The logged outcome of a record in mode 2 (R151), or none where the slice cannot be read. -/
def Chip.logOutcome (c : Chip) (core launch seq : Nat) : Option Word :=
  match tfind c.launches launch with
  | none => none
  | some l => (c.slicePhys core l seq .r).map fun p => BitVec.ofNat 64 (field (c.readPhys p 16) 8 8)

/-- Whether an instruction or a steal finds the slice full: the last 8 records are kept (R454). -/
def Chip.logFull (c : Chip) (core launch : Nat) : Bool :=
  match tfind c.launches launch with
  | none => false
  | some l => decide ((l.slice core).2 ≤ (c.coreAt core).taken launch + 8)

/-- Whether a choice of a kind may be made now (R151): in mode 2 the next record of the slice must be its own, by kind and
frame. None where the slice cannot be read. -/
def Chip.logNext (c : Chip) (core launch kind frame : Nat) : Option Bool :=
  match tfind c.launches launch with
  | none => some true
  | some l =>
    if l.mode ≠ 2 then some true
    else (c.slicePhys core l ((c.coreAt core).taken launch) .r).map fun p =>
      !c.logFull core launch && field (c.readPhys p 16) 4 4 == kind * 2 ^ 24 + frame

/-- An instruction's choice takes its record at issue (R454): none outside modes 1 and 2; in mode 1 a full slice raises
0x0B, kind 4. In mode 2 the frame waits until the next record is its own (R151), and a slice that cannot be read is reported. -/
def takeRecord (kind : Nat) : M (Option (Nat × Nat)) := do
  let c ← get
  let f ← theFrame
  match f.launch with
  | none => pure none
  | some l =>
    if c.modeOf f.launch = 0 then pure none
    else
      raiseIf (c.modeOf f.launch == 1 && c.logFull c.core l) 0x0B 0 4
      match c.logNext c.core l kind c.frame with
      | some true =>
        let (c', seq) := c.logTake c.core l kind c.frame
        set c'
        pure (some (l, seq))
      | some false => notReady (.replay c.now kind c.word)
      | none => do
        modify fun x => x.lostSlice c.core l
        throw (.hold (.replay c.now kind c.word))

/-- The outcome that mode 2 prescribes for a choice, none outside mode 2. -/
def prescribed (r : Option (Nat × Nat)) : M (Option Word) := do
  let c ← get
  match r with
  | none => pure none
  | some (l, seq) => pure (if c.modeOf (some l) = 2 then c.logOutcome c.core l seq else none)

/-- The outcome of a choice written into its record in mode 1 (R454). -/
def Chip.settleRecord (c : Chip) (core : Nat) (r : Option (Nat × Nat)) (v : Word) : Chip :=
  match r with
  | none => c
  | some (l, seq) => if c.modeOf (some l) = 1 then c.logPut core l seq 8 v else c

end Sys2Proof.Machine
end

