-- ==== Sys2Proof/Machine/Messages.lean ====
section
/-! DEFINITION. Global loads and stores, fences, and the messages of class 101 as the issuing core sends them
(R371, R372, R376 to R384). -/

namespace Sys2Proof.Machine

/-! ## Global loads and stores (R371) -/

/-- The address of a scalar global access and its translation. -/
def globalAddr (a : Reg) (off n : Nat) (need : Need) : M (Word × Phys) := do
  let x ← rd a
  let va := x + BitVec.ofNat 64 off
  raiseIf (va.toNat % n != 0) 3 va
  let p ← translate va need
  pure (va, p)

/-- A read request for n bytes at a translated address. -/
def sendRead (d : Reg) (n : Nat) (q : Option Scope) (va : Word) (p : Phys) : M Unit := do
  let c ← get
  send (.load d n) q.isSome (c.placeOf p) p.pa va q (.get n)

/-- R371 -/
def execGld (g : Guard) (z : Size) (d a : Reg) (q : Option Scope) (o : BitVec 6) (s : State) :
    Host.Outcome State Fault Refusal :=
  plain (.gld g z d a q o) (do
    access
    use [a] [d]
    let n := sizeBytes z
    let (va, p) ← globalAddr a (o.toNat * n) n .r
    sendRead d n q va p) s

/-- R371 -/
def execGst (g : Guard) (z : Size) (d a : Reg) (q : Option Scope) (o : BitVec 6) (s : State) :
    Host.Outcome State Fault Refusal :=
  plain (.gst g z d a q o) (do
    access
    use [d, a] []
    let v ← rd d
    let n := sizeBytes z
    let (va, p) ← globalAddr a (o.toNat * n) n .w
    releaseIf q
    let c ← get
    send .posted false (c.placeOf p) p.pa va q (.put (toLe n v.toNat) none)) s

/-! ## Fences (R372, R73) -/

/-- R372 -/
def execFence (g : Guard) (k : Scope) (s : State) : Host.Outcome State Fault Refusal :=
  plain (.fence g k) (do notSequencing; release k) s
/-- R372 -/
def execFenceRel (g : Guard) (k : Scope) (s : State) : Host.Outcome State Fault Refusal :=
  plain (.fenceRel g k) (do notSequencing; release k) s
/-- R372 -/
def execFenceAcq (g : Guard) (k : Scope) (s : State) : Host.Outcome State Fault Refusal :=
  plain (.fenceAcq g k) (do notSequencing; readsDone k) s

/-! ## Put and get (R376 to R379) -/

/-- Whether `sw.mig` moves the thread to a reference's core for an access (R146). -/
def Chip.migratesTo (c : Chip) (t : Target) : Option Nat :=
  let f := c.frameAt c.core c.frame
  let k := c.coreAt c.core
  match t with
  | .ref pkg core _ =>
    if tst f.sw 17 && pkg == c.pkg && k.vec.owner != some c.frame && k.mowner != some c.frame
      && (match f.launch with | some l => c.holds l core | none => false) then some core else none
  | .virt _ => none

/-- A count-up of a counter in the issuing core's banks. -/
def countUpAt (o : Nat) : M Unit := do
  inOrder o 8
  modCore fun k => k.countOne o

/-- R378. The registers pop in the order d, a, b; the counter is d. -/
def execPut (g : Guard) (d a b : Reg) (q : Option Scope) (z : Size) (s : State) : Host.Outcome State Fault Refusal :=
  steers (.put g d a b q z) (do
    access
    use [d, a, b] []
    let n := sizeBytes z
    let cw ← rd d
    let w ← rd a
    let v ← rd b
    let t ← targetOf w n n .w
    let ctr ← (if d == .zr then pure none else
      match t with
      | .virt _ => raise 4 w
      | .ref .. => do
        raiseIf (bits cw 63 18 != 0 || cw.toNat % 8 != 0 || decide (cw.toNat + 8 > Config.dataEnd)) 4 cw
        pure (some cw.toNat))
    let c ← get
    match c.migratesTo t with
    | some core =>
      if core == c.core then
        releaseIf q
        inOrder (refOff w) n
        spadWrite (refOff w) n v.toNat
        match ctr with | some o => countUpAt o | none => pure ()
        advance
      else migrate core true
    | none => do
      releaseIf q
      let c ← get
      let (dest, addr) := c.destOf t
      send .posted false dest addr w q (.put (toLe n v.toNat) ctr)
      advance) s

/-- R378: 64 bytes of a vector register. -/
def execPutv (g : Guard) (d a : Reg) (b : BitVec 5) (q : Option Scope) (s : State) : Host.Outcome State Fault Refusal :=
  plain (.putv g d a b q) (do
    access
    use [d, a] []
    let cw ← rd d
    let w ← rd a
    let t ← targetOf w 64 64 .w
    let ctr ← (if d == .zr then pure none else
      match t with
      | .virt _ => raise 4 w
      | .ref .. => do
        raiseIf (bits cw 63 18 != 0 || cw.toNat % 8 != 0 || decide (cw.toNat + 8 > Config.dataEnd)) 4 cw
        pure (some cw.toNat))
    releaseIf q
    takeVector
    vectorReady b.toNat
    let c ← get
    let (dest, addr) := c.destOf t
    send .posted false dest addr w q (.put (toLe 64 ((c.coreAt c.core).vec.v[b.toFin]).toNat) ctr)) s

/-- R379: a virtual target acts as `gld` with offset 0. A thread that has moved to the target's core reads as `ld` does, with no
window checked (R58, R146, log 69). -/
def execGet (g : Guard) (d a : Reg) (q : Option Scope) (z : Size) (s : State) : Host.Outcome State Fault Refusal :=
  steers (.get g d a q z) (do
    access
    use [a] [d]
    let n := sizeBytes z
    let w ← rd a
    let t ← targetOf w n n .r
    let c ← get
    match c.migratesTo t with
    | some core =>
      if core == c.core then
        inOrder (refOff w) n
        let (v, bad) := c.localRead (refOff w) n
        wrData d (BitVec.ofNat 64 v) bad w
        advance
      else migrate core true
    | none => do
      let (dest, addr) := c.destOf t
      send (.load d n) q.isSome dest addr w q (.get n)
      advance) s

/-! ## Active messages (R380) -/

/-- R380 -/
def execAmsg (g : Guard) (d a b : Reg) (s : State) : Host.Outcome State Fault Refusal :=
  plain (.amsg g d a b) (do
    access
    use [d, a, b] []
    let gp ← rd d
    let ga ← rd a
    let arg ← rd b
    raiseIf (ga.toNat % 16 != 0) 3 ga
    raiseIf (decide (ga.toNat + 16 > Config.dataEnd)) 4 ga
    let w ← spad64 ga.toNat
    let h ← spad64 (ga.toNat + 8)
    let off := bits gp 17 0
    let len := bits gp 39 32
    raiseIf (!tst w 63 || refBad w) 4 w
    raiseIf (refOff w % 8 != 0) 3 w
    raiseIf (decide (refOff w + len > Config.dataEnd)) 4 w
    raiseIf (h.toNat % 4 != 0) 3 h
    raiseIf (bits h 63 57 != 0) 6 h
    raiseIf (bits gp 31 18 != 0 || bits gp 63 40 != 0 || decide (len > 224) || len % 8 != 0
      || decide (off + len > Config.dataEnd)) 4 gp
    let data ← spad off len
    send .posted false ⟨refPkg w, .core (refCore w)⟩ (refOff w) w none (.active h arg (toLe len data))) s

/-! ## Reductions and reservations (R381, R382) -/

/-- `red`, `rll` and `rsc` reach scratchpads and HBM; a host target raises 0x07 (R377). -/
def atomicTarget (w : Word) (n : Nat) : M Target := do
  let t ← targetOf w n n .w
  match t with
  | .virt p => raiseIf (p.loc == 2) 7 w
  | .ref .. => pure ()
  pure t

/-- R381: in modes 1 and 2 a reduction into the acc word of the thread's own join block carries its sib (R150). -/
def execRed (g : Guard) (a b : Reg) (k : Amo) (s : State) : Host.Outcome State Fault Refusal :=
  plain (.red g a b k) (do
    access
    use [a, b] []
    let w ← rd a
    let v ← rd b
    let t ← atomicTarget w 8
    let c ← get
    let f ← theFrame
    let (dest, addr) := c.destOf t
    holdMoved w dest addr
    let mine := tst w 63 && tst f.tjoin 63 && w == f.tjoin + 8 && c.modeOf f.launch != 0
    waitIf (128 ≤ (c.coreAt c.core).trackerUsed) .tracker
    set (c.ask c.core (.frame c.frame) .posted false
      ⟨0, c.frankOf c.core c.frame, dest, addr, w, none, f.pri, if mine then some (bits f.tname 61 46) else none, 0, 0,
        .reduce k v, none, false⟩)) s

/-- R382 -/
def execRll (g : Guard) (d a : Reg) (q : Option Scope) (z : Bool) (s : State) : Host.Outcome State Fault Refusal :=
  plain (.rll g d a q z) (do
    access
    use [a] [d]
    let w ← rd a
    let n := wordBytes z
    let t ← atomicTarget w n
    let c ← get
    let (dest, addr) := c.destOf t
    send (.load d n) q.isSome dest addr w q (.reserve n)
    modFrame fun f => { f with resv := some (w, n) }) s

/-- R382: with no matching record it answers 0 and sends nothing. In modes 1 and 2 its outcome is a choice of the order
log (R151). -/
def execRsc (g : Guard) (d a b : Reg) (q : Option Scope) (z : Bool) (s : State) : Host.Outcome State Fault Refusal :=
  plain (.rsc g d a b q z) (do
    access
    use [a, b] [d]
    let w ← rd a
    let v ← rd b
    let n := wordBytes z
    let t ← atomicTarget w n
    let f ← theFrame
    if f.resv != some (w, n) then
      let r ← takeRecord 2
      modify fun c => c.settleRecord c.core r 0
      modFrame fun f => { f with resv := none }
      wr d 0
    else
      releaseIf q
      let c ← get
      waitIf (64 ≤ (c.coreAt c.core).slotsUsed) .replySlots
      let r ← takeRecord 2
      let expect ← prescribed r
      modFrame fun f => { f with resv := none }
      let c ← get
      let (dest, addr) := c.destOf t
      send (.stored d r) false dest addr w q (.condStore n v (expect.map fun x => tst x 0))) s

/-! ## Forwarding (R384) -/

/-- R384 -/
def execFwd (g : Guard) (d a : Dir) (s : State) : Host.Outcome State Fault Refusal :=
  plain (.fwd g d a) (do
    access
    use [.link a] [.link d]
    let w ← rd (.link a)
    wr (.link d) w) s

end Sys2Proof.Machine
end

