-- ==== Sys2Proof/Machine/Arrivals.lean ====
section
/-! DEFINITION. Messages at their homes and answers at their cores: windows (R58 to R60), the export table (R211), the
order of arrivals (R68, R451), puts, gets, reductions, reservations (R378 to R383), active messages and migrating threads
(R22, R145, R147), replies, acks and nacks (R369), and remote pushes and count-downs (R142, R149). -/

namespace Sys2Proof.Machine

/-! ## The order of arrivals -/

/-- Whether a message is of the request class (R200). -/
def isRequest : Body → Bool
  | .reply .. | .ack _ | .nack _ | .objReply _ | .mass .. | .commit _ | .withdrawal _ | .deliveryAck _ => false
  | _ => true

/-- Whether two requests to one core may meet in a bank; those that name no bytes meet every other. -/
def banksMeet (a b : Msg) : Bool :=
  (spans a).isEmpty || (spans b).isEmpty || (spans a).any fun x => (spans b).any fun y => bankMeets x y
/-- The same sending core (R451). -/
def sameSender (a b : Msg) : Bool := a.frank.pkg == b.frank.pkg && a.frank.core == b.frank.core
/-- Whether a message is a deferred notice that the answer of the `verchk.d` which released it follows (R240): it carries the
id of that request. -/
def noticeBefore (a b : Msg) : Bool :=
  (match a.body, b.body with | .notice .., .objReply _ => true | _, _ => false) && a.id != 0 && a.id == b.id && a.dest == b.dest
/-- Two messages to one place, the later of which waits for the earlier: requests of one sender, at a core where they may meet in
a bank, which is their home (R54, R68), or where the earlier waits in the crossbar (R451); a deferred notice and the answer that
follows it (R240). Host memory keeps one sender's order over all its lines (log 68). -/
def ordered (a b : Msg) : Bool :=
  (isRequest a.body && isRequest b.body && sameSender a b && a.dest == b.dest &&
    (match b.dest.home with | .core _ => a.waits || banksMeet a b | _ => true))
  || noticeBefore a b
/-- Whether a message is a reduction. -/
def isReduction : Body → Bool
  | .reduce .. | .vreduce .. => true
  | _ => false
/-- Whether an arrival that waits at the core holds a request back (R451): a reduction that waits for its frame, or that is held
for its turn (R150, log 23), holds its sending core's later requests until it is performed. -/
def Core.holdsBack (k : Core) (m : Msg) : Bool := (k.postbox ++ k.held).any fun e => isReduction e.body && sameSender e m

/-- Whether the core that a message is for has woken and is not under self-test: until then the crossbar holds it (R406,
R425). -/
def Chip.awakeFor (c : Chip) (m : Msg) : Bool :=
  match m.dest.home with
  | .core k => !(c.coreAt k).asleep && decide ((c.coreAt k).wakeAt ≤ c.now) && !c.underTest k
  | _ => true

/-- Whether a message's home has power: in state 4 the compute dies have none (R424). -/
def Chip.powered (c : Chip) (m : Msg) : Bool :=
  c.devState != 4 || (match m.dest.home with | .core _ | .hbm .. => false | _ => true)
/-- The n-th message in flight, when it is for this package and nothing earlier of its sender stands before it. -/
def Chip.arriving (c : Chip) (n : Nat) : Option Msg :=
  match c.net[n]? with
  | none => none
  | some m =>
    if m.dest.pkg == c.pkg && c.powered m && c.awakeFor m && !((c.net.take n).any fun e => ordered e m)
      && !(isRequest m.body && (match m.dest.home with | .core k => (c.coreAt k).holdsBack m | _ => false))
    then some m else none
/-- The n-th message left to wait in the crossbar, where it holds back its sender's later requests (R451): none once it is marked
as waiting. -/
def Chip.waitInCrossbar (c : Chip) (n : Nat) (m : Msg) : Option Chip :=
  if m.waits then none else some { c with net := c.net.set n { m with waits := true } }
/-- The n-th message taken from the network. -/
def Chip.taken (c : Chip) (n : Nat) : Chip := { c with net := c.net.eraseIdx n }

/-! ## Windows and the export table -/

/-- The lowest switch that two parties share, as a window's scope code (R13, R58): 0 signature to 4 system. -/
def Chip.switchOf (c : Chip) (fr : Frank) (core : Nat) : Nat :=
  if fr.pkg != c.pkg then 4
  else if sigOf fr.core == sigOf core then 0
  else if quireOf fr.core == quireOf core then 1
  else if dieOf fr.core == dieOf core then 2 else 3

/-- Whether one window admits a message (R58, R60): its right by bit number, the context, the distance, every byte. -/
def windowAdmits (w : Word) (right ctx dist : Nat) (sp : List (Nat × Nat)) : Bool :=
  tst w 63 && tst w right && (tst w 47 || bits w 57 48 == ctx) && decide (dist ≤ bits w 46 44)
  && sp.all fun x => decide (bits w 11 0 * 64 ≤ x.1) && decide (x.1 + x.2 ≤ bits w 27 16 * 64 + 64)

/-- The windows that a message is checked against: a `setc` of this cycle does not count yet (R404). -/
def Core.windowsAt (k : Core) (now : Nat) : List Word := (if k.winAt = now then k.winOld else k.win).toList

/-- One entry of the export table (R211). -/
structure Export where
  head : BitVec 64
  lo : Nat
  hi : Nat
  tail : Nat
  deriving DecidableEq, Repr

/-- Entry i (R211). -/
def Chip.exportAt (c : Chip) (i : Nat) : Export :=
  ⟨rd64 c.exports (32 * i), (rd64 c.exports (32 * i + 8)).toNat, (rd64 c.exports (32 * i + 16)).toNat,
   rdLe c.exports (32 * i + 24) 8⟩
/-- A valid entry (R211). -/
def Export.valid (e : Export) : Bool :=
  tst e.head 7 && bits e.head 6 1 == 0 && bits e.head 15 13 == 0 && bits e.head 30 28 == 0 && bits e.head 46 42 == 0
  && bits e.head 63 58 == 0 && e.tail == 0
/-- The entry covers a target's bytes (R211). -/
def Export.covers (e : Export) (m : Msg) (n : Nat) : Bool :=
  match m.dest.home with
  | .hbm _ _ => !tst e.head 0 && decide (e.lo ≤ m.addr) && decide (m.addr + n ≤ e.hi + 1)
  | .core k => tst e.head 0 && decide (e.lo ≤ k) && decide (k ≤ e.hi)
  | _ => false
/-- The entry admits a franking (R211). -/
def Export.admits (e : Export) (fr : Frank) : Bool :=
  (tst e.head 31 || bits e.head 27 16 == fr.pkg) && (tst e.head 47 || bits e.head 41 32 == fr.ctx)

/-- The context in which a message acts: its franking's on the package, the admitting entry's off it (R211). -/
def Chip.actingCtx (c : Chip) (m : Msg) (n right : Nat) : Option Nat :=
  if m.frank.pkg == c.pkg then some m.frank.ctx
  else
    match ((List.range 256).map c.exportAt).find? fun e => e.valid && e.covers m n && e.admits m.frank with
    | none => none
    | some e => if tst e.head (8 + right) then some (bits e.head 57 48) else none

/-- Whether a physical range lies in a page that is sealed or has moved (R190). -/
def Chip.isShut (c : Chip) (a n : Nat) : Bool := c.shut.any fun r => overlap a n r.1 r.2
/-- A host address among the sealed ranges, which stands above every address of HBM. -/
def hostMark : Nat := 2 ^ 60
/-- An address of the spine object area among the sealed ranges. -/
def spineMark : Nat := 2 ^ 61
/-- Whether a translated range lies in a page that is sealed or has moved (R190). -/
def Chip.physShut (c : Chip) (p : Phys) (n : Nat) : Bool :=
  match p.loc with
  | 0 => c.isShut p.pa n
  | 2 => c.isShut (hostMark + p.pa) n
  | 3 => c.isShut (spineMark + p.pa) n
  | _ => false

/-- The check of a request at its home (R60, R190, R211, R369): the nack status that refuses it, or the acting
context. -/
def Chip.admits (c : Chip) (m : Msg) (n window right : Nat) : Except Nat Nat :=
  match c.actingCtx m n right with
  | none => .error 3
  | some ctx =>
    match m.dest.home with
    | .core k =>
      if (spans m).any fun x => decide (x.1 + x.2 > Config.dataEnd) then .error 1
      else if m.frank.sup || ((c.coreAt k).windowsAt c.now).any fun w => windowAdmits w window ctx (c.switchOf m.frank k) (spans m) then
        .ok ctx
      else .error 1
    | .hbm _ _ =>
      if !installed m.addr n then .error (if m.frank.pkg == c.pkg then 4 else 3)
      else if c.isShut m.addr n then .error 2
      else if m.frank.pkg != c.pkg && window != 62 && c.inRegion m.addr n then .error 4
      else .ok ctx
    | .host => if m.frank.pkg != c.pkg then .error 3 else if c.isShut (hostMark + m.addr) n then .error 2 else .ok ctx
    | .spine => .error 3

/-! ## Puts, gets and atomics at their homes -/

/-- R378, R26: the payload is written, then the counter counts up; a poisoned counter stays as it is (log 64). -/
def Chip.putAt (c : Chip) (m : Msg) (d : List Byte) (ctr : Option Nat) : Chip :=
  let c := c.writeHome m.dest.home m.addr d
  match ctr, m.dest.home with
  | some o, .core k => c.modCore k fun x => x.countOne o
  | _, _ => c

/-- R378 -/
def execPutArrival (n : Nat) (s : State) : Host.Outcome State Fault Refusal :=
  event (fun c => match c.arriving n with
    | some m => match m.body with
      | .put d ctr =>
        let c := c.taken n
        match c.admits m d.length 61 1 with
        | .error st => some (c.answer m (.nack st))
        | .ok _ => some ((c.putAt m d ctr).answer m (.ack 0))
      | .piece d =>
        let c := c.taken n
        match c.admits m d.length 61 1 with
        | .error st => some (c.answer m (.nack st))
        | .ok _ => some ((c.putAt m d none).answer m (.ack 0))
      | _ => none
    | none => none) s

/-- R379, R61: the value, marked when it is poisoned (R453). -/
def execGetArrival (n : Nat) (s : State) : Host.Outcome State Fault Refusal :=
  event (fun c => match c.arriving n with
    | some m => match m.body with
      | .get k =>
        let c := c.taken n
        match c.admits m k 62 0 with
        | .error st => some (c.answer m (.nack st))
        | .ok _ =>
          if m.dest.home = .host ∧ c.hostFails m.addr k then some (c.answer m (.nack 4))
          else some (c.answer m (.reply (c.readHome m.dest.home m.addr k) (c.poisonAt m.dest.home m.addr k)))
      | _ => none
    | none => none) s

/-- The reservations of a home (R383). -/
def Chip.resvAt (c : Chip) (h : Home) : List Resv :=
  match h with
  | .core k => (c.coreAt k).resv
  | .hbm st ch => tget [] c.agentResv (agentOf st ch)
  | _ => []
/-- The reservations of a home written. -/
def Chip.setResv (c : Chip) (h : Home) (l : List Resv) : Chip :=
  match h with
  | .core k => c.modCore k fun x => { x with resv := l }
  | .hbm st ch => { c with agentResv := tset c.agentResv (agentOf st ch) l }
  | _ => c
/-- Reservations a home can keep (R383). -/
def resvRoom (h : Home) : Nat := match h with | .core _ => 16 | _ => 64

/-- A new reservation (R383): it replaces its frame's earlier one at this home; with no entry free it displaces the oldest
held for 64 cycles or more, or is not recorded. -/
def Chip.reserve (c : Chip) (m : Msg) (n : Nat) : Chip :=
  let mine := fun (r : Resv) => r.pkg == m.frank.pkg && r.core == m.frank.core && r.frame == m.frank.frame
  let l := (c.resvAt m.dest.home).filter fun r => !mine r
  let r : Resv := ⟨m.addr, n, m.frank.pkg, m.frank.core, m.frank.frame, c.now⟩
  if l.length < resvRoom m.dest.home then c.setResv m.dest.home (l ++ [r])
  else match l with
    | old :: rest => if old.since + 64 ≤ c.now then c.setResv m.dest.home (rest ++ [r]) else c.setResv m.dest.home l
    | [] => c

/-- An atomic that reads a word at its home and writes nothing, which at a core takes part in a merge step (R79). -/
def Chip.lookHome (c : Chip) (h : Home) (a n : Nat) : Chip :=
  match h with
  | .core k => c.modCore k fun x => x.padLook a n
  | _ => c
/-- R382, R383 -/
def execReserveArrival (n : Nat) (s : State) : Host.Outcome State Fault Refusal :=
  event (fun c => match c.arriving n with
    | some m => match m.body with
      | .reserve k =>
        let c := c.taken n
        match c.admits m k 59 2 with
        | .error st => some (c.answer m (.nack st))
        | .ok _ =>
          if m.dest.home = .host ∧ c.hostFails m.addr k then some (c.answer m (.nack 4))
          else some (((c.reserve m k).lookHome m.dest.home m.addr k).answer m (.reply (c.readHome m.dest.home m.addr k) (c.poisonAt m.dest.home m.addr k)))
      | _ => none
    | none => none) s

/-- Whether the sender's reservation on the word holds (R382). -/
def Chip.reserved (c : Chip) (m : Msg) (n : Nat) : Bool :=
  (c.resvAt m.dest.home).any fun r => r.addr == m.addr && r.size == n && r.pkg == m.frank.pkg && r.core == m.frank.core
    && r.frame == m.frank.frame

/-- R382: in a replay it is not performed before the logged outcome is possible (R151). -/
def execConditionalStoreArrival (n : Nat) (s : State) : Host.Outcome State Fault Refusal :=
  event (fun c => match c.arriving n with
    | some m => match m.body with
      | .condStore k v expect =>
        match c.admits m k 59 2 with
        | .error st => some ((c.taken n).answer m (.nack st))
        | .ok _ =>
          let won := c.reserved m k
          if expect.isSome && expect != some won then none
          else
            let c := c.taken n
            if won then some ((c.writeHome m.dest.home m.addr (toLe k v.toNat) .update).answer m (.ack 0))
            else some ((c.lookHome m.dest.home m.addr k).answer m (.ack 1))
      | _ => none
    | none => none) s

/-- One step of `vamo` on a word (R343): FP32 addition is that of the vector unit. -/
def vamoApply (addF : BitVec 32 → BitVec 32 → BitVec 32) (k : VAmo) (w s : BitVec 32) : BitVec 32 :=
  match k with
  | .addI => w + s
  | .minI => if s.slt w then s else w
  | .maxI => if w.slt s then s else w
  | .and => w &&& s | .or => w ||| s | .xor => w ^^^ s
  | .addF => addF w s

/-! ## Frames for arrivals (R145, R147) -/

/-- The frame a handler starts in (R147): the lowest unreserved free frame, else the lowest free frame of a reservation of
its context. -/
def Chip.dormant (c : Chip) (core ctx : Nat) : Option Nat :=
  let k := c.coreAt core
  (k.lowest c.now fun f => f.reservedFor.isNone).orElse fun _ => k.lowest c.now fun f =>
    match f.reservedFor with
    | some l => (match tfind c.launches l with | some x => x.ctx == ctx | none => l == 0 && ctx == 0)
    | none => false

/-- The franking as a handler's g1 holds it (R147): package, core, context and privilege of R57 at their places in the frank
field of R199 (log 18). -/
def frankWord (fr : Frank) : Word :=
  BitVec.ofNat 64 (fr.sup.toNat * 2 ^ 37 + fr.ctx * 2 ^ 27 + fr.core * 2 ^ 12 + fr.pkg)

/-- A handler's frame (R147). It works for its sender's launch where that is one of this package (R121). -/
def Chip.handlerFrame (c : Chip) (m : Msg) (pc arg : Word) (off len : Nat) (old : Frame) : Frame :=
  { Frame.reset with
    g := ((((Vector.replicate 16 (0 : Word)).set 0 arg).set 1 (frankWord m.frank)).set 2 (BitVec.ofNat 64 off)).set 3
      (BitVec.ofNat 64 len)
    pc := pc, npc := pc + 4, nnpc := pc + 8
    sw := freshSw m.pri (m.frank.sup && m.lctx.getD m.frank.ctx == 0)
    st := .ready, ctx := m.lctx.getD m.frank.ctx, origin := if m.frank.pkg == c.pkg then m.frank.launch else none, reservedFor := old.reservedFor,
    thread := c.nextThread, readySince := c.now }

/-- The frame a migrating thread resumes in (R145). -/
def Chip.migratedFrame (c : Chip) (im : Image) (old : Frame) : Frame :=
  { Frame.reset with
    g := im.g, pc := im.pc, npc := im.npc, nnpc := im.nnpc, sw := im.sw, st := .ready, tname := im.tname,
    tjoin := im.tjoin, ctx := im.ctx, launch := im.launch, reservedFor := old.reservedFor, thread := c.nextThread,
    readySince := c.now, poisoned := im.poisoned, claims := im.claims, slots := im.slots }

/-- Whether a core holds a reservation of a launch (R145). -/
def Core.reserves (k : Core) (l : Option Nat) : Bool := l.isSome && k.frames.any fun p => p.2.reservedFor == l

/-- Start one arrival of the postbox, if a frame for it is free (R22, R145, R147, R381). An exhaustion record's handler works
for the launch of context 0 that Dalox places, number 0 (R166, R265). -/
def Chip.startArrival (c : Chip) (core : Nat) (m : Msg) : Option Chip :=
  let k := c.coreAt core
  match m.body with
  | .active h arg d =>
    (c.dormant core (m.lctx.getD m.frank.ctx)).map fun f =>
      c.startIn core f (c.handlerFrame m h arg m.addr d.length)
  | .exhaustion d =>
    (k.lowest c.now fun f => f.reservedFor == some 0).map fun f =>
      c.startIn core f fun old => { c.handlerFrame m Config.supervisorHandler 0 m.addr d.length old with origin := some 0 }
  | .migrate im =>
    (k.lowest c.now fun f => f.reservedFor == im.launch).map fun f => c.startIn core f (c.migratedFrame im)
  | .reduce .. => (c.dormant core (m.lctx.getD m.frank.ctx)).map fun _ => c.arriveOrdered core m
  | _ => none

/-- R22, R147: the first arrival of the postbox that can start: one whose frame is not free lets younger ones pass (log 65). A
reduction is performed in its handler's frame and leaves it free again in one step (R381). -/
def execHandlerStart (core : Nat) (s : State) : Host.Outcome State Fault Refusal :=
  event (fun c =>
    let k := c.coreAt core
    k.postbox.findSome? fun m =>
      (c.modCore core fun x => { x with postbox := x.postbox.erase m }).startArrival core m) s

/-! ## Arrivals that need a frame -/

/-- R380: the payload is written when the window admits it; the arrival enters the postbox and is acknowledged, or waits in
the crossbar while the postbox is full. One of a context that is being killed is discarded, and its sender refused (R86). -/
def execActiveArrival (n : Nat) (s : State) : Host.Outcome State Fault Refusal :=
  event (fun c => match c.arriving n with
    | none => none
    | some m => match m.dest.home with
      | .core core =>
        let room := decide ((c.coreAt core).postboxUsed < 32)
        let box := fun (c : Chip) (m : Msg) => c.modCore core fun k => { k with postbox := k.postbox ++ [m] }
        match m.body with
        | .exhaustion d =>
          let m' := { m with lctx := some 0, waits := true }
          if m.lctx.isSome then (if room then some (box (c.taken n) m) else none)
          else
            let c := c.writeHome m.dest.home m.addr d
            if room then some (box (c.taken n) m') else some { c with net := c.net.set n m' }
        | .active _ _ d =>
          if m.lctx.isSome then
            if !c.ctxOpen (m.lctx.getD m.frank.ctx) then some ((c.taken n).answer m (.nack 1))
            else if room then some ((box (c.taken n) m).answer m (.ack 0)) else none
          else match c.admits m (spans m).length 58 4 with
            | .error st => some ((c.taken n).answer m (.nack st))
            | .ok ctx =>
              if !c.ctxOpen ctx then some ((c.taken n).answer m (.nack 1))
              else
                let m' := { m with lctx := some ctx, waits := true }
                let c := c.writeHome m.dest.home m.addr d
                if room then some ((box (c.taken n) m').answer m (.ack 0))
                else some { c with net := c.net.set n m' }
        | _ => none
      | _ => none) s

/-- R145: refused where the core holds no reservation of the launch, or the context is being killed (R86); it waits in the
crossbar while the postbox is full (R22). A thread that is accepted is acknowledged, which frees the frame that it left (R127). It
starts at once where a frame of its reservation is free, though an older arrival for it may stand in the postbox (DESIGN CHOICE,
log 65). -/
def execMigrateArrival (n : Nat) (s : State) : Host.Outcome State Fault Refusal :=
  event (fun c => match c.arriving n with
    | none => none
    | some m => match m.dest.home, m.body with
      | .core core, .migrate im =>
        if !(c.coreAt core).reserves im.launch || !c.ctxOpen im.ctx then some ((c.taken n).answer m (.nack 1))
        else if 32 ≤ (c.coreAt core).postboxUsed then c.waitInCrossbar n m
        else
          let c := (c.taken n).answer m (.ack 0)
          some ((c.startArrival core m).getD (c.modCore core fun k => { k with postbox := k.postbox ++ [m] }))
      | _, _ => none) s

/-- A word of 32 bits at a home. -/
def Chip.read32 (c : Chip) (h : Home) (a : Nat) : BitVec 32 := BitVec.ofNat 32 (c.readNat h a 4)

/-- What a reduction makes of the bytes of its word (R343, R381). -/
def Chip.reduced (c : Chip) (h : Home) (m : Msg) (addF : BitVec 32 → BitVec 32 → BitVec 32) : List Byte :=
  match m.body with
  | .vreduce k v => toLe 4 (vamoApply addF k (c.read32 h m.addr) v).toNat
  | .reduce k v => toLe 8 (amoApply k 8 (c.read64 h m.addr).toNat v.toNat)
  | _ => []

/-- R381, R343: a memory performs a reduction at once; at a core it enters the postbox, or waits in the crossbar while that is
full (R22). Poisoned data, or data that the host fails to deliver (R413), is not combined. -/
def Chip.reduceAt (c : Chip) (n : Nat) (m : Msg) (addF : BitVec 32 → BitVec 32 → BitVec 32) : Option Chip :=
  let len := match m.body with | .vreduce .. => 4 | _ => 8
  let h := m.dest.home
  match c.admits m len 60 2 with
  | .error st => some ((c.taken n).answer m (.nack st))
  | .ok ctx =>
    if c.poisonAt h m.addr len || (h == .host && c.hostFails m.addr len) then some ((c.taken n).answer m (.nack 4))
    else match h, m.body with
      | .core core, .reduce .. =>
        if !c.ctxOpen ctx then some ((c.taken n).answer m (.nack 1))
        else if (c.coreAt core).postboxUsed < 32 then
          some ((c.taken n).modCore core fun k => { k with postbox := k.postbox ++ [{ m with lctx := some ctx }] })
        else c.waitInCrossbar n m
      | .core _, _ | .spine, _ => none
      | h, _ => some (((c.taken n).writeHome h m.addr (c.reduced h m addF)).answer m (.ack 0))

/-! ## Remote pushes and count-downs -/

/-- R149, R311: a spawned task at the core that its name places it on; it waits while the deque is full. -/
def execRemoteTaskPush (n : Nat) (s : State) : Host.Outcome State Fault Refusal :=
  event (fun c => match c.arriving n with
    | some m => match m.dest.home, m.body with
      | .core core, .taskPush t =>
        if (c.coreAt core).dequeFull || !c.dequeFree core then none else some ((c.taken n).modCore core fun k => k.push t)
      | _, _ => none
    | none => none) s

/-- R142, R150 -/
def execJoinCountdown (n : Nat) (s : State) : Host.Outcome State Fault Refusal :=
  event (fun c => match c.arriving n with
    | some m => match m.dest.home, m.body with
      | .core core, .countDown =>
        if (c.coreAt core).mustHold m && decide (32 ≤ (c.coreAt core).postboxUsed) then c.waitInCrossbar n m
        else some ((c.taken n).arriveOrdered core m)
      | _, _ => none
    | none => none) s

/-! ## Answers at the core (R369) -/

/-- The address that a refusal reports (R152, R211, R369). -/
def refusedAddr (r : Msg) (status : Nat) : Word :=
  if status = 1 ∨ status = 3 then
    match r.dest.home with
    | .core k => BitVec.ofNat 64 (r.dest.pkg * 2 ^ 48 + k * 2 ^ 32 + r.addr % 2 ^ 18)
    | _ => BitVec.ofNat 64 (r.dest.pkg * 2 ^ 48 + 0x7FFF * 2 ^ 32 + r.addr % 2 ^ 18)
  else r.va
/-- The cause and detail of a refusal (R369, R205). -/
def refusedCause (status : Nat) : Nat × Nat :=
  match status with
  | 1 | 3 => (5, 0)
  | 4 => (0x0E, 0x52)
  | 5 => (0x0E, 0x40)
  | 6 => (6, 0)
  | 8 => (7, 0)
  | _ => (0x0E, 0x41)

/-- The general register a request writes. -/
def Want.reg : Want → Option Nat
  | .load (.g n) _ | .stored (.g n) _ => some n.toNat
  | _ => none
/-- The vector register a request writes. -/
def Want.vec : Want → Option Nat
  | .vpart v _ => some v
  | _ => none

/-- A refused request reported to its thread (R62, R369): kept until the first waiting instruction; a tail's drain
withholds its count-down, and the command processor hears of it (R318). -/
def Chip.reportTo (c : Chip) (core : Nat) (r : Req) (status : Nat) : Chip :=
  let (cause, detail) := refusedCause status
  match r.owner with
  | .frame f => c.modFrame core f fun fr => { fr with
      refusals := fr.refusals ++ [⟨r.acq, cause, detail, refusedAddr r.msg status, r.want.reg, r.want.vec⟩] }
  | .tracker t =>
    let c := c.modCore core fun k => { k with
      trackers := k.trackers.map fun p => if p.1 == t then (p.1, { p.2 with refused := true }) else p }
    { c with reports := c.reports ++ (tfind (c.coreAt core).trackers t).toList.map fun x => .lost x.ctx x.launch }
  | _ => c

/-- A request ended: its slot or entry frees. -/
def Chip.close (c : Chip) (core id : Nat) : Chip := c.modCore core fun k => { k with reqs := tdel k.reqs id }

/-- A register of a frame written by an answer, poisoned or not (R61). -/
def Frame.land (f : Frame) (d : Reg) (v : Word) (bad : Bool) (addr : Word) : Frame :=
  match d with
  | .g n =>
    let f := f.setReg n v
    if bad then { f with poisoned := f.poisoned ++ [(n.toNat, addr)] } else f
  | _ => f

/-- The parts of a vector load still to come, this one aside. -/
def Core.partsLeft (k : Core) (id v : Nat) (o : Owner) : Bool :=
  k.reqs.any fun p => p.1 != id && p.2.owner == o && (match p.2.want with | .vpart x _ => x == v | _ => false)

/-- The stage of a vector register emptied: its bytes, the poison of its parts, which stands under v + 32, and the mark of a
part that was refused. -/
def Vec.unstage (x : Vec) (v : Nat) : Vec :=
  { x with stage := tdel x.stage v, poisoned := x.poisoned.filter (·.1 != v + 32), lost := x.lost.filter (· != v) }

/-- The last part of a vector register has come: unless a part was refused, the register is written, poisoned when a part
was (R341). -/
def Core.landVector (k : Core) (v : Nat) : Core :=
  if h : v < 32 then
    if k.vec.lost.contains v then { k with vec := k.vec.unstage v }
    else
      let bad := (k.vec.poisoned.filter (·.1 == v + 32)).map fun p => (v, p.2)
      let x := k.vec.unstage v
      { k with vec := { x with
          v := x.v.set v (tget 0 k.vec.stage v)
          poisoned := x.poisoned.filter (·.1 != v) ++ bad.take 1 } }
  else k

/-- A part of a vector register staged (R341): the register is written when its last part has come. -/
def Chip.landPart (c : Chip) (core id : Nat) (r : Req) (v lo : Nat) (data : List Byte) (bad : Bool) : Chip :=
  c.modCore core fun k =>
    let staged := putBits (tget 0 k.vec.stage v) (8 * lo + 8 * data.length - 1) (8 * lo) (leNat data)
    let mark := if bad then [(v + 32, r.msg.va)] else []
    let k := { k with vec := { k.vec with stage := tset k.vec.stage v staged, poisoned := k.vec.poisoned ++ mark } }
    if k.partsLeft id v r.owner then k else k.landVector v

/-! ### Engine commands whose accesses are answered (R350, R351) -/

/-- The queue of an engine. -/
def Core.queue (k : Core) : Engine → List Cmd
  | .mx => k.mxq
  | .cp => k.cpq
/-- The queue of an engine written. -/
def Core.setQueue (k : Core) (e : Engine) (q : List Cmd) : Core :=
  match e with
  | .mx => { k with mxq := q }
  | .cp => { k with cpq := q }

/-- The error register (R352). -/
def errorWord (m : Cmd) (detail ndisc : Nat) : Word :=
  BitVec.ofNat 64 (2 ^ 63 + detail * 2 ^ 48 + bits m.data 7 0 * 2 ^ 40 + m.frame * 2 ^ 32 + ndisc)

/-- R351: the command at position i fails. The commands behind it are discarded, the error register is written, and the
trap waits for the posting frame; where that thread is gone, the command processor hears of it (R156). -/
def Chip.engineFail (c : Chip) (core : Nat) (e : Engine) (i : Nat) (m : Cmd) (detail : Nat) (eaddr : Word) : Chip :=
  let k := c.coreAt core
  let w := errorWord m detail ((k.queue e).length - i - 1)
  let c := c.modCore core fun k =>
    let k := k.setQueue e ((k.queue e).take i)
    match e with
    | .mx => { k with mxerr := w }
    | .cp => { k with cperr := w }
  if (k.frameAt m.frame).thread = m.thread ∧ (k.frameAt m.frame).st ≠ .free then
    c.modFrame core m.frame fun f => { f with engErr := f.engErr ++ [(m.word, detail, eaddr)] }
  else { c with reports := c.reports ++ [Report.lost m.ctx m.launch] }

/-- The command with a tag fails, if it still stands in its queue. -/
def Chip.failCmd (c : Chip) (core : Nat) (e : Engine) (tag detail : Nat) (eaddr : Word) : Chip :=
  match ((c.coreAt core).queue e).zipIdx.find? fun p => p.1.tag == tag with
  | some (m, i) => c.engineFail core e i m detail eaddr
  | none => c
/-- A byte's place in the memory of other packages as this one reads it (log 8). -/
def farKey (pkg pa : Nat) : Nat := pkg * 2 ^ 52 + pa
/-- What another package answers to a read of an engine command: the command goes on from there (R365). -/
def Chip.landPiece (c : Chip) (core : Nat) (e : Engine) (tag : Nat) (a : FarAns) : Chip :=
  c.modCore core fun k => k.setQueue e ((k.queue e).map fun (x : Cmd) => if x.tag = tag then { x with far := some a } else x)
/-- What another package answers to an access of the instruction that a frame has under way: the instruction goes on from there
(R335, R366). -/
def Chip.landFar (c : Chip) (core f id : Nat) (a : FarAns) : Chip :=
  c.modFrame core f fun fr =>
    let fr := { fr with far := fr.far ++ [a] }
    if fr.st = .stalled (.answer id) then { fr with st := .ready, readySince := c.now } else fr

/-- n bytes that an answer does not deliver (R369, log 9). -/
def lostBytes (k n : Nat) : List Byte := (List.range n).map fun i => (Config.lostData k).extractLsb' (8 * (i % 8)) 8

/-- R61, R365, R369: the reply of a read. -/
def execReply (n : Nat) (s : State) : Host.Outcome State Fault Refusal :=
  event (fun c => match c.arriving n with
    | some m => match m.dest.home, m.body with
      | .core core, .reply data bad =>
        let c := c.taken n
        match tfind (c.coreAt core).reqs m.id with
        | none => some c
        | some r =>
          let c' := match r.owner, r.want with
            | .frame f, .load d _ =>
              c.modFrame core f fun fr => fr.land d (BitVec.ofNat 64 (leNat data)) bad r.msg.va
            | .frame _, .vpart v lo => c.landPart core m.id r v lo data bad
            | .engine e, .piece tag true => c.landPiece core e tag (.data data bad)
            | .frame f, .listed => c.landFar core f m.id (.data data bad)
            | _, _ => c
          some (c'.close core m.id)
      | _, _ => none
    | none => none) s

/-- R369: status 0 performed, 1 `rsc` failed. An accepted migration frees the frame it left (R145). -/
def execAck (n : Nat) (s : State) : Host.Outcome State Fault Refusal :=
  event (fun c => match c.arriving n with
    | some m => match m.dest.home, m.body with
      | .core core, .ack st =>
        let c := c.taken n
        match tfind (c.coreAt core).reqs m.id with
        | none => some c
        | some r =>
          let c := c.close core m.id
          match r.owner, r.want with
          | .frame f, .stored d log =>
            let v : Word := if st = 0 then 1 else 0
            some ((c.modFrame core f fun fr => fr.land d v false 0).settleRecord core log v)
          | .frame f, .listed => some (c.landFar core f m.id .done)
          | .frame f, .move _ => some ((c.modFrame core f fun fr => { fr with claims := [] }).freeFrame core f)
          | _, _ => some c
      | _, _ => none
    | none => none) s

/-- The cause of an engine command's failure by a refused access (R350). -/
def pieceDetail (status : Nat) (read : Bool) : Nat :=
  match status with
  | 3 => 0x3D
  | 5 | 7 => 0x3E
  | 6 => 0x37
  | 8 => 0x38
  | _ => if read then 0x39 else 0x3A

/-- What a nack does to its request (R369): page-moved is retried (R191), poison marks the register, anything else is
reported. A refused migration traps at its instruction (R145). -/
def Chip.refuse (c : Chip) (core id : Nat) (r : Req) (status : Nat) : Chip :=
  match r.owner, r.want with
  | .frame f, .move target =>
    (c.close core id).takeTrap core f r.word false 5 0 (BitVec.ofNat 64 (c.pkg * 2 ^ 48 + target * 2 ^ 32))
  | .frame f, .object _ _ log =>
    let (cause, detail) := refusedCause status
    ((c.close core id).settleRecord core log 0).takeTrap core f r.word false cause detail (refusedAddr r.msg status)
  | .frame f, .load d _ =>
    if status = 4 then
      ({ (c.close core id) with freeCount := c.freeCount + 1 }).modFrame core f fun fr =>
        fr.land d (Config.lostData c.freeCount) true r.msg.va
    else (c.close core id).reportTo core r status
  | .frame _, .vpart v lo =>
    if status = 4 then
      let n := match r.msg.body with | .get n => n | _ => 4
      let c := { c with freeCount := c.freeCount + 1 }
      (c.landPart core id r v lo (lostBytes c.freeCount n) true).close core id
    else
      let c := c.reportTo core r status
      (c.modCore core fun k => { k with
        vec := if k.partsLeft id v r.owner then { k.vec with lost := v :: k.vec.lost } else k.vec.unstage v }).close core id
  | .frame f, .stored d log =>
    if status = 4 then
      (({ (c.close core id) with freeCount := c.freeCount + 1 }).modFrame core f fun fr =>
        fr.land d (Config.lostData c.freeCount) true r.msg.va).settleRecord core log 0
    else ((c.close core id).reportTo core r status).settleRecord core log 0
  | .engine e, .piece tag true => (c.close core id).landPiece core e tag (.refused status)
  | .engine e, .piece tag false => (c.close core id).failCmd core e tag (pieceDetail status false) r.msg.va
  | .frame f, .listed => (c.close core id).landFar core f id (.refused status)
  | .log launch, _ => (c.close core id).lostSlice core launch
  | _, _ => (c.close core id).reportTo core r status

/-- R205: an off-package request with no answer for the time held in `fabcfg.tmo`. -/
def execRequestTimeout (core id : Nat) (s : State) : Host.Outcome State Fault Refusal :=
  event (fun c => match tfind (c.coreAt core).reqs id with
    | none => none
    | some r =>
      let tmo := if bits c.fabcfg 15 0 = 0 then 1000 else bits c.fabcfg 15 0
      if r.msg.dest.pkg != c.pkg && decide (r.sent + tmo * 10 * Config.cyclesPerUs ≤ c.now) then
        some (c.refuse core id r 7)
      else none) s

end Sys2Proof.Machine
end

