-- ==== Sys2Proof/Machine/Numbers.lean ====
section
/-! DEFINITION. Number formats, exact arithmetic, rounding, the order of sums, CB8 blocks, format contexts, and the
approximations (R28 to R49, R339). Operands become exact numbers, results are exact, and rounding happens once. -/

namespace Sys2Proof.Machine

/-! ## Formats (R28, R39) -/

/-- Element formats, by code of R39. -/
inductive Fmt where
  | fp32 | bf16 | e4m3 | e5m2 | int8 | int32 | cb8
  deriving DecidableEq, Repr

/-- A format by its code; none for 7 to 15. -/
def fmtOf (n : Nat) : Option Fmt :=
  match n with
  | 0 => some .fp32 | 1 => some .bf16 | 2 => some .e4m3 | 3 => some .e5m2 | 4 => some .int8 | 5 => some .int32
  | 6 => some .cb8 | _ => none
/-- Width in bytes. -/
def Fmt.bytes : Fmt → Nat
  | .fp32 | .int32 => 4 | .bf16 => 2 | _ => 1
/-- Fraction bits. -/
def Fmt.frac : Fmt → Nat
  | .fp32 => 23 | .bf16 => 7 | .e4m3 => 3 | _ => 2
/-- Exponent bits. -/
def Fmt.expo : Fmt → Nat
  | .fp32 | .bf16 => 8 | .e4m3 => 4 | _ => 5
/-- Bias. -/
def Fmt.bias : Fmt → Int
  | .fp32 | .bf16 => 127 | .e4m3 => 7 | _ => 15
/-- Code of the largest finite magnitude. -/
def Fmt.maxCode : Fmt → Nat
  | .fp32 => 0x7F7FFFFF | .bf16 => 0x7F7F | .e4m3 => 0x7E | _ => 0x7B
/-- Code of positive infinity; E4M3 has none, and NaN stands for it (R47). -/
def Fmt.infCode : Fmt → Nat
  | .fp32 => 0x7F800000 | .bf16 => 0x7F80 | .e4m3 => 0x7F | _ => 0x7C
/-- Code of the default NaN. -/
def Fmt.nanCode : Fmt → Nat
  | .fp32 => 0x7FC00000 | .bf16 => 0x7FC0 | .e4m3 => 0x7F | _ => 0x7E
/-- The sign bit's weight. -/
def Fmt.signBit (f : Fmt) : Nat := 2 ^ (f.frac + f.expo)

/-- The value of a floating-point element (R29). -/
def decodeFloat (f : Fmt) (x : Nat) : FVal :=
  let s := x / f.signBit % 2 == 1
  let e := x / 2 ^ f.frac % 2 ^ f.expo
  let m := x % 2 ^ f.frac
  if e = 0 then .fin s m (1 - f.bias - f.frac)
  else if e = 2 ^ f.expo - 1 then
    if f = .e4m3 then (if m = 7 then .nan else .fin s (8 + m) (e - f.bias - 3))
    else if m = 0 then .inf s else .nan
  else .fin s (2 ^ f.frac + m) (e - f.bias - f.frac)

/-- The number an integer element holds. -/
def ofInt (i : Int) : FVal := .fin (decide (i < 0)) i.natAbs 0

/-! ## Rounding (R47, R48) -/

/-- n divided by 2^k, to nearest with ties to even, or toward zero. -/
def shiftRound (near : Bool) (n k : Nat) : Nat :=
  let q := n / 2 ^ k
  let r := n % 2 ^ k
  if near && k != 0 && (decide (2 ^ (k - 1) < r) || (r == 2 ^ (k - 1) && q % 2 == 1)) then q + 1 else q

/-- m times 2^e as a whole number of 2^q, rounded. -/
def scaleTo (near : Bool) (m : Nat) (e q : Int) : Nat :=
  if q ≤ e then m * 2 ^ (e - q).toNat else shiftRound near m (q - e).toNat

/-- The exponent of the leading bit of m times 2^e (R44). -/
def leading (m : Nat) (e : Int) : Int := m.log2 + e

/-- The magnitude code of m times 2^e in a format whose exponent range has no upper end. -/
def roundMag (f : Fmt) (near : Bool) (m : Nat) (e : Int) : Nat :=
  if m = 0 then 0 else
  let q := max (leading m e) (1 - f.bias) - f.frac
  let n := scaleTo near m e q
  (q + f.frac + f.bias - 1).toNat * 2 ^ f.frac + n

/-- A conversion's element, whether it overflows (R48), and what it becomes when its outlier list is full (R49). -/
structure Conv where
  code : Nat
  overflows : Bool
  bound : Nat
  deriving DecidableEq, Repr

/-- Conversion to a floating-point format (R47, R48). -/
def convFloat (f : Fmt) (mode : Mode) (v : FVal) : Conv :=
  let sg := fun (s : Bool) (n : Nat) => if s then f.signBit + n else n
  match v with
  | .nan => ⟨f.nanCode, false, f.nanCode⟩
  | .inf s => ⟨sg s (if mode = .sat then f.maxCode else f.infCode), true, sg s f.maxCode⟩
  | .fin s m e =>
    let n := roundMag f (mode != .rtz) m e
    if n ≤ f.maxCode then ⟨sg s n, false, sg s n⟩
    else match mode with
      | .rtz => ⟨sg s f.maxCode, false, sg s f.maxCode⟩
      | .rne => ⟨sg s f.infCode, true, sg s f.maxCode⟩
      | .sat => ⟨sg s f.maxCode, true, sg s f.maxCode⟩

/-- Conversion to an integer of n bits (R47, R48). -/
def convInt (n : Nat) (mode : Mode) (v : FVal) : Conv :=
  let lo : Int := -(2 ^ (n - 1))
  let hi : Int := 2 ^ (n - 1) - 1
  let code := fun (i : Int) => (i % 2 ^ n).toNat
  match v with
  | .nan => ⟨0, false, 0⟩
  | .inf s => let b := code (if s then lo else hi); ⟨b, true, b⟩
  | .fin s m e =>
    let a : Int := scaleTo (mode != .rtz) m e 0
    let i := if s then -a else a
    let c := code (max lo (min hi i))
    ⟨c, decide (i < lo) || decide (hi < i), c⟩

/-- Conversion to any output format. -/
def convTo (f : Fmt) (mode : Mode) (v : FVal) : Conv :=
  match f with
  | .int8 => convInt 8 mode v
  | .int32 => convInt 32 mode v
  | f => convFloat f mode v

/-- A number rounded once to nearest even. -/
def roundNear (f : Fmt) (v : FVal) : Nat := (convFloat f .rne v).code

/-! ## Exact arithmetic (R30) -/

/-- The signed whole number that m times 2^e is of 2^q, q at most e. -/
def units (s : Bool) (m : Nat) (e q : Int) : Int :=
  let n : Int := (m * 2 ^ (e - q).toNat : Nat)
  if s then -n else n

/-- The exact sum; an exact zero takes the sign of round to nearest. -/
def fadd (a b : FVal) : FVal :=
  match a, b with
  | .nan, _ | _, .nan => .nan
  | .inf s, .inf t => if s = t then .inf s else .nan
  | .inf s, _ => .inf s
  | _, .inf t => .inf t
  | .fin s m e, .fin t n g =>
    let q := min e g
    let x := units s m e q + units t n g q
    if x = 0 then .fin (m == 0 && n == 0 && s && t) 0 0 else .fin (decide (x < 0)) x.natAbs q

/-- The negation. -/
def fneg : FVal → FVal
  | .nan => .nan
  | .inf s => .inf !s
  | .fin s m e => .fin (!s) m e

/-- The exact product. -/
def fmul (a b : FVal) : FVal :=
  match a, b with
  | .nan, _ | _, .nan => .nan
  | .inf s, .inf t => .inf (s != t)
  | .inf s, .fin t n _ => if n = 0 then .nan else .inf (s != t)
  | .fin s m _, .inf t => if m = 0 then .nan else .inf (s != t)
  | .fin s m e, .fin t n g => .fin (s != t) (m * n) (e + g)

/-- The order of two numbers that are no NaN: less, equal or greater, with −0 equal to +0. -/
def fcmp (a b : FVal) : Ordering :=
  match a, b with
  | .inf true, .inf true | .inf false, .inf false => .eq
  | .inf s, _ => if s then .lt else .gt
  | _, .inf t => if t then .gt else .lt
  | .fin s m e, .fin t n g => compare (units s m e (min e g)) (units t n g (min e g))
  | _, _ => .eq
/-- Whether a number is a NaN. -/
def FVal.isNan : FVal → Bool | .nan => true | _ => false
/-- The sign of a number. -/
def FVal.neg : FVal → Bool | .nan => false | .inf s => s | .fin s _ _ => s
/-- `vmax` on numbers: −0 is below +0, a NaN gives NaN (R330). -/
def fmax (a b : FVal) : FVal :=
  if a.isNan || b.isNan then .nan else
  match fcmp a b with | .lt => b | .gt => a | .eq => if a.neg then b else a
/-- `vmin` on numbers (R330). -/
def fmin (a b : FVal) : FVal :=
  if a.isNan || b.isNan then .nan else
  match fcmp a b with | .lt => a | .gt => b | .eq => if a.neg then a else b

/-- An FP32 bit pattern's number. -/
def f32 (x : BitVec 32) : FVal := decodeFloat .fp32 x.toNat
/-- FP32 addition, nearest even (R330, R343). -/
def addF32 (x y : BitVec 32) : BitVec 32 := BitVec.ofNat 32 (roundNear .fp32 (fadd (f32 x) (f32 y)))

/-! ## The order of sums (R43 to R46) -/

/-- The largest leading exponent of the finite nonzero products (R44). -/
def groupTop (ps : List FVal) : Option Int :=
  ps.foldl (fun t p => match p with
    | .fin _ m e => if m = 0 then t else some (match t with | none => leading m e | some x => max x (leading m e))
    | _ => t) none

/-- The fixed-point sum of a group at weight 2^(X - 23) (R44): each product is truncated toward zero. -/
def groupSum (x : Int) (ps : List FVal) : Int :=
  ps.foldl (fun t p => match p with
    | .fin s m e => let n : Int := scaleTo false m e (x - 23); if s then t - n else t + n
    | _ => t) 0

/-- One group added to an FP32 accumulator (R44, R45). An absent product is a zero. -/
def groupAdd (acc : BitVec 32) (ps : List FVal) : BitVec 32 :=
  let a := f32 acc
  let nan : BitVec 32 := 0x7FC00000
  let infs := ps.filterMap fun p => match p with | .inf s => some s | _ => none
  if ps.any FVal.isNan || (infs.contains true && infs.contains false) then nan
  else match infs with
    | s :: _ => BitVec.ofNat 32 (roundNear .fp32 (fadd a (.inf s)))
    | [] =>
      if a.isNan then nan
      else match groupTop ps with
        | none => acc
        | some x =>
          let g := groupSum x ps
          if g = 0 then acc
          else BitVec.ofNat 32 (roundNear .fp32 (fadd a (.fin (decide (g < 0)) g.natAbs (x - 23))))

/-- One INT8 group added to an INT32 accumulator, modulo 2^32 (R46). -/
def groupAddInt (acc : BitVec 32) (ps : List Int) : BitVec 32 := acc + BitVec.ofInt 32 (ps.foldl (· + ·) 0)

/-! ## S8 and CB8 (R31 to R38) -/

/-- An S8 scale (R31). -/
def decodeS8 (x : Nat) : FVal :=
  if x = 0xFF then .nan else
  let e := x / 8 % 32
  let m := x % 8
  if e = 0 then .fin false m (-17) else .fin false (8 + m) (e - 18)

/-- A CB8 element by sign, mantissa and exponent symbol (R33). -/
def cbElement (s : Bool) (m e : Nat) : FVal :=
  if e = 15 then (if m = 0 then .inf s else .nan)
  else if e = 0 then .fin s m (-9) else .fin s (8 + m) (e - 10)

/-- The element under its block's scale (R38). -/
def cbScaled (scale : Nat) (v : FVal) : FVal :=
  if scale = 0xFF then .nan
  else if scale = 0 then (match v with | .fin s _ _ => .fin s 0 0 | _ => .nan)
  else fmul (decodeS8 scale) v

/-- Code lengths of a table, symbols 0 to 15 (R34). -/
def codeLengths (table : Nat) : List Nat := (List.range 16).map fun j => table / 16 ^ j % 16
/-- A table is valid (R34). -/
def tableValid (table : Nat) : Bool :=
  let ls := codeLengths table
  ls.all (fun l => decide (l ≤ 8)) && decide (((ls.filter (· != 0)).map fun l => 2 ^ (8 - l)).foldl (· + ·) 0 ≤ 256)

/-- The canonical codes (R35): (symbol, length, code), by ascending length, then symbol. -/
def canonical (table : Nat) : List (Nat × Nat × Nat) :=
  let ls := codeLengths table
  let syms := (List.range 8).flatMap fun l => (List.range 16).filterMap fun s =>
    if ls.getD s 0 = l + 1 then some (s, l + 1) else none
  (syms.foldl (fun (acc : List (Nat × Nat × Nat) × Option (Nat × Nat)) x =>
    let code := match acc.2 with
      | none => 0
      | some (c, l) => (c + 1) * 2 ^ (x.2 - l)
    (acc.1 ++ [(x.1, x.2, code)], some (code, x.2))) ([], none)).1

/-- One token off a bit list (R36): bits arrive most significant first; none where 8 bits match no code (R37). -/
def takeToken (codes : List (Nat × Nat × Nat)) : Nat → Nat → Nat → List Bool → Option (Nat × List Bool)
  | 0, _, _, _ => none
  | _, _, _, [] => none
  | fuel + 1, len, code, b :: r =>
    let code := 2 * code + b.toNat
    match codes.find? fun x => x.2.1 == len + 1 && x.2.2 == code with
    | some x => some (x.1, r)
    | none => takeToken codes fuel (len + 1) code r

/-- n tokens off a bit list. -/
def takeTokens (codes : List (Nat × Nat × Nat)) : Nat → List Bool → Option (List Nat × List Bool)
  | 0, r => some ([], r)
  | n + 1, r =>
    match takeToken codes 8 0 0 r with
    | none => none
    | some (s, r) => (takeTokens codes n r).map fun p => (s :: p.1, p.2)

/-- The bits of bytes, bit 0 of the first byte first (R36). -/
def bitsOf (b : List Byte) : List Bool := b.flatMap fun x => (List.range 8).map fun i => x.getLsbD i

/-- A CB8 block (R32 to R38) read through a byte function, with the table lookup of its format context: its elements and
its length in bytes; none where decoding fails (R37). -/
def decodeBlock (tables : Nat → Nat) (byte : Nat → Byte) : Option (List FVal × Nat) :=
  let b1 := (byte 1).toNat
  let b2 := (byte 2).toNat
  let n := b1 % 32 + 1
  let len := b2 % 64
  if b1 / 32 % 2 = 1 ∨ b2 / 64 ≠ 0 ∨ len = 0 then none
  else
    match takeTokens (canonical (tables (b1 / 64))) n (bitsOf ((List.range len).map fun i => byte (19 + i))) with
    | none => none
    | some (syms, rest) =>
      if 8 ≤ rest.length then none
      else
        let els := syms.zipIdx.map fun p =>
          let nib := (byte (3 + p.2 / 2)).toNat / (if p.2 % 2 = 0 then 1 else 16) % 16
          cbScaled (byte 0).toNat (cbElement (decide (8 ≤ nib)) (nib % 8) p.1)
        some (els, 19 + len)

/-! ## Format contexts (R39, R40) -/

/-- Byte i of a context image. -/
def imgByte (x : VWord) (i : Nat) : Nat := bits x (8 * i + 7) (8 * i)
/-- afmt, bfmt, ofmt and mode of a context. -/
def afmtOf (x : VWord) : Option Fmt := fmtOf (imgByte x 0 % 16)
/-- bfmt -/
def bfmtOf (x : VWord) : Option Fmt := fmtOf (imgByte x 1 % 16)
/-- ofmt -/
def ofmtOf (x : VWord) : Option Fmt := fmtOf (imgByte x 2 % 16)
/-- mode; 3 is no mode. -/
def modeCode (x : VWord) : Nat := imgByte x 3 % 4
/-- The mode of a valid context. -/
def ctxMode (x : VWord) : Mode := match modeCode x with | 0 => .rne | 1 => .rtz | _ => .sat
/-- Code table n. -/
def ctxTable (x : VWord) (n : Nat) : Nat := bits x (8 * (8 + 8 * n) + 63) (8 * (8 + 8 * n))

/-- A format context is valid (R40). -/
def ctxValid (x : VWord) : Bool :=
  let operand := fun (f : Option Fmt) =>
    f == some .bf16 || f == some .e4m3 || f == some .e5m2 || f == some .int8 || f == some .cb8
  let a := afmtOf x
  let b := bfmtOf x
  let o := ofmtOf x
  operand a && operand b
  && (if a == some .int8 || b == some .int8 then a == b && (o == some .int8 || o == some .int32)
      else o == some .fp32 || o == some .bf16 || o == some .e4m3 || o == some .e5m2)
  && modeCode x != 3 && imgByte x 0 / 16 == 0 && imgByte x 1 / 16 == 0 && imgByte x 2 / 16 == 0 && imgByte x 3 / 4 == 0
  && bits x 63 32 == 0 && bits x 511 320 == 0 && (List.range 4).all fun n => tableValid (ctxTable x n)

/-- An element of one of the operand formats other than CB8, by its bits: INT8 gives the integer. -/
def decodeElem (f : Fmt) (x : Nat) : FVal :=
  match f with
  | .int8 => ofInt ((BitVec.ofNat 8 x).toInt)
  | .int32 => ofInt ((BitVec.ofNat 32 x).toInt)
  | f => decodeFloat f x

/-- The integer of a number that is one. -/
def toInt : FVal → Int
  | .fin s m e => units s m e 0
  | _ => 0

/-! ## Approximations (R339) -/

/-- The integer square root, by bits from k down. -/
def isqrt (n : Nat) : Nat → Nat → Nat
  | 0, r => r
  | k + 1, r => if (r + 2 ^ k) * (r + 2 ^ k) ≤ n then isqrt n k (r + 2 ^ k) else isqrt n k r

/-- A magnitude cut to 12 significant bits, then to the FP32 grid; 2^128 or more is infinite (R339). -/
def cut12 (s : Bool) (n : Nat) (e : Int) : Nat :=
  let k := n.log2 - 11
  let c := roundMag .fp32 false (n / 2 ^ k) (e + k)
  (if s then 0x80000000 else 0) + (if c ≤ Fmt.maxCode .fp32 then c else Fmt.infCode .fp32)

/-- `vrcp.f32` on a number. -/
def approxRcp (v : FVal) : Nat :=
  match v with
  | .nan => Fmt.nanCode .fp32
  | .inf s => if s then 0x80000000 else 0
  | .fin s m e =>
    if m = 0 then (if s then 0xFF800000 else 0x7F800000)
    else cut12 s (2 ^ (m.log2 + 40) / m) (-e - (m.log2 + 40))

/-- `vrsq.f32` on a number. -/
def approxRsq (v : FVal) : Nat :=
  match v with
  | .nan => Fmt.nanCode .fp32
  | .inf s => if s then Fmt.nanCode .fp32 else 0
  | .fin s m e =>
    if m = 0 then (if s then 0xFF800000 else 0x7F800000)
    else if s then Fmt.nanCode .fp32
    else
      let (m, e) := if e % 2 = 0 then (m, e) else (2 * m, e - 1)
      cut12 false (isqrt (2 ^ 80 / m) 41 0) (-(e / 2) - 40)

/-- 2 to a fraction given by its first n bits, as a whole number of 2^-128: the product of the square roots of 2 that its
bits select. -/
def exp2Frac (frac : Nat) : Nat → Nat → Nat → Nat
  | 0, _, acc => acc
  | n + 1, root, acc =>
    let root := isqrt (root * 2 ^ 128) 130 0
    exp2Frac frac n root (if frac / 2 ^ n % 2 = 1 then acc * root / 2 ^ 128 else acc)

/-- `vexp2.f32` on a number. A number of 2^8 or more is out of FP32's range. -/
def approxExp2 (v : FVal) : Nat :=
  match v with
  | .nan => Fmt.nanCode .fp32
  | .inf s => if s then 0 else 0x7F800000
  | .fin s m e =>
    if m = 0 then 0x3F800000
    else if 8 ≤ leading m e then (if s then 0 else 0x7F800000)
    else
      -- the number as a whole number of 2^-64, floored; what is cut off cannot change 12 bits (log 24)
      let n : Int := if -64 ≤ e then units s m e (-64)
        else (let d := m / 2 ^ (-64 - e).toNat; if s then -(d : Int) - (if m % 2 ^ (-64 - e).toNat = 0 then 0 else 1) else d)
      cut12 false (exp2Frac (n % 2 ^ 64).toNat 64 (2 * 2 ^ 128) (2 ^ 128)) (n / 2 ^ 64 - 128)

end Sys2Proof.Machine
end

