-- ==== Sys2Proof/Machine/Vector.lean ====
section
/-! DEFINITION. Class 100: the vector unit, the repetition buffer and its sequencer (R269, R270, R320 to R344). One body per
instruction serves the pipeline, which interlocks, and the sequencer, whose results land after their latency. -/

namespace Sys2Proof.Machine

/-! ## Who issues -/

/-- The issuing party: the pipeline, or the sequencer in an iteration with a stride (R270, R322). -/
structure Via where
  seq : Bool
  iter : Nat
  stride : Nat
  deriving DecidableEq, Repr

/-- The pipeline. -/
def pipeline : Via := ⟨false, 0, 0⟩

/-- The register a field names in this iteration (R270). -/
def Via.reg (v : Via) (stag : Bool) (field : Nat) : Nat := if stag then (field + v.stride * v.iter) % 32 else field
/-- The step of the address of a captured load or store with a staggered d (R327). -/
def Via.step (v : Via) (stag : Bool) : Nat := if stag then 64 * v.iter else 0

/-- Whether a vector register awaits parts of a split-phase load (R326). -/
def Core.pendingVec (k : Core) (v : Nat) : Bool :=
  k.reqs.any fun p => match p.2.want with | .vpart x _ => x == v | _ => false

/-- The vector registers an instruction reads and writes made ready (R322, R325, R326): ownership, pending registers, the
pipeline's interlocks and gap, refused loads (R341), poison (R323). -/
def vuse (via : Via) (src dst : List Nat) : M Unit := do
  takeVector
  let c ← get
  let k := c.coreAt c.core
  for v in src ++ dst do waitIf (k.pendingVec v) (.vreg v)
  if !via.seq then
    waitIf (k.sequencing c.frame) .sequencer
    waitIf (!k.vec.writes.isEmpty) .sequencer
    waitIf (decide (c.now < k.vec.pipeAt)) (.cycle k.vec.pipeAt)
  for v in src ++ dst do reportRefusal fun x => x.vreg == some v
  for v in src do
    match k.vec.poisoned.find? fun p => p.1 == v with
    | some p => raise 0x0E p.2 0x23
    | none => pure ()

/-- The scalar operands of a vector instruction made ready (R326). -/
def suse (via : Via) (src dst : List Reg) : M Unit := do
  if via.seq then
    for r in src ++ dst do checkRegSeq r
    for r in src do checkPoison r
    checkLinks src dst
  else use src dst

/-- A vector register as it reads. -/
def vget (n : Nat) : M VWord := do
  let k ← theCore
  pure (if h : n < 32 then k.vec.v[n] else 0)
/-- A mask register as it reads. -/
def kget (n : BitVec 3) : M Word := do
  let k ← theCore
  pure k.vec.k[n.toFin]

/-- Lane i of width w bits, as a number. -/
def lane (w i : Nat) (x : VWord) : Nat := x.toNat / 2 ^ (w * i) % 2 ^ w
/-- A register of n lanes of w bits. -/
def packLanes (w n : Nat) (f : Nat → Nat) : VWord :=
  BitVec.ofNat 512 ((List.range n).foldl (fun t i => t + f i % 2 ^ w * 2 ^ (w * i)) 0)
/-- A register with lanes 0 to n - 1 of w bits replaced. -/
def mergeLanes (w n : Nat) (old : VWord) (f : Nat → Nat) : VWord :=
  BitVec.ofNat 512 (old.toNat / 2 ^ (w * n) * 2 ^ (w * n) + (packLanes w n f).toNat % 2 ^ (w * n))
/-- The vector state with a result written. -/
def Vec.put (x : Vec) (d : VDest) : Vec :=
  match d with
  | .v n w bad =>
    if h : n < 32 then { x with
      v := x.v.set n w
      poisoned := x.poisoned.filter (·.1 != n) ++ (match bad with | some a => [(n, a)] | none => []) }
    else x
  | .low n l w =>
    if h : n < 32 then { x with v := x.v.set n (mergeLanes 32 l x.v[n] fun i => lane 32 i w) } else x
  | .k n w => if h : n < 8 then { x with k := x.k.set n w } else x
  | .g _ _ => x

/-- A result queued for the end of its latency, in order of cycle, later issue last (R324). -/
def queueWrite (w : VWrite) : List VWrite → List VWrite
  | [] => [w]
  | x :: r => if w.due < x.due then w :: x :: r else x :: queueWrite w r

/-- A result of latency L: the pipeline's at once, since it interlocks (R325), the sequencer's at the end of cycle
t + L - 1 (R324). -/
def vput (via : Via) (l : Nat) (d : VDest) : M Unit := do
  let c ← get
  if via.seq then
    modCore fun k => { k with vec := { k.vec with writes := queueWrite ⟨c.now + l - 1, c.frame, d⟩ k.vec.writes } }
  else
    match d with
    | .g r x => wr r x
    | d => modCore fun k => { k with vec := k.vec.put d }

/-! ## Lanes (R320, R321) -/

/-- Byte i of a register. -/
def vbyte (x : VWord) (i : Nat) : Byte := x.extractLsb' (8 * i) 8

/-- A V3 lane operation on lanes of w bits (R329, R330). -/
def lanes3 (via : Via) (l w : Nat) (sd sa sb readsD : Bool) (d a b : BitVec 5) (f : Nat → Nat → Nat → Nat) : M Unit := do
  let (d, a, b) := (via.reg sd d.toNat, via.reg sa a.toNat, via.reg sb b.toNat)
  vuse via ([a, b] ++ if readsD then [d] else []) [d]
  let x ← vget a
  let y ← vget b
  let z ← vget d
  vput via l (.v d (packLanes w (512 / w) fun i => f (lane w i z) (lane w i x) (lane w i y)) none)

/-- An operation on FP32 numbers, rounded once (R330). -/
def onF32 (f : FVal → FVal → FVal) (_ x y : Nat) : Nat := roundNear .fp32 (f (decodeFloat .fp32 x) (decodeFloat .fp32 y))
/-- A fused multiply and add in a format (R330). -/
def fused (fm : Fmt) (z x y : Nat) : Nat :=
  roundNear fm (fadd (decodeFloat fm z) (fmul (decodeFloat fm x) (decodeFloat fm y)))
/-- An operation on signed 32-bit lanes. -/
def onI32 (f : Int → Int → Int) (_ x y : Nat) : Nat :=
  (BitVec.ofInt 32 (f (BitVec.ofNat 32 x).toInt (BitVec.ofNat 32 y).toInt)).toNat

/-- A V2 operation with one vector source and a whole-register result. -/
def lanes2 (via : Via) (l : Nat) (sd sa : Bool) (d a : BitVec 5) (f : VWord → VWord) : M Unit := do
  let (d, a) := (via.reg sd d.toNat, via.reg sa a.toNat)
  vuse via [a] [d]
  let x ← vget a
  vput via l (.v d (f x) none)
/-- A V2 operation with a second vector source in x. -/
def lanes2x (via : Via) (l : Nat) (sd sa : Bool) (d a x : BitVec 5) (f : VWord → VWord → VWord) : M Unit := do
  let (d, a) := (via.reg sd d.toNat, via.reg sa a.toNat)
  vuse via [a, x.toNat] [d]
  let p ← vget a
  let q ← vget x.toNat
  vput via l (.v d (f p q) none)

/-! ## vdot (R331) -/

/-- Byte access to a block at byte 0 of a register. -/
def blockOfReg (x : VWord) : Nat → Byte := fun i => vbyte x i

/-- Sixteen products of group g. -/
def products (n g : Nat) (a b : Nat → FVal) : List FVal :=
  ((List.range 16).filter fun i => decide (16 * g + i < n)).map fun i => fmul (a (16 * g + i)) (b (16 * g + i))

/-- The lanes that `vdot` writes (R331): their number and values, or the detail of its trap. -/
def dotLanes (ctx z x y : VWord) : Except Nat (Nat × (Nat → Nat)) :=
  let acc := fun g => (BitVec.ofNat 32 (lane 32 g z))
  let byteWise := fun (fa fb : Fmt) (g : Nat) =>
    (groupAdd (acc g) (products 64 g (fun i => decodeFloat fa (lane 8 i x)) fun i => decodeFloat fb (lane 8 i y))).toNat
  match afmtOf ctx, bfmtOf ctx with
  | some .e4m3, some .e4m3 => .ok (4, byteWise .e4m3 .e4m3)
  | some .e4m3, some .e5m2 => .ok (4, byteWise .e4m3 .e5m2)
  | some .e5m2, some .e4m3 => .ok (4, byteWise .e5m2 .e4m3)
  | some .e5m2, some .e5m2 => .ok (4, byteWise .e5m2 .e5m2)
  | some .bf16, some .bf16 =>
    .ok (2, fun g => (groupAdd (acc g) (products 32 g (fun i => decodeFloat .bf16 (lane 16 i x)) fun i =>
      decodeFloat .bf16 (lane 16 i y))).toNat)
  | some .int8, some .int8 =>
    .ok (4, fun g => (groupAddInt (acc g) ((List.range 16).map fun i =>
      (BitVec.ofNat 8 (lane 8 (16 * g + i) x)).toInt * (BitVec.ofNat 8 (lane 8 (16 * g + i) y)).toInt)).toNat)
  | some .cb8, some .cb8 =>
    match decodeBlock (ctxTable ctx) (blockOfReg x), decodeBlock (ctxTable ctx) (blockOfReg y) with
    | some (ea, _), some (eb, _) =>
      .ok (2, fun g => (groupAdd (acc g) (products (min ea.length eb.length) g (fun i => ea.getD i .nan) fun i =>
        eb.getD i .nan)).toNat)
    | _, _ => .error 0x20
  | _, _ => .error 0x21

/-- R331 -/
def vdot (via : Via) (c : Fin 4) (sd sa sb : Bool) (d a b : BitVec 5) : M Unit := do
  let (d, a, b) := (via.reg sd d.toNat, via.reg sa a.toNat, via.reg sb b.toNat)
  vuse via [a, b, d] [d]
  let k ← theCore
  let ctx := k.fctx[c]
  let x ← vget a
  let y ← vget b
  let z ← vget d
  match dotLanes ctx z x y with
  | .error k => raise 0x0E 0 k
  | .ok (n, f) => vput via (if afmtOf ctx == some .cb8 then 8 else 6) (.low d n (packLanes 32 n f))

/-! ## Compares, conversions, reductions -/

/-- A `vcmp` (R333): every mask bit of a lane takes the lane's result. -/
def vcompare (via : Via) (sa : Bool) (t : CmpType) (k : BitVec 3) (a x : BitVec 5) (ff : FVal → FVal → Bool)
    (fi : BitVec 32 → BitVec 32 → Bool) : M Unit := do
  let a := via.reg sa a.toNat
  vuse via [a, x.toNat] []
  let p ← vget a
  let q ← vget x.toNat
  let bytes := match t with | .bf16 => 2 | _ => 4
  let hit := fun i => match t with
    | .f32 => ff (decodeFloat .fp32 (lane 32 i p)) (decodeFloat .fp32 (lane 32 i q))
    | .i32 => fi (BitVec.ofNat 32 (lane 32 i p)) (BitVec.ofNat 32 (lane 32 i q))
    | .bf16 => ff (decodeFloat .bf16 (lane 16 i p)) (decodeFloat .bf16 (lane 16 i q))
  let mask := (List.range 64).foldl (fun m j => m + (hit (j / bytes)).toNat * 2 ^ j) 0
  vput via 2 (.k k.toNat (BitVec.ofNat 64 mask))

/-- Quiet floating-point conditions: false with a NaN (R333). -/
def feq (a b : FVal) : Bool := !a.isNan && !b.isNan && fcmp a b == .eq
/-- Less. -/
def flt (a b : FVal) : Bool := !a.isNan && !b.isNan && fcmp a b == .lt
/-- Less or equal. -/
def fle (a b : FVal) : Bool := feq a b || flt a b

/-- The target of a conversion kind (R334). -/
def cvtTarget : CvtKind → Fmt
  | .f32bf16 => .bf16 | .f32e4m3 => .e4m3 | .f32e5m2 => .e5m2 | .f32i32 => .int32 | .f32i8 | .i32i8 => .int8
  | .i32f32 => .fp32
/-- The number that lane i holds for a conversion kind. -/
def cvtSource (k : CvtKind) (i : Nat) (x : VWord) : FVal :=
  match k with
  | .i32f32 | .i32i8 => ofInt (BitVec.ofNat 32 (lane 32 i x)).toInt
  | _ => decodeFloat .fp32 (lane 32 i x)
/-- Lane i converted. -/
def cvtConv (k : CvtKind) (m : Mode) (i : Nat) (x : VWord) : Conv := convTo (cvtTarget k) m (cvtSource k i x)
/-- The 16 results packed from byte 0, the rest zero (R334). -/
def packConv (k : CvtKind) (f : Nat → Nat) : VWord := packLanes (8 * (cvtTarget k).bytes) 16 f

/-- R334 -/
def vconvert (via : Via) (sd sa : Bool) (d a : BitVec 5) (k : CvtKind) (m : Mode) : M Unit :=
  lanes2 via 3 sd sa d a fun x => packConv k fun i => (cvtConv k m i x).code

/-- A place of a list that an instruction reads or only writes (R51, R335, R366): translated, open to its home, after the thread's
earlier accesses there (R68). Data that the home does not deliver raises 0x0E with a detail (log 70); a record that is only
written may stand in a poisoned granule (R453). -/
def listPlace (va : Word) (n : Nat) (need : Need) (detail : Nat) (reads : Bool) : M Phys := do
  let p ← translate va need
  let c ← get
  waitIf (c.physShut p n) (.cycle (c.now + 64))
  waitIf ((c.coreAt c.core).reqs.any fun r => r.2.owner == .frame c.frame && r.2.msg.dest == c.placeOf p) (.answers .thr)
  raiseIf (if reads then c.physBad p n else p.loc == 0 && !installed p.pa n) 0x0E va detail
  pure p

/-- The request of the instruction that a frame has under way which another package has not answered yet. -/
def Core.listedOpen (k : Core) (f : Nat) : Option Nat :=
  (k.reqs.find? fun p => p.2.owner == .frame f && p.2.want == .listed).map (·.1)
/-- The j-th access that an instruction makes to a list: as it was answered, or made now, at its home here, or by a request to
another package, from whose answer the instruction goes on (R335, R366). -/
def listAccess (j : Nat) (p : Phys) (va : Word) (here : M FarAns) (body : Body) : M FarAns := do
  let f ← theFrame
  match f.far[j]? with
  | some a => pure a
  | none => do
    let c ← get
    match (c.coreAt c.core).listedOpen c.frame with
    | some id => notReady (.answer id)
    | none =>
      if p.loc = 1 then
        send .listed false (c.placeOf p) p.pa va none body
        throw (.hold (.answer c.nextReq))
      else
        let a ← here
        modFrame fun f => { f with far := f.far ++ [a] }
        pure a
/-- The trap of an access that another package refuses (R335, R366, R369): `detail` stands for poisoned data. -/
def refusedList (c : Chip) (p : Phys) (va : Word) (status detail : Nat) : Stop :=
  if status = 1 ∨ status = 3 then
    .trap 5 0 (BitVec.ofNat 64 ((c.placeOf p).pkg * 2 ^ 48 + 0x7FFF * 2 ^ 32 + p.pa % 2 ^ 18))
  else if status = 4 then .trap 0x0E detail va
  else .trap (refusedCause status).1 (refusedCause status).2 va
/-- The bytes that an access to a list brings. -/
def listData (p : Phys) (va : Word) (detail : Nat) (a : FarAns) : M (List Byte) := do
  let c ← get
  match a with
  | .data b bad => raiseIf bad 0x0E va detail; pure b
  | .done => pure []
  | .refused st => throw (refusedList c p va st detail)
/-- A read of a list, its j-th access. -/
def listRead (j : Nat) (p : Phys) (va : Word) (n detail : Nat) : M (List Byte) := do
  let a ← listAccess j p va (do let c ← get; pure (.data (c.readPhys p n) false)) (.get n)
  listData p va detail a
/-- A write of a list, its j-th access; another package's memory as this one reads it takes the bytes too (log 8). -/
def listWrite (j : Nat) (p : Phys) (va : Word) (b : List Byte) : M Unit := do
  let a ← listAccess j p va (do modify fun c => c.writeHome (c.placeOf p).home p.pa b; pure .done) (.put b none)
  if a = .done ∧ p.loc = 1 then modify fun c => { c with far := wrBytes c.far (farKey (bits p.leaf 63 52) p.pa) b }
  let _ ← listData p va 0x52 a

/-- The appends to a list of which a part lies in another package, from the j-th access on (R50, R51, log 70): each reads the
header, writes its record and then count + 1, or counts up loss. How many found room. Before the first write the records' places
are translated. -/
def appendFar (list : Word) : List (Nat × Nat) → Nat → Nat → M Nat
  | [], _, kept => pure kept
  | r :: rest, j, kept => do
    let hp ← listPlace list 8 .w 0x52 true
    let head ← listRead j hp list 8 0x52
    let cap := field head 0 4
    let cnt := field head 4 4
    if cnt < cap then
      let at_ := fun (i : Nat) => list + BitVec.ofNat 64 (16 + 8 * (cnt + i))
      if j = 0 then
        for i in List.range (min (rest.length + 1) (cap - cnt)) do
          let _ ← translate (at_ i) .w
      let rp ← listPlace (at_ 0) 8 .w 0x52 false
      listWrite (j + 1) rp (at_ 0) (toLe 4 r.1 ++ toLe 4 r.2)
      listWrite (j + 2) { hp with pa := hp.pa + 4 } (list + 4) (toLe 4 (cnt + 1))
      appendFar list rest (j + 3) (kept + 1)
    else
      let lp ← listPlace (list + 8) 4 .w 0x52 true
      let loss ← listRead (j + 1) lp (list + 8) 4 0x52
      listWrite (j + 2) lp (list + 8) (toLe 4 (min 0xFFFFFFFF (leNat loss + 1)))
      appendFar list rest (j + 3) kept

/-- The appends of an outlier conversion to a list, for lanes in ascending order (R49 to R51, R335): how many found room. For a
list here every address is translated and every word that is read checked first, so a trap leaves nothing behind. -/
def appendLanes (list : Word) (records : List (Nat × Nat)) : M Nat := do
  let f ← theFrame
  let hp ← listPlace list 8 .w 0x52 true
  if hp.loc = 1 || !f.far.isEmpty then appendFar list records 0 0
  else
    let c ← get
    let head := c.readPhys hp 8
    let cap := field head 0 4
    let cnt := field head 4 4
    let room := min records.length (cap - cnt)
    let lp ← (if room < records.length then listPlace (list + 8) 4 .w 0x52 true else pure hp)
    let at_ := fun (j : Nat) => list + BitVec.ofNat 64 (16 + 8 * (cnt + j))
    let places ← (List.range room).mapM fun j => listPlace (at_ j) 8 .w 0x52 false
    if (lp :: places).any (·.loc == 1) then appendFar list records 0 0
    else
      let put := fun (p : Phys) (b : List Byte) => (modify fun c => c.writeHome (c.placeOf p).home p.pa b : M Unit)
      for q in (records.zip places).zipIdx do
        put q.1.2 (toLe 4 q.1.1.1 ++ toLe 4 q.1.1.2)
        put { hp with pa := hp.pa + 4 } (toLe 4 (cnt + q.2 + 1))
      let loss := leNat (c.readPhys lp 4)
      if room < records.length then put lp (toLe 4 (min 0xFFFFFFFF (loss + (records.length - room))))
      pure room

/-- R335 -/
def vconvertOl (via : Via) (sd sa : Bool) (d a : BitVec 5) (k : CvtKind) (m : Mode) : M Unit := do
  let (d, a) := (via.reg sd d.toNat, via.reg sa a.toNat)
  acquired
  vuse via [a] [d]
  let x ← vget a
  let f ← theFrame
  let conv := fun i => cvtConv k m i x
  let overs := if f.volist = 0 then [] else (List.range 16).filter fun i => (conv i).overflows
  raiseIf (!overs.isEmpty && f.volist.toNat % 8 != 0) 0x0E f.volist 0x22
  let room ← (if overs.isEmpty then pure 0
    else appendLanes f.volist (overs.map fun i => ((f.vobase.toNat + i) % 2 ^ 32, lane 32 i x)))
  let kept := overs.take room
  modFrame fun f => { f with vobase := BitVec.ofNat 64 ((f.vobase.toNat + 16) % 2 ^ 32), far := [] }
  vput via 3 (.v d (packConv k fun i =>
    if overs.contains i then (if kept.contains i then 0 else (conv i).bound) else (conv i).code) none)

/-- R336 -/
def vwiden (via : Via) (sd sa : Bool) (d a : BitVec 5) (c : BitVec 2) (f : WidFmt) : M Unit := do
  let (d, a) := (via.reg sd d.toNat, via.reg sa a.toNat)
  vuse via [a] [d]
  let x ← vget a
  match f with
  | .bf16 => vput via 3 (.v d (packLanes 32 16 fun i => roundNear .fp32 (decodeFloat .bf16 (lane 16 i x))) none)
  | .e4m3 => vput via 3 (.v d (packLanes 16 32 fun i => roundNear .bf16 (decodeFloat .e4m3 (lane 8 i x))) none)
  | .e5m2 => vput via 3 (.v d (packLanes 16 32 fun i => roundNear .bf16 (decodeFloat .e5m2 (lane 8 i x))) none)
  | .i8 => vput via 3 (.v d (packLanes 32 16 fun i => ((BitVec.ofNat 8 (lane 8 i x)).signExtend 32).toNat) none)
  | .cb8 => do
    let k ← theCore
    match decodeBlock (ctxTable k.fctx[c.toFin]) (blockOfReg x) with
    | none => raise 0x0E 0 0x20
    | some (els, _) => vput via 5 (.v d (packLanes 16 32 fun i =>
        match els[i]? with | some v => roundNear .bf16 v | none => 0) none)

/-- A reduction across 16 lanes from lane 0 up (R337). -/
def across (f : Nat → Nat → Nat) (x : VWord) : Nat :=
  (List.range 15).foldl (fun t i => f t (lane 32 (i + 1) x)) (lane 32 0 x)

/-- The result of `vred` (R337). -/
def reduceLanes (k : VRed) (x : VWord) : Nat :=
  match k with
  | .addF => (groupAdd 0 ((List.range 16).map fun i => decodeFloat .fp32 (lane 32 i x))).toNat
  | .maxF => across (onF32 fmax 0) x
  | .minF => across (onF32 fmin 0) x
  | .addI => across (onI32 (· + ·) 0) x
  | .maxI => across (onI32 max 0) x
  | .minI => across (onI32 min 0) x
  | .and => across (· &&& ·) x
  | .or => across (· ||| ·) x

/-- R338: `vperm`. -/
def permute (a x : VWord) : VWord :=
  packLanes 8 64 fun j => let s := lane 8 j x; if 128 ≤ s then 0 else lane 8 (s % 64) a

/-! ## Loads and stores (R340 to R343) -/

/-- A stop at element i: a trap records the index in `sw.vidx` (R159, R340). -/
def elementStop {α : Type} (i : Nat) (e : Stop) : M α := do
  match e with
  | .trap .. => modFrame fun f => { f with sw := putBits f.sw 29 24 i }
  | .wait _ | .hold _ => pure ()
  stopped e
/-- The instruction has completed (R159). -/
def clearIndex : M Unit := modFrame fun f => { f with sw := putBits f.sw 29 24 0 }

/-- The elements from lane i up, n of them, as their checks find them: those before the first that stops, and that stop. -/
def scan {α : Type} (f : Nat → Except Stop α) (i : Nat) : Nat → List (Nat × α) × Option (Nat × Stop)
  | 0 => ([], none)
  | n + 1 =>
    match f i with
    | .error e => ([], some (i, e))
    | .ok x => let (r, e) := scan f (i + 1) n; ((i, x) :: r, e)

/-- The check of a scratchpad element: its offset. -/
def padElement (o : Word) : Except Stop Nat :=
  if o.toNat % 4 ≠ 0 then .error (.trap 3 0 o)
  else if Config.dataEnd ≤ o.toNat then .error (.trap 4 0 o) else .ok o.toNat
/-- The check of a global element: its address and its translation. -/
def Chip.farElement (c : Chip) (need : Need) (a : Word) : Except Stop (Word × Phys) :=
  if a.toNat % 4 ≠ 0 then .error (.trap 3 0 a)
  else match c.lookup a need false with | .ok p => .ok (a, p) | .error e => .error e

/-- A part of a vector access: consecutive elements at one home (R80). -/
structure Part where
  first : Nat
  count : Nat
  va : Word
  phys : Phys
  deriving DecidableEq, Repr

/-- Whether two elements lie in one part: the same leaf and home granule (R54, R80). -/
def samePart (p q : Phys) : Bool :=
  let g := if p.loc = 2 then 64 else 256
  p.leaf == q.leaf && p.pa / g == q.pa / g

/-- The parts of elements in ascending order (R80). -/
def partsOf : List (Nat × (Word × Phys)) → List Part → List Part
  | [], acc => acc
  | (i, (va, p)) :: r, acc =>
    match acc.getLast? with
    | some q =>
      if samePart q.phys p && q.first + q.count == i then partsOf r (acc.dropLast ++ [{ q with count := q.count + 1 }])
      else partsOf r (acc ++ [⟨i, 1, va, p⟩])
    | none => partsOf r (acc ++ [⟨i, 1, va, p⟩])

/-- The first lane that stops, if any. -/
def finishScan (e : Option (Nat × Stop)) : M Unit :=
  match e with
  | some (i, e) => elementStop i e
  | none => clearIndex
/-- A wait before anything is performed. -/
def noWait (e : Option (Nat × Stop)) : M Unit :=
  match e with
  | some (_, .wait w) => notReady w
  | _ => pure ()

/-- The base address of a vector access. -/
def vbase (via : Via) (a : Reg) (off : Nat) : M Word := do
  suse via [a] []
  let x ← rd a
  pure (x + BitVec.ofNat 64 off)

/-- The thread's earlier messages to the banks of its elements are performed first (R68). -/
def padInOrder (els : List (Nat × Nat)) : M Unit := do
  for p in els do inOrder p.2 4

/-- The 16 word offsets read, and the poison among them (R341, R453). -/
def readElements (c : Chip) (os : List Nat) : VWord × Option Word :=
  (packLanes 32 16 fun i => c.readNat (.core c.core) (os.getD i 0) 4,
   (os.find? fun o => c.poisonAt (.core c.core) o 4).map (BitVec.ofNat 64))

/-- R341: `vld` from the scratchpad. -/
def vloadPad (via : Via) (sd : Bool) (d : BitVec 5) (a : Reg) (f : BitVec 4) : M Unit := do
  acquired
  let vd := via.reg sd d.toNat
  vuse via [] [vd]
  let o ← vbase via a (64 * f.toNat + via.step sd)
  let (els, stop) := scan (fun i => padElement (o + BitVec.ofNat 64 (4 * i))) 0 16
  match stop with
  | some (i, e) => elementStop i e
  | none => do
    padInOrder els
    let c ← get
    let (x, bad) := readElements c (els.map (·.2))
    clearIndex
    vput via (if o.toNat % 64 = 0 then 3 else 4) (.v vd x bad)

/-- R341: `vld.g`, one request a part. -/
def vloadFar (via : Via) (sd : Bool) (d : BitVec 5) (a : Reg) (f : BitVec 4) : M Unit := do
  acquired
  let vd := via.reg sd d.toNat
  vuse via [] [vd]
  let o ← vbase via a (64 * f.toNat + via.step sd)
  let c ← get
  let (els, stop) := scan (fun i => c.farElement .r (o + BitVec.ofNat 64 (4 * i))) 0 16
  match stop with
  | some (i, e) => elementStop i e
  | none => do
    let parts := partsOf els []
    waitIf (decide (64 < (c.coreAt c.core).slotsUsed + parts.length)) .replySlots
    clearIndex
    modCore fun k => { k with vec := k.vec.unstage vd }
    for p in parts do
      let c ← get
      send (.vpart vd (4 * p.first)) false (c.placeOf p.phys) p.phys.pa p.va none (.get (4 * p.count))

/-- Lanes lo to lo + n - 1 of a register as bytes. -/
def laneBytes (x : VWord) (lo n : Nat) : List Byte := (List.range (4 * n)).map fun i => vbyte x (4 * lo + i)

/-- R341: `vst` to the scratchpad; it resumes at `sw.vidx` (R159). -/
def vstorePad (via : Via) (sd : Bool) (d : BitVec 5) (a : Reg) (f : BitVec 4) : M Unit := do
  acquired
  let vs := via.reg sd d.toNat
  vuse via [vs] []
  let o ← vbase via a (64 * f.toNat + via.step sd)
  let x ← vget vs
  let fr ← theFrame
  let (els, stop) := scan (fun i => padElement (o + BitVec.ofNat 64 (4 * i))) fr.vidx (16 - fr.vidx)
  let line := fun (p : Nat × Nat) => p.2 / 64
  padInOrder els
  match els with
  | [] => pure ()
  | (i, a0) :: _ =>
    let head := els.filter fun p => line p == a0 / 64
    let tail := els.filter fun p => line p != a0 / 64
    modCore fun k => k.padWrite a0 (laneBytes x i head.length)
    match tail with
    | [] => pure ()
    | (j, a1) :: _ => modCore fun k => k.padWrite a1 (laneBytes x j tail.length)
  finishScan stop

/-- R341: `vst.g`, posted, one tracker entry a part. -/
def vstoreFar (via : Via) (sd : Bool) (d : BitVec 5) (a : Reg) (f : BitVec 4) : M Unit := do
  acquired
  let vs := via.reg sd d.toNat
  vuse via [vs] []
  let o ← vbase via a (64 * f.toNat + via.step sd)
  let x ← vget vs
  let fr ← theFrame
  let c ← get
  let (els, stop) := scan (fun i => c.farElement .w (o + BitVec.ofNat 64 (4 * i))) fr.vidx (16 - fr.vidx)
  noWait stop
  let parts := partsOf els []
  waitIf (decide (128 < (c.coreAt c.core).trackerUsed + parts.length)) .tracker
  for p in parts do
    let c ← get
    send .posted false (c.placeOf p.phys) p.phys.pa p.va none (.put (laneBytes x p.first p.count) none)
  finishScan stop

/-- The offset of lane i of a gather or scatter (R342). -/
def laneOffset (base : Word) (x : VWord) (i : Nat) : Word := base + BitVec.ofNat 64 (lane 32 i x)

/-- R342: `vgather`. -/
def gatherPad (via : Via) (sd : Bool) (d : BitVec 5) (a : Reg) (x : BitVec 5) : M Unit := do
  acquired
  let vd := via.reg sd d.toNat
  vuse via [x.toNat] [vd]
  let o ← vbase via a 0
  let ix ← vget x.toNat
  let (els, stop) := scan (fun i => padElement (laneOffset o ix i)) 0 16
  match stop with
  | some (i, e) => elementStop i e
  | none => do
    padInOrder els
    let c ← get
    let (v, bad) := readElements c (els.map (·.2))
    clearIndex
    vput via (2 + (els.map fun p => p.2 / 64).eraseDups.length) (.v vd v bad)

/-- R342: `vscatter`, elements in ascending order. -/
def scatterPad (via : Via) (sd : Bool) (d : BitVec 5) (a : Reg) (x : BitVec 5) : M Unit := do
  acquired
  let vs := via.reg sd d.toNat
  vuse via [vs, x.toNat] []
  let o ← vbase via a 0
  let ix ← vget x.toNat
  let v ← vget vs
  let fr ← theFrame
  let (els, stop) := scan (fun i => padElement (laneOffset o ix i)) fr.vidx (16 - fr.vidx)
  padInOrder els
  for p in els do modCore fun k => k.padWrite p.2 (laneBytes v p.1 1)
  finishScan stop

/-- R343: `vamo` in the scratchpad: each element is a local atomic. -/
def vamoPad (via : Via) (sd : Bool) (d : BitVec 5) (a : Reg) (k : VAmo) : M Unit := do
  acquired
  let vs := via.reg sd d.toNat
  vuse via [vs] []
  let o ← vbase via a (via.step sd)
  let v ← vget vs
  let fr ← theFrame
  let (els, stop) := scan (fun i => padElement (o + BitVec.ofNat 64 (4 * i))) fr.vidx (16 - fr.vidx)
  padInOrder els
  for p in els do
    modCore fun c => c.padWrite p.2 (toLe 4
      (vamoApply addF32 k (BitVec.ofNat 32 (rdLe c.pad p.2 4)) (BitVec.ofNat 32 (lane 32 p.1 v))).toNat) .update
  finishScan stop

/-- R343: `vamo.g`, one acknowledged operation an element. -/
def vamoFar (via : Via) (sd : Bool) (d : BitVec 5) (a : Reg) (k : VAmo) : M Unit := do
  acquired
  let vs := via.reg sd d.toNat
  vuse via [vs] []
  let o ← vbase via a (via.step sd)
  let v ← vget vs
  let fr ← theFrame
  let c ← get
  let (els, stop) := scan (fun i => c.farElement .w (o + BitVec.ofNat 64 (4 * i))) fr.vidx (16 - fr.vidx)
  noWait stop
  waitIf (decide (128 < (c.coreAt c.core).trackerUsed + els.length)) .tracker
  for p in els do
    let c ← get
    send .posted false (c.placeOf p.2.2) p.2.2.pa p.2.1 none (.vreduce k (BitVec.ofNat 32 (lane 32 p.1 v)))
  finishScan stop

/-! ## The instructions -/

/-- The body of a class 100 instruction, but for `rep`, as its issuing party performs it. -/
def vbody (v : Via) : Instr → M Unit
  | .vfmaF32 _ _ sd sa sb d a b => lanes3 v 4 32 sd sa sb true d a b (fused .fp32)
  | .vfmaBf16 _ _ sd sa sb d a b => lanes3 v 4 16 sd sa sb true d a b (fused .bf16)
  | .vaddF32 _ _ sd sa sb d a b => lanes3 v 4 32 sd sa sb false d a b (onF32 fadd)
  | .vsubF32 _ _ sd sa sb d a b => lanes3 v 4 32 sd sa sb false d a b (onF32 fun x y => fadd x (fneg y))
  | .vmulF32 _ _ sd sa sb d a b => lanes3 v 4 32 sd sa sb false d a b (onF32 fmul)
  | .vmaxF32 _ _ sd sa sb d a b => lanes3 v 4 32 sd sa sb false d a b (onF32 fmax)
  | .vminF32 _ _ sd sa sb d a b => lanes3 v 4 32 sd sa sb false d a b (onF32 fmin)
  | .vaddI32 _ _ sd sa sb d a b => lanes3 v 2 32 sd sa sb false d a b (onI32 (· + ·))
  | .vsubI32 _ _ sd sa sb d a b => lanes3 v 2 32 sd sa sb false d a b (onI32 (· - ·))
  | .vmulI32 _ _ sd sa sb d a b => lanes3 v 4 32 sd sa sb false d a b (onI32 (· * ·))
  | .vdotF0 _ _ sd sa sb d a b => vdot v 0 sd sa sb d a b
  | .vdotF1 _ _ sd sa sb d a b => vdot v 1 sd sa sb d a b
  | .vdotF2 _ _ sd sa sb d a b => vdot v 2 sd sa sb d a b
  | .vdotF3 _ _ sd sa sb d a b => vdot v 3 sd sa sb d a b
  | .vmaxI32 _ _ sd sa sb d a b => lanes3 v 2 32 sd sa sb false d a b (onI32 max)
  | .vminI32 _ _ sd sa sb d a b => lanes3 v 2 32 sd sa sb false d a b (onI32 min)
  | .vand _ _ sd sa d a x => lanes2x v 2 sd sa d a x (· &&& ·)
  | .vor _ _ sd sa d a x => lanes2x v 2 sd sa d a x (· ||| ·)
  | .vxor _ _ sd sa d a x => lanes2x v 2 sd sa d a x (· ^^^ ·)
  | .vandn _ _ sd sa d a x => lanes2x v 2 sd sa d a x fun p q => p &&& ~~~q
  | .vshlI32 _ _ sd sa d a x => lanes2 v 2 sd sa d a fun p => packLanes 32 16 fun i => lane 32 i p * 2 ^ x.toNat
  | .vshrI32 _ _ sd sa d a x => lanes2 v 2 sd sa d a fun p => packLanes 32 16 fun i => lane 32 i p / 2 ^ x.toNat
  | .vsarI32 _ _ sd sa d a x => lanes2 v 2 sd sa d a fun p =>
      packLanes 32 16 fun i => ((BitVec.ofNat 32 (lane 32 i p)).sshiftRight x.toNat).toNat
  | .vcmpEq _ _ sa t k a x => vcompare v sa t k a x feq (· == ·)
  | .vcmpLt _ _ sa t k a x => vcompare v sa t k a x flt BitVec.slt
  | .vcmpLe _ _ sa t k a x => vcompare v sa t k a x fle BitVec.sle
  | .vsel _ _ sd sa d a k => do
    let (d, a) := (v.reg sd d.toNat, v.reg sa a.toNat)
    vuse v [a, d] [d]
    let p ← vget a
    let q ← vget d
    let m ← kget k
    vput v 2 (.v d (packLanes 8 64 fun j => if tst m j then lane 8 j p else lane 8 j q) none)
  | .vcvt _ _ sd sa d a k m => vconvert v sd sa d a k m
  | .vcvtOl _ _ sd sa d a k m => vconvertOl v sd sa d a k m
  | .vwid _ _ sd sa d a c f => vwiden v sd sa d a c f
  | .vred _ _ sd sa d a k => lanes2 v 6 sd sa d a fun p => BitVec.ofNat 512 (reduceLanes k p)
  | .vperm _ _ sd sa d a x => lanes2x v 2 sd sa d a x permute
  | .vbcst _ _ sd d a z => do
    let d := v.reg sd d.toNat
    vuse v [] [d]
    suse v [a] []
    let x ← rd a
    let w := 8 * sizeBytes z
    vput v 2 (.v d (packLanes w (512 / w) fun _ => x.toNat) none)
  | .vext _ _ sa d a l => do
    let a := v.reg sa a.toNat
    vuse v [a] []
    suse v [] [d]
    let x ← vget a
    vput v 3 (.g d (BitVec.ofNat 64 (lane 32 l.toNat x)))
  | .vlane _ _ sd d => do
    let d := v.reg sd d.toNat
    vuse v [] [d]
    vput v 2 (.v d (packLanes 32 16 fun i => i) none)
  | .vexp2F32 _ _ sd sa d a => lanes2 v 8 sd sa d a fun p => packLanes 32 16 fun i => approxExp2 (decodeFloat .fp32 (lane 32 i p))
  | .vrcpF32 _ _ sd sa d a => lanes2 v 8 sd sa d a fun p => packLanes 32 16 fun i => approxRcp (decodeFloat .fp32 (lane 32 i p))
  | .vrsqF32 _ _ sd sa d a => lanes2 v 8 sd sa d a fun p => packLanes 32 16 fun i => approxRsq (decodeFloat .fp32 (lane 32 i p))
  | .vld _ _ sd d a f => vloadPad v sd d a f
  | .vldG _ _ sd d a f => vloadFar v sd d a f
  | .vst _ _ sd d a f => vstorePad v sd d a f
  | .vstG _ _ sd d a f => vstoreFar v sd d a f
  | .vgather _ _ sd d a x => gatherPad v sd d a x
  | .vscatter _ _ sd d a x => scatterPad v sd d a x
  | .vamo _ _ sd d a k => vamoPad v sd d a k
  | .vamoG _ _ sd d a k => vamoFar v sd d a k
  | _ => raise 1

/-- The issue gap of a class 100 word: bits 24:23 of the word hold it in formats V3 and V2 (R277). -/
def gapOf : Instr → Nat
  | .vfmaF32 _ w .. | .vfmaBf16 _ w .. | .vaddF32 _ w .. | .vsubF32 _ w .. | .vmulF32 _ w .. | .vmaxF32 _ w ..
  | .vminF32 _ w .. | .vaddI32 _ w .. | .vsubI32 _ w .. | .vmulI32 _ w .. | .vdotF0 _ w .. | .vdotF1 _ w ..
  | .vdotF2 _ w .. | .vdotF3 _ w .. | .vmaxI32 _ w .. | .vminI32 _ w .. | .vand _ w .. | .vor _ w .. | .vxor _ w ..
  | .vandn _ w .. | .vshlI32 _ w .. | .vshrI32 _ w .. | .vsarI32 _ w .. | .vcmpEq _ w .. | .vcmpLt _ w .. | .vcmpLe _ w ..
  | .vsel _ w .. | .vcvt _ w .. | .vcvtOl _ w .. | .vwid _ w .. | .vred _ w .. | .vperm _ w .. | .vbcst _ w .. | .vext _ w ..
  | .vlane _ w .. | .vexp2F32 _ w .. | .vrcpF32 _ w .. | .vrsqF32 _ w .. | .vld _ w .. | .vldG _ w .. | .vst _ w ..
  | .vstG _ w .. | .vgather _ w .. | .vscatter _ w .. | .vamo _ w .. | .vamoG _ w .. => w.toNat
  | _ => 0

/-- One captured instruction enters the buffer; after the last, the sequencer begins, or with `times` = 0 the captured
instructions are passed over (R269). -/
def Core.capture (k : Core) (w : BitVec 32) (now : Nat) : Core :=
  let words := k.vec.words ++ [w]
  let v : Vec := { k.vec with words := words, count := words.length, capturing := k.vec.capturing - 1 }
  if v.capturing ≠ 0 then { k with vec := v }
  else if v.remaining = 0 then { k with vec := { v with words := [], count := 0 } }
  else { k with vec := { v with running := true, position := 0, iteration := 0, nextAt := now + 1 } }

/-- The issue of a class 100 instruction by the pipeline (R261, R269, R322): captured, performed, or passed over. -/
def vectorChip (i : Instr) (body : M Unit) (c : Chip) : Chip :=
  finish i false (do
    let f ← theFrame
    if c.capturing then
      takeVector
      modCore fun k => k.capture (causeWord i) c.now
    else if guardHolds (guardOf i) f.sw then
      body
      modCore fun k => { k with vec := { k.vec with pipeAt := c.now + 1 + gapOf i } }
    advance) c

/-- A class 100 instruction issued by the pipeline. -/
def vector (i : Instr) (body : M Unit) (s : State) : Host.Outcome State Fault Refusal :=
  .next { s with chip := vectorChip i body s.chip }

/-- The capture of the next n instructions begins (R269, R327). -/
def Vec.beginCapture (v : Vec) (n times stride : Nat) : Vec :=
  { v with words := [], count := 0, position := 0, iteration := 0, stride := stride, remaining := times,
           capturing := n, running := false, stopped := false }

/-- R327: `rep` in a capture is not captured, it raises 0x01 (R269). -/
def execRep (g : Guard) (n : BitVec 4) (a : Reg) (x : BitVec 5) (s : State) : Host.Outcome State Fault Refusal :=
  plain (.rep g n a x) (do
    vuse pipeline [] []
    use [a] []
    let t ← rd a
    modCore fun k => { k with vec := k.vec.beginCapture (n.toNat + 1) (bits t 31 0) x.toNat }) s

/-- R330 -/
def execVfmaF32 (g : Guard) (w : BitVec 2) (sd sa sb : Bool) (d a b : BitVec 5) (s : State) : Host.Outcome State Fault Refusal :=
  vector (.vfmaF32 g w sd sa sb d a b) (vbody pipeline (.vfmaF32 g w sd sa sb d a b)) s
/-- R330 -/
def execVfmaBf16 (g : Guard) (w : BitVec 2) (sd sa sb : Bool) (d a b : BitVec 5) (s : State) : Host.Outcome State Fault Refusal :=
  vector (.vfmaBf16 g w sd sa sb d a b) (vbody pipeline (.vfmaBf16 g w sd sa sb d a b)) s
/-- R330 -/
def execVaddF32 (g : Guard) (w : BitVec 2) (sd sa sb : Bool) (d a b : BitVec 5) (s : State) : Host.Outcome State Fault Refusal :=
  vector (.vaddF32 g w sd sa sb d a b) (vbody pipeline (.vaddF32 g w sd sa sb d a b)) s
/-- R330 -/
def execVsubF32 (g : Guard) (w : BitVec 2) (sd sa sb : Bool) (d a b : BitVec 5) (s : State) : Host.Outcome State Fault Refusal :=
  vector (.vsubF32 g w sd sa sb d a b) (vbody pipeline (.vsubF32 g w sd sa sb d a b)) s
/-- R330 -/
def execVmulF32 (g : Guard) (w : BitVec 2) (sd sa sb : Bool) (d a b : BitVec 5) (s : State) : Host.Outcome State Fault Refusal :=
  vector (.vmulF32 g w sd sa sb d a b) (vbody pipeline (.vmulF32 g w sd sa sb d a b)) s
/-- R330 -/
def execVmaxF32 (g : Guard) (w : BitVec 2) (sd sa sb : Bool) (d a b : BitVec 5) (s : State) : Host.Outcome State Fault Refusal :=
  vector (.vmaxF32 g w sd sa sb d a b) (vbody pipeline (.vmaxF32 g w sd sa sb d a b)) s
/-- R330 -/
def execVminF32 (g : Guard) (w : BitVec 2) (sd sa sb : Bool) (d a b : BitVec 5) (s : State) : Host.Outcome State Fault Refusal :=
  vector (.vminF32 g w sd sa sb d a b) (vbody pipeline (.vminF32 g w sd sa sb d a b)) s
/-- R330 -/
def execVaddI32 (g : Guard) (w : BitVec 2) (sd sa sb : Bool) (d a b : BitVec 5) (s : State) : Host.Outcome State Fault Refusal :=
  vector (.vaddI32 g w sd sa sb d a b) (vbody pipeline (.vaddI32 g w sd sa sb d a b)) s
/-- R330 -/
def execVsubI32 (g : Guard) (w : BitVec 2) (sd sa sb : Bool) (d a b : BitVec 5) (s : State) : Host.Outcome State Fault Refusal :=
  vector (.vsubI32 g w sd sa sb d a b) (vbody pipeline (.vsubI32 g w sd sa sb d a b)) s
/-- R330 -/
def execVmulI32 (g : Guard) (w : BitVec 2) (sd sa sb : Bool) (d a b : BitVec 5) (s : State) : Host.Outcome State Fault Refusal :=
  vector (.vmulI32 g w sd sa sb d a b) (vbody pipeline (.vmulI32 g w sd sa sb d a b)) s
/-- R331 -/
def execVdotF0 (g : Guard) (w : BitVec 2) (sd sa sb : Bool) (d a b : BitVec 5) (s : State) : Host.Outcome State Fault Refusal :=
  vector (.vdotF0 g w sd sa sb d a b) (vbody pipeline (.vdotF0 g w sd sa sb d a b)) s
/-- R331 -/
def execVdotF1 (g : Guard) (w : BitVec 2) (sd sa sb : Bool) (d a b : BitVec 5) (s : State) : Host.Outcome State Fault Refusal :=
  vector (.vdotF1 g w sd sa sb d a b) (vbody pipeline (.vdotF1 g w sd sa sb d a b)) s
/-- R331 -/
def execVdotF2 (g : Guard) (w : BitVec 2) (sd sa sb : Bool) (d a b : BitVec 5) (s : State) : Host.Outcome State Fault Refusal :=
  vector (.vdotF2 g w sd sa sb d a b) (vbody pipeline (.vdotF2 g w sd sa sb d a b)) s
/-- R331 -/
def execVdotF3 (g : Guard) (w : BitVec 2) (sd sa sb : Bool) (d a b : BitVec 5) (s : State) : Host.Outcome State Fault Refusal :=
  vector (.vdotF3 g w sd sa sb d a b) (vbody pipeline (.vdotF3 g w sd sa sb d a b)) s
/-- R330 -/
def execVmaxI32 (g : Guard) (w : BitVec 2) (sd sa sb : Bool) (d a b : BitVec 5) (s : State) : Host.Outcome State Fault Refusal :=
  vector (.vmaxI32 g w sd sa sb d a b) (vbody pipeline (.vmaxI32 g w sd sa sb d a b)) s
/-- R330 -/
def execVminI32 (g : Guard) (w : BitVec 2) (sd sa sb : Bool) (d a b : BitVec 5) (s : State) : Host.Outcome State Fault Refusal :=
  vector (.vminI32 g w sd sa sb d a b) (vbody pipeline (.vminI32 g w sd sa sb d a b)) s
/-- R332 -/
def execVand (g : Guard) (w : BitVec 2) (sd sa : Bool) (d a : BitVec 5) (x : BitVec 5) (s : State) : Host.Outcome State Fault Refusal :=
  vector (.vand g w sd sa d a x) (vbody pipeline (.vand g w sd sa d a x)) s
/-- R332 -/
def execVor (g : Guard) (w : BitVec 2) (sd sa : Bool) (d a : BitVec 5) (x : BitVec 5) (s : State) : Host.Outcome State Fault Refusal :=
  vector (.vor g w sd sa d a x) (vbody pipeline (.vor g w sd sa d a x)) s
/-- R332 -/
def execVxor (g : Guard) (w : BitVec 2) (sd sa : Bool) (d a : BitVec 5) (x : BitVec 5) (s : State) : Host.Outcome State Fault Refusal :=
  vector (.vxor g w sd sa d a x) (vbody pipeline (.vxor g w sd sa d a x)) s
/-- R332 -/
def execVandn (g : Guard) (w : BitVec 2) (sd sa : Bool) (d a : BitVec 5) (x : BitVec 5) (s : State) : Host.Outcome State Fault Refusal :=
  vector (.vandn g w sd sa d a x) (vbody pipeline (.vandn g w sd sa d a x)) s
/-- R332 -/
def execVshlI32 (g : Guard) (w : BitVec 2) (sd sa : Bool) (d a : BitVec 5) (x : BitVec 5) (s : State) : Host.Outcome State Fault Refusal :=
  vector (.vshlI32 g w sd sa d a x) (vbody pipeline (.vshlI32 g w sd sa d a x)) s
/-- R332 -/
def execVshrI32 (g : Guard) (w : BitVec 2) (sd sa : Bool) (d a : BitVec 5) (x : BitVec 5) (s : State) : Host.Outcome State Fault Refusal :=
  vector (.vshrI32 g w sd sa d a x) (vbody pipeline (.vshrI32 g w sd sa d a x)) s
/-- R332 -/
def execVsarI32 (g : Guard) (w : BitVec 2) (sd sa : Bool) (d a : BitVec 5) (x : BitVec 5) (s : State) : Host.Outcome State Fault Refusal :=
  vector (.vsarI32 g w sd sa d a x) (vbody pipeline (.vsarI32 g w sd sa d a x)) s
/-- R333 -/
def execVcmpEq (g : Guard) (w : BitVec 2) (sa : Bool) (t : CmpType) (k : BitVec 3) (a x : BitVec 5) (s : State) : Host.Outcome State Fault Refusal :=
  vector (.vcmpEq g w sa t k a x) (vbody pipeline (.vcmpEq g w sa t k a x)) s
/-- R333 -/
def execVcmpLt (g : Guard) (w : BitVec 2) (sa : Bool) (t : CmpType) (k : BitVec 3) (a x : BitVec 5) (s : State) : Host.Outcome State Fault Refusal :=
  vector (.vcmpLt g w sa t k a x) (vbody pipeline (.vcmpLt g w sa t k a x)) s
/-- R333 -/
def execVcmpLe (g : Guard) (w : BitVec 2) (sa : Bool) (t : CmpType) (k : BitVec 3) (a x : BitVec 5) (s : State) : Host.Outcome State Fault Refusal :=
  vector (.vcmpLe g w sa t k a x) (vbody pipeline (.vcmpLe g w sa t k a x)) s
/-- R332 -/
def execVsel (g : Guard) (w : BitVec 2) (sd sa : Bool) (d a : BitVec 5) (k : BitVec 3) (s : State) : Host.Outcome State Fault Refusal :=
  vector (.vsel g w sd sa d a k) (vbody pipeline (.vsel g w sd sa d a k)) s
/-- R334 -/
def execVcvt (g : Guard) (w : BitVec 2) (sd sa : Bool) (d a : BitVec 5) (k : CvtKind) (m : Mode) (s : State) : Host.Outcome State Fault Refusal :=
  vector (.vcvt g w sd sa d a k m) (vbody pipeline (.vcvt g w sd sa d a k m)) s
/-- R335 -/
def execVcvtOl (g : Guard) (w : BitVec 2) (sd sa : Bool) (d a : BitVec 5) (k : CvtKind) (m : Mode) (s : State) : Host.Outcome State Fault Refusal :=
  vector (.vcvtOl g w sd sa d a k m) (vbody pipeline (.vcvtOl g w sd sa d a k m)) s
/-- R336 -/
def execVwid (g : Guard) (w : BitVec 2) (sd sa : Bool) (d a : BitVec 5) (c : BitVec 2) (f : WidFmt) (s : State) : Host.Outcome State Fault Refusal :=
  vector (.vwid g w sd sa d a c f) (vbody pipeline (.vwid g w sd sa d a c f)) s
/-- R337 -/
def execVred (g : Guard) (w : BitVec 2) (sd sa : Bool) (d a : BitVec 5) (k : VRed) (s : State) : Host.Outcome State Fault Refusal :=
  vector (.vred g w sd sa d a k) (vbody pipeline (.vred g w sd sa d a k)) s
/-- R338 -/
def execVperm (g : Guard) (w : BitVec 2) (sd sa : Bool) (d a : BitVec 5) (x : BitVec 5) (s : State) : Host.Outcome State Fault Refusal :=
  vector (.vperm g w sd sa d a x) (vbody pipeline (.vperm g w sd sa d a x)) s
/-- R338 -/
def execVbcst (g : Guard) (w : BitVec 2) (sd : Bool) (d : BitVec 5) (a : Reg) (z : Size) (s : State) : Host.Outcome State Fault Refusal :=
  vector (.vbcst g w sd d a z) (vbody pipeline (.vbcst g w sd d a z)) s
/-- R338 -/
def execVext (g : Guard) (w : BitVec 2) (sa : Bool) (d : Reg) (a : BitVec 5) (l : BitVec 4) (s : State) : Host.Outcome State Fault Refusal :=
  vector (.vext g w sa d a l) (vbody pipeline (.vext g w sa d a l)) s
/-- R338 -/
def execVlane (g : Guard) (w : BitVec 2) (sd : Bool) (d : BitVec 5) (s : State) : Host.Outcome State Fault Refusal :=
  vector (.vlane g w sd d) (vbody pipeline (.vlane g w sd d)) s
/-- R339 -/
def execVexp2F32 (g : Guard) (w : BitVec 2) (sd sa : Bool) (d a : BitVec 5) (s : State) : Host.Outcome State Fault Refusal :=
  vector (.vexp2F32 g w sd sa d a) (vbody pipeline (.vexp2F32 g w sd sa d a)) s
/-- R339 -/
def execVrcpF32 (g : Guard) (w : BitVec 2) (sd sa : Bool) (d a : BitVec 5) (s : State) : Host.Outcome State Fault Refusal :=
  vector (.vrcpF32 g w sd sa d a) (vbody pipeline (.vrcpF32 g w sd sa d a)) s
/-- R339 -/
def execVrsqF32 (g : Guard) (w : BitVec 2) (sd sa : Bool) (d a : BitVec 5) (s : State) : Host.Outcome State Fault Refusal :=
  vector (.vrsqF32 g w sd sa d a) (vbody pipeline (.vrsqF32 g w sd sa d a)) s
/-- R341 -/
def execVld (g : Guard) (w : BitVec 2) (sd : Bool) (d : BitVec 5) (a : Reg) (f : BitVec 4) (s : State) : Host.Outcome State Fault Refusal :=
  vector (.vld g w sd d a f) (vbody pipeline (.vld g w sd d a f)) s
/-- R341 -/
def execVldG (g : Guard) (w : BitVec 2) (sd : Bool) (d : BitVec 5) (a : Reg) (f : BitVec 4) (s : State) : Host.Outcome State Fault Refusal :=
  vector (.vldG g w sd d a f) (vbody pipeline (.vldG g w sd d a f)) s
/-- R341 -/
def execVst (g : Guard) (w : BitVec 2) (sd : Bool) (d : BitVec 5) (a : Reg) (f : BitVec 4) (s : State) : Host.Outcome State Fault Refusal :=
  vector (.vst g w sd d a f) (vbody pipeline (.vst g w sd d a f)) s
/-- R341 -/
def execVstG (g : Guard) (w : BitVec 2) (sd : Bool) (d : BitVec 5) (a : Reg) (f : BitVec 4) (s : State) : Host.Outcome State Fault Refusal :=
  vector (.vstG g w sd d a f) (vbody pipeline (.vstG g w sd d a f)) s
/-- R342 -/
def execVgather (g : Guard) (w : BitVec 2) (sd : Bool) (d : BitVec 5) (a : Reg) (x : BitVec 5) (s : State) : Host.Outcome State Fault Refusal :=
  vector (.vgather g w sd d a x) (vbody pipeline (.vgather g w sd d a x)) s
/-- R342 -/
def execVscatter (g : Guard) (w : BitVec 2) (sd : Bool) (d : BitVec 5) (a : Reg) (x : BitVec 5) (s : State) : Host.Outcome State Fault Refusal :=
  vector (.vscatter g w sd d a x) (vbody pipeline (.vscatter g w sd d a x)) s
/-- R343 -/
def execVamo (g : Guard) (w : BitVec 2) (sd : Bool) (d : BitVec 5) (a : Reg) (k : VAmo) (s : State) : Host.Outcome State Fault Refusal :=
  vector (.vamo g w sd d a k) (vbody pipeline (.vamo g w sd d a k)) s
/-- R343 -/
def execVamoG (g : Guard) (w : BitVec 2) (sd : Bool) (d : BitVec 5) (a : Reg) (k : VAmo) (s : State) : Host.Outcome State Fault Refusal :=
  vector (.vamoG g w sd d a k) (vbody pipeline (.vamoG g w sd d a k)) s

/-! ## The sequencer (R160, R269, R270, R324) -/

/-- The buffer's position after a reissue. -/
def Vec.stepOn (x : Vec) (now gap : Nat) : Vec :=
  let x := { x with nextAt := now + 1 + gap }
  if x.position + 1 < x.count then { x with position := x.position + 1 }
  else
    let x := { x with position := 0, iteration := (x.iteration + 1) % 2 ^ 32, remaining := x.remaining - 1 }
    if x.remaining = 0 then { x with running := false, words := [], count := 0 } else x

/-- Whether the sequencer of a core may reissue now: its gap has passed, results due have landed, its owner issues, and
before iteration 0 every earlier vector result is in place (R269). -/
def Core.mayReissue (k : Core) (f now : Nat) : Bool :=
  k.sequencing f && decide (k.vec.nextAt ≤ now) && !(k.vec.writes.any fun w => decide (w.due < now))
  && (match (k.frameAt f).st with | .ready | .stalled _ => true | _ => false)
  && (decide (0 < k.vec.iteration) || decide (0 < k.vec.position)
      || (k.vec.writes.isEmpty && !(k.reqs.any fun p => match p.2.want with | .vpart .. => true | _ => false)))

/-- One reissue of a core's sequencer (R270, R324, R160). A stall of the sequencer leaves the step not enabled, but that a
translation miss asks for its walk (R186), and a list in another package is asked for its data (R335); a trap is delivered at the pipeline's boundary with `ecause.seq` set, 0x01 for a word
that the class 100 map does not assign (R322). -/
def Chip.reissue (c : Chip) (core : Nat) : Option Chip :=
  let k := c.coreAt core
  match k.vec.owner, k.vec.words[k.vec.position]? with
  | some f, some w =>
    if !k.mayReissue f c.now || c.underTest core then none
    else
      let c0 := { c with core := core, frame := f, word := w }
      match decode w with
      | none => some (c0.takeTrap core f w true 1 0 0)
      | some i =>
        let body := do
          let fr ← theFrame
          if guardHolds (guardOf i) fr.sw then vbody ⟨true, k.vec.iteration, k.vec.stride⟩ i
        match body c0 with
        | .ok _ c' => some (c'.modCore core fun k => { k with vec := k.vec.stepOn c.now (gapOf i) })
        | .error (.wait (.walk page)) _ => if c.walking core f page then none else some (c.askWalk core f page)
        | .error (.hold (.answer _)) c' => some (c'.linksOf c core)
        | .error (.wait _) _ | .error (.hold _) _ => none
        | .error (.trap cause d e) c' => some ((c'.linksOf c core).takeTrap core f w true cause d e)
  | _, _ => none
/-- R270, R324, R160: one reissue. -/
def execSequencerReissue (core : Nat) (s : State) : Host.Outcome State Fault Refusal :=
  event (fun c => c.reissue core) s

/-- One landed result of the vector unit; a push onto a link needs room. -/
def Chip.landResult (c : Chip) (core : Nat) (w : VWrite) : Option Chip :=
  match w.dest with
  | .g (.link d) x =>
    if c.pushRoom core d = 0 then none
    else some (c.modCore (neighbour core d) fun k =>
      { k with links := k.links.set (dirIx (opposite d)) (k.links[dirIx (opposite d)] ++ [(x, c.now)]) })
  | .g (.g n) x => some (c.modFrame core w.frame fun f => f.setReg n x)
  | d => some (c.modCore core fun k => { k with vec := k.vec.put d })

/-- Results whose cycle has ended, in order; those behind a full link wait. -/
def Chip.landDue (c : Chip) (core : Nat) : List VWrite → Chip × List VWrite
  | [] => (c, [])
  | w :: r =>
    if c.now ≤ w.due then (c, w :: r)
    else match c.landResult core w with
      | some c => c.landDue core r
      | none => (c, w :: r)

/-- The results of a core whose cycle has ended, written: none where there is none. -/
def Chip.landResults (c : Chip) (core : Nat) : Option Chip :=
  let ws := (c.coreAt core).vec.writes
  let (c, rest) := c.landDue core ws
  if rest.length = ws.length then none
  else some (c.modCore core fun k => { k with vec := { k.vec with writes := rest } })
/-- R324: the results whose cycle has ended are written. -/
def execVectorResultWrite (core : Nat) (s : State) : Host.Outcome State Fault Refusal :=
  event (fun c => c.landResults core) s

end Sys2Proof.Machine
end

