-- ==== Sys2Proof/Machine/Engine.lean ====
section
/-! DEFINITION. What the two engines share: posting (R102, R103, R345), command records and their handles (R346, R347),
errors (R350 to R352), completion (R348), and the accesses of a command. -/

namespace Sys2Proof.Machine

/-! ## Posting -/

/-- R345: the post is a release at package scope toward the engine, whose own command order covers the thread's earlier
commands (R74, R348, log 25). What it has taken stays its frame's while it waits for the matrix state or for room in the
queue. -/
def post (e : Engine) (a : BitVec 5) : M Unit := do
  access
  reportRefusal fun _ => true
  let c ← get
  waitIf (c.openIn c.core (.frame c.frame) .pkg fun _ => true) (.answers .pkg)
  takeVector
  notSequencing
  vectorReady a.toNat
  if e = .mx then
    let k ← theCore
    if k.mowner.isSome && k.mowner != some c.frame then throw (.hold .matrixOwner)
    takeMatrix
  let k ← theCore
  if 16 ≤ (k.queue e).length then throw (.hold (.queueFull e))
  let c ← get
  let f ← theFrame
  set { c with nextReq := c.nextReq + 1 }
  modCore fun k => k.setQueue e (k.queue e ++
    [⟨k.vec.v[a.toFin], c.frame, f.thread, f.ctx, f.sup, f.owner, c.word, c.now, false, c.nextReq, [], none, [], 0, none⟩])

/-- R345 -/
def execPostMx (g : Guard) (a : BitVec 5) (s : State) : Host.Outcome State Fault Refusal :=
  plain (.postMx g a) (post .mx a) s
/-- R345 -/
def execPostCp (g : Guard) (a : BitVec 5) (s : State) : Host.Outcome State Fault Refusal :=
  plain (.postCp g a) (post .cp a) s

/-! ## The monad of a command -/

/-- How a command stops: with a detail and an `eaddr` (R350), because it must wait, or at an access that needs a walk of a page
(R186) or n bytes of another package (R365). -/
inductive EStop where
  | fail (detail : Nat) (eaddr : Word)
  | wait
  | walk (page : Nat)
  | fetch (p : Phys) (va : Word) (n : Nat)
  deriving DecidableEq, Repr

/-- A command as it runs. One that has stopped for an answer of another package runs again from its start, its reads giving what
they gave (`past`) and its first writes (`skip`) passed over, up to where it stopped. `seen` and `wrote` count up what it has
read and written in all, and `far` is the answer. -/
structure Run where
  chip : Chip
  past : List (List Byte)
  seen : List (List Byte)
  skip : Nat
  wrote : Nat
  far : Option FarAns
  deriving DecidableEq, Repr

/-- The effects of one command, in order. Those before a failure, or before an access to another package, stand (R351, R365). -/
abbrev E := EStateM EStop Run
/-- The package as the command finds it. -/
def chipE : E Chip := do let r ← get; pure r.chip
/-- The package changed. -/
def modChipE (f : Chip → Chip) : E Unit := modify fun r => { r with chip := f r.chip }
/-- A read of a command: as it was before, or made now. -/
def readOp (act : E (List Byte)) : E (List Byte) := do
  let r ← get
  match r.past with
  | b :: t => do
    set { r with past := t, seen := r.seen ++ [b] }
    pure b
  | [] => do
    let b ← act
    modify fun r => { r with seen := r.seen ++ [b] }
    pure b
/-- A write of a command: made before, or now. -/
def writeOp (act : E Unit) : E Unit := do
  let r ← get
  if r.skip = 0 then act else set { r with skip := r.skip - 1 }
  modify fun r => { r with wrote := r.wrote + 1 }

/-- The command fails. -/
def failIf (b : Bool) (detail : Nat) (eaddr : Word := 0) : E Unit := if b then throw (.fail detail eaddr) else pure ()
/-- The command waits. -/
def holdIf (b : Bool) : E Unit := if b then throw .wait else pure ()

/-- n bytes of a record from byte i. -/
def Cmd.field (m : Cmd) (i n : Nat) : Nat := bits m.data (8 * (i + n) - 1) (8 * i)
/-- Byte i of a record. -/
def Cmd.byte (m : Cmd) (i : Nat) : Nat := m.field i 1
/-- Whether bytes i to j - 1 are zero. -/
def Cmd.zero (m : Cmd) (i j : Nat) : Bool := j ≤ i || m.field i (j - i) == 0
/-- A signed 32-bit field. -/
def Cmd.signed (m : Cmd) (i : Nat) : Int := (BitVec.ofNat 32 (m.field i 4)).toInt

/-- The header check of R102 (0x30). -/
def headerBad (m : Cmd) : Bool :=
  m.byte 1 / 2 != 0 || m.field 2 2 != 0
  || (m.byte 1 % 2 == 1 && (m.field 4 4 % 8 != 0 || decide (0x2BFF8 < m.field 4 4)))
/-- The header, then the body's own limits (0x31). -/
def checkRecord (m : Cmd) (bodyOk : Bool) : E Unit := do
  failIf (headerBad m) 0x30
  failIf (!bodyOk) 0x31

/-! ## Handles of a command (R107, R347) -/

/-- A handle byte is well formed. -/
def handleByteOk (b : Nat) : Bool := b / 8 % 16 == 0
/-- Whether a handle byte serves the operand. -/
def served (b : Nat) : Bool := 128 ≤ b

/-- A handle as a command finds it: as it stood when the cycle began, but for the command's own advances (R107). -/
def Core.handleOf (k : Core) (now : Nat) (q : Fin 8) : Handle :=
  if k.advanced.contains q.val then k.handles[q] else k.handleSeen now q
/-- The handle of a served operand: enabled and owned by the command's context, or 0x3C. -/
def handleFor (core : Nat) (m : Cmd) (b : Nat) : E Handle := do
  let c ← chipE
  let h := (c.coreAt core).handleOf c.now ⟨b % 8, Nat.mod_lt _ (by decide)⟩
  failIf (!h.en || h.owner != some m.ctx) 0x3C (BitVec.ofNat 64 (b % 8))
  pure h

/-- The scratchpad operand of a source: its offset, or the consumer's slot; `extent` is one past its last byte. -/
def sourceAt (core : Nat) (m : Cmd) (off : Nat) (extent : Nat) : E Nat := do
  if served (m.byte 8) then
    failIf (off != 0) 0x31
    let h ← handleFor core m (m.byte 8)
    holdIf (h.filled == 0)
    failIf (decide (h.slotBytes < extent)) 0x31
    pure h.consumer
  else pure off
/-- The scratchpad operand of a destination. -/
def destAt (core : Nat) (m : Cmd) (off : Nat) (extent : Nat) : E Nat := do
  if served (m.byte 9) then
    failIf (off != 0) 0x31
    let h ← handleFor core m (m.byte 9)
    holdIf (h.filled == h.slots)
    failIf (decide (h.slotBytes < extent)) 0x31
    pure h.producer
  else pure off

/-- A handle of a core advanced. -/
def modHandle (core b : Nat) (f : Handle → Handle) : E Unit :=
  modChipE fun c => c.modCore core fun k =>
    let q : Fin 8 := ⟨b % 8, Nat.mod_lt _ (by decide)⟩
    k.advHandle c.now q (f k.handles[q])
/-- The slots that a command took are given on, once each (R107). -/
def advanceSlots (core : Nat) (m : Cmd) (src dst : Bool) : E Unit := do
  if src && served (m.byte 8) then modHandle core (m.byte 8) fun h => { h with ci := h.ci + 1 }
  if dst && served (m.byte 9) then modHandle core (m.byte 9) fun h => { h with pi := h.pi + 1 }

/-! ## Accesses of a command -/

/-- A scratchpad range of the command's core: 0x36 with the first offset at or beyond 0x2_C000. -/
def padRange (o n : Nat) : E Unit :=
  failIf (decide (0 < n) && decide (Config.dataEnd < o + n)) 0x36 (BitVec.ofNat 64 (max o Config.dataEnd))
/-- Bytes of the scratchpad; poisoned data fails with 0x39. -/
def padRead (core o n : Nat) : E (List Byte) := do
  padRange o n
  readOp do
    let c ← chipE
    failIf (c.poisonAt (.core core) o n) 0x39 (BitVec.ofNat 64 o)
    pure (c.readHome (.core core) o n)
/-- Bytes written to the scratchpad. -/
def padWriteE (core o : Nat) (b : List Byte) : E Unit := do
  padRange o b.length
  writeOp (modChipE fun c => c.writeHome (.core core) o b)

/-- A translation at the posting frame's privilege (R346), through what the command's own walks brought and the signature's
cache; a miss waits for its walk (R186). 0x37 or 0x38, the latter also for a write into a gossip region (R245). A page under a
move holds the command (R191). -/
def farPhys (core : Nat) (m : Cmd) (a : Nat) (n : Nat) (need : Need) : E Phys := do
  let va := BitVec.ofNat 64 a
  let page := a / 2 ^ 16
  failIf (decide (2 ^ 57 ≤ a)) 0x37 va
  failIf (addrCheck va m.sup == some 6) 0x37 va
  failIf (addrCheck va m.sup).isSome 0x38 va
  failIf (m.fault == some page) 0x37 va
  let c ← chipE
  match ((m.leaves.find? (·.1 == page)).map (·.2)).orElse fun _ => c.cached (sigOf core) m.ctx a with
  | none => throw (.walk page)
  | some (leaf, size) => do
    let p : Phys := ⟨leaf, size, leafAddr leaf size a⟩
    failIf (!leafRights leaf need false || (need == .w && decide (p.loc < 2) && (c.placeOf p).pkg == c.pkg && c.inRegion p.pa n)) 0x38 va
    holdIf (c.physShut p n)
    pure p

/-- The length of a piece of n bytes at an address: at most 64, aligned to its own size (R365). -/
def pieceLen (a n : Nat) : Nat := ([64, 32, 16, 8, 4, 2].find? fun k => a % k == 0 && decide (k ≤ n)).getD 1

/-- n bytes of another package: the answer, or the request for them (R365). -/
def fetchPiece (p : Phys) (va : Word) (n : Nat) : E (List Byte) := do
  let r ← get
  match r.far with
  | some (.data b bad) => do
    set { r with far := none }
    failIf bad 0x39 va
    pure b
  | some (.refused st) => throw (.fail (pieceDetail st true) va)
  | some .done | none => throw (.fetch p va n)
/-- The next bytes at a virtual address, of n: those of its page in a home here, or a piece of another package. -/
def farNext (core : Nat) (m : Cmd) (a n : Nat) : E (List Byte) := do
  let k := min n (0x10000 - a % 0x10000)
  let p ← farPhys core m a k .r
  if p.loc = 1 then fetchPiece p (BitVec.ofNat 64 a) (pieceLen p.pa k)
  else do
    let c ← chipE
    failIf (c.physBad p k) 0x39 (BitVec.ofNat 64 a)
    pure (c.readPhys p k)
/-- Bytes at virtual addresses, in ascending order. -/
def farRead (core : Nat) (m : Cmd) : Nat → Nat → Nat → E (List Byte)
  | 0, _, _ => pure []
  | _, _, 0 => pure []
  | fuel + 1, a, n => do
    let b ← readOp (farNext core m a n)
    let rest ← farRead core m fuel (a + b.length) (n - b.length)
    pure (b ++ rest)

/-- A request of a command, tracked under its tag. -/
def Chip.askPiece (c : Chip) (core : Nat) (m : Cmd) (e : Engine) (read : Bool) (p : Phys) (va : Word) (b : Body) : Chip :=
  c.ask core (.engine e) (.piece m.tag read) false
    ⟨0, ⟨c.pkg, core, m.ctx, m.sup, m.frame, m.launch⟩, c.placeOf p, p.pa, va, none, 0, none, 0, 0, b, none, false⟩

/-- The pieces of a write to another package: at most 64 bytes, each aligned to its own size (R365). -/
def sendPieces (core : Nat) (m : Cmd) (e : Engine) (p : Phys) (a : Nat) : Nat → List Byte → Chip → Chip
  | 0, _, c => c
  | _, [], c => c
  | fuel + 1, b, c =>
    let k := pieceLen p.pa b.length
    sendPieces core m e { p with pa := p.pa + k } (a + k) fuel (b.drop k)
      (c.askPiece core m e false p (BitVec.ofNat 64 a) (.piece (b.take k)))

/-- Bytes written at a translated place: at its home here, or as puts to another package, whose memory as this one reads
it takes them too (log 8). -/
def Chip.writePhys (c : Chip) (core : Nat) (m : Cmd) (e : Engine) (p : Phys) (a : Nat) (b : List Byte) : Chip :=
  if p.loc = 1 then
    sendPieces core m e p a (b.length + 1) b { c with far := wrBytes c.far (farKey (bits p.leaf 63 52) p.pa) b }
  else c.writeHome (c.placeOf p).home p.pa b

/-- Bytes written at virtual addresses, page by page; a home that refuses fails with 0x3A. -/
def farWrite (core : Nat) (m : Cmd) (e : Engine) : Nat → Nat → List Byte → E Unit
  | 0, _, _ => pure ()
  | _, _, [] => pure ()
  | fuel + 1, a, b => do
    let k := min b.length (0x10000 - a % 0x10000)
    writeOp do
      let p ← farPhys core m a k .w
      failIf (p.loc == 0 && !installed p.pa k) 0x3A (BitVec.ofNat 64 a)
      modChipE fun c => c.writePhys core m e p a (b.take k)
    farWrite core m e fuel (a + k) (b.drop k)

/-- A place an engine operand names (R346): a scratchpad offset or a virtual address, as a signed number so that strides
may leave either end. -/
structure Spot where
  pad : Bool
  at_ : Int
  deriving DecidableEq, Repr

/-- A well-formed location word (R346). -/
def locationOk (w : Nat) : Bool := if 2 ^ 63 ≤ w then w % 2 ^ 63 / 2 ^ 18 == 0 else w / 2 ^ 57 == 0
/-- The place a location word names. -/
def spotOf (w : Nat) : Spot := ⟨decide (2 ^ 63 ≤ w), if 2 ^ 63 ≤ w then w % 2 ^ 18 else w⟩
/-- A place some bytes on. -/
def Spot.plus (s : Spot) (d : Int) : Spot := { s with at_ := s.at_ + d }
/-- A place below zero: it leaves its space (R364). -/
def Spot.below (s : Spot) : E Unit :=
  failIf (decide (s.at_ < 0)) (if s.pad then 0x36 else 0x37) (BitVec.ofInt 64 s.at_)
/-- Bytes read at a place. -/
def Spot.read (s : Spot) (core : Nat) (m : Cmd) (n : Nat) : E (List Byte) := do
  s.below
  if s.pad then padRead core s.at_.toNat n else farRead core m (n + 1) s.at_.toNat n
/-- Bytes written at a place. -/
def Spot.write (s : Spot) (core : Nat) (m : Cmd) (e : Engine) (b : List Byte) : E Unit := do
  s.below
  if s.pad then padWriteE core s.at_.toNat b else farWrite core m e (b.length / 0x10000 + 2) s.at_.toNat b

/-- One append of a command to an outlier list (R49 to R51): whether it found room. -/
def appendOutlier (core : Nat) (m : Cmd) (e : Engine) (list : Nat) (idx value : Nat) : E Bool := do
  let s := spotOf list
  failIf (s.at_ % 8 != 0) 0x35 (BitVec.ofNat 64 list)
  let head ← s.read core m 8
  let cap := field head 0 4
  let cnt := field head 4 4
  if cnt < cap then
    (s.plus (16 + 8 * cnt)).write core m e (toLe 4 idx ++ toLe 4 value)
    (s.plus 4).write core m e (toLe 4 (cnt + 1))
    pure true
  else
    let loss ← (s.plus 8).read core m 4
    (s.plus 8).write core m e (toLe 4 (min (leNat loss + 1) 0xFFFFFFFF))
    pure false

/-! ## Running, failing and completing a command -/

/-- The first command of a queue whose effects are not yet performed, with its position. -/
def nextCmd (q : List Cmd) : Option (Nat × Cmd) := (q.zipIdx.find? fun p => !p.1.ran).map fun p => (p.2, p.1)

/-- Whether accesses of an engine's commands to other packages are not yet answered. -/
def Core.piecesOpen (k : Core) (e : Engine) : Bool := k.reqs.any fun p => p.2.owner == .engine e
/-- The next command to run, if it is this one: the copy engine runs one command at a time (R348), and the matrix unit goes on
while a command before has no access open, so that one which fails leaves none behind it performed (R351). -/
def Core.toRun (k : Core) (e : Engine) (op : Nat) : Option (Nat × Cmd) :=
  match nextCmd (k.queue e) with
  | some (i, m) => if m.byte 0 = op && (i == 0 || (e == .mx && !k.piecesOpen e)) then some (i, m) else none
  | none => none

/-- The i-th command has run; the one behind it begins to wait now (R350). -/
def markRan (q : List Cmd) (i now : Nat) : List Cmd :=
  q.zipIdx.map fun p => if p.2 = i then { p.1 with ran := true, seen := [], wrote := 0, far := none } else if p.2 = i + 1 then { p.1 with since := now } else p.1

/-- A walk request of a command (R186): none while it stands in the pool. -/
def Chip.cmdWalk (c : Chip) (core : Nat) (m : Cmd) (page : Nat) : Option Chip :=
  let die := dieOf core
  let pool := tget [] c.walks die
  if pool.any fun x => x.va / 2 ^ 16 == page && x.cmds.contains (core, m.tag) then none
  else some { c with walks := tset c.walks die (addWalk pool ⟨m.ctx, page * 2 ^ 16, [sigOf core], [], [(core, m.tag)]⟩) }
/-- Whether a read of a command in another package is not answered yet. -/
def Core.reading (k : Core) (m : Cmd) : Bool := k.reqs.any fun p => p.2.want == .piece m.tag true
/-- How far a command has come, kept in its place in the queue. -/
def Core.keepRun (k : Core) (e : Engine) (i : Nat) (r : Run) : Core :=
  k.setQueue e ((k.queue e).zipIdx.map fun p =>
    if p.2 = i then { p.1 with seen := r.seen, wrote := r.wrote, far := none } else p.1)
/-- A command run: its effects, its failure, or the walk or the piece that it needs first. What it has done before a piece stands
(R364). -/
def Chip.runCmd (c : Chip) (core : Nat) (e : Engine) (op : Nat) (body : Cmd → E Unit) : Option Chip :=
  match (c.coreAt core).toRun e op with
  | none => none
  | some (i, m) =>
    match body m ⟨c, m.seen, [], m.wrote, 0, m.far⟩ with
    | .ok _ r => some (r.chip.modCore core fun k => k.setQueue e (markRan (k.queue e) i c.now))
    | .error .wait _ => none
    | .error (.walk page) _ => c.cmdWalk core m page
    | .error (.fetch p va n) r =>
      if (c.coreAt core).reading m then none
      else some ((r.chip.modCore core fun k => k.keepRun e i r).askPiece core m e true p va (.get n))
    | .error (.fail d a) r => some (r.chip.engineFail core e i m d a)

/-- Op codes that R353 to R363 assign, as byte 0 of a record. -/
def assigned (e : Engine) (b : Nat) : Bool :=
  match e with
  | .mx => decide (0x41 ≤ b) && decide (b ≤ 0x48)
  | .cp => decide (0x81 ≤ b) && decide (b ≤ 0x85)

/-- R350, R361, R363: a record whose eng is another or whose op code is unassigned fails with 0x30. -/
def execUnassignedEngineCommand (core : Nat) (e : Engine) (s : State) : Host.Outcome State Fault Refusal :=
  event (fun c =>
    match nextCmd ((c.coreAt core).queue e) with
    | none => none
    | some (i, m) =>
      if assigned e (m.byte 0) || (i != 0 && (e == .cp || (c.coreAt core).piecesOpen e)) then none else some (c.engineFail core e i m 0x30 0)) s

/-- R348, R21, R74: the head command has run and its writes are acknowledged; its mailbox is counted up. -/
def execCommandCompletion (core : Nat) (e : Engine) (s : State) : Host.Outcome State Fault Refusal :=
  event (fun c =>
    match (c.coreAt core).queue e with
    | [] => none
    | m :: r =>
      if !m.ran || (c.coreAt core).piecesOpen e then none
      else
        some (c.modCore core fun k =>
          let k := k.setQueue e (match r with
            | x :: t => (if x.ran then x else { x with since := c.now }) :: t
            | [] => [])
          if m.byte 1 % 2 = 1 then k.countOne (m.field 4 4) else k)) s

/-! ### The ring (R362) and the end of a wait (R350) -/

/-- The ring successor of a core (R16). -/
def ringNext (core : Nat) : Nat := core / 16 * 16 + (core % 16 + 1) % 16
/-- A core's next matrix command, if it is a well-formed pass and its latch is full. -/
def Core.passReady (k : Core) : Option (Nat × Cmd) :=
  match k.toRun .mx 0x44 with
  | some (i, m) => if !headerBad m && m.zero 8 64 && k.latch.isSome then some (i, m) else none
  | none => none
/-- The largest set of a signature's cores that can pass at once (R362): members whose successor cannot receive fall out
until none does. -/
def Chip.passSet (c : Chip) : Nat → List Nat → List Nat
  | 0, l => l
  | n + 1, l => c.passSet n (l.filter fun k => (c.coreAt (ringNext k)).latch.isNone || l.contains (ringNext k))
/-- The cores that pass in the step of one of them. -/
def Chip.passing (c : Chip) (core : Nat) : List Nat :=
  c.passSet 16 (((List.range 16).map fun i => core / 16 * 16 + i).filter fun k => (c.coreAt k).passReady.isSome)

/-- What a command that has not run waits for: a handle, or the latch (R107, R356, R357, R362). A pass waits while it cannot be
made in this cycle. -/
def Chip.cmdWaits (c : Chip) (core : Nat) (m : Cmd) : Bool :=
  let k := c.coreAt core
  let h := fun (b : Nat) => k.handles[b % 8]'(Nat.mod_lt _ (by decide))
  let src := served (m.byte 8) && (h (m.byte 8)).filled == 0
  let dst := served (m.byte 9) && (h (m.byte 9)).filled == (h (m.byte 9)).slots
  let op := m.byte 0
  ([0x41, 0x42, 0x43, 0x47, 0x81, 0x82, 0x83].contains op && src)
  || ([0x46, 0x81, 0x82, 0x83, 0x84].contains op && dst)
  || (op == 0x42 && k.latch.isSome) || (op == 0x43 && m.byte 20 % 2 == 0 && k.latch.isNone)
  || (op == 0x44 && !(c.passing core).contains core)

/-- R350: a wait on the latch or a handle longer than 2^20 cycles fails with 0x3B. -/
def execEngineWaitTimeout (core : Nat) (e : Engine) (s : State) : Host.Outcome State Fault Refusal :=
  event (fun c =>
    match nextCmd ((c.coreAt core).queue e) with
    | none => none
    | some (_, m) => match (c.coreAt core).toRun e (m.byte 0) with
      | none => none
      | some (i, m) =>
        if decide (m.since + 2 ^ 20 < c.now) && c.cmdWaits core m then some (c.engineFail core e i m 0x3B 0) else none) s

/-- Whether a frame stands before an instruction of which nothing has been performed: it is ready, stalls without having sent
anything that an answer ends, or drains at its `end` (R142, R351). -/
def FSt.undone : FSt → Bool
  | .ready | .retiring .. => true
  | .stalled w => (match w with | .answer _ | .request .. | .report | .drain .. => false | _ => true)
  | _ => false

/-- R351, R165: the oldest error is delivered to the posting frame at its next boundary; a frame that is parked has it on
resumption, and in a handler it is fatal. -/
def execEngineErrorDelivery (core frame : Nat) (s : State) : Host.Outcome State Fault Refusal :=
  event (fun c =>
    let f := c.frameAt core frame
    match f.engErr with
    | (w, d, a) :: rest =>
      if f.st.undone && f.trapping.isNone && !f.far.contains .done then
        some ((c.modFrame core frame fun f => { f with engErr := rest }).takeTrap core frame w false 0x0E d a)
      else none
    | [] => none) s

/-! ## corr (R366) -/

/-- Bytes at a location, read by the thread itself: its earlier accesses to that home come first (R68). In another package it is the
j-th read there, whose answer the frame waits for; with the bytes, the number of the next one. -/
def locRead (s : Spot) (off n j : Nat) : M (List Byte × Nat) := do
  let a := s.at_.toNat + off
  if s.pad then
    raiseIf (decide (Config.dataEnd < a + n)) 4 (BitVec.ofNat 64 a)
    inOrder a n
    let c ← get
    raiseIf (c.poisonAt (.core c.core) a n) 0x0E (BitVec.ofNat 64 a) 0x39
    pure (c.readHome (.core c.core) a n, j)
  else
    let p ← listPlace (BitVec.ofNat 64 a) n .r 0x39 true
    if p.loc = 1 then
      let b ← listRead j p (BitVec.ofNat 64 a) n 0x39
      pure (b, j + 1)
    else
      let c ← get
      pure (c.readPhys p n, j)

/-- The records of a list folded into the tile, from record i up, the next read in another package being the j-th. -/
def corrFrom (s : Spot) (ga i : Nat) : Nat → Nat → M Unit
  | _, 0 => pure ()
  | j, n + 1 => do
    let (r, j) ← locRead s (16 + 8 * i) 8 j
    let o := ga + 4 * field r 0 4
    raiseIf (decide (Config.dataEnd < o + 4)) 4 (BitVec.ofNat 64 o)
    inOrder o 4
    spadWrite o 4 (field r 4 4)
    corrFrom s ga (i + 1) j n

/-- R366 -/
def execCorr (g : Guard) (a b : Reg) (s : State) : Host.Outcome State Fault Refusal :=
  plain (.corr g a b) (do
    access
    use [a, b] []
    let ga ← rd a
    let gl ← rd b
    raiseIf (ga.toNat % 4 != 0) 3 ga
    raiseIf (!locationOk gl.toNat) 4 gl
    let s := spotOf gl.toNat
    raiseIf (s.at_ % 8 != 0) 3 (BitVec.ofInt 64 s.at_)
    let (head, j) ← locRead s 0 8 0
    corrFrom s ga.toNat 0 j (min (field head 0 4) (field head 4 4))
    modFrame fun f => { f with far := [] }) s

end Sys2Proof.Machine
end

