-- ==== Sys2Proof/Machine/Objects.lean ====
section
/-! DEFINITION. Class 110 as the issuing core performs it (R386 to R399): the operands are read and checked, the release
that the instruction carries is made, the request goes to the object's home, and the frame stalls for the answer. -/

namespace Sys2Proof.Machine

/-- What an object instruction orders before it is sent (R172, R225, R232, R237, R239, R110). -/
inductive Order where
  | free
  | release
  | reads
  deriving DecidableEq, Repr

/-- The scope that a code names (R114). -/
def scopeOf (code : Nat) : Option Scope :=
  match code with
  | 0 => some .thr | 1 => some .core | 2 => some .sig | 3 => some .qre | 4 => some .die | 5 => some .pkg | 6 => some .sys
  | _ => none

/-- The scope at which an object instruction orders: that of the header as it stands at issue for a tile, a barrier or a
channel, package for a mesh or a holding queue, and system where the object lies in another package (R172, R222, R237,
R110; log 15). -/
def Chip.objectScope (c : Chip) (op : ObjOp) (p : Place) (a : Nat) : Scope :=
  if p.pkg != c.pkg then .sys
  else match op with
    | .bar | .barv | .chsend => (scopeOf (bits (c.read64 p.home (a + 16)) 2 0)).getD .sys
    | .verpub | .verpubFin | .verstop | .verchk | .verchkD => (scopeOf (bits (c.read64 p.home a) 50 48)).getD .sys
    | _ => .pkg

/-- The operand ga (R388 steps 2 and 3): the object's home and its address there. A scratchpad reference has the layout of
R132 and room for n bytes; a virtual address is translated for reading, and host memory is no object's home (log 15). -/
def objectPlace (ga : Word) (n al : Nat) (ref : Bool) : M (Place × Nat) := do
  let c ← get
  if tst ga 63 && ref then
    raiseIf (refBad ga) 4 ga
    raiseIf (refOff ga % al != 0) 3 (BitVec.ofNat 64 (refOff ga))
    raiseIf (decide (Config.dataEnd < refOff ga + n)) 4 (BitVec.ofNat 64 (refOff ga))
    pure (⟨refPkg ga, .core (refCore ga)⟩, refOff ga)
  else
    raiseIf (ga.toNat % al != 0) 3 ga
    let p ← translate ga .r true
    raiseIf (p.loc == 2) 7 ga
    pure (c.placeOf p, p.pa)

/-- The request of an object instruction: sent, and the frame stalls (R387). A thread without a task of a launch names no
launch (R178). -/
def sendObject (op : ObjOp) (gd : Option Reg) (pd : Option (BitVec 3)) (log : Option (Nat × Nat)) (dest : Place) (addr : Nat)
    (ga x y : Word) : M Unit := do
  holdMoved ga dest addr
  let c ← get
  let f ← theFrame
  set (c.ask c.core (.frame c.frame) (.object gd pd log) false
    ⟨0, { c.frankOf c.core c.frame with launch := f.launch }, dest, addr, ga, none, f.pri, none, 0, 0, .object op x y, none,
      false⟩)
  awaitAnswer

/-- An object instruction once its registers have been read (R388). -/
def object (op : ObjOp) (gd : Option Reg) (pd : Option (BitVec 3)) (o : Order) (ga x y : Word) (n al : Nat) (ref : Bool) :
    M Unit := do
  let (dest, addr) ← objectPlace ga n al ref
  let c ← get
  match o with
  | .free => pure ()
  | .release => release (c.objectScope op dest addr)
  | .reads => readsDone (c.objectScope op dest addr)
  sendObject op gd pd none dest addr ga x y

/-! ## Mesh (R390 to R394) -/

/-- A read of a mesh by handle: gd and pd. -/
def meshRead (op : ObjOp) (d a b : Reg) (p : BitVec 3) : M Unit := do
  access
  use [a, b] [d]
  let ga ← rd a
  let gh ← rd b
  object op (some d) (some p) .free ga gh 0 256 64 false

/-- R390 -/
def execMgetLink (g : Guard) (d a b : Reg) (p : BitVec 3) (s : State) : Host.Outcome State Fault Refusal :=
  steers (.mgetLink g d a b p) (meshRead (.mget .link) d a b p) s
/-- R390 -/
def execMgetTwin (g : Guard) (d a b : Reg) (p : BitVec 3) (s : State) : Host.Outcome State Fault Refusal :=
  steers (.mgetTwin g d a b p) (meshRead (.mget .twin) d a b p) s
/-- R390 -/
def execMgetOrigin (g : Guard) (d a b : Reg) (p : BitVec 3) (s : State) : Host.Outcome State Fault Refusal :=
  steers (.mgetOrigin g d a b p) (meshRead (.mget .origin) d a b p) s
/-- R390 -/
def execMgetEdge (g : Guard) (d a b : Reg) (p : BitVec 3) (s : State) : Host.Outcome State Fault Refusal :=
  steers (.mgetEdge g d a b p) (meshRead (.mget .edge) d a b p) s
/-- R390 -/
def execMgetFace (g : Guard) (d a b : Reg) (p : BitVec 3) (s : State) : Host.Outcome State Fault Refusal :=
  steers (.mgetFace g d a b p) (meshRead (.mget .face) d a b p) s
/-- R390 -/
def execMnext (g : Guard) (d a b : Reg) (p : BitVec 3) (s : State) : Host.Outcome State Fault Refusal :=
  steers (.mnext g d a b p) (meshRead (.mget .next) d a b p) s
/-- R391 -/
def execMfldLow (g : Guard) (d a b : Reg) (p : BitVec 3) (j : BitVec 2) (s : State) : Host.Outcome State Fault Refusal :=
  steers (.mfldLow g d a b p j) (meshRead (.mfld j.toNat) d a b p) s
/-- R391 -/
def execMfldHigh (g : Guard) (d a b : Reg) (p : BitVec 3) (j : BitVec 2) (s : State) : Host.Outcome State Fault Refusal :=
  steers (.mfldHigh g d a b p j) (meshRead (.mfld (4 + j.toNat)) d a b p) s

/-- R391: a store of a field; gs stands in d. -/
def meshStore (j : Nat) (d a b : Reg) (p : BitVec 3) : M Unit := do
  access
  use [d, a, b] []
  let v ← rd d
  let ga ← rd a
  let gh ← rd b
  object (.mfst j) none (some p) .release ga gh v 256 64 false
/-- R391 -/
def execMfstLow (g : Guard) (d a b : Reg) (p : BitVec 3) (j : BitVec 2) (s : State) : Host.Outcome State Fault Refusal :=
  steers (.mfstLow g d a b p j) (meshStore j.toNat d a b p) s
/-- R391 -/
def execMfstHigh (g : Guard) (d a b : Reg) (p : BitVec 3) (j : BitVec 2) (s : State) : Host.Outcome State Fault Refusal :=
  steers (.mfstHigh g d a b p j) (meshStore (4 + j.toNat) d a b p) s

/-- The mesh instructions that answer in pd alone (R392). -/
def meshTest (op : ObjOp) (a b : Reg) (p : BitVec 3) : M Unit := do
  access
  use [a, b] []
  let ga ← rd a
  let gh ← rd b
  object op none (some p) .free ga gh 0 256 64 false
/-- R392 -/
def execMval (g : Guard) (a b : Reg) (p : BitVec 3) (s : State) : Host.Outcome State Fault Refusal :=
  steers (.mval g a b p) (meshTest .mval a b p) s
/-- R392 -/
def execMclaim (g : Guard) (a b : Reg) (p : BitVec 3) (s : State) : Host.Outcome State Fault Refusal :=
  steers (.mclaim g a b p) (meshTest .mclaim a b p) s
/-- R392 -/
def execMrel (g : Guard) (a b : Reg) (p : BitVec 3) (s : State) : Host.Outcome State Fault Refusal :=
  steers (.mrel g a b p) (meshTest .mrel a b p) s

/-- Whether a mesh edits at once, by its descriptor as it stands in this package or as another one answers it (R224, log 8). -/
def Chip.immediateAt (c : Chip) (p : Place) (a : Nat) : Bool :=
  !tst (if p.pkg == c.pkg then c.read64 p.home a else rd64 c.far (p.pkg * 2 ^ 52 + a)) 24
/-- An edit (R393): for `msplit` and `mcoll` gd holds t on entry. In modes 1 and 2 an edit of an immediate mesh takes its
record of the order log at issue (R225, R454). -/
def meshEdit (e : Edit) (d a b : Reg) (p : BitVec 3) : M Unit := do
  access
  let reads := e == .split || e == .collapse
  use ((if reads then [d] else []) ++ [a, b]) [d]
  let t ← if reads then rd d else pure 0
  let ga ← rd a
  let gh ← rd b
  let (dest, addr) ← objectPlace ga 256 64 false
  let c ← get
  release (c.objectScope (.edit e none) dest addr)
  let r ← if c.immediateAt dest addr then takeRecord 3 else pure none
  let expect ← prescribed r
  sendObject (.edit e (expect.map fun w => tst w 0)) (some d) (some p) r dest addr ga gh t
/-- R393 -/
def execMsplit (g : Guard) (d a b : Reg) (p : BitVec 3) (s : State) : Host.Outcome State Fault Refusal :=
  steers (.msplit g d a b p) (meshEdit .split d a b p) s
/-- R393 -/
def execMcoll (g : Guard) (d a b : Reg) (p : BitVec 3) (s : State) : Host.Outcome State Fault Refusal :=
  steers (.mcoll g d a b p) (meshEdit .collapse d a b p) s
/-- R393 -/
def execMflip (g : Guard) (d a b : Reg) (p : BitVec 3) (s : State) : Host.Outcome State Fault Refusal :=
  steers (.mflip g d a b p) (meshEdit .flip d a b p) s
/-- R393 -/
def execMref (g : Guard) (d a b : Reg) (p : BitVec 3) (s : State) : Host.Outcome State Fault Refusal :=
  steers (.mref g d a b p) (meshEdit .refine d a b p) s

/-- An instruction of the form `gd, [ga]`. -/
def objectGet (op : ObjOp) (o : Order) (d a : Reg) (n al : Nat) (ref : Bool) : M Unit := do
  access
  use [a] [d]
  let ga ← rd a
  object op (some d) none o ga 0 0 n al ref
/-- An instruction of the form `gd, gs, [ga]`. -/
def objectGive (op : ObjOp) (o : Order) (d a b : Reg) (n al : Nat) (ref : Bool) : M Unit := do
  access
  use [a, b] [d]
  let ga ← rd a
  let gs ← rd b
  object op (some d) none o ga gs 0 n al ref
/-- An instruction of the form `pd, gs, [ga]`. -/
def objectTest (op : ObjOp) (o : Order) (a b : Reg) (p : BitVec 3) (n al : Nat) (ref : Bool) : M Unit := do
  access
  use [a, b] []
  let ga ← rd a
  let gs ← rd b
  object op none (some p) o ga gs 0 n al ref

/-- R229, R394 -/
def execMround (g : Guard) (d a : Reg) (s : State) : Host.Outcome State Fault Refusal :=
  steers (.mround g d a) (objectGet .mround .release d a 256 64 false) s

/-! ## Versioned tile (R395) -/

/-- R237 -/
def execVerpub (g : Guard) (d a : Reg) (s : State) : Host.Outcome State Fault Refusal :=
  steers (.verpub g d a) (objectGet .verpub .release d a 64 64 true) s
/-- R237 -/
def execVerpubO (g : Guard) (d a : Reg) (s : State) : Host.Outcome State Fault Refusal :=
  steers (.verpubO g d a) (objectGet .verpubO .free d a 64 64 true) s
/-- R237 -/
def execVerpubFin (g : Guard) (d a : Reg) (s : State) : Host.Outcome State Fault Refusal :=
  steers (.verpubFin g d a) (objectGet .verpubFin .release d a 64 64 true) s
/-- R237 -/
def execVerstop (g : Guard) (d a : Reg) (s : State) : Host.Outcome State Fault Refusal :=
  steers (.verstop g d a) (objectGet .verstop .release d a 64 64 true) s
/-- R238 -/
def execVerwait (g : Guard) (d a b : Reg) (s : State) : Host.Outcome State Fault Refusal :=
  steers (.verwait g d a b) (objectGive .verwait .free d a b 64 64 true) s
/-- R239 -/
def execVerchk (g : Guard) (a b : Reg) (p : BitVec 3) (s : State) : Host.Outcome State Fault Refusal :=
  steers (.verchk g a b p) (objectTest .verchk .reads a b p 64 64 true) s
/-- R239 -/
def execVerchkD (g : Guard) (a b : Reg) (p : BitVec 3) (s : State) : Host.Outcome State Fault Refusal :=
  steers (.verchkD g a b p) (objectTest .verchkD .release a b p 64 64 true) s

/-- R242 -/
def settleTest (op : ObjOp) (a : Reg) (p : BitVec 3) : M Unit := do
  access
  use [a] []
  let ga ← rd a
  object op none (some p) .free ga 0 0 8 8 true
/-- R242 -/
def execVersettle (g : Guard) (a : Reg) (p : BitVec 3) (s : State) : Host.Outcome State Fault Refusal :=
  steers (.versettle g a p) (settleTest .versettle a p) s
/-- R242 -/
def execVersettleT (g : Guard) (a : Reg) (p : BitVec 3) (s : State) : Host.Outcome State Fault Refusal :=
  steers (.versettleT g a p) (settleTest .versettleT a p) s

/-! ## Gossip region (R396) -/

/-- R251 -/
def execGosadd (g : Guard) (a b : Reg) (s : State) : Host.Outcome State Fault Refusal :=
  steers (.gosadd g a b) (do
    access
    use [a, b] []
    let ga ← rd a
    let gs ← rd b
    object .gosadd none none .free ga gs 0 8 8 false) s
/-- R251 -/
def execGosest (g : Guard) (d a : Reg) (p : BitVec 3) (s : State) : Host.Outcome State Fault Refusal :=
  steers (.gosest g d a p) (do
    access
    use [a] [d]
    let ga ← rd a
    object .gosest (some d) (some p) .free ga 0 0 8 8 false) s
/-- R251 -/
def execGosspr (g : Guard) (d a : Reg) (s : State) : Host.Outcome State Fault Refusal :=
  steers (.gosspr g d a) (objectGet .gosspr .free d a 8 8 false) s

/-- The configuration image of a `gosset` (R246): none where its offset is misaligned or beyond the data banks. A poisoned one
travels empty, and the home answers for it after its own checks (R388). -/
def gossipImage (gs : Word) : M (Option (List Byte)) := do
  let o := bits gs 17 0
  if bits gs 63 61 != 1 || o % 8 != 0 || decide (Config.dataEnd < o + 64) then pure none
  else
    inOrder o 64
    let c ← get
    pure (some (if c.poisonAt (.core c.core) o 64 then [] else c.readHome (.core c.core) o 64))
/-- R247: the image is read at issue (log 15). -/
def execGosset (g : Guard) (d a b : Reg) (s : State) : Host.Outcome State Fault Refusal :=
  steers (.gosset g d a b) (do
    access
    use [a, b] [d]
    let ga ← rd a
    let gs ← rd b
    let img ← gossipImage gs
    object (.gosset img) (some d) none .free ga gs 0 8 8 false) s

/-! ## Barrier and channel (R397) -/

/-- R172 -/
def execBar (g : Guard) (d a : Reg) (s : State) : Host.Outcome State Fault Refusal :=
  steers (.bar g d a) (objectGet .bar .release d a 64 64 true) s
/-- R172 -/
def execBarv (g : Guard) (d a b : Reg) (s : State) : Host.Outcome State Fault Refusal :=
  steers (.barv g d a b) (objectGive .barv .release d a b 64 64 true) s
/-- R172 -/
def execBwait (g : Guard) (a b : Reg) (p : BitVec 3) (s : State) : Host.Outcome State Fault Refusal :=
  steers (.bwait g a b p) (objectTest .bwait .free a b p 64 64 true) s
/-- R175 -/
def execChsend (g : Guard) (a b : Reg) (p : BitVec 3) (s : State) : Host.Outcome State Fault Refusal :=
  steers (.chsend g a b p) (objectTest .chsend .release a b p 64 64 true) s
/-- R175 -/
def execChrecv (g : Guard) (d a : Reg) (p : BitVec 3) (s : State) : Host.Outcome State Fault Refusal :=
  steers (.chrecv g d a p) (do
    access
    use [a] [d]
    let ga ← rd a
    object .chrecv (some d) (some p) .free ga 0 0 64 64 true) s

/-! ## Holding queue (R398) -/

/-- R110 -/
def execHqput (g : Guard) (d a b : Reg) (s : State) : Host.Outcome State Fault Refusal :=
  steers (.hqput g d a b) (objectGive .hqput .release d a b 64 64 false) s
/-- R110 -/
def execHqpeek (g : Guard) (d a b : Reg) (s : State) : Host.Outcome State Fault Refusal :=
  steers (.hqpeek g d a b) (objectGive .hqpeek .free d a b 64 64 false) s
/-- R110 -/
def execHqrel (g : Guard) (d a b : Reg) (s : State) : Host.Outcome State Fault Refusal :=
  steers (.hqrel g d a b) (objectGive .hqrel .release d a b 64 64 false) s
/-- R110 -/
def execHqveto (g : Guard) (d a b : Reg) (s : State) : Host.Outcome State Fault Refusal :=
  steers (.hqveto g d a b) (objectGive .hqveto .release d a b 64 64 false) s

end Sys2Proof.Machine
end

