-- ==== Sys2Proof/Machine/ObjectHome.lean ====
section
/-! DEFINITION. What the homes of shared objects have in common: rights entries (R88, R89), the admission of a request
(R168, R211, R388), ownership by scratchpad reservation (R234), and the waiter tables (R176). -/

namespace Sys2Proof.Machine

/-- How an object instruction ends at its home: with an answer, by a refusal (R369), by waiting there (R176), or as an
edit or a round that answers later (R225, R229). -/
inductive Done where
  | answer (a : ObjAns)
  | refuse (status : Nat)
  | hold
  | later
  deriving DecidableEq, Repr

/-- An answer. -/
def Done.ok (gd : Word) (pd : Bool) : Done := .answer (.ok gd pd)
/-- A trap. -/
def Done.trap (cause : Nat) (eaddr : Word) (detail : Nat := 0) : Done := .answer (.trap cause detail eaddr)

/-- A word that says yes or no. -/
def flag (b : Bool) : Word := if b then 1 else 0

/-! ## Rights entries -/

/-- One entry of a rights table (R88). -/
structure Rights where
  index : Nat
  base : Word
  kind : Nat
  rights : Nat
  owner : Nat
  bad : Bool
  deriving DecidableEq, Repr

/-- Entry i of a context's rights table (R88). -/
def Chip.rightsAt (c : Chip) (ctx i : Nat) : Rights :=
  let a := (c.ctxAt ctx).rtbase.toNat + 16 * i
  let w := rd64 c.hbm (a + 8)
  ⟨i, rd64 c.hbm a, bits w 7 4, bits w 15 8, bits w 31 16,
   bits w 3 0 != 0 || bits w 63 32 != 0 || bits w 7 4 == 0 || decide (6 < bits w 7 4)⟩
/-- An empty entry (R88). -/
def Rights.empty (e : Rights) (c : Chip) (ctx : Nat) : Bool :=
  let a := (c.ctxAt ctx).rtbase.toNat + 16 * e.index
  rd64 c.hbm a == 0 && rd64 c.hbm (a + 8) == 0
/-- The entries in use of a context. -/
def Chip.rightsOf (c : Chip) (ctx : Nat) : List Rights :=
  ((List.range (c.ctxAt ctx).rtcount).map (c.rightsAt ctx)).filter fun e => !e.empty c ctx

/-- The physical place of a virtual address in a context's tables, with its location code, as the command processor
walks them (R182). -/
def Chip.placeIn (c : Chip) (ctx : Nat) (va : Word) : Option Phys :=
  (c.walk ctx va.toNat).map fun p => ⟨p.1, p.2, leafAddr p.1 p.2 va.toNat⟩

/-- The owner that the rights entries of a kind name for the object whose header stands at a place of this package's HBM (R88). -/
def Chip.entryOwner (c : Chip) (kind pa : Nat) : Option Nat :=
  c.ctxs.findSome? fun x => if x.2.st = .free then none else
    ((c.rightsOf x.1).find? fun e =>
      e.kind == kind && !e.bad && (c.placeIn x.1 e.base).any fun p => p.loc == 0 && p.pa == pa).map (·.owner)

/-- The entry that names an object for a context: by the base the instruction gave, or, for a request from another
package, by the base that maps to the object's physical address (R89, R211, log 15). -/
def Chip.entryFor (c : Chip) (m : Msg) (ctx : Nat) : Option Rights :=
  (c.rightsOf ctx).find? fun e =>
    if m.frank.pkg == c.pkg then e.base == m.va
    else match c.placeIn ctx e.base with
      | some p => p.loc == 0 && p.pa == m.addr
      | none => false

/-- The check of R89: the entry, or the trap 0x07. `right` is the mask of the rights needed. -/
def Chip.entryCheck (c : Chip) (m : Msg) (ctx kind right : Nat) : Except Done Rights :=
  match c.entryFor m ctx with
  | some e => if !e.bad && e.kind == kind && e.rights &&& right == right then .ok e else .error (.trap 7 m.va)
  | none => .error (.trap 7 m.va)

/-- Whether an object of an owner is broken for a context (R86). -/
def Chip.brokenFor (c : Chip) (owner ctx : Nat) : Bool :=
  owner != ctx && (match (c.ctxAt owner).st with | .killing | .closing => true | _ => false)

/-! ## Admission -/

/-- The acting context of an object request, or the nack status that refuses it: the export table off the package (R211),
and for a scratchpad object from another core one window that grants every right of `need` over the whole object
(R168, R242). -/
def Chip.admitObject (c : Chip) (m : Msg) (n : Nat) (need : List Nat) : Except Nat Nat :=
  match c.actingCtx m n 3 with
  | none => .error 3
  | some ctx =>
    match m.dest.home with
    | .core k =>
      if m.frank.sup || (m.frank.pkg == c.pkg && m.frank.core == k)
        || ((c.coreAt k).windowsAt c.now).any (fun w => need.all fun r => windowAdmits w r ctx (c.switchOf m.frank k) [(m.addr, n)])
      then .ok ctx else .error 1
    | .hbm _ _ =>
      if !installed m.addr n then .error (if m.frank.pkg == c.pkg then 4 else 3)
      else if c.isShut m.addr n then .error 2 else .ok ctx
    | .host => .error 3
    | .spine => if m.frank.pkg != c.pkg then .error 3 else if c.isShut (spineMark + m.addr) n then .error 2 else .ok ctx

/-- Whether a scope contains an object's home, as the requester sees it (R169). -/
def Chip.scopeHolds (c : Chip) (code : Nat) (m : Msg) : Bool :=
  match scopeOf code with
  | none => false
  | some s => code != 0 && (s == .sys || (m.frank.pkg == c.pkg && c.inScope s m.frank.core m.dest))

/-! ## Launches and their reservations -/

/-- Whether a level's units are carried by one core, as units of cores or wider, or by threads (R117). -/
def Launch.unitsPerCore (l : Launch) (i : Nat) : Nat :=
  if l.domain i = 0 then field l.record (130 + 16 * i) 2 else 1
/-- Frames that a launch reserves on each core (R117). -/
def Launch.frames (l : Launch) : Nat :=
  ((List.range l.nlev).map fun i => field l.record (132 + 16 * i) 2 * l.unitsPerCore i).sum
/-- Scratchpad bytes that a launch reserves on each core (R117). -/
def Launch.spad (l : Launch) : Nat :=
  ((List.range l.nlev).map fun i => field l.record (136 + 16 * i) 4 * l.unitsPerCore i).sum
/-- First offset of the reservation (R113). -/
def Launch.spbase (l : Launch) : Nat := field l.record 36 4

/-- The context of the launch whose scratchpad reservation holds an offset of a core (R234). -/
def Chip.padOwner (c : Chip) (core off : Nat) : Option Nat :=
  (c.launches.find? fun p => p.2.placed && p.2.cores.contains core && decide (p.2.spbase ≤ off)
    && decide (off < p.2.spbase + p.2.spad)).map fun p => p.2.ctx

/-! ## Waiters (R176) -/

/-- The waiter table of a home. -/
def Chip.waitersAt (c : Chip) (h : Home) : List Msg :=
  match h with
  | .core k => (c.coreAt k).waiters
  | .hbm st ch => tget [] c.agentWait (agentOf st ch)
  | _ => []
/-- The waiter table of a home written. -/
def Chip.setWaiters (c : Chip) (h : Home) (l : List Msg) : Chip :=
  match h with
  | .core k => c.modCore k fun x => { x with waiters := l }
  | .hbm st ch => { c with agentWait := tset c.agentWait (agentOf st ch) l }
  | _ => c
/-- Entries of a waiter table. -/
def waiterRoom (h : Home) : Nat := match h with | .core _ => 64 | _ => 256

/-- A 4-byte field at a home. -/
def Chip.u32 (c : Chip) (h : Home) (a : Nat) : Nat := c.readNat h a 4

end Sys2Proof.Machine
end

