-- ==== Sys2Proof/Machine/Gossip.lean ====
section
/-! DEFINITION. Gossip regions: instructions at the home (R244 to R247, R251), rounds (R248), and mass, commits and
withdrawals (R210, R249). -/

namespace Sys2Proof.Machine

/-! ## Words of a region -/

/-- A byte of an area by its place among the area's pages. -/
def pageByte (pages : List Nat) (o : Nat) : Nat := pages.getD (o / 2 ^ 16) 0 + o % 2 ^ 16
/-- Where v[i] lies; the weight is word n (R244). -/
def Region.word (r : Region) (i : Nat) : Nat := pageByte r.pages (8 * i)
/-- Where word i of array j of the shadow area lies: arrival halves 0 and 1, and the add array 2 (R244). -/
def Region.shadow (r : Region) (j i : Nat) : Nat := pageByte r.spages (8 * (j * (r.n + 1) + i))
/-- A word of a region read. -/
def Chip.regionGet (c : Chip) (a : Nat) : Word := rd64 c.hbm a
/-- A word of a region written. -/
def Chip.regionPut (c : Chip) (a : Nat) (v : Word) : Chip := c.write64 (hbmHome a) a v
/-- The half that commits go to: the one the next round folds (R248). -/
def Region.openHalf (r : Region) : Nat := (r.k + 1) % 2
/-- Whether a signed sum leaves the range. -/
def sumOver (x y : Word) : Bool := x.toInt + y.toInt != (x + y).toInt
/-- A region of the list changed. -/
def Chip.modRegion (c : Chip) (i : Nat) (f : Region → Region) : Chip := { c with regions := c.regions.modify i f }
/-- A value added into a word of region i, with its overflow noted (R247). -/
def Chip.regionAdd (c : Chip) (i a : Nat) (v : Word) : Chip :=
  let x := c.regionGet a
  (c.regionPut a (x + v)).modRegion i fun q => { q with ovf := q.ovf || sumOver x v }

/-- q of R248: trunc(x times 2^ws / y), saturated, and whether it saturated. -/
def quotient (ws : Nat) (x y : Word) : Word × Bool :=
  let q := (x.toInt * 2 ^ ws).tdiv y.toInt
  if (2 : Int) ^ 63 ≤ q then (BitVec.ofNat 64 (2 ^ 63 - 1), true)
  else if q < -(2 : Int) ^ 63 then (BitVec.ofNat 64 (2 ^ 63), true)
  else (BitVec.ofInt 64 q, false)

/-! ## Finding a region -/

/-- The index of the region word at a physical address, if a replica holds it. -/
def Region.indexOf (r : Region) (a : Nat) : Option Nat :=
  (r.pages.findIdx? fun p => p == a / 2 ^ 16 * 2 ^ 16).bind fun j =>
    let i := (j * 2 ^ 16 + a % 2 ^ 16) / 8
    if i ≤ r.n then some i else none
/-- The region whose replica holds a physical address, with its position and the word's index. -/
def Chip.regionOf (c : Chip) (a : Nat) : Option (Nat × Region × Nat) :=
  c.regions.zipIdx.findSome? fun p => (p.1.indexOf a).map fun i => (p.2, p.1, i)
/-- The entry of a context for word i of a region: one of kind 3 whose base maps to the region's, and from which the virtual
address of a request on this package counts (R89, R251, R396). -/
def Chip.regionEntry (c : Chip) (m : Msg) (ctx : Nat) (r : Region) (i : Nat) : Option Rights :=
  (c.rightsOf ctx).find? fun e => !e.bad && e.kind == 3
    && (m.frank.pkg != c.pkg || m.va == e.base + BitVec.ofNat 64 (8 * i))
    && (match c.placeIn ctx e.base with
      | some p => p.loc == 0 && p.pa == r.word 0
      | none => false)

/-! ## Instructions at the home -/

/-- R251: `gosadd`. -/
def Chip.gossipAdd (c : Chip) (j : Nat) (r : Region) (i : Nat) (v : Word) : Chip :=
  if r.st = .stopped then c.regionAdd j (r.word i) v else c.regionAdd j (r.shadow 2 i) v
/-- R251: `gosest`: W of the round that the word's tag names. While stopped the current weight word stands for W. -/
def Chip.gossipEstimate (c : Chip) (r : Region) (i : Nat) : Done :=
  let w := if r.st = .stopped then c.regionGet (r.word r.n) else if r.tag = r.k then r.wNow else r.wPrev
  if i = r.n then .ok w true
  else if w.sle 0 then .ok 0 false
  else let (q, sat) := quotient r.ws (c.regionGet (r.word i)) w
    .ok q (!sat)
/-- R251: `gosspr`. -/
def gossipSpread (r : Region) : Done := .ok (r.spread.getD (BitVec.allOnes 64)) false

/-- The pages of an area, none unless each lies in this package's HBM (R244, R246). -/
def Chip.areaPages (c : Chip) (ctx : Nat) (va : Word) (len : Nat) : Option (List Nat) :=
  if va.toNat % 2 ^ 16 != 0 || bits va 63 57 != 0 then none
  else (List.range ((len + 2 ^ 16 - 1) / 2 ^ 16)).mapM fun j =>
    match c.placeIn ctx (va + BitVec.ofNat 64 (j * 2 ^ 16)) with
    | some p => if p.loc == 0 && installed p.pa (min (2 ^ 16) (len - j * 2 ^ 16)) then some p.pa else none
    | none => none

/-- The configuration image as a region, none when it is malformed (R246). -/
def Chip.regionImage (c : Chip) (ctx owner : Nat) (base : Word) (b : List Byte) : Option Region :=
  let n := field b 0 4
  let gid := field b 4 2
  let nn := field b 7 1
  let period := field b 8 4
  let sh := BitVec.ofNat 64 (field b 16 8)
  let nbr := (List.range 8).map fun i => field b (24 + 2 * i) 2
  let bad := n == 0 || decide (8388607 < n) || gid == 0 || decide (63 < field b 6 1) || nn == 0 || decide (8 < nn)
    || decide (period < 100) || decide (1000000 < period) || !zeroBytes b 12 4 || !zeroBytes b 40 24
    || (nbr.take nn).any (fun p => decide (4095 < p) || p == c.pkg) || (nbr.drop nn).any (· != 0)
    || overlap base.toNat (8 * (n + 1)) sh.toNat (24 * (n + 1))
  if bad then none
  else match c.areaPages ctx base (8 * (n + 1)), c.areaPages ctx sh (24 * (n + 1)) with
    | some pages, some spages =>
      some ⟨owner, base, n, gid, field b 6 1, period, sh, nbr.take nn, pages, spages, .stopped, false, 0, 0, 0, 0, 0, none, [], []⟩
    | _, _ => none

/-- The first n words of an area zeroed. -/
def Chip.zeroWords (c : Chip) (pages : List Nat) : Nat → Chip
  | 0 => c
  | n + 1 => (c.regionPut (pageByte pages (8 * n)) 0).zeroWords pages n

/-- Whether mass is pending at a region or held in an arrival half (R247). -/
def Chip.massHeld (c : Chip) (r : Region) : Bool :=
  c.pending.any (·.gid == r.gid)
  || (List.range (r.n + 1)).any fun i => c.regionGet (r.shadow 0 i) != 0 || c.regionGet (r.shadow 1 i) != 0

/-- The status word of a query (R247). -/
def regionStatus (r : Option Region) : Word :=
  match r with
  | none => 0
  | some r =>
    let st := match r.st with | .stopped => 1 | .running => 2 | .draining => 3 | .broken => 4
    BitVec.ofNat 64 (st * 2 ^ 61 + r.ovf.toNat * 2 ^ 60 + r.k % 2 ^ 32)

/-- R247: `gosset`, once its operand is well formed; `j` is the region's position where it is configured. -/
def Chip.gossipSet (c : Chip) (ctx : Nat) (e : Rights) (ga gs : Word) (img : Option (List Byte)) (found : Option (Nat × Region)) :
    Chip × Done :=
  let code := fun (n : Nat) => Done.ok (BitVec.ofNat 64 n) false
  match bits gs 63 61, found with
  | 0, r => (c, .ok (regionStatus (r.map (·.2))) false)
  | 1, r => match img with
    | none => (c, .trap 4 (BitVec.ofNat 64 (bits gs 17 0)))
    | some [] => (c, .trap 0x0E (BitVec.ofNat 64 (bits gs 17 0)) 0x52)
    | some b => match c.regionImage ctx e.owner e.base b with
      | none => (c, .trap 0x0C ga)
      | some q =>
        if r.isSome then (c, code 1)
        else if 16 ≤ (c.regions.filter fun x => x.owner == e.owner).length then (c, code 2)
        else if c.regions.any fun x => x.gid == q.gid then (c, code 3)
        else
          let c := (c.zeroWords q.pages (q.n + 1)).zeroWords q.spages (3 * (q.n + 1))
          ({ c with regions := c.regions ++ [q] }, code 0)
  | 2, some (j, r) =>
    if r.st = .stopped then (c.modRegion j fun q => { q with st := .running, started := c.now }, code 0) else (c, code 1)
  | 3, some (j, r) => if r.st = .running then (c.modRegion j fun q => { q with st := .draining }, code 0) else (c, code 1)
  | 4, some (j, r) =>
    if r.st != .stopped then (c, code 1)
    else if c.massHeld r then (c, code 4)
    else ({ c with regions := c.regions.eraseIdx j }, code 0)
  | _, _ => (c, code 1)

/-- Whether the operand of `gosset` is malformed (R247): a reserved op or bit, or an image offset outside configure. -/
def badGosset (gs : Word) : Bool :=
  decide (4 < bits gs 63 61) || bits gs 60 18 != 0 || (bits gs 63 61 != 1 && bits gs 17 0 != 0)

/-- Whether the word that a gossip instruction reads is poisoned (R369). -/
def Chip.wordBad (c : Chip) (op : ObjOp) (r : Region) (a i : Nat) : Bool :=
  let b := match op with | .gosadd => if r.st = .stopped then a else r.shadow 2 i | _ => a
  (op == .gosadd || op == .gosest) && c.poisonAt (hbmHome b) b 8
/-- The checks and effects of a gossip instruction at its home (R251, R388, R396). -/
def Chip.performGossip (c : Chip) (m : Msg) (op : ObjOp) (x : Word) : Chip × Done :=
  match c.admitObject m 8 [] with
  | .error st => (c, .refuse st)
  | .ok ctx =>
    let right := match op with | .gosadd => 2 | .gosset _ => 64 | _ => 1
    match c.regionOf m.addr with
    | none => (match op, c.entryFor m ctx with
      | .gosset img, some e =>
        if e.bad || e.kind != 3 || e.rights &&& 64 == 0 then (c, .trap 7 m.va)
        else if c.brokenFor e.owner ctx || badGosset x then (c, .trap 0x0C m.va)
        else c.gossipSet ctx e m.va x img none
      | _, _ => (c, .trap 7 m.va))
    | some (j, r, i) => match c.regionEntry m ctx r i with
      | none => (c, .trap 7 m.va)
      | some e =>
        if e.rights &&& right == 0 then (c, .trap 7 m.va)
        else if (match op with | .gosspr | .gosset _ => i != 0 | _ => false) then (c, .trap 7 m.va)
        else if r.owner != ctx && (r.st == .broken || c.brokenFor r.owner ctx) then (c, .trap 0x0C e.base)
        else if c.wordBad op r m.addr i then (c, .refuse 4)
        else match op with
          | .gosadd => (c.gossipAdd j r i x, .ok 0 false)
          | .gosest => (c, c.gossipEstimate r i)
          | .gosspr => (c, gossipSpread r)
          | .gosset img => if badGosset x then (c, .trap 0x0C m.va) else c.gossipSet ctx e m.va x img (some (j, r))
          | _ => (c, .trap 7 m.va)

/-! ## Rounds (R248) -/

/-- What a pass carries from word to word: the package, the spread, and the outgoing words. -/
structure Pass where
  c : Chip
  s : Nat
  out : List Word
  w : Word
  deriving DecidableEq, Repr

/-- Whether a region's word, or one of its shadows that a pass folds, is poisoned (R453). -/
def Chip.passBad (c : Chip) (r : Region) (i : Nat) (shadows : List Nat) : Bool :=
  (r.word i :: shadows.map fun a => r.shadow a i).any fun a => c.poisonAt (hbmHome a) a 8
/-- The fold and halve of one word (R248): `aw` is the arrived weight and `prev` W of the round before. Poisoned data is not folded:
its word stays as it is and sends nothing (log 64). -/
def foldWord (j : Nat) (r : Region) (half : Nat) (aw prev : Word) (p : Pass) (i : Nat) : Pass :=
  let c := p.c
  let v := c.regionGet (r.word i)
  let h := c.regionGet (r.shadow half i)
  let a := c.regionGet (r.shadow 2 i)
  let s := if i < r.n ∧ (0 : Word).slt aw = true ∧ (0 : Word).slt prev = true then
      max p.s (min (2 ^ 63 - 1) ((quotient r.ws v prev).1.toInt - (quotient r.ws h aw).1.toInt).natAbs)
    else p.s
  let x := v + h + a
  let o := x.sshiftRight 1
  if c.passBad r i [half, 2] then ⟨c, p.s, p.out ++ [0], if i = r.n then prev else p.w⟩ else
  let c := ((c.regionPut (r.word i) (x - o)).regionPut (r.shadow half i) 0).regionPut (r.shadow 2 i) 0
  let c := c.modRegion j fun q => { q with ovf := q.ovf || sumOver v h || sumOver (v + h) a }
  ⟨c, s, p.out ++ [o], if i = r.n then x - o else p.w⟩

/-- The mass messages of a pass (R249): up to 32 words each, and none whose words are all zero. -/
def Chip.sendMass (c : Chip) (j : Nat) (r : Region) (dest : Nat) (out : List Word) : Chip :=
  (List.range (out.length / 32 + 1)).foldl (fun c i =>
    let words := (out.drop (32 * i)).take 32
    if words.all (· == 0) then c
    else
      let m : Msg := ⟨c.nextReq, ⟨c.pkg, 0, r.owner, false, 0x7F, none⟩, ⟨dest, .spine⟩, 32 * i, 0, none, 0, none, 0, 0,
        .mass r.gid (32 * i) words, none, false⟩
      (({ c with nextReq := c.nextReq + 1 }).post m).modRegion j fun q => { q with sent := tset q.sent c.nextReq (32 * i, words) }) c

/-- R248: round k + 1 of region j, once its period is over and every message of the round before is settled. -/
def execGossipRound (j : Nat) (s : State) : Host.Outcome State Fault Refusal :=
  event (fun c => match c.regions[j]? with
    | none => none
    | some r =>
      if r.st != .running || !r.sent.isEmpty || decide (c.now < r.started + r.period * Config.cyclesPerUs) then none
      else
        let k := r.k + 1
        let half := k % 2
        let aw := if c.passBad r r.n [half, 2] then 0 else c.regionGet (r.shadow half r.n)
        let p := (r.n :: List.range r.n).foldl (foldWord j r half aw r.wNow) ⟨c, 0, [], 0⟩
        let valid := (0 : Word).slt aw && (0 : Word).slt r.wNow
        let c := p.c.modRegion j fun q => { q with
          k := k, started := c.now, wPrev := r.wNow, wNow := p.w, tag := k
          spread := if valid then some (BitVec.ofNat 64 p.s) else none }
        some (c.sendMass j r (r.nbr.getD ((k - 1) % r.nbr.length) 0) (p.out.drop 1 ++ p.out.take 1))) s

/-- Both arrival halves and the add array folded into word i (R247), where no poisoned data is (log 64). -/
def drainWord (j : Nat) (r : Region) (c : Chip) (i : Nat) : Chip :=
  if c.passBad r i [0, 1, 2] then c else [0, 1, 2].foldl (fun c a =>
    let v := c.regionGet (r.shadow a i)
    (c.regionAdd j (r.word i) v).regionPut (r.shadow a i) 0) c

/-- R247: a draining region whose messages are all settled becomes stopped. -/
def execGossipDrainComplete (j : Nat) (s : State) : Host.Outcome State Fault Refusal :=
  event (fun c => match c.regions[j]? with
    | none => none
    | some r =>
      if r.st != .draining || !r.sent.isEmpty then none
      else some (((List.range (r.n + 1)).foldl (drainWord j r) c).modRegion j fun q => { q with st := .stopped })) s

/-! ## Mass, commits and withdrawals (R210, R249) -/

/-- The position of the region with a gid. -/
def Chip.regionByGid (c : Chip) (gid : Nat) : Option (Nat × Region) :=
  (c.regions.zipIdx.find? fun p => p.1.gid == gid).map fun p => (p.2, p.1)
/-- Words added into an array of a region from an index up. -/
def Chip.addWords (c : Chip) (j a i : Nat) (words : List Word) : Chip :=
  words.zipIdx.foldl (fun c p => match c.regions[j]? with
    | some r => c.regionAdd j (r.shadow a (i + p.2)) p.1
    | none => c) c
/-- The mass of a message taken back into the sender's add array (R249); a region that is gone or broken keeps none. -/
def Chip.takeBack (c : Chip) (gid id : Nat) : Chip :=
  match c.regionByGid gid with
  | none => c
  | some (j, r) => match (tfind r.sent id).orElse fun _ => tfind r.committed id with
    | none => c
    | some (i, words) =>
      let c := if r.st = .broken then c else c.addWords j 2 i words
      c.modRegion j fun q => { q with sent := tdel q.sent id, committed := tdel q.committed id }

/-- A nack to the sender of mass, which takes it back (R249, R252). -/
def Chip.refuseMass (c : Chip) (m : Msg) (gid status : Nat) : Chip :=
  c.post { m with
    frank := ⟨c.pkg, 0, 0, false, 0x7F, none⟩, dest := ⟨m.frank.pkg, .spine⟩, addr := gid, pmark := 0, epoch := 0, body := .nack status }
/-- R249: mass from a neighbour is held pending, or refused with nack status 3. While 4,096 are held it waits. -/
def execGossipMass (n : Nat) (s : State) : Host.Outcome State Fault Refusal :=
  event (fun c => match c.net[n]? with
    | none => none
    | some m => match m.body with
      | .mass gid i words =>
        let ok := match c.regionByGid gid with
          | some (_, r) => r.st != .broken && r.nbr.contains m.frank.pkg && decide (i + words.length ≤ r.n + 1)
          | none => false
        if !ok then some ((c.taken n).refuseMass m gid 3)
        else if 4096 ≤ c.pending.length then none
        else some { c.taken n with pending := c.pending ++ [⟨m.frank.pkg, m.frank.core, m.pmark, gid, i, words⟩] }
      | _ => none) s

/-- The pending mass that a commit or withdrawal names. -/
def Chip.pendingMass (c : Chip) (m : Msg) (pmark : Nat) : Option Pending :=
  c.pending.find? fun p => p.pkg == m.frank.pkg && p.core == m.frank.core && p.pmark == pmark

/-- Whether mass of the same sender still stands before the n-th message in flight. -/
def Chip.massBefore (c : Chip) (n : Nat) (m : Msg) : Bool :=
  (c.net.take n).any fun e => sameSender e m && (match e.body with | .mass .. => true | _ => false)

/-- R210, R249: a commit adds the pending mass into the open arrival half. A region that has broken since gives it back to its
sender: a break drops only what the replica holds (R250, R252). -/
def execGossipCommit (n : Nat) (s : State) : Host.Outcome State Fault Refusal :=
  event (fun c => match c.net[n]? with
    | none => none
    | some m => match m.body with
      | .commit pmark =>
        if c.massBefore n m then none else
        let c := c.taken n
        match c.pendingMass m pmark with
        | none => some c
        | some p =>
          let c := { c with pending := c.pending.erase p }
          match c.regionByGid p.gid with
          | none => some (c.refuseMass m p.gid 3)
          | some (j, r) => some (if r.st = .broken then c.refuseMass m p.gid 3 else c.addWords j r.openHalf p.index p.words)
      | _ => none) s

/-- R210: a withdrawal discards the pending mass. -/
def execGossipWithdrawal (n : Nat) (s : State) : Host.Outcome State Fault Refusal :=
  event (fun c => match c.net[n]? with
    | none => none
    | some m => match m.body with
      | .withdrawal pmark =>
        if c.massBefore n m then none else
        let c := c.taken n
        match c.pendingMass m pmark with
        | none => some c
        | some p => some { c with pending := c.pending.erase p }
      | _ => none) s

end Sys2Proof.Machine
end

