-- ==== Sys2Proof/Machine/HoldQ.lean ====
section
/-! DEFINITION. Holding queues at the spine object agent: their instructions and their stream to the host (R109 to
R112). -/

namespace Sys2Proof.Machine

/-- The number of the queue whose page holds a spine address (R108). -/
def queueNumber (a : Nat) : Nat := a / 2 ^ 16
/-- Held and released tokens not yet streamed (R109). -/
def HoldQueue.occupancy (q : HoldQueue) : Nat := q.nx - 1 - q.sn

/-- R110: `hqput`. -/
def HoldQueue.put (q : HoldQueue) (ga gs : Word) : HoldQueue × Done :=
  if q.vt then (q, .trap 0x13 ga)
  else if q.occupancy = q.cap ∨ q.nx = 0xFFFFFFFF then (q, .ok 0 false)
  else ({ q with tokens := tset q.tokens q.nx (gs.setWidth 32), nx := q.nx + 1 }, .ok (BitVec.ofNat 64 q.nx) false)
/-- R110: `hqpeek` with n = 0, which acknowledges a veto. -/
def HoldQueue.ackVeto (q : HoldQueue) : HoldQueue × Done :=
  ({ q with vt := false }, .ok (BitVec.ofNat 64 (q.vt.toNat * 2 ^ 63 + q.nx)) false)
/-- R110: `hqpeek` with n at least 1. -/
def HoldQueue.peek (q : HoldQueue) (n : Nat) : Done :=
  if q.nx ≤ n then .ok (BitVec.ofNat 64 (2 ^ 62)) false
  else if n ≤ q.rt then .ok (BitVec.ofNat 64 (2 ^ 63)) false
  else .ok ((tget 0 q.tokens n).setWidth 64) false
/-- R110: `hqrel`. -/
def HoldQueue.release (q : HoldQueue) (n : Nat) : HoldQueue × Done :=
  let rt := max q.rt (min n (q.nx - 1))
  ({ q with rt := rt }, .ok (BitVec.ofNat 64 rt) false)
/-- R110: `hqveto`. -/
def HoldQueue.veto (q : HoldQueue) (n : Nat) : HoldQueue × Done :=
  if n = 0 ∨ n ≤ q.rt then (q, .ok 0 false)
  else
    let nx := min q.nx n
    ({ q with tokens := q.tokens.filter (fun p => decide (p.1 < n)), nx := nx, vt := true }, .ok (BitVec.ofNat 64 nx) false)

/-- A holding queue instruction once its checks are passed. -/
def HoldQueue.operate (q : HoldQueue) (op : ObjOp) (ga gs : Word) : HoldQueue × Done :=
  let n := bits gs 31 0
  match op with
  | .hqput => q.put ga gs
  | .hqpeek => if n = 0 then q.ackVeto else (q, q.peek n)
  | .hqrel => q.release n
  | _ => q.veto n
/-- The right of an instruction (R110): produce 16, check 32. -/
def holdRight (op : ObjOp) (gs : Word) : Nat :=
  match op with
  | .hqput => 16
  | .hqpeek => if bits gs 31 0 = 0 then 16 else 32
  | _ => 32

/-- The checks and effects of a holding queue instruction (R110, R112, R388, R398). -/
def Chip.performHq (c : Chip) (m : Msg) (op : ObjOp) (x : Word) : Chip × Done :=
  match c.admitObject m 64 [] with
  | .error st => (c, .refuse st)
  | .ok ctx => match c.entryCheck m ctx 6 (holdRight op x) with
    | .error d => (c, d)
    | .ok _ =>
      let h := queueNumber m.addr
      match (if m.dest.home == .spine then tfind c.hqs h else none) with
      | none => (c, .trap 7 m.va)
      | some q =>
        if q.broken || c.brokenFor q.owner ctx then (c, .trap 0x0C m.va)
        else
          let (q, d) := q.operate op m.va x
          ({ c with hqs := tset c.hqs h q }, d)

/-- A queue whose owner is killed: held tokens go, released ones stay to be streamed (R112). -/
def HoldQueue.break_ (q : HoldQueue) : HoldQueue :=
  { q with broken := true, nx := q.rt + 1, tokens := q.tokens.filter fun p => decide (p.1 ≤ q.rt) }

/-! ## The stream (R111) -/

/-- R111: the next released token goes to its entry of the stream ring, then sn to the count doubleword. -/
def execHqStream (h : Nat) (s : State) : Host.Outcome State Fault Refusal :=
  event (fun c => match tfind c.hqs h with
    | none => none
    | some q =>
      if q.rt ≤ q.sn || decide ((q.sent : Int) ≤ (q.sn : Int) - (q.pqack.toNat : Int)) then none
      else
        let n := q.sn + 1
        let a := q.sring.toNat + 8 * ((n - 1) % q.sent)
        let c := c.writeNat .host a 8 (n + (tget 0 q.tokens n).toNat * 2 ^ 32)
        let c := c.write64 .host q.scount.toNat (BitVec.ofNat 64 n)
        some { c with hqs := tset c.hqs h { q with sn := n, tokens := tdel q.tokens n } }) s

/-- R111: the host writes the last sequence number it has consumed. -/
def execPqackWrite (h : Nat) (v : Word) (s : State) : Host.Outcome State Fault Refusal :=
  event (fun c =>
    if 1024 ≤ h then none
    else match tfind c.hqs h with
      | none => some c
      | some q => some { c with hqs := tset c.hqs h { q with pqack := v } }) s

end Sys2Proof.Machine
end

