-- ==== Sys2Proof/Machine/Barrier.lean ====
section
/-! DEFINITION. Barriers and channels at their homes (R168 to R179). -/

namespace Sys2Proof.Machine

/-! ## Headers -/

/-- Whether the control doubleword of a header is malformed for a kind (R169). -/
def Chip.badCtl (c : Chip) (m : Msg) (kind : Nat) : Bool :=
  let w := c.read64 m.dest.home (m.addr + 16)
  bits w 62 12 != 0 || tst w 7 || tst w 3 || bits w 11 8 != kind || !c.scopeHolds (bits w 2 0) m
/-- brk of a header (R169). -/
def Chip.headerBroken (c : Chip) (h : Home) (a : Nat) : Bool := tst (c.read64 h (a + 16)) 63
/-- Whether a barrier header is malformed (R169 to R171): a broken one holds gen 2^63 - 1. -/
def Chip.badBarrier (c : Chip) (m : Msg) : Bool :=
  let h := m.dest.home
  let a := m.addr
  c.badCtl m 4 || decide (5 < bits (c.read64 h (a + 16)) 6 4) || c.u32 h (a + 8) == 0 || c.read64 h (a + 40) != 0
  || decide ((if c.headerBroken h a then 2 ^ 63 - 1 else 2 ^ 63 - 2) < (c.read64 h a).toNat)
/-- Slots of a channel (R174). -/
def Chip.chanCap (c : Chip) (h : Home) (a : Nat) : Nat := c.u32 h (a + 24)
/-- Whether a channel header is malformed (R169, R174). -/
def Chip.badChannel (c : Chip) (m : Msg) : Bool :=
  let h := m.dest.home
  let a := m.addr
  let cap := c.chanCap h a
  c.badCtl m 5 || bits (c.read64 h (a + 16)) 6 4 != 0 || cap == 0 || decide (4096 < cap) || cap &&& (cap - 1) != 0
  || c.u32 h (a + 28) != 0 || c.read64 h (a + 32) != 0 || c.read64 h (a + 40) != 0

/-- The combine operations (R171). -/
def combine (op : Nat) (x y : Word) : Word :=
  match op with
  | 0 => x + y
  | 1 => if y.slt x then y else x
  | 2 => if x.slt y then y else x
  | 3 => x &&& y
  | 4 => x ||| y
  | _ => x ^^^ y
/-- Their identities (R171). -/
def identity (op : Nat) : Word :=
  match op with
  | 1 => BitVec.ofNat 64 (2 ^ 63 - 1)
  | 2 => BitVec.ofNat 64 (2 ^ 63)
  | 3 => BitVec.allOnes 64
  | _ => 0

/-! ## Participants (R178) -/

/-- The lset word of a request's launch; none for a thread that holds no task (R170, R178). -/
def launchWord (fr : Frank) : Option Word := fr.launch.map fun l => BitVec.ofNat 64 (fr.pkg * 2 ^ 52 + l % 2 ^ 52)

/-- The object listed under a launch (R178): one of this package, or one of another, under its lset word. -/
def Chip.listObject (c : Chip) (m : Msg) : Chip :=
  match m.frank.launch, launchWord m.frank with
  | some l, some w =>
    if m.frank.pkg == c.pkg then
      { c with launches := c.launches.map fun p =>
          if p.1 == l then (p.1, { p.2 with objects := p.2.objects ++ [⟨m.dest, m.addr, none⟩] }) else p }
    else { c with foreign := c.foreign ++ [(w, ⟨m.dest, m.addr, none⟩)] }
  | _, _ => c
/-- Where a listed object's header stands now: none while its page is parked (R193, log 56). -/
def Chip.listedAt (c : Chip) (o : Listed) : Option (Home × Nat) :=
  if o.place.pkg != c.pkg || o.parked.isSome then none else some (o.place.home, o.addr)
/-- A tile's record changed as an object that is listed (R193, R243). -/
def TileRec.moved (t : TileRec) (pkg : Nat) (f : Listed → Listed) : TileRec :=
  let o := f ⟨⟨pkg, t.home⟩, t.addr, t.parked⟩
  { t with home := o.place.home, addr := o.addr, parked := o.parked }
/-- Every listed object changed, and what is known of tiles, as their page moves. -/
def Chip.mapListed (c : Chip) (f : Listed → Listed) : Chip :=
  { c with
    launches := c.launches.map fun p => (p.1, { p.2 with objects := p.2.objects.map f })
    foreign := c.foreign.map fun p => (p.1, f p.2)
    tiles := c.tiles.map fun t => t.moved c.pkg f }
/-- Whether a listed object's header stands in a range of this package's HBM. -/
def Listed.within (o : Listed) (pkg a n : Nat) : Bool :=
  o.place.pkg == pkg && o.parked.isNone && decide (a ≤ o.addr) && decide (o.addr < a + n)
    && (match o.place.home with | .hbm .. => true | _ => false)
/-- The objects listed in a range of HBM follow its page to another place (R190). -/
def Chip.moveListed (c : Chip) (a n pkg pa : Nat) : Chip :=
  c.mapListed fun o => if o.within c.pkg a n then
    { o with place := ⟨pkg, hbmHome (pa + (o.addr - a))⟩, addr := pa + (o.addr - a) } else o
/-- The objects listed in a range of HBM are parked with its page, which a context maps at an address (R193). -/
def Chip.parkListed (c : Chip) (a n ctx va : Nat) : Chip :=
  c.mapListed fun o => if o.within c.pkg a n then { o with parked := some (ctx, va + (o.addr - a)) } else o
/-- The objects parked with a page come back with it (R194). -/
def Chip.restoreListed (c : Chip) (ctx va n pa : Nat) : Chip :=
  c.mapListed fun o => match o.parked with
    | some (x, v) =>
      if x == ctx && decide (va ≤ v) && decide (v < va + n) then
        { place := ⟨c.pkg, hbmHome (pa + (v - va))⟩, addr := pa + (v - va), parked := none } else o
    | none => o
/-- The launch entered into an empty lset slot: none when both hold other launches (R178). -/
def Chip.enterLset (c : Chip) (m : Msg) : Option Chip :=
  match launchWord m.frank with
  | none => some c
  | some w =>
    let h := m.dest.home
    let s0 := c.read64 h (m.addr + 48)
    let s1 := c.read64 h (m.addr + 56)
    if s0 == w || s1 == w then some c
    else if s0 == 0 then some ((c.write64 h (m.addr + 48) w).listObject m)
    else if s1 == 0 then some ((c.write64 h (m.addr + 56) w).listObject m)
    else none

/-! ## The instructions at the home -/

/-- R172: `bar` and `barv` (v with its value). -/
def Chip.arriveBarrier (c : Chip) (h : Home) (a : Nat) (v : Option Word) : Chip × Done :=
  if c.headerBroken h a then (c, .ok (BitVec.allOnes 64) false)
  else
    let ctl := c.read64 h (a + 16)
    let op := bits ctl 6 4
    let g := c.read64 h a
    let arr := (c.u32 h (a + 12) + 1) % 2 ^ 32
    let acc := match v with | some x => combine op (c.read64 h (a + 24)) x | none => c.read64 h (a + 24)
    let c := if v.isSome then c.write64 h (a + 24) acc else c
    if arr = c.u32 h (a + 8) then
      let c := ((c.write64 h (a + 32) acc).write64 h (a + 24) (identity op)).writeNat h (a + 12) 4 0
      if g.toNat = 2 ^ 63 - 2 then ((c.write64 h (a + 16) (putBits ctl 63 63 1)).write64 h a (g + 1), .ok g false)
      else (c.write64 h a (g + 1), .ok g false)
    else (c.writeNat h (a + 12) 4 arr, .ok g false)

/-- R172: `bwait`, a signed compare. -/
def Chip.waitBarrier (c : Chip) (h : Home) (a : Nat) (gs : Word) : Done :=
  if c.headerBroken h a then .ok 0 false
  else if (c.read64 h a).sle gs then .hold
  else .ok 0 true

/-- The place of a channel's slot: for a virtual header the address behind it, as the requester's context maps it, and
for a request from another package the physical address behind the header (R174, log 15). -/
def Chip.slotPlace (c : Chip) (m : Msg) (ctx i : Nat) : Except Done (Home × Nat) :=
  let off := 64 + 8 * i
  match m.dest.home with
  | .core k => .ok (.core k, m.addr + off)
  | h =>
    if m.frank.pkg != c.pkg then .ok (hbmHome (m.addr + off), m.addr + off)
    else
      let va := m.va + BitVec.ofNat 64 off
      match c.translateNow (sigOf m.frank.core) ctx m.frank.sup va .r false with
      | .error k => .error (.trap k va)
      | .ok p => .ok (if p.loc == 0 then hbmHome p.pa else h, p.pa)

/-- R175: `chsend`. -/
def Chip.sendChannel (c : Chip) (m : Msg) (ctx : Nat) (gs : Word) : Chip × Done :=
  let h := m.dest.home
  let a := m.addr
  let tl := c.read64 h a
  let cap := c.chanCap h a
  if c.headerBroken h a then (c, .ok 0 false)
  else if (tl - c.read64 h (a + 8)).toNat = cap then (c, .hold)
  else match c.slotPlace m ctx (tl.toNat % cap) with
    | .error d => (c, d)
    | .ok (sh, sa) => ((c.write64 sh sa gs).write64 h a (tl + 1), .ok 0 true)
/-- R175: `chrecv`. -/
def Chip.receiveChannel (c : Chip) (m : Msg) (ctx : Nat) : Chip × Done :=
  let h := m.dest.home
  let a := m.addr
  let hd := c.read64 h (a + 8)
  let cap := c.chanCap h a
  if c.headerBroken h a then (c, .ok 0 false)
  else if c.read64 h a = hd then (c, .hold)
  else match c.slotPlace m ctx (hd.toNat % cap) with
    | .error d => (c, d)
    | .ok (sh, sa) =>
      if c.poisonAt sh sa 8 then (c, .refuse 4)
      else (c.write64 h (a + 8) (hd + 1), .ok (c.read64 sh sa) true)

/-- One of the five instructions, once its checks are passed. -/
def Chip.syncOp (c : Chip) (m : Msg) (ctx : Nat) (op : ObjOp) (x : Word) : Chip × Done :=
  match op with
  | .bar => c.arriveBarrier m.dest.home m.addr none
  | .barv => c.arriveBarrier m.dest.home m.addr (some x)
  | .bwait => (c, c.waitBarrier m.dest.home m.addr x)
  | .chsend => c.sendChannel m ctx x
  | _ => c.receiveChannel m ctx

/-- A barrier or channel instruction with its launch entered into lset (R178); one that traps or is refused, at last because the
waiter table has no room for it (R176), has entered nothing (R388). -/
def Chip.enteredOp (c : Chip) (m : Msg) (ctx : Nat) (op : ObjOp) (x : Word) : Chip × Done :=
  match c.enterLset m with
  | none => (c, .trap 0x0B m.va 6)
  | some c' =>
    let r := c'.syncOp m ctx op x
    match r.2 with
    | .answer (.ok ..) => r
    | .hold => if (c.waitersAt m.dest.home).length < waiterRoom m.dest.home then r else (c, .hold)
    | d => (c, d)
/-- The checks and effects of a barrier or channel instruction at its home (R168, R172, R175, R178, R388). A broken one answers
as R179 lays down, whatever its header holds besides. -/
def Chip.performSync (c : Chip) (m : Msg) (op : ObjOp) (x : Word) : Chip × Done :=
  let barrier := op == .bar || op == .barv || op == .bwait
  let h := m.dest.home
  let n := 64 + (if barrier then 0 else 8 * c.chanCap h m.addr)
  let right := match op with | .bar | .barv => 2 | .chsend => 16 | _ => 1
  match c.admitObject m (match h with | .core _ => n | _ => 64) [62, 61] with
  | .error st => (c, .refuse st)
  | .ok ctx =>
    let entry := match h with
      | .core _ => if Config.dataEnd < m.addr + n then some (Done.trap 4 (BitVec.ofNat 64 m.addr)) else none
      | _ => match c.entryCheck m ctx (if barrier then 4 else 5) right with | .error d => some d | .ok _ => none
    match entry with
    | some d => (c, d)
    | none =>
      if c.poisonAt h m.addr 64 then (c, .refuse 4)
      else if c.headerBroken h m.addr then c.syncOp m ctx op x
      else if (if barrier then c.badBarrier m else c.badChannel m) then (c, .trap 0x0C m.va)
      else c.enteredOp m ctx op x

/-! ## Breaking (R179) -/

/-- The break of a barrier or channel at its home: brk, and for a barrier gen 2^63 - 1. The waiters are woken by the
retest that follows. -/
def Chip.breakHeader (c : Chip) (h : Home) (a : Nat) : Chip :=
  let ctl := c.read64 h (a + 16)
  let c := c.write64 h (a + 16) (putBits ctl 63 63 1)
  if bits ctl 11 8 = 4 then c.write64 h a (BitVec.ofNat 64 (2 ^ 63 - 1)) else c
/-- Whether a header's lset holds a launch. -/
def Chip.inLset (c : Chip) (h : Home) (a : Nat) (w : Word) : Bool := c.read64 h (a + 48) == w || c.read64 h (a + 56) == w
/-- A launch's slot cleared in an object (R178). -/
def Chip.clearLset (c : Chip) (h : Home) (a : Nat) (w : Word) : Chip :=
  let c := if c.read64 h (a + 48) == w then c.write64 h (a + 48) 0 else c
  if c.read64 h (a + 56) == w then c.write64 h (a + 56) 0 else c

end Sys2Proof.Machine
end

