-- ==== Sys2Proof/Machine/Tile.lean ====
section
/-! DEFINITION. Versioned tiles at their homes (R234 to R243). -/

namespace Sys2Proof.Machine

/-! ## The header (R234, R235) -/

/-- version -/
def Chip.tileVersion (c : Chip) (h : Home) (a : Nat) : Nat := c.u32 h a
/-- state: open 0, final 1, stopped 2, settled 3. -/
def Chip.tileState (c : Chip) (h : Home) (a : Nat) : BitVec 8 := BitVec.ofNat 8 (c.readNat h (a + 4) 1)
/-- The state byte written. -/
def Chip.setTileState (c : Chip) (h : Home) (a : Nat) (v : BitVec 8) : Chip := c.writeNat h (a + 4) 1 v.toNat
/-- The settle word's operand. -/
def Chip.settleWord (c : Chip) (h : Home) (a : Nat) : Word := c.read64 h (a + 8)

/-- Doubleword 0 of slot n (R235). -/
def Chip.slotHead (c : Chip) (h : Home) (a n : Nat) : Word := c.read64 h (a + 16 + 16 * n)
/-- Doubleword 1 of slot n: sv above dv. -/
def Chip.slotVers (c : Chip) (h : Home) (a n : Nat) : Word := c.read64 h (a + 24 + 16 * n)
/-- Doubleword 0 written. -/
def Chip.setSlot (c : Chip) (h : Home) (a n : Nat) (w : Word) : Chip := c.write64 h (a + 16 + 16 * n) w
/-- Doubleword 1 written. -/
def Chip.setVers (c : Chip) (h : Home) (a n : Nat) (w : Word) : Chip := c.write64 h (a + 24 + 16 * n) w
/-- v of a slot. -/
def slotUsed (w : Word) : Bool := tst w 63
/-- A finishing consumer that runs holds the producer (R237, R240). -/
def slotHolds (w : Word) : Bool := tst w 63 && tst w 62 && tst w 61
/-- The consumer that a slot names: package, core, counter (R235). -/
def slotConsumer (w : Word) : Nat × Nat × Nat := (bits w 45 34, bits w 33 19, bits w 17 0)

/-- Whether the reserved fields of a header are zero and its settle word is one (R234, R235). -/
def Chip.tileShape (c : Chip) (h : Home) (a : Nat) : Bool :=
  let w := c.read64 h a
  let s := c.settleWord h a
  bits w 39 36 == 0 && bits w 47 40 == 0 && bits w 55 51 == 0 && bits w 63 56 == 0
  && s.toNat % 8 == 0 && !(tst s 63 && refBad s)
  && (List.range 3).all fun n => bits (c.slotHead h a n) 59 46 == 0 && !tst (c.slotHead h a n) 18
/-- A malformed header (R234, R235). -/
def Chip.badTile (c : Chip) (m : Msg) : Bool :=
  !c.tileShape m.dest.home m.addr || !c.scopeHolds (bits (c.read64 m.dest.home m.addr) 50 48) m

/-! ## What the home knows of a tile -/

/-- The record of a tile, if an instruction has named it. -/
def Chip.tileAt (c : Chip) (h : Home) (a : Nat) : Option TileRec := c.tiles.find? fun t => t.parked.isNone && t.home == h && t.addr == a
/-- The record changed, or made. -/
def Chip.modTile (c : Chip) (h : Home) (a : Nat) (f : TileRec → TileRec) : Chip :=
  match c.tileAt h a with
  | some _ => { c with tiles := c.tiles.map fun t => if t.parked.isNone && t.home == h && t.addr == a then f t else t }
  | none => { c with tiles := c.tiles ++ [f ⟨h, a, none, false, [], none⟩] }
/-- The tile's owner (R234): of a virtual header the one that rights entries name, of a scratchpad header the context of
the launch that reserves its offset; a broken tile keeps the one whose kill broke it (R243). -/
def Chip.tileOwner (c : Chip) (h : Home) (a : Nat) : Option Nat :=
  let now := match h with
    | .core k => c.padOwner k a
    | _ => c.entryOwner 2 a
  match c.tileAt h a with
  | some t => if t.broken then t.owner else now
  | none => now
/-- Whether a tile is broken. -/
def Chip.tileBroken (c : Chip) (h : Home) (a : Nat) : Bool := match c.tileAt h a with | some t => t.broken | none => false
/-- Whether a tile is broken for a context (R86, R243): for all but its owner's. -/
def Chip.tileBrokenFor (c : Chip) (h : Home) (a ctx : Nat) : Bool :=
  (c.tileBroken h a && c.tileOwner h a != some ctx) || (c.tileOwner h a).any fun w => c.brokenFor w ctx
/-- A tile's record as an instruction finds it, by a rights entry that names an owner where there is one (R234). A broken tile is
made anew by another owner, or by plain stores that have taken its final bit (DESIGN CHOICE, log 84). -/
def TileRec.named (t : TileRec) (o : Option Nat) (final : Bool) : TileRec :=
  if !t.broken then { t with owner := o }
  else if final && (o.isNone || t.owner == o) then t
  else { t with owner := o, broken := false, subs := [] }

/-! ## Notices and settling -/

/-- The franking of a message that a home sends on its own behalf, without the supervisor bit (R265). A memory agent's counts as sent
by core 0, among whose requests it keeps its place (DESIGN CHOICE, log 85). -/
def Chip.homeFrank (c : Chip) (h : Home) : Frank := ⟨c.pkg, match h with | .core k => k | _ => 0, 0, false, 0x7F, none⟩
/-- R236: a notice of version n to a consumer; a broken tile sends none (R243). -/
def Chip.sendNotice (c : Chip) (h : Home) (a : Nat) (dst : Nat × Nat × Nat) (n : Nat) : Chip :=
  if c.tileBroken h a then c
  else c.post ⟨0, c.homeFrank h, ⟨dst.1, .core dst.2.1⟩, dst.2.2, 0, scopeOf (bits (c.read64 h a) 50 48), 0, none, 0, 0,
    .notice dst.2.2 n, none, false⟩

/-- A settle word at its home: counted down by 1 (R241), or at a break written as -2^63 (R243). A poisoned one is not counted
(log 64). -/
def Chip.settleAt (c : Chip) (h : Home) (a : Nat) (brk : Bool) : Chip :=
  if brk then c.write64 h a (BitVec.ofNat 64 (2 ^ 63))
  else if c.poisonAt h a 8 then c
  else c.write64 h a (c.read64 h a - 1)
/-- The settle word reached (R241): a virtual one by the owner's tables, a scratchpad one by a message unless the tile
stands on that core itself. One that cannot be reached loses its count-down. One on a page that is being moved is sent there, for
its new home (R190). -/
def Chip.settle (c : Chip) (h : Home) (a : Nat) (brk : Bool) : Chip :=
  let w := c.settleWord h a
  let send := fun (ctx : Nat) (p : Place) (x : Nat) => c.post ⟨0, { c.homeFrank h with ctx := ctx }, p, x, w,
    scopeOf (bits (c.read64 h a) 50 48), 0, none, 0, 0, .settle brk, none, false⟩
  if w == 0 then c
  else if tst w 63 then
    let p : Place := ⟨refPkg w, .core (refCore w)⟩
    if Config.dataEnd < refOff w + 8 then c
    else if p == ⟨c.pkg, h⟩ then c.settleAt h (refOff w) brk
    else send 0 p (refOff w)
  else match c.tileOwner h a with
    | none => c
    | some o =>
      if bits w 63 57 != 0 then c
      else match c.placeIn o w with
        | none => c
        | some p =>
          if !leafRights p.leaf .w false then c
          else if p.loc == 0 then
            if !installed p.pa 8 then c
            else if c.isShut p.pa 8 then send o (c.placeOf p) p.pa
            else c.settleAt (hbmHome p.pa) p.pa brk
          else if p.loc == 2 then c.settleAt .host p.pa brk
          else send o (c.placeOf p) p.pa

/-- Whether a tile has come to settle (R241). -/
def Chip.settles (c : Chip) (h : Home) (a : Nat) : Bool :=
  let st := c.tileState h a
  !tst st 3 && tst st 1 && !tst st 0 && (List.range 3).all fun n =>
    let w := c.slotHead h a n
    !slotUsed w || (!tst w 61 && !tst w 60 && bits (c.slotVers h a n) 31 0 == c.tileVersion h a)
/-- The test that follows every instruction on a tile (R241). A broken tile does not count down again (R243). -/
def Chip.testSettle (c : Chip) (h : Home) (a : Nat) : Chip :=
  if c.settles h a then
    let c := c.setTileState h a (c.tileState h a ||| 8)
    if c.tileBroken h a then c else c.settle h a false
  else c

/-! ## The instructions at the home -/

/-- status of R237. -/
def Chip.tileStatus (c : Chip) (h : Home) (a : Nat) : Word :=
  BitVec.ofNat 64 (2 ^ 63 + (tst (c.tileState h a) 2).toNat * 2 ^ 62 + c.tileVersion h a)
/-- final -/
def Chip.tileFinal (c : Chip) (h : Home) (a : Nat) : Bool := tst (c.tileState h a) 1

/-- R237: `verpub.o`. -/
def Chip.openTile (c : Chip) (h : Home) (a : Nat) : Chip × Done :=
  if c.tileFinal h a then (c, .ok (c.tileStatus h a) false)
  else if (List.range 3).any fun n => slotHolds (c.slotHead h a n) then (c, .hold)
  else (c.setTileState h a (c.tileState h a ||| 1), .ok (BitVec.ofNat 64 (c.tileVersion h a)) false)

/-- One slot at a publish: held, or a notice (R237). -/
def Chip.publishTo (c : Chip) (h : Home) (a v n : Nat) : Chip :=
  let w := c.slotHead h a n
  if !slotUsed w then c
  else if slotHolds w then c.setSlot h a n (putBits w 60 60 1)
  else c.sendNotice h a (slotConsumer w) v
/-- R237: `verpub` and `verpub.fin`. -/
def Chip.publish (c : Chip) (h : Home) (a : Nat) (fin : Bool) : Chip × Done :=
  if c.tileFinal h a then (c, .ok (c.tileStatus h a) false)
  else
    let v := c.tileVersion h a + 1
    let st := putBits (c.tileState h a) 0 0 0
    let c := (c.writeNat h a 4 v).setTileState h a (if fin || v == 0xFFFFFFFF then st ||| 2 else st)
    ((List.range 3).foldl (fun c n => c.publishTo h a v n) c, .ok (BitVec.ofNat 64 v) false)
/-- R237: `verstop`. -/
def Chip.stopTile (c : Chip) (h : Home) (a : Nat) : Chip × Done :=
  if c.tileFinal h a then (c, .ok (c.tileStatus h a) false)
  else (c.setTileState h a (putBits (c.tileState h a) 0 0 0 ||| 6), .ok (BitVec.ofNat 64 (c.tileVersion h a)) false)

/-- The slot in use that names a consumer (R238, R239). -/
def Chip.slotOf (c : Chip) (h : Home) (a : Nat) (who : Nat × Nat × Nat) : Option Nat :=
  (List.range 3).find? fun n => slotUsed (c.slotHead h a n) && slotConsumer (c.slotHead h a n) == who
/-- R238: `verwait`. -/
def Chip.subscribe (c : Chip) (m : Msg) (ctx : Nat) (gs : Word) : Chip × Done :=
  let h := m.dest.home
  let a := m.addr
  let v := c.tileVersion h a
  let ctr := bits gs 17 0
  let who := (m.frank.pkg, m.frank.core, ctr)
  if ctr % 8 != 0 || decide (Config.dataEnd ≤ ctr) then (c, .trap 4 (BitVec.ofNat 64 ctr))
  else if bits gs 61 18 != 0 || tst gs 63 then (c, .trap 0x0C m.va)
  else if tst (c.tileState h a) 3 then (c.sendNotice h a who v, .ok (BitVec.ofNat 64 (2 ^ 62 + v)) false)
  else match (c.slotOf h a who).orElse fun _ => (List.range 3).find? fun n => !slotUsed (c.slotHead h a n) with
    | none => (c, .ok (BitVec.ofNat 64 (2 ^ 63 + v)) false)
    | some n =>
      let old := c.slotHead h a n
      let c := if slotUsed old then c.setSlot h a n (putBits old 62 62 (bits gs 62 62))
        else (c.setVers h a n 0).setSlot h a n
          (BitVec.ofNat 64 (2 ^ 63 + bits gs 62 62 * 2 ^ 62 + m.frank.pkg * 2 ^ 34 + m.frank.core * 2 ^ 19 + ctr))
      let c := c.modTile h a fun t => { t with subs := tset t.subs n (ctx, who) }
      (if 0 < v then c.sendNotice h a who v else c, .ok (BitVec.ofNat 64 v) false)
/-- R239: `verchk`. -/
def Chip.checkTile (c : Chip) (h : Home) (a n v : Nat) : Chip × Done :=
  let w := c.slotHead h a n
  if c.tileVersion h a = v ∧ tst (c.tileState h a) 0 = false then
    ((c.setSlot h a n (putBits w 61 61 1)).setVers h a n (putBits (c.slotVers h a n) 63 32 v), .ok 0 true)
  else (c.setSlot h a n (putBits w 61 61 0), .ok 0 false)
/-- The deferred notice that a `verchk.d` releases: it goes ahead of the answer to that request (R240), under its id. -/
def Chip.releaseNotice (c : Chip) (m : Msg) (dst : Nat × Nat × Nat) (n : Nat) : Chip :=
  let h := m.dest.home
  if c.tileBroken h m.addr then c
  else c.post ⟨m.id, { c.homeFrank h with core := (match h with | .core k => k | _ => m.frank.core) }, ⟨dst.1, .core dst.2.1⟩, dst.2.2, 0,
    scopeOf (bits (c.read64 h m.addr) 50 48), 0, none, 0, 0, .notice dst.2.2 n, none, false⟩
/-- R239: `verchk.d`. -/
def Chip.finishTile (c : Chip) (m : Msg) (n v : Nat) : Chip × Done :=
  let h := m.dest.home
  let a := m.addr
  let w := c.slotHead h a n
  let c := (c.setVers h a n (putBits (c.slotVers h a n) 31 0 v)).setSlot h a n (putBits w 61 60 0)
  let c := if tst w 60 then c.releaseNotice m (slotConsumer w) (c.tileVersion h a) else c
  (c, .ok 0 (c.tileVersion h a == v && c.tileFinal h a))

/-- A tile instruction once its checks are passed. -/
def Chip.tileOp (c : Chip) (m : Msg) (ctx : Nat) (op : ObjOp) (x : Word) : Chip × Done :=
  let h := m.dest.home
  let a := m.addr
  match op with
  | .verpub => c.publish h a false
  | .verpubFin => c.publish h a true
  | .verpubO => c.openTile h a
  | .verstop => c.stopTile h a
  | .verwait => c.subscribe m ctx x
  | _ =>
    if bits x 63 50 != 0 then (c, .trap 0x0C m.va)
    else match c.slotOf h a (m.frank.pkg, m.frank.core, bits x 49 32) with
      | none => (c, .trap 7 m.va)
      | some n => if op == .verchk then c.checkTile h a n (bits x 31 0) else c.finishTile m n (bits x 31 0)

/-- The checks and effects of a tile instruction at its home (R234, R388, R395), and the settling that may follow. -/
def Chip.performTile (c : Chip) (m : Msg) (op : ObjOp) (x : Word) : Chip × Done :=
  let h := m.dest.home
  let a := m.addr
  match c.admitObject m 64 [62, 61] with
  | .error st => (c, .refuse st)
  | .ok ctx =>
    let right := match op with | .verwait => 4 | .verchk | .verchkD => 5 | _ => 2
    let owner : Except Done (Option Nat) := match h with
      | .core _ => .ok none
      | _ => (c.entryCheck m ctx 2 right).map fun e => some e.owner
    match owner with
    | .error d => (c, d)
    | .ok o =>
      let c := c.modTile h a (TileRec.named · o (c.tileFinal h a))
      if c.tileBrokenFor h a ctx then (c, .trap 0x0C m.va)
      else if c.poisonAt h a 64 then (c, .refuse 4)
      else if c.badTile m then (c, .trap 0x0C m.va)
      else
        let (c, d) := c.tileOp m ctx op x
        (c.testSettle h a, d)

/-- R242: `versettle` (w) and `versettle.t` on a settle word. -/
def Chip.testWord (c : Chip) (h : Home) (a : Nat) (w : Bool) : Done :=
  let v := c.read64 h a
  if v == 0 then .ok 0 true
  else if v.slt 0 then .ok 0 false
  else if w then .hold else .ok 0 false
/-- R242: no rights entry; a window that grants get on another core. -/
def Chip.performSettle (c : Chip) (m : Msg) (w : Bool) : Chip × Done :=
  match c.admitObject m 8 [62] with
  | .error st => (c, .refuse st)
  | .ok _ => if c.poisonAt m.dest.home m.addr 8 then (c, .refuse 4) else (c, c.testWord m.dest.home m.addr w)

/-! ## Breaking and clean-up (R243) -/

/-- Whether memory at a place can be a tile's header, whose scope code is one of R114's. -/
def Chip.tileThere (c : Chip) (h : Home) (a : Nat) : Bool :=
  let scope := bits (c.read64 h a) 50 48
  c.tileShape h a && scope != 0 && decide (scope ≤ 6)
/-- A tile broken by the kill of its owner, once: final set, open cleared, its settle word written by the owner's tables. Memory
that holds no header any more is left alone. -/
def Chip.breakTile (c : Chip) (h : Home) (a owner : Nat) : Chip :=
  if (c.tileBroken h a && c.tileFinal h a) || !c.tileThere h a then c
  else
    let c := c.modTile h a fun t => { t with owner := some owner }
    let c := c.setTileState h a (putBits (c.tileState h a) 0 0 0 ||| 2)
    let c := c.settle h a true
    c.modTile h a fun t => { t with broken := true }

/-- The slots of a context that closes, cleared where they still name its consumers, and the test of R241 after it. -/
def Chip.dropSubscriber (c : Chip) (h : Home) (a ctx : Nat) : Chip :=
  match c.tileAt h a with
  | none => c
  | some t =>
    let mine := t.subs.filter fun p => p.2.1 == ctx
    let live := mine.filter fun p => slotUsed (c.slotHead h a p.1) && slotConsumer (c.slotHead h a p.1) == p.2.2
    let c := live.foldl (fun c p => (c.setSlot h a p.1 0).setVers h a p.1 0) c
    let c := c.modTile h a fun t => { t with subs := t.subs.filter fun p => p.2.1 != ctx }
    if live.isEmpty then c else c.testSettle h a

end Sys2Proof.Machine
end

