-- ==== Sys2Proof/Machine/MeshData.lean ====
section
/-! DEFINITION. The mesh object's data: descriptor, records, handles, free lists, fields (R213 to R221), and the state in
which a mesh instruction computes what it will write. -/

namespace Sys2Proof.Machine

/-! ## Who acts, and the computation's state -/

/-- A mesh instruction's party: the context it acts in, its privilege, its signature's cache, the descriptor's address in
that context and as the instruction names it, and the owner value of a claim word (R221). -/
structure Who where
  ctx : Nat
  sup : Bool
  sig : Nat
  ga : Word
  named : Word
  me : Nat
  deriving DecidableEq, Repr

/-- The party of a request. -/
def whoOf (m : Msg) (ctx : Nat) (base : Word) : Who :=
  ⟨ctx, m.frank.sup, sigOf m.frank.core, base, m.va, m.frank.pkg * 2 ^ 22 + m.frank.core * 2 ^ 7 + m.frank.frame⟩

/-- A 32-byte element record (R214). -/
structure Rec where
  claim : Word
  gen : Nat
  flags : Nat
  link : Nat
  b0 : Nat
  b1 : Nat
  b2 : Nat
  b3 : Nat
  deriving DecidableEq, Repr

/-- The package with what an edit has computed but not yet written: records by kind and index, and free-list heads. -/
structure Work where
  c : Chip
  recs : Tab Rec
  free : List Nat
  deriving DecidableEq, Repr

/-- A mesh computation; what stops it is the instruction's end. -/
abbrev Q := EStateM Done Work

/-- Stop with a trap. -/
def meshTrap {α : Type} (cause : Nat) (eaddr : Word) : Q α := throw (.trap cause eaddr)
/-- Stop with a trap if a condition holds. -/
def meshTrapIf (b : Bool) (cause : Nat) (eaddr : Word) : Q Unit := if b then meshTrap cause eaddr else pure ()

/-! ## Memory as the mesh sees it -/

/-- A translation of the party (R225, R388). One for a write on a page that is sealed or has moved ends the instruction page-moved
(R190). -/
def Who.phys (w : Who) (va : Word) (need : Need) : Q Phys := do
  let x ← get
  match x.c.translateNow w.sig w.ctx w.sup va need false with
  | .error k => meshTrap k va
  | .ok p => if need == .w && x.c.physShut p 1 then throw (.refuse 2) else pure p
/-- Bytes at a virtual address: page-moved and poisoned data end the instruction (R191, R387). -/
def Who.bytes (w : Who) (va : Word) (n : Nat) : Q (List Byte) := do
  let p ← w.phys va .r
  let x ← get
  if x.c.physShut p n then throw (.refuse 2)
  if x.c.physBad p n then throw (.refuse 4)
  pure (x.c.readPhys p n)
/-- Bytes written at a translated place; another package's memory as this one reads it (log 8). -/
def Chip.writeAt (c : Chip) (p : Phys) (b : List Byte) : Chip :=
  match p.loc with
  | 0 => c.writeHome (hbmHome p.pa) p.pa b
  | 1 => { c with far := wrBytes c.far (bits p.leaf 63 52 * 2 ^ 52 + p.pa) b }
  | _ => c.writeHome .host p.pa b

/-! ## The descriptor (R213, R219) -/

/-- A field descriptor (R219). -/
structure MField where
  v : Bool
  kind : Nat
  type : Nat
  rule : Nat
  base : Nat
  bad : Bool
  deriving DecidableEq, Repr

/-- Bytes of a field's type. -/
def fieldBytes (t : Nat) : Nat := match t with | 1 => 2 | 3 => 8 | _ => 4

/-- The descriptor. -/
structure Mesh where
  mid : Nat
  dim : Nat
  rounded : Bool
  nfld : Nat
  base : List Nat
  cap : List Nat
  free : List Nat
  pbase : Nat
  pcap : Nat
  pn : Nat
  round : Nat
  fields : List MField
  bad : Bool
  deriving DecidableEq, Repr

/-- An empty list's head, and a half-edge without a twin (R213, R214). -/
def noIndex : Nat := 0xFFFFFFFF

/-- Field descriptor j of a descriptor's bytes; those at nfld and above are zero (R213, R219). -/
def mfieldOf (b : List Byte) (nfld j : Nat) : MField :=
  let o := 128 + 16 * j
  let b0 := field b o 1
  let t := field b (o + 1) 1
  let base := field b (o + 8) 8
  let v := decide (128 ≤ b0)
  ⟨v, b0 % 4, t, field b (o + 2) 1, base,
   if nfld ≤ j then !zeroBytes b o 16
   else b0 / 4 % 32 != 0 || !zeroBytes b (o + 3) 5
     || b0 % 4 == 3 || decide (3 < t) || decide (4 < field b (o + 2) 1) || base % fieldBytes t != 0⟩

/-- The descriptor of 256 bytes, and whether a field is outside its limits (R213). -/
def meshOf (b : List Byte) : Mesh :=
  let nfld := field b 4 1
  let rounded := field b 3 1 % 2 == 1
  let base := (List.range 4).map fun k => field b (8 + 8 * k) 8
  let cap := (List.range 4).map fun k => field b (40 + 4 * k) 4
  let free := (List.range 4).map fun k => field b (56 + 4 * k) 4
  let pbase := field b 72 8
  let pcap := field b 80 2
  let fields := (List.range 8).map (mfieldOf b nfld)
  ⟨field b 0 2, field b 2 1, rounded, nfld, base, cap, free, pbase, pcap, field b 82 2, field b 84 4, fields,
   decide (4095 < field b 0 2) || !(field b 2 1 == 2 || field b 2 1 == 3) || decide (1 < field b 3 1) || decide (8 < nfld)
   || !zeroBytes b 5 3 || !zeroBytes b 88 40 || base.any (· % 64 != 0)
   || cap.any (fun n => n == 0 || n == noIndex)
   || (free.zip cap).any (fun p => p.1 != noIndex && decide (p.2 ≤ p.1))
   || (if rounded then pbase % 64 != 0 || pcap == 0 else pbase != 0 || pcap != 0)
   || fields.any (·.bad)⟩

/-- The descriptor of a party's mesh. -/
def Who.mesh (w : Who) : Q Mesh := do
  let a ← w.bytes w.ga 64
  let b ← w.bytes (w.ga + 64) 64
  let c ← w.bytes (w.ga + 128) 64
  let d ← w.bytes (w.ga + 192) 64
  pure (meshOf (a ++ b ++ c ++ d))

/-! ## Records and handles (R214, R216, R217) -/

/-- The address of record i of kind k. -/
def Mesh.recAddr (s : Mesh) (k i : Nat) : Word := BitVec.ofNat 64 (s.base.getD k 0 + 32 * i)
/-- The key of a record in the computation. -/
def recKey (k i : Nat) : Nat := k * 2 ^ 32 + i
/-- A record as 32 bytes hold it. -/
def recOf (b : List Byte) : Rec :=
  ⟨BitVec.ofNat 64 (field b 0 8), field b 8 2, field b 10 1, field b 12 4, field b 16 4, field b 20 4, field b 24 4,
   field b 28 4⟩
/-- The 32 bytes of a record. -/
def recBytes (r : Rec) : List Byte :=
  toLe 8 r.claim.toNat ++ toLe 2 r.gen ++ toLe 1 r.flags ++ [0] ++ toLe 4 r.link ++ toLe 4 r.b0 ++ toLe 4 r.b1 ++ toLe 4 r.b2
    ++ toLe 4 r.b3
/-- A record: as computed so far, else as memory holds it. -/
def Mesh.getRec (s : Mesh) (w : Who) (k i : Nat) : Q Rec := do
  let x ← get
  match tfind x.recs (recKey k i) with
  | some r => pure r
  | none => do let b ← w.bytes (s.recAddr k i) 32; pure (recOf b)
/-- A record computed. -/
def putRec (k i : Nat) (r : Rec) : Q Unit := modify fun x => { x with recs := tset x.recs (recKey k i) r }
/-- A record changed. -/
def Mesh.modRec (s : Mesh) (w : Who) (k i : Nat) (f : Rec → Rec) : Q Unit := do
  let r ← s.getRec w k i
  putRec k i (f r)

/-- A handle (R216). -/
def Mesh.handle (s : Mesh) (k i gen : Nat) : Word := BitVec.ofNat 64 (s.mid * 2 ^ 52 + k * 2 ^ 50 + gen * 2 ^ 32 + i)
/-- The kind and the index of a handle. -/
def handleKind (h : Word) : Nat := bits h 51 50
/-- The slot index of a handle. -/
def handleIndex (h : Word) : Nat := bits h 31 0
/-- Whether a handle is of this mesh and names a slot of it (R217). -/
def Mesh.formed (s : Mesh) (h : Word) : Bool :=
  bits h 63 52 == s.mid && bits h 49 48 == 0 && decide (handleIndex h < s.cap.getD (handleKind h) 0)
/-- The record that a handle names, none when it is stale (R217). -/
def Mesh.named (s : Mesh) (w : Who) (h : Word) : Q (Option Rec) := do
  if !s.formed h then pure none
  else
    let r ← s.getRec w (handleKind h) (handleIndex h)
    pure (if r.flags % 2 == 1 && r.gen == bits h 47 32 then some r else none)
/-- The record a handle names, or trap 0x08 (R217). -/
def Mesh.live (s : Mesh) (w : Who) (h : Word) : Q Rec := do
  match ← s.named w h with
  | some r => pure r
  | none => meshTrap 8 h

/-- st of a claim word (R221). -/
def claimSt (w : Word) : Nat := bits w 63 62
/-- A claim word of an immediate edit or `mclaim` (R221). -/
def claimOne (me : Nat) : Word := BitVec.ofNat 64 (2 ^ 62 + me)

/-! ## Free lists (R218) -/

/-- Whether a free list holds n slots (R225). -/
def Mesh.hasRoom (s : Mesh) (w : Who) (k : Nat) : Nat → Nat → Q Bool
  | 0, _ => pure true
  | n + 1, i => do
    if i == noIndex || decide (s.cap.getD k 0 ≤ i) then pure false
    else
      let r ← s.getRec w k i
      Mesh.hasRoom s w k n r.link
/-- Whether every list has the room that an edit needs. -/
def Mesh.room (s : Mesh) (w : Who) (need : List Nat) : Q Bool := do
  let x ← get
  let mut ok := true
  for k in [0, 1, 2, 3] do
    let b ← s.hasRoom w k (need.getD k 0) (x.free.getD k noIndex)
    ok := ok && b
  pure ok
/-- A slot taken from the head of its list: it keeps its gen, and its claim word is zero. -/
def Mesh.alloc (s : Mesh) (w : Who) (k : Nat) : Q Nat := do
  let x ← get
  let i := x.free.getD k noIndex
  let r ← s.getRec w k i
  modify fun x => { x with free := x.free.set k r.link }
  putRec k i { r with claim := 0, flags := 1, link := 0, b0 := 0, b1 := 0, b2 := 0, b3 := 0 }
  pure i
/-- A slot retired; one whose gen reaches 0xFFFF is never listed again. -/
def Mesh.retire (s : Mesh) (w : Who) (k i : Nat) : Q Unit := do
  let r ← s.getRec w k i
  let x ← get
  let gen := (r.gen + 1) % 2 ^ 16
  if gen == 0xFFFF then putRec k i { r with flags := r.flags / 2 * 2, gen := gen }
  else
    putRec k i { r with flags := r.flags / 2 * 2, gen := gen, link := x.free.getD k noIndex }
    modify fun x => { x with free := x.free.set k i }

/-! ## Half-edges -/

/-- next of a half-edge. -/
def Mesh.next (s : Mesh) (w : Who) (h : Nat) : Q Nat := do let r ← s.getRec w 3 h; pure r.b0
/-- twin of a half-edge. -/
def Mesh.twin (s : Mesh) (w : Who) (h : Nat) : Q Nat := do let r ← s.getRec w 3 h; pure r.b1
/-- origin of a half-edge. -/
def Mesh.origin (s : Mesh) (w : Who) (h : Nat) : Q Nat := do let r ← s.getRec w 3 h; pure r.b2
/-- The half-edge before one, in a triangle. -/
def Mesh.prev (s : Mesh) (w : Who) (h : Nat) : Q Nat := do let n ← s.next w h; s.next w n
/-- The vertex that a half-edge leads to. -/
def Mesh.target (s : Mesh) (w : Who) (h : Nat) : Q Nat := do let n ← s.next w h; s.origin w n

/-- Outgoing half-edges of a vertex, from one on by twins of the half-edge before, until the boundary or the start. -/
def Mesh.ringFwd (s : Mesh) (w : Who) (start : Nat) : Nat → Nat → Q (List Nat)
  | 0, _ => pure []
  | fuel + 1, h => do
    let p ← s.prev w h
    let t ← s.twin w p
    if t == noIndex || t == start then pure [h]
    else
      let rest ← Mesh.ringFwd s w start fuel t
      pure (h :: rest)
/-- The other way round, by the half-edge after each twin. -/
def Mesh.ringBack (s : Mesh) (w : Who) (start : Nat) : Nat → Nat → Q (List Nat)
  | 0, _ => pure []
  | fuel + 1, h => do
    let t ← s.twin w h
    if t == noIndex then pure []
    else
      let n ← s.next w t
      if n == start then pure []
      else
        let rest ← Mesh.ringBack s w start fuel n
        pure (n :: rest)
/-- Every outgoing half-edge of a vertex, given one. -/
def Mesh.ring (s : Mesh) (w : Who) (h : Nat) : Q (List Nat) := do
  let a ← s.ringFwd w h (2 ^ 20) h
  let b ← s.ringBack w h (2 ^ 20) h
  pure (a ++ b.filter fun x => !a.contains x)

/-- The one of a list of half-edges with the lowest value of a key. -/
def lowestBy (l : List (Nat × Nat)) : Nat :=
  match l with
  | [] => noIndex
  | (h, k) :: r => (r.foldl (fun (b : Nat × Nat) p => if p.2 < b.2 then p else b) (h, k)).1
/-- The canonical out half-edge of a vertex (R215): the one without a twin, else the one whose next has the lowest origin. -/
def Mesh.outOf (s : Mesh) (w : Who) (h : Nat) : Q Nat := do
  let l ← s.ring w h
  let mut free := none
  let mut keyed := []
  for x in l do
    let t ← s.twin w x
    if t == noIndex && free.isNone then free := some x
    let n ← s.target w x
    keyed := keyed ++ [(x, n)]
  pure (free.getD (lowestBy keyed))

/-- Vertices adjacent to one, given an outgoing half-edge. -/
def Mesh.neighbours (s : Mesh) (w : Who) (h : Nat) : Q (List Nat) := do
  let l ← s.ring w h
  let mut r : List Nat := []
  for x in l do
    let n ← s.next w x
    let a ← s.origin w n
    let p ← s.next w n
    let b ← s.origin w p
    r := r ++ [a, b]
  pure r.eraseDups

end Sys2Proof.Machine
end

