-- ==== Sys2Proof/Machine/MeshEdit.lean ====
section
/-! DEFINITION. The topology edits: cavities, checks and what an applied edit writes (R215, R218 to R224, R443). -/

namespace Sys2Proof.Machine

/-! ## Cavities (R223) -/

/-- The far side of an interior edge: its face, its half-edge, the next two, and the fourth vertex. -/
structure FarSide where
  f2 : Nat
  hp : Nat
  h3 : Nat
  h4 : Nat
  d : Nat
  deriving DecidableEq, Repr

/-- The roles around an edge (R223). -/
structure Around where
  e : Nat
  h : Nat
  h1 : Nat
  h2 : Nat
  a : Nat
  b : Nat
  c : Nat
  f1 : Nat
  far : Option FarSide
  deriving DecidableEq, Repr

/-- The roles around edge e; h is its link (R443). -/
def Mesh.around (s : Mesh) (w : Who) (e : Nat) : Q Around := do
  let re ← s.getRec w 1 e
  let h := re.link
  let rh ← s.getRec w 3 h
  let r1 ← s.getRec w 3 rh.b0
  let r2 ← s.getRec w 3 r1.b0
  let far ← if rh.b1 == noIndex then pure none else do
    let rp ← s.getRec w 3 rh.b1
    let r3 ← s.getRec w 3 rp.b0
    let r4 ← s.getRec w 3 r3.b0
    pure (some (FarSide.mk rp.link rh.b1 rp.b0 r3.b0 r4.b2))
  pure ⟨e, h, rh.b0, r1.b0, rh.b2, r1.b2, r2.b2, rh.link, far⟩

/-- The cavity of `msplit` and `mflip`, as pairs of kind and index. -/
def Around.cavity (r : Around) : List (Nat × Nat) :=
  [(1, r.e), (2, r.f1), (3, r.h), (3, r.h1), (3, r.h2), (0, r.a), (0, r.b), (0, r.c)]
  ++ (match r.far with
    | some x => [(2, x.f2), (3, x.hp), (3, x.h3), (3, x.h4), (0, x.d)]
    | none => [])

/-- The three half-edges of a triangle from one on. -/
def Mesh.triangle (s : Mesh) (w : Who) (h : Nat) : Q (List Nat) := do
  let n ← s.next w h
  let p ← s.next w n
  pure [h, n, p]

/-- An element of each face around a vertex: the face, its half-edges, and their origins. -/
def Mesh.star (s : Mesh) (w : Who) (v : Nat) : Q (List (Nat × Nat)) := do
  let rv ← s.getRec w 0 v
  let mut r : List (Nat × Nat) := []
  for h in ← s.ring w rv.link do
    let rh ← s.getRec w 3 h
    r := r ++ [(2, rh.link)]
    for x in ← s.triangle w h do
      let o ← s.origin w x
      r := r ++ [(3, x), (0, o)]
  pure r
/-- Every edge at a vertex. -/
def Mesh.edgesAt (s : Mesh) (w : Who) (v : Nat) : Q (List Nat) := do
  let rv ← s.getRec w 0 v
  let mut r : List Nat := []
  for h in ← s.ring w rv.link do
    let rh ← s.getRec w 3 h
    let p ← s.prev w h
    let rp ← s.getRec w 3 p
    r := r ++ [rh.b3, rp.b3]
  pure r.eraseDups

/-- The cavity of an edit's key element (R223). -/
def Mesh.cavityOf (s : Mesh) (w : Who) (e : Edit) (i : Nat) : Q (List (Nat × Nat)) := do
  match e with
  | .split | .flip => do let r ← s.around w i; pure r.cavity
  | .collapse => do
    let r ← s.around w i
    let x ← s.star w r.a
    let y ← s.star w r.b
    let z ← s.edgesAt w r.b
    pure ((1, r.e) :: x ++ y ++ z.map fun n => (1, n))
  | .refine => do
    let rf ← s.getRec w 2 i
    let t ← s.triangle w rf.link
    let v ← t.mapM fun h => s.origin w h
    pure ((2, i) :: t.map (fun h => (3, h)) ++ v.map fun n => (0, n))
/-- The cavity's handles, ascending (R222). -/
def Mesh.cavityHandles (s : Mesh) (w : Who) (e : Edit) (i : Nat) : Q (List Word) := do
  let l ← s.cavityOf w e i
  let h ← l.eraseDups.mapM fun p => do
    let r ← s.getRec w p.1 p.2
    pure (s.handle p.1 p.2 r.gen)
  pure (sortBy (fun a b => decide (a.toNat ≤ b.toNat)) h)

/-! ## Fields (R220) -/

/-- The number that a field's bits hold. -/
def fieldNum (t x : Nat) : FVal :=
  match t with
  | 0 => decodeFloat .fp32 x
  | 1 => decodeFloat .bf16 x
  | 2 => ofInt (BitVec.ofNat 32 x).toInt
  | _ => ofInt (BitVec.ofNat 64 x).toInt
/-- A number rounded into a field's type: to nearest, ties to even. -/
def fieldBits (t : Nat) (v : FVal) : Nat :=
  match t with
  | 0 => roundNear .fp32 v
  | 1 => roundNear .bf16 v
  | 2 => (convInt 32 .rne v).code
  | _ => (convInt 64 .rne v).code
/-- The default NaN of a field's type. -/
def fieldNan (t : Nat) : Nat := match t with | 0 => Fmt.nanCode .fp32 | _ => Fmt.nanCode .bf16

/-- The weights of a linear value: 1 - t and t, or a third each (R220). -/
inductive Weights where
  | ends (t : FVal)
  | thirds
  deriving DecidableEq, Repr

/-- A third of an exact number, with one bit behind it that says whether anything was lost, so that one rounding of it is
the rounding of the third. -/
def third (v : FVal) : FVal :=
  match v with
  | .fin s m e => .fin s (m * 2 ^ 64 / 3 * 2 + (if m * 2 ^ 64 % 3 = 0 then 0 else 1)) (e - 65)
  | x => x
/-- The weighted sum of finite parents, exact but for `third`. -/
def weigh (w : Weights) (p : List FVal) : FVal :=
  match w with
  | .ends t => fadd (fmul (fadd (.fin false 1 0) (fneg t)) (p.getD 0 .nan)) (fmul t (p.getD 1 .nan))
  | .thirds => third (fadd (fadd (p.getD 0 .nan) (p.getD 1 .nan)) (p.getD 2 .nan))
/-- A linear vertex value of type t from its parents' bits (R220). -/
def linearValue (t : Nat) (w : Weights) (p : List Nat) : Nat :=
  let v := p.map (fieldNum t)
  if v.any FVal.isNan then fieldNan t
  else if v.any fun x => match x with | .inf _ => true | _ => false then
    (if v.all (· == v.getD 0 .nan) then p.getD 0 0 else fieldNan t)
  else fieldBits t (weigh w v)
/-- A new element's value under a rule (R220); `same` holds when its parents have its own kind. -/
def ruleValue (rule t : Nat) (w : Option Weights) (same : Bool) (p : List Nat) : Nat :=
  if !same || p.isEmpty then 0
  else match rule with
    | 0 => (match w with | some x => linearValue t x p | none => p.getD 0 0)
    | 1 => p.getD 0 0
    | r =>
      let v := p.map (fieldNum t)
      if v.any FVal.isNan then fieldNan t
      else fieldBits t (v.tail.foldl (if r = 2 then fmin else fmax) (v.getD 0 .nan))

/-! ## What an edit writes -/

/-- A new element with its parents, for the fields (R220, R223). -/
structure Born where
  kind : Nat
  index : Nat
  pkind : Nat
  parents : List Nat
  weights : Option Weights
  deriving DecidableEq, Repr

/-- The parties of a directed edge inside a cavity. -/
abbrev Arcs := List ((Nat × Nat) × Nat)
/-- The half-edge of an arc. -/
def arc (l : Arcs) (u v : Nat) : Nat := ((l.find? fun p => p.1 == (u, v)).map (·.2)).getD noIndex
/-- The arcs of a triangle. -/
def sides (f : Nat × Nat × Nat) : List (Nat × Nat) := [(f.1, f.2.1), (f.2.1, f.2.2), (f.2.2, f.1)]

/-- The half-edges of one new edge, the one from the lower vertex first (R443); an arc that no new face has is absent. -/
def Mesh.bearEdge (s : Mesh) (w : Who) (need : List (Nat × Nat)) (e u v : Nat) : Q Arcs := do
  let dirs := (if u < v then [(u, v), (v, u)] else [(v, u), (u, v)]).filter need.contains
  let hs ← dirs.mapM fun _ => s.alloc w 3
  let one := hs.length == 1
  for p in (dirs.zip hs).zip hs.reverse do
    s.modRec w 3 p.1.2 fun r => { r with
      flags := if one then 3 else 1, b1 := if one then noIndex else p.2, b2 := p.1.1.1, b3 := e }
  s.modRec w 1 e fun r => { r with link := hs.getD 0 noIndex, flags := if one then 3 else 1 }
  if one then
    s.modRec w 0 u fun r => { r with flags := r.flags ||| 2 }
    s.modRec w 0 v fun r => { r with flags := r.flags ||| 2 }
  pure (dirs.zip hs)

/-- One new face: the cycle of its half-edges, their face, and its canonical link (R215). -/
def Mesh.closeFace (s : Mesh) (w : Who) (arcs : Arcs) (f : Nat) (cyc : Nat × Nat × Nat) : Q Unit := do
  let hs := (sides cyc).map fun p => arc arcs p.1 p.2
  for p in hs.zip (hs.drop 1 ++ hs.take 1) do
    s.modRec w 3 p.1 fun r => { r with b0 := p.2, link := f }
  let keyed := hs.zip [cyc.1, cyc.2.1, cyc.2.2]
  s.modRec w 2 f fun r => { r with link := lowestBy keyed }

/-- New edges and faces in place of a cavity's faces (R223): edges, then faces, then half-edges are allocated, and the outer
half-edges of `outer` are kept. -/
def Mesh.refill (s : Mesh) (w : Who) (outer : Arcs) (edges : List (Nat × Nat)) (faces : List (Nat × Nat × Nat)) :
    Q (List Nat × List Nat × Arcs) := do
  let es ← edges.mapM fun _ => s.alloc w 1
  let fs ← faces.mapM fun _ => s.alloc w 2
  let need := faces.flatMap sides
  let mut arcs := outer
  for p in es.zip edges do
    let x ← s.bearEdge w need p.1 p.2.1 p.2.2
    arcs := arcs ++ x
  for p in fs.zip faces do s.closeFace w arcs p.1 p.2
  pure (es, fs, arcs)

/-- The out half-edges of vertices rewritten to their canonical values (R215), each from a half-edge that leaves it. -/
def Mesh.settleOut (s : Mesh) (w : Who) (l : List (Nat × Nat)) : Q Unit := do
  for p in l do
    let o ← s.outOf w p.2
    s.modRec w 0 p.1 fun r => { r with link := o }
/-- One half-edge for each origin of a list of arcs. -/
def starts (arcs : Arcs) : List (Nat × Nat) :=
  arcs.foldl (fun l p => if l.any (·.1 == p.1.1) then l else l ++ [(p.1.1, p.2)]) []

/-- Elements retired in ascending index within each kind (R218). -/
def Mesh.retireAll (s : Mesh) (w : Who) (l : List (Nat × Nat)) : Q Unit := do
  for p in sortBy (fun x y => decide (recKey x.1 x.2 ≤ recKey y.1 y.2)) l do s.retire w p.1 p.2

/-- A vertex moved or made between its parents: its coordinates as a linear FP32 field (R220). -/
def Mesh.placeVertex (s : Mesh) (w : Who) (v : Nat) (parents : List Nat) (wt : Weights) : Q Unit := do
  let rs ← parents.mapM fun p => s.getRec w 0 p
  let z := if s.dim = 2 then 0 else linearValue 0 wt (rs.map (·.b2))
  s.modRec w 0 v fun r => { r with b0 := linearValue 0 wt (rs.map (·.b0)), b1 := linearValue 0 wt (rs.map (·.b1)), b2 := z }

/-- t as `msplit` and `mcoll` take it: strictly between 0 and 1 (R224). -/
def weightOf (t : Word) : Option FVal :=
  let v := f32 (t.setWidth 32)
  match v with
  | .fin false m _ => if m ≠ 0 ∧ fcmp v (.fin false 1 0) = .lt then some v else none
  | _ => none

/-- The parties of the far side in an edge's outer arcs. -/
def Around.outer (r : Around) : Arcs :=
  [((r.b, r.c), r.h1), ((r.c, r.a), r.h2)]
  ++ (match r.far with | some x => [((r.a, x.d), x.h3), ((x.d, r.b), x.h4)] | none => [])
/-- What `msplit` and `mflip` retire. -/
def Around.retired (r : Around) : List (Nat × Nat) :=
  [(1, r.e), (2, r.f1), (3, r.h)] ++ (match r.far with | some x => [(2, x.f2), (3, x.hp)] | none => [])

/-- `msplit` (R223): the new vertex and its handle's index. -/
def Mesh.split (s : Mesh) (w : Who) (r : Around) (t : FVal) : Q (Nat × Nat × List Born) := do
  let wt := Weights.ends t
  let m ← s.alloc w 0
  s.placeVertex w m [r.a, r.b] wt
  let edges := [(r.a, m), (m, r.b), (m, r.c)] ++ (match r.far with | some x => [(m, x.d)] | none => [])
  let faces := [(r.a, m, r.c), (m, r.b, r.c)] ++ (match r.far with | some x => [(r.b, m, x.d), (m, r.a, x.d)] | none => [])
  let parents := [r.f1, r.f1] ++ (match r.far with | some x => [x.f2, x.f2] | none => [])
  let (es, fs, arcs) ← s.refill w r.outer edges faces
  s.retireAll w r.retired
  s.settleOut w (starts arcs)
  pure (0, m, ⟨0, m, 0, [r.a, r.b], some wt⟩ :: (es.map fun n => ⟨1, n, 1, [r.e], none⟩)
    ++ (fs.zip parents).map fun p => ⟨2, p.1, 2, [p.2], none⟩)
/-- `mflip` (R223). -/
def Mesh.flip (s : Mesh) (w : Who) (r : Around) (x : FarSide) : Q (Nat × Nat × List Born) := do
  let (es, fs, arcs) ← s.refill w r.outer [(r.c, x.d)] [(r.c, x.d, r.b), (x.d, r.c, r.a)]
  s.retireAll w r.retired
  s.settleOut w (starts arcs)
  pure (1, es.getD 0 noIndex, (es.map fun n => ⟨1, n, 1, [r.e], none⟩)
    ++ (fs.zip [r.f1, x.f2]).map fun p => ⟨2, p.1, 2, [p.2], none⟩)
/-- `mref` (R223): edges and faces follow the face's half-edges from its link on (log 27). -/
def Mesh.refine (s : Mesh) (w : Who) (f : Nat) : Q (Nat × Nat × List Born) := do
  let rf ← s.getRec w 2 f
  let t ← s.triangle w rf.link
  let v ← t.mapM fun h => s.origin w h
  let m ← s.alloc w 0
  s.placeVertex w m v .thirds
  let nxt := v.drop 1 ++ v.take 1
  let outer : Arcs := (v.zip nxt).zip t
  let (es, fs, arcs) ← s.refill w outer (v.map fun x => (x, m)) ((v.zip nxt).map fun p => (p.1, p.2, m))
  s.retireAll w [(2, f)]
  s.settleOut w (starts arcs)
  pure (0, m, ⟨0, m, 0, v, some .thirds⟩ :: (es.map fun n => ⟨1, n, 1, [], none⟩)
    ++ fs.map fun n => ⟨2, n, 2, [f], none⟩)

/-- The two outer half-edges of a removed face become twins on the edge that stays (R223). -/
def Mesh.zip (s : Mesh) (w : Who) (stay gone edge : Nat) : Q Unit := do
  let x ← s.twin w stay
  let y ← s.twin w gone
  let one := x == noIndex || y == noIndex
  if x != noIndex then s.modRec w 3 x fun r => { r with b1 := y, b3 := edge, flags := if one then 3 else 1 }
  if y != noIndex then s.modRec w 3 y fun r => { r with b1 := x, b3 := edge, flags := if one then 3 else 1 }
  let l ← (List.filter (· != noIndex) [x, y]).mapM fun h => do let o ← s.origin w h; pure (h, o)
  s.modRec w 1 edge fun r => { r with link := lowestBy l, flags := if one then 3 else 1 }

/-- The edge of a half-edge. -/
def Mesh.edgeOf (s : Mesh) (w : Who) (h : Nat) : Q Nat := do let r ← s.getRec w 3 h; pure r.b3

/-- `mcoll` (R223): b goes into a. Every record that keeps a canonical link is rewritten (R215). -/
def Mesh.collapse (s : Mesh) (w : Who) (r : Around) (cavity : List (Nat × Nat)) (t : FVal) : Q (Nat × Nat × List Born) := do
  let rb ← s.getRec w 0 r.b
  s.placeVertex w r.a [r.a, r.b] (.ends t)
  let ring ← s.ring w rb.link
  let bc ← s.edgeOf w r.h1
  let ac ← s.edgeOf w r.h2
  let sides ← match r.far with
    | some x => do
      let bd ← s.edgeOf w x.h4
      let ad ← s.edgeOf w x.h3
      pure [(x.h3, x.h4, ad, bd)]
    | none => pure []
  for h in ring do s.modRec w 3 h fun q => { q with b2 := r.a }
  s.zip w r.h2 r.h1 ac
  for p in sides do s.zip w p.1 p.2.1 p.2.2.1
  let gone : List (Nat × Nat) := [(0, r.b), (1, r.e), (1, bc), (2, r.f1), (3, r.h), (3, r.h1), (3, r.h2)]
    ++ (match r.far with | some x => [(2, x.f2), (3, x.hp), (3, x.h3), (3, x.h4)] | none => [])
    ++ sides.map fun p => (1, p.2.2.2)
  let rest := cavity.eraseDups.filter fun p => !gone.contains p
  s.modRec w 0 r.a fun q => { q with flags := q.flags ||| (rb.flags &&& 2) }
  for p in rest do
    if p.1 == 2 then
      let f ← s.getRec w 2 p.2
      let l ← (← s.triangle w f.link).mapM fun h => do let o ← s.origin w h; pure (h, o)
      s.modRec w 2 p.2 fun q => { q with link := lowestBy l }
  for p in rest do
    if p.1 == 1 then
      let re ← s.getRec w 1 p.2
      let tw ← s.twin w re.link
      let l ← (List.filter (· != noIndex) [re.link, tw]).mapM fun h => do let o ← s.origin w h; pure (h, o)
      s.modRec w 1 p.2 fun q => { q with link := lowestBy l }
  let mut outs : List (Nat × Nat) := []
  for p in rest do
    if p.1 == 3 then
      let o ← s.origin w p.2
      if !outs.any (·.1 == o) then outs := outs ++ [(o, p.2)]
  s.settleOut w outs
  s.retireAll w gone
  pure (0, r.a, [])

/-! ## Checks (R224) -/

/-- Whether two vertices are adjacent. -/
def Mesh.joined (s : Mesh) (w : Who) (u v : Nat) : Q Bool := do
  let r ← s.getRec w 0 u
  let l ← s.neighbours w r.link
  pure (l.contains v)

/-- Whether a vertex has edges enough to lose one in a collapse (R224). -/
def Mesh.thick (s : Mesh) (w : Who) (v : Nat) : Q Bool := do
  let r ← s.getRec w 0 v
  let n ← s.edgesAt w v
  pure (decide ((if r.flags / 2 % 2 = 1 then 3 else 4) ≤ n.length))

/-- The checks of an edit: trap 0x09 names the key element (R224). -/
def Mesh.checkEdit (s : Mesh) (w : Who) (e : Edit) (gh t : Word) : Q Unit := do
  match e with
  | .refine => pure ()
  | .split => meshTrapIf (weightOf t).isNone 9 gh
  | .flip => do
    let r ← s.around w (handleIndex gh)
    match r.far with
    | none => meshTrap 9 gh
    | some x => do
      meshTrapIf (r.c == x.d) 9 gh
      let j ← s.joined w r.c x.d
      meshTrapIf j 9 gh
  | .collapse => do
    meshTrapIf (weightOf t).isNone 9 gh
    let r ← s.around w (handleIndex gh)
    let ra ← s.getRec w 0 r.a
    let rb ← s.getRec w 0 r.b
    let na ← s.neighbours w ra.link
    let nb ← s.neighbours w rb.link
    let ends := r.c :: (match r.far with | some x => [x.d] | none => [])
    let both := na.filter nb.contains
    meshTrapIf (both.any (fun v => !ends.contains v) || ends.any (fun v => !both.contains v)) 9 gh
    meshTrapIf (ra.flags / 2 % 2 == 1 && rb.flags / 2 % 2 == 1 && r.far.isSome) 9 gh
    for v in ends do
      let ok ← s.thick w v
      meshTrapIf (!ok) 9 gh
    let c ← s.cavityOf w .collapse (handleIndex gh)
    meshTrapIf (decide (128 < c.eraseDups.length)) 9 gh

/-- The slots of each kind that an edit needs (R223, R225). -/
def slotsNeeded (e : Edit) (boundary : Bool) : List Nat :=
  match e with
  | .split => if boundary then [1, 3, 2, 4] else [1, 4, 4, 8]
  | .flip => [0, 1, 2, 2]
  | .collapse => [0, 0, 0, 0]
  | .refine => [1, 3, 3, 6]

/-! ## Applying -/

/-- The edit computed: what its result names, and the elements it makes. -/
def Mesh.compute (s : Mesh) (w : Who) (e : Edit) (gh t : Word) : Q (Nat × Nat × List Born) := do
  let i := handleIndex gh
  let cavity ← s.cavityOf w e i
  let x := (weightOf t).getD .nan
  let r ← match e with
    | .split => do let r ← s.around w i; s.split w r x
    | .flip => do
      let r ← s.around w i
      match r.far with
      | some y => s.flip w r y
      | none => meshTrap 9 gh
    | .collapse => do let r ← s.around w i; s.collapse w r cavity x
    | .refine => s.refine w i
  for p in cavity.eraseDups do s.modRec w p.1 p.2 fun q => { q with claim := 0 }
  pure r

/-- One field's values of the new elements, as writes. -/
def Who.fieldWrites (w : Who) (f : MField) (born : List Born) : Q (List (Word × List Byte)) := do
  if !f.v || f.rule == 4 then pure []
  else
    let n := fieldBytes f.type
    let mine := born.filter fun b => b.kind == f.kind
    mine.mapM fun b => do
      let same := b.pkind == f.kind
      let p ← (if same then b.parents else []).mapM fun i => do
        let x ← w.bytes (BitVec.ofNat 64 (f.base + n * i)) n
        pure (leNat x)
      pure (BitVec.ofNat 64 (f.base + n * b.index), toLe n (ruleValue f.rule f.type b.weights same p))

/-- Every write of a computed edit: records, fields, and the heads of the free lists. -/
def Mesh.writes (s : Mesh) (w : Who) (born : List Born) : Q (List (Word × List Byte)) := do
  let x ← get
  let recs := x.recs.map fun p => (s.recAddr (p.1 / 2 ^ 32) (p.1 % 2 ^ 32), recBytes p.2)
  let mut fields : List (Word × List Byte) := []
  for f in s.fields do
    let l ← w.fieldWrites f born
    fields := fields ++ l
  pure (recs ++ fields ++ [(w.ga + 56, x.free.flatMap fun n => toLe 4 n)])

/-- The write phase (R225, R226): every address is translated first, then everything is written, and the claim words that
end at zero no longer hold their pages. -/
def Mesh.commit (s : Mesh) (w : Who) (born : List Born) : Q Unit := do
  let l ← s.writes w born
  let ps ← l.mapM fun p => do let q ← w.phys p.1 .w; pure (q, p.2)
  modify fun x =>
    let c := ps.foldl (fun (c : Chip) p => c.writeAt p.1 p.2) x.c
    { c := { c with claimed := c.claimed.filter fun a => claimSt (c.read64 (hbmHome a) a) % 2 == 1 }, recs := [], free := [] }

end Sys2Proof.Machine
end

