-- ==== Sys2Proof/Machine/MeshHome.lean ====
section
/-! DEFINITION. Mesh instructions at the descriptor's home: reads, stores and single claims (R231, R232), the immediate
discipline (R225, R226) and the rounded one (R227 to R230). -/

namespace Sys2Proof.Machine

/-- A mesh computation run on the package: what it leaves and how the instruction ends. Where it stops, nothing of it
stands. -/
def Chip.runMesh (c : Chip) (q : Q Done) : Chip × Done :=
  match q { c := c, recs := [], free := [] } with
  | .ok d x => (x.c, d)
  | .error d _ => (c, d)

/-! ## Reads, stores and single claims -/

/-- Whether an element is held by a claim other than this frame's own `mclaim` (R232). -/
def heldFrom (w : Who) (r : Rec) : Bool := claimSt r.claim % 2 == 1 && r.claim != claimOne w.me

/-- The handle that a record field names (R390): all ones where it names no element. -/
def Mesh.link (s : Mesh) (w : Who) (k i : Nat) : Q Word := do
  if s.cap.getD k 0 ≤ i then pure (BitVec.allOnes 64)
  else
    let r ← s.getRec w k i
    pure (s.handle k i r.gen)

/-- R390: `mget` and `mnext`. -/
def Mesh.follow (s : Mesh) (w : Who) (f : MLink) (gh : Word) : Q Done := do
  meshTrapIf (f != .link && handleKind gh != 3) 8 gh
  let r ← s.live w gh
  if heldFrom w r then pure (.ok 0 false)
  else
    let (k, i) := match f with
      | .link => (if handleKind gh = 3 then 2 else 3, r.link)
      | .twin => (3, r.b1)
      | .origin => (0, r.b2)
      | .edge => (1, r.b3)
      | .face => (2, r.link)
      | .next => (3, r.b0)
    let h ← s.link w k i
    pure (.ok h true)

/-- The field that an instruction names (R391). -/
def Mesh.fieldAt (s : Mesh) (w : Who) (j : Nat) (gh : Word) : Q MField := do
  match s.fields[j]? with
  | none => meshTrap 0x0C w.named
  | some f => do
    meshTrapIf (decide (s.nfld ≤ j) || !f.v) 0x0C w.named
    meshTrapIf (handleKind gh != f.kind) 8 gh
    pure f
/-- R391: `mfld`. INT32 is sign-extended. -/
def Mesh.load (s : Mesh) (w : Who) (j : Nat) (gh : Word) : Q Done := do
  let f ← s.fieldAt w j gh
  let r ← s.live w gh
  if heldFrom w r then pure (.ok 0 false)
  else
    let n := fieldBytes f.type
    let b ← w.bytes (BitVec.ofNat 64 (f.base + n * handleIndex gh)) n
    let v := BitVec.ofNat 64 (leNat b)
    pure (.ok (if f.type = 2 then signExt v 4 else v) true)
/-- R391: `mfst`. -/
def Mesh.store (s : Mesh) (w : Who) (j : Nat) (gh v : Word) : Q Done := do
  let f ← s.fieldAt w j gh
  let r ← s.live w gh
  if heldFrom w r then pure (.ok 0 false)
  else
    let n := fieldBytes f.type
    let p ← w.phys (BitVec.ofNat 64 (f.base + n * handleIndex gh)) .w
    modify fun x => { x with c := x.c.writeAt p (toLe n v.toNat) }
    pure (.ok 0 true)

/-- A claim word written at its element's home. -/
def Chip.writeClaim (c : Chip) (p : Phys) (w : Word) : Chip :=
  if p.loc = 0 then c.setClaim p.pa w else c.writeAt p (toLe 8 w.toNat)
/-- What the issuing frame holds by `mclaim` changed, where it is a frame of this package (R233). -/
def Chip.modClaims (c : Chip) (m : Msg) (f : List Claim → List Claim) : Chip :=
  if m.frank.pkg == c.pkg then c.modFrame m.frank.core m.frank.frame fun x => { x with claims := f x.claims } else c
/-- Whether the thread that sent a request is gone: its request may then stay unperformed (R389). -/
def Chip.abandoned (c : Chip) (m : Msg) : Bool :=
  m.frank.pkg == c.pkg && (match tfind (c.coreAt m.frank.core).reqs m.id with | some r => r.owner == .gone | none => true)

/-! ### Claims and pages in motion (R190, R226) -/

/-- The virtual address of the page that a job has in hand. -/
def PageJob.pageVa (j : PageJob) : Nat := j.va + j.page * pageBytes j.psize
/-- Its physical range, by its leaf. -/
def PageJob.oldRange (j : PageJob) (leaf : Word) : Nat × Nat := (leafAddr leaf j.psize j.pageVa, pageBytes j.psize)
/-- Whether a claim word lies on a page whose seal is put off by a claim (R226). -/
def Chip.deferring (c : Chip) (pa : Nat) : Bool :=
  match c.job with
  | none => false
  | some j =>
    j.kind != .drain && j.st == .mapped && (match c.walk j.ctx j.pageVa with
      | none => false
      | some (leaf, _) =>
        let (a, n) := j.oldRange leaf
        bits leaf 11 10 == 0 && decide (a ≤ pa) && decide (pa < a + n)
          && c.claimed.any fun x => decide (a ≤ x) && decide (x < a + n))
/-- Whether a claim at a place is answered page-moved (R190, R226). -/
def Chip.claimMoved (c : Chip) (p : Phys) : Bool := c.physShut p 8 || (p.loc == 0 && c.deferring p.pa)

/-- R231, R233, R392: `mclaim`. Answered page-moved it is lost (R225, R226). -/
def Mesh.claim (s : Mesh) (w : Who) (m : Msg) (gh : Word) : Q Done := do
  meshTrapIf (!s.formed gh) 8 gh
  let a := s.recAddr (handleKind gh) (handleIndex gh)
  let q ← w.phys a .r
  let x ← get
  if !s.rounded && x.c.claimMoved q then pure (.ok 0 false)
  else
    let r ← s.live w gh
    meshTrapIf s.rounded 9 w.named
    let p ← w.phys a .w
    if claimSt r.claim != 0 || x.c.abandoned m then pure (.ok 0 false)
    else
      modify fun x => { x with c := (x.c.writeClaim p (claimOne w.me)).modClaims m fun l =>
        l ++ [⟨if p.loc = 0 then some p.pa else none, m.dest, m.addr, m.va, gh⟩] }
      pure (.ok 0 true)
/-- R231, R392: `mrel`. -/
def Mesh.unclaim (s : Mesh) (w : Who) (m : Msg) (gh : Word) : Q Done := do
  let r ← s.live w gh
  let p ← w.phys (s.recAddr (handleKind gh) (handleIndex gh)) .w
  if s.rounded || r.claim != claimOne w.me then pure (.ok 0 false)
  else
    let other := fun (q : Claim) => !(q.gh == gh && q.dest == m.dest && q.addr == m.addr)
    modify fun x => { x with c := (x.c.writeClaim p 0).modClaims m (List.filter other) }
    pure (.ok 0 true)
/-- R392: `mval` never traps 0x08. -/
def Mesh.valid (s : Mesh) (w : Who) (gh : Word) : Q Done := do
  let r ← s.named w gh
  pure (.ok 0 r.isSome)

/-! ## Edits -/

/-- The kind of an edit's key element (R393). -/
def keyKind (e : Edit) : Nat := match e with | .refine => 2 | _ => 1

/-- R227: prio of a key index. -/
def prioOf (i : Nat) : Nat :=
  let x := i * 0x9E3779B1 % 2 ^ 32
  x ^^^ (x / 2 ^ 15)
/-- The code of an edit in a claim word (R221). -/
def editCode (e : Edit) : Nat := match e with | .split => 0 | .collapse => 1 | .flip => 2 | .refine => 3
/-- R227: the key, prio then op. -/
def editKey (e : Edit) (i : Nat) : Nat := prioOf i * 4 + editCode e

/-- The bytes of a pending entry: a free value (R228, log 26). -/
def pendingBytes (e : Edit) (gh t : Word) : List Byte := toLe 32 (Config.pendingEntry (editCode e) gh t).toNat

/-- An edit's start at the descriptor's home: its key element is checked and its cavity read (R225, R228). A rounded edit
also passes R224 and takes a pending entry. -/
def Mesh.begin (s : Mesh) (w : Who) (m : Msg) (ctx : Nat) (e : Edit) (expect : Option Bool) (gh t : Word) : Q Done := do
  meshTrapIf (handleKind gh != keyKind e) 8 gh
  let _ ← s.live w gh
  let cavity ← s.cavityHandles w e (handleIndex gh)
  if s.rounded then
    s.checkEdit w e gh t
    let x ← get
    if s.pcap ≤ s.pn then pure (.ok 1 false)
    else if x.c.rounds.any (fun p => p.1.dest == m.dest && p.1.addr == m.addr) then pure (.ok 3 false)
    else
      let pn ← w.phys (w.ga + 80) .w
      let pe ← w.phys (BitVec.ofNat 64 (s.pbase + 32 * s.pn)) .w
      modify fun x =>
        let c := (x.c.writeAt { pn with pa := pn.pa + 2 } (toLe 2 (s.pn + 1))).writeAt pe (pendingBytes e gh t)
        { x with c := { c with edits := c.edits ++ [⟨m, ctx, w.ga, e, expect, cavity, .place s.pn 0, [], false⟩] } }
      pure .later
  else
    modify fun x => { x with c := { x.c with edits := x.c.edits ++ [⟨m, ctx, w.ga, e, expect, cavity, .claim 0, [], false⟩] } }
    pure .later

/-- An edit computed and written, once its claims stand (R225). -/
def Mesh.apply (s : Mesh) (w : Who) (e : Edit) (gh t : Word) : Q Word := do
  modify fun x => { x with recs := [], free := s.free }
  let (k, i, born) ← s.compute w e gh t
  let r ← s.getRec w k i
  s.commit w born
  pure (s.handle k i r.gen)

/-- The room an edit needs, by whether its edge is a boundary edge. -/
def Mesh.roomFor (s : Mesh) (w : Who) (e : Edit) (gh : Word) : Q Bool := do
  let boundary ← match e with
    | .refine => pure false
    | _ => do let r ← s.around w (handleIndex gh); pure r.far.isNone
  modify fun x => { x with free := s.free }
  s.room w (slotsNeeded e boundary)

/-- The key handle and t of an edit's request. -/
def editArgs (m : Msg) : Word × Word := match m.body with | .object _ x y => (x, y) | _ => (0, 0)

/-- The end of an immediate edit whose claims are all taken (R225): its cavity read again, the checks of R224, the room, the
write phase. A key that another edit has retired meanwhile has no cavity any more. -/
def finishEdit (r : EditRun) : Q Done := do
  let w := whoOf r.msg r.ctx r.base
  let (gh, t) := editArgs r.msg
  let s ← w.mesh
  match ← s.named w gh with
  | none => pure (.ok 0 false)
  | some _ =>
    let again ← s.cavityHandles w r.edit (handleIndex gh)
    if again != r.cavity then pure (.ok 0 false)
    else
      s.checkEdit w r.edit gh t
      let ok ← s.roomFor w r.edit gh
      if !ok then pure (.ok 1 false)
      else
        let h ← s.apply w r.edit gh t
        pure (.ok h true)

/-! ## Claiming (R222, R225, R228) -/

/-- One claim of an immediate edit: its place where it is taken. -/
def claimElement (r : EditRun) (h : Word) : Q (Option Phys) := do
  let w := whoOf r.msg r.ctx r.base
  let s ← w.mesh
  let p ← w.phys (s.recAddr (handleKind h) (handleIndex h)) .w
  let x ← get
  if x.c.claimMoved p then pure none
  else
    let rec_ ← s.getRec w (handleKind h) (handleIndex h)
    if claimSt rec_.claim != 0 then pure none
    else
      modify fun x => { x with c := x.c.writeClaim p (claimOne w.me) }
      pure (some p)
/-- One claim of a rounded edit (R228): the greater key holds the element, and equal keys contest it. -/
def placeElement (r : EditRun) (entry : Nat) (h : Word) : Q Done := do
  let w := whoOf r.msg r.ctx r.base
  let (gh, _) := editArgs r.msg
  let s ← w.mesh
  let p ← w.phys (s.recAddr (handleKind h) (handleIndex h)) .w
  let x ← get
  if x.c.claimMoved p then throw (.refuse 2)
  let rec_ ← s.getRec w (handleKind h) (handleIndex h)
  let i := handleIndex gh
  let mine := BitVec.ofNat 64 (2 ^ 63 + editCode r.edit * 2 ^ 60 + entry * 2 ^ 34 + prioOf i)
  let stored := bits rec_.claim 31 0 * 4 + bits rec_.claim 61 60
  let key := editKey r.edit i
  let next := if claimSt rec_.claim = 0 ∨ stored < key then mine
    else if stored = key then putBits rec_.claim 49 34 0xFFFF else rec_.claim
  modify fun x => { x with c := x.c.writeClaim p next }
  pure .later

/-! ## The round (R229) -/

/-- Whether an entry survives: every element of its cavity holds a claim with its own number. -/
def Mesh.survives (s : Mesh) (w : Who) (r : EditRun) (entry : Nat) : Q Bool := do
  let l ← r.cavity.mapM fun h => do
    let q ← s.getRec w (handleKind h) (handleIndex h)
    pure (claimSt q.claim == 2 && bits q.claim 49 34 == entry)
  pure (l.all id)
/-- The pending entries of a mesh. -/
def Chip.pendingOf (c : Chip) (p : Place) (a : Nat) : List EditRun :=
  c.edits.filter fun r => r.msg.dest == p && r.msg.addr == a && (match r.phase with | .pending _ => true | _ => false)
/-- The number of a pending entry. -/
def EditRun.entry (r : EditRun) : Nat := match r.phase with | .pending n | .place n _ => n | _ => 0

/-- The surviving edits applied in turn (R229); one that its lists have no room for is left out (log 28). -/
def applyAll (w : Who) : List EditRun → Q Nat
  | [] => pure 0
  | r :: rest => do
    let (gh, t) := editArgs r.msg
    let s ← w.mesh
    modify fun x => { x with recs := [], free := s.free }
    let ok ← s.roomFor w r.edit gh
    if ok then
      let _ ← s.apply w r.edit gh t
      let n ← applyAll w rest
      pure (n + 1)
    else applyAll w rest

/-- Every address that a pending edit would write on the mesh as it stands, translated (R229). What the edit computes is left
aside. -/
def translateRun (w : Who) (r : EditRun) : Q Unit := do
  let (gh, t) := editArgs r.msg
  let s ← w.mesh
  for h in r.cavity do
    let _ ← w.phys (s.recAddr (handleKind h) (handleIndex h)) .w
  modify fun x => { x with recs := [], free := s.free }
  let ok ← s.roomFor w r.edit gh
  if ok then
    let (_, _, born) ← s.compute w r.edit gh t
    for p in ← s.writes w born do
      let _ ← w.phys p.1 .w
  modify fun x => { x with recs := [], free := [] }
/-- R229: `mround` once every entry's claims are placed. A fault of any translation is 0x06 and applies nothing. -/
def roundUp (m : Msg) (ctx : Nat) (base : Word) : Q Done := do
  let w := whoOf m ctx base
  let s ← w.mesh
  let x ← get
  let runs := x.c.pendingOf m.dest m.addr
  for r in runs do translateRun w r
  let mut live : List EditRun := []
  for r in runs do
    let ok ← s.survives w r r.entry
    if ok then live := live ++ [r]
  let order := sortBy (fun a b =>
    decide (editKey b.edit (handleIndex (editArgs b.msg).1) ≤ editKey a.edit (handleIndex (editArgs a.msg).1))) live
  let n ← applyAll w order
  for r in runs do
    for h in r.cavity do
      let p ← w.phys (s.recAddr (handleKind h) (handleIndex h)) .w
      modify fun x => { x with c := x.c.writeClaim p 0 }
  let p ← w.phys (w.ga + 80) .w
  modify fun x => { x with c :=
    let c := x.c.writeAt { p with pa := p.pa + 2 } (toLe 2 0 ++ toLe 4 (s.round + 1))
    { c with edits := c.edits.filter fun r => !runs.contains r } }
  pure (.ok (BitVec.ofNat 64 n) false)
/-- The end of a round: any translation that fails gives 0x06 (R229). -/
def Chip.runRound (c : Chip) (m : Msg) (ctx : Nat) (base : Word) : Chip × Done :=
  match c.runMesh (roundUp m ctx base) with
  | (_, .answer (.trap 7 _ a)) => (c, .trap 6 a)
  | r => r

/-- R229, R394: `mround` waits for entries whose claims are not yet placed. -/
def Mesh.round' (s : Mesh) (w : Who) (m : Msg) (ctx : Nat) : Q Done := do
  meshTrapIf (!s.rounded) 9 w.named
  let x ← get
  let placing := x.c.edits.any fun r => r.msg.dest == m.dest && r.msg.addr == m.addr
    && (match r.phase with | .place .. => true | _ => false)
  if placing || x.c.rounds.any (fun p => p.1.dest == m.dest && p.1.addr == m.addr) then
    set { x with c := { x.c with rounds := x.c.rounds ++ [(m, ctx)] } }
    pure .later
  else
    match x.c.runRound m ctx w.ga with
    | (c, d) => do set { x with c := c }; pure d

/-! ## The instructions at the home -/

/-- The right of R88 that a mesh instruction needs (R229, R231). -/
def meshRight (op : ObjOp) : Nat :=
  match op with
  | .mget _ | .mfld _ | .mval => 1
  | .mfst _ => 2
  | _ => 8

/-- A mesh instruction once its descriptor is read. -/
def Mesh.perform (s : Mesh) (w : Who) (m : Msg) (ctx : Nat) (op : ObjOp) (x y : Word) : Q Done :=
  match op with
  | .mget f => s.follow w f x
  | .mfld j => s.load w j x
  | .mfst j => s.store w j x y
  | .mval => s.valid w x
  | .mclaim => s.claim w m x
  | .mrel => s.unclaim w m x
  | .edit e expect => s.begin w m ctx e expect x y
  | _ => s.round' w m ctx

/-- The checks and effects of a mesh instruction at the descriptor's home (R213, R388, R390). -/
def Chip.performMesh (c : Chip) (m : Msg) (op : ObjOp) (x y : Word) : Chip × Done :=
  match c.admitObject m 256 [] with
  | .error st => (c, .refuse st)
  | .ok ctx => match c.entryCheck m ctx 1 (meshRight op) with
    | .error d => (c, d)
    | .ok e =>
      if c.brokenFor e.owner ctx then (c, .trap 0x0C m.va)
      else c.runMesh (do
        let w := whoOf m ctx e.base
        let s ← w.mesh
        meshTrapIf s.bad 0x0C m.va
        s.perform w m ctx op x y)

/-! ## One step of an edit (MESH_CLAIM) -/

/-- An edit that has ended: it leaves the list and answers. Where its frame is gone, the answer only closes its request (R226,
R389). -/
def Chip.endEdit (c : Chip) (r : EditRun) (a : ObjAns) : Chip :=
  { c with edits := c.edits.erase r }.answer r.msg (.objReply a)
/-- An edit changed. -/
def Chip.setEdit (c : Chip) (r r' : EditRun) : Chip :=
  { c with edits := c.edits.map fun x => if x == r then r' else x }
/-- An edit that gives back what it holds before it answers. -/
def Chip.giveUp (c : Chip) (r : EditRun) (a : ObjAns) : Chip :=
  if r.held.isEmpty then c.endEdit r a else c.setEdit r { r with phase := .release r.held.length a }
/-- How a claim that could not be made ends its edit: a trap, poisoned data as a trap (R387), or page-moved as lost. -/
def lostClaim (r : EditRun) (d : Done) : ObjAns :=
  match d with
  | .answer a => a
  | .refuse 4 => .trap 0x0E 0x52 r.msg.va
  | _ => .ok 0 false

/-- A round that has waited, performed: its right and its mesh's owner are tested as at any instruction (R86, R89, R91). -/
def Chip.waitedRound (c : Chip) (m : Msg) (ctx : Nat) : Chip × Done :=
  match c.entryCheck m ctx 1 8 with
  | .error d => (c, d)
  | .ok e => if c.brokenFor e.owner ctx then (c, .trap 0x0C m.va) else c.runRound m ctx e.base
/-- Rounds that wait on a mesh, tried again when the last of its claims is placed (R229). -/
def Chip.tryRounds (c : Chip) (p : Place) (a : Nat) : Nat → Chip
  | 0 => c
  | fuel + 1 =>
    let placing := c.edits.any fun r => r.msg.dest == p && r.msg.addr == a && (match r.phase with | .place .. => true | _ => false)
    match c.rounds.find? fun q => q.1.dest == p && q.1.addr == a with
    | none => c
    | some q =>
      if placing then c
      else match { c with rounds := c.rounds.erase q }.waitedRound q.1 q.2 with
        | (c, .answer x) => (c.answer q.1 (.objReply x)).tryRounds p a fuel
        | (c, .refuse st) => (c.answer q.1 (.nack st)).tryRounds p a fuel
        | (c, _) => c

/-- The claim phase of an immediate edit: one claim, and behind the last the end of the edit. In a replay an outcome that
the log does not hold is not taken (R151). -/
def Chip.stepClaim (c : Chip) (r : EditRun) (i : Nat) : Option Chip :=
  let lost := ObjAns.ok 0 false
  if r.dead then some (c.giveUp r lost)
  else match r.cavity[i]? with
    | none => none
    | some h =>
      match claimElement r h { c := c, recs := [], free := [] } with
      | .error d _ => some (c.giveUp r (lostClaim r d))
      | .ok none _ => if r.expect = some true then none else some (c.giveUp r lost)
      | .ok (some p) x =>
        let r' := { r with phase := .claim (i + 1), held := (p.leaf, p.size, p.pa) :: r.held }
        let c := x.c.setEdit r r'
        if i + 1 < r.cavity.length then some c
        else match c.runMesh (finishEdit r') with
          | (c', .answer (.ok g true)) => if r.expect = some false then none else some (c'.endEdit r' (.ok g true))
          | (c', d) => if r.expect = some true ∧ lostClaim r d = lost then none else some (c'.giveUp r' (lostClaim r d))
/-- One claim given back, where it was taken. -/
def Chip.stepRelease (c : Chip) (r : EditRun) (a : ObjAns) : Chip :=
  match r.held with
  | [] => c.endEdit r a
  | (leaf, size, pa) :: rest =>
    let r' := { r with held := rest }
    ((c.writeClaim ⟨leaf, size, pa⟩ 0).setEdit r r').giveUp r' a
/-- One claim of a rounded edit placed (R228), and behind the last its notification and its answer. One that is answered
page-moved is made again at the page's new home (R190); a fault ends the instruction there, and the entry stays in the round
without all its claims (R229). -/
def Chip.stepPlace (c : Chip) (r : EditRun) (entry i : Nat) : Option Chip :=
  match r.cavity[i]? with
  | none => none
  | some h =>
    let done := fun (c : Chip) (a : ObjAns) =>
      let c := (c.setEdit r { r with phase := .pending entry }).answer r.msg (.objReply a)
      c.tryRounds r.msg.dest r.msg.addr c.rounds.length
    match c.runMesh (placeElement r entry h) with
    | (_, .refuse 2) => none
    | (c', .later) =>
      if i + 1 < r.cavity.length then some (c'.setEdit r { r with phase := .place entry (i + 1) })
      else some (done c' (.ok (BitVec.ofNat 64 entry) true))
    | (c', d) => some (done c' (lostClaim r d))

/-- R222: one claim, one release, or one placing, at its element's home. -/
def execMeshClaim (e : Nat) (s : State) : Host.Outcome State Fault Refusal :=
  event (fun c => match c.edits[e]? with
    | none => none
    | some r => match r.phase with
      | .claim i => c.stepClaim r i
      | .release _ a => some (c.stepRelease r a)
      | .place entry i => c.stepPlace r entry i
      | .pending _ => none) s

end Sys2Proof.Machine
end

