-- ==== Sys2Proof/Machine/Homes.lean ====
section
/-! DEFINITION. Object requests at their homes, their answers at the core, notices, and withdrawals (R176, R177, R236,
R241, R387 to R389), and the arrival of reductions (R381). -/

namespace Sys2Proof.Machine

/-- R381, R343: FP32 sums are those of the vector unit. -/
def execReduceArrival (n : Nat) (s : State) : Host.Outcome State Fault Refusal :=
  event (fun c => match c.arriving n with
    | none => none
    | some m => match m.body with
      | .reduce .. | .vreduce .. => c.reduceAt n m addF32
      | _ => none) s

/-! ## Requests -/

/-- The operation of an object request, performed at the home (R387). -/
def Chip.performObject (c : Chip) (m : Msg) (op : ObjOp) (x y : Word) : Chip × Done :=
  match op with
  | .mget _ | .mfld _ | .mfst _ | .mval | .mclaim | .mrel | .edit .. | .mround => c.performMesh m op x y
  | .verpub | .verpubO | .verpubFin | .verstop | .verwait | .verchk | .verchkD => c.performTile m op x
  | .versettle => c.performSettle m true
  | .versettleT => c.performSettle m false
  | .gosadd | .gosest | .gosspr | .gosset _ => c.performGossip m op x
  | .bar | .barv | .bwait | .chsend | .chrecv => c.performSync m op x
  | .hqput | .hqpeek | .hqrel | .hqveto => c.performHq m op x

/-- The context that a waiter acts in. -/
def Chip.waiterCtx (c : Chip) (m : Msg) : Nat := (c.actingCtx m 8 3).getD m.frank.ctx
/-- The operation of a waiter tried again. -/
def Chip.attempt (c : Chip) (m : Msg) : Chip × Done :=
  let ctx := c.waiterCtx m
  match m.body with
  | .object op x _ =>
    match op with
    | .versettle => (c, c.testWord m.dest.home m.addr true)
    | .verpubO =>
      let (c, d) := c.tileOp m ctx op x
      (c.testSettle m.dest.home m.addr, d)
    | _ => c.syncOp m ctx op x
  | _ => (c, .later)
/-- The check of R89 that a waiter fails when it is performed, if its right has been revoked meanwhile (R91); a settle word and an
object in scratchpad have no rights entry (R168, R242). -/
def Chip.waiterDenied (c : Chip) (m : Msg) : Option Done :=
  let check := fun (kind right : Nat) => match c.entryCheck m (c.waiterCtx m) kind right with | .error d => some d | .ok _ => none
  match m.dest.home, m.body with
  | .core _, _ => none
  | _, .object .verpubO .. => check 2 2
  | _, .object .bwait .. => check 4 1
  | _, .object .chsend .. => check 5 16
  | _, .object .chrecv .. => check 5 1
  | _, _ => none
/-- A waiter tried again: it waits on, or is performed, or fails the check of its rights. -/
def Chip.retest (c : Chip) (m : Msg) : Chip × Done :=
  match c.attempt m with
  | (_, .hold) => (c, .hold)
  | r => match c.waiterDenied m with | some d => (c, d) | none => r

/-- How an instruction that has ended is answered; one that waits takes an entry of the waiter table (R176). -/
def Chip.conclude (c : Chip) (m : Msg) (d : Done) : Chip :=
  match d with
  | .answer a => c.answer m (.objReply a)
  | .refuse st => c.answer m (.nack st)
  | .later => c
  | .hold =>
    let l := c.waitersAt m.dest.home
    if l.length < waiterRoom m.dest.home then c.setWaiters m.dest.home (l ++ [m])
    else c.answer m (.objReply (.trap 0x0B 5 m.va))

/-- The first waiter of a list that no longer waits: the package with its operation performed, and how it ended. -/
def Chip.firstDone (c : Chip) : List Msg → Option (Msg × Chip × Done)
  | [] => none
  | m :: rest => match c.retest m with
    | (_, .hold) => c.firstDone rest
    | (c', d) => some (m, c', d)

/-- The waiters of a home served in order until those left still wait (R172, R176). -/
def Chip.wakeUp (c : Chip) (h : Home) : Nat → Chip
  | 0 => c
  | fuel + 1 => match c.firstDone (c.waitersAt h) with
    | none => c
    | some (m, c', d) => ((c'.setWaiters h ((c'.waitersAt h).erase m)).conclude m d).wakeUp h fuel
/-- Every waiter of a home tried. -/
def Chip.wake (c : Chip) (h : Home) : Chip := c.wakeUp h (c.waitersAt h).length
/-- The homes at which some instruction waits. -/
def Chip.waitedAt (c : Chip) : List Home :=
  ((c.cores.filter fun k => !k.2.waiters.isEmpty).map fun k => Home.core k.1)
  ++ (c.agentWait.filter fun p => !p.2.isEmpty).map fun p => Home.hbm (p.1 / 32) (p.1 % 32)
/-- Every waiter of the package tried, as after any write to the bytes that it waits on (R171, R242). -/
def Chip.wakeAll (c : Chip) : Chip := c.waitedAt.foldl Chip.wake c

/-- The home in this package of a tile's settle word, where it is not that of the tile. -/
def Chip.settleHome (c : Chip) (h : Home) (a : Nat) : Option Home :=
  let w := c.settleWord h a
  if w == 0 || tst w 63 then none
  else (c.tileOwner h a).bind fun o => (c.placeIn o w).bind fun p => if p.loc = 0 then some (hbmHome p.pa) else none
/-- The waiters tried after a step on an object: those of its home and those of its settle word's. -/
def Chip.wakeAfter (c : Chip) (h : Home) (a : Nat) : Chip :=
  let c := c.wake h
  match c.settleHome h a with
  | some h' => c.wake h'
  | none => c

/-- R387: an object instruction at its object's home. -/
def execObjectRequest (n : Nat) (s : State) : Host.Outcome State Fault Refusal :=
  event (fun c => match c.arriving n with
    | none => none
    | some m => match m.body with
      | .object op x y =>
        let (c, d) := (c.taken n).performObject m op x y
        let c := c.conclude m d
        some (match op with
          | .verpub | .verpubO | .verpubFin | .verstop | .verwait | .verchk | .verchkD => c.wakeAfter m.dest.home m.addr
          | _ => c.wake m.dest.home)
      | _ => none) s

/-! ## Answers -/

/-- A register field written by an answer: on a link a word pushed now. -/
def Chip.landField (c : Chip) (core frame : Nat) (r : Reg) (v : Word) : Chip :=
  match r with
  | .link d => c.modCore (neighbour core d) fun k =>
      { k with links := k.links.set (dirIx (opposite d)) (k.links[dirIx (opposite d)] ++ [(v, c.now)]) }
  | _ => c.modFrame core frame fun f => f.land r v false 0
/-- Whether a register field can take a word now (R15): a result that no issuing instruction waits for, a quotient or an
object's answer, waits itself until its link has room (log 67). -/
def Chip.canLand (c : Chip) (core : Nat) (r : Option Reg) : Bool :=
  match r with
  | some (.link d) => decide (0 < c.pushRoom core d)
  | _ => true

/-- The claims that a frame holds in another package, after an answer of `mclaim` or `mrel` (R233). -/
def Chip.noteClaim (c : Chip) (core frame : Nat) (r : Req) (pd : Bool) : Chip :=
  if r.msg.dest.pkg == c.pkg || !pd then c
  else match r.msg.body with
    | .object .mclaim gh _ => c.modFrame core frame fun f =>
        { f with claims := f.claims ++ [⟨none, r.msg.dest, r.msg.addr, r.msg.va, gh⟩] }
    | .object .mrel gh _ => c.modFrame core frame fun f =>
        { f with claims := f.claims.filter fun q => !(q.gh == gh && q.dest == r.msg.dest && q.addr == r.msg.addr) }
    | _ => c

/-- What an answer does to the frame that waits for it (R387): gd and pd together, a trap, or the instruction again (R177).
An edit settles its record of the order log: 1 when it held its claims (R225, R454). -/
def Chip.landObject (c : Chip) (core f : Nat) (r : Req) (gd : Option Reg) (pd : Option (BitVec 3)) (log : Option (Nat × Nat))
    (a : ObjAns) : Chip :=
  match a with
  | .trap cause detail e =>
    (c.settleRecord core log (flag (cause == 9))).takeTrap core f r.word false cause detail e
  | .withdrawn => c.modFrame core f fun fr => { fr with st := .ready, readySince := c.now }
  | .ok g p =>
    let c := c.settleRecord core log (flag (p || g != 0))
    let c := match gd with | some d => c.landField core f d g | none => c
    let c := c.noteClaim core f r p
    c.modFrame core f fun fr =>
      let fr := match pd with | some q => { fr with sw := withPred fr.sw q p } | none => fr
      { fr.advance with st := .ready, readySince := c.now }

/-- R387: the answer of an object's home. It waits while the link that gd names has no room. -/
def execObjectReply (n : Nat) (s : State) : Host.Outcome State Fault Refusal :=
  event (fun c => match c.arriving n with
    | none => none
    | some m => match m.dest.home, m.body with
      | .core core, .objReply a =>
        let c := c.taken n
        match tfind (c.coreAt core).reqs m.id with
        | none => some c
        | some r => match r.owner, r.want with
          | .frame f, .object gd pd log =>
            if !c.canLand core (match a with | .ok .. => gd | _ => none) then none
            else some ((c.close core m.id).landObject core f r gd pd log a)
          | _, _ => some (c.close core m.id)
      | _, _ => none) s

/-! ## Notices, settle words, withdrawals -/

/-- What becomes of a settle word's message at the home it was sent to. -/
inductive SettleTo where
  | lost
  | here
  | moved (p : Place) (addr : Nat)
  | back
  deriving DecidableEq, Repr
/-- Where a settle word's message acts (R190, R241, R243): none while its page is sealed. One of this package follows the owner's
tables to the page's new home; one of another passes the export table, and is answered page-moved. -/
def Chip.settlePlace (c : Chip) (m : Msg) : Option SettleTo :=
  match m.dest.home with
  | .core _ => some (if Config.dataEnd < m.addr + 8 then .lost else .here)
  | .hbm _ _ =>
    if !installed m.addr 8 then some .lost
    else if m.frank.pkg != c.pkg then
      some (if (c.actingCtx m 8 3).isNone then .lost else if c.isShut m.addr 8 then .back else .here)
    else match c.placeIn m.frank.ctx m.va with
      | none => some .lost
      | some p =>
        if p.loc != 0 || p.pa != m.addr then some (.moved (c.placeOf p) p.pa)
        else if c.isShut m.addr 8 then none else some .here
  | .host => some (if m.frank.pkg == c.pkg then .here else .lost)
  | .spine => some .lost
/-- R236: the counter rises to the version; R241, R243: a settle word is counted down, or written at a break. -/
def execNotice (n : Nat) (s : State) : Host.Outcome State Fault Refusal :=
  event (fun c => match c.arriving n with
    | none => none
    | some m => match m.dest.home, m.body with
      | .core core, .notice ctr v =>
        some ((c.taken n).modCore core fun k =>
          k.padUpdate [(ctr, fun old => if old.slt (BitVec.ofNat 64 v) then BitVec.ofNat 64 v else old)])
      | h, .settle brk => (c.settlePlace m).bind fun q => match q with
        | .lost => some (c.taken n)
        | .here => some (((c.taken n).settleAt h m.addr brk).wake h)
        | .moved p a => some ((c.taken n).post { m with dest := p, addr := a })
        | .back => some ((c.taken n).answer m (.nack 2))
      | _, _ => none) s

/-- R177: a waiter is withdrawn and answered, unless its instruction has completed before. -/
def execWaiterWithdrawal (n : Nat) (s : State) : Host.Outcome State Fault Refusal :=
  event (fun c => match c.arriving n with
    | none => none
    | some m => match m.body with
      | .withdraw =>
        let c := c.taken n
        match (c.waitersAt m.dest.home).find? fun w => w.id == m.id && w.frank.core == m.frank.core && w.frank.pkg == m.frank.pkg with
        | none => some c
        | some w =>
          some ((c.setWaiters m.dest.home ((c.waitersAt m.dest.home).erase w)).answer w (.objReply .withdrawn))
      | _ => none) s

end Sys2Proof.Machine
end

