-- ==== Sys2Proof/Machine/Sched.lean ====
section
/-! DEFINITION. Frames between their instructions: what ends a wait (R127), ageing (R129), the divider (R291), popping and
stealing tasks (R135, R143, R144), pushes that waited (R134), retirement and its trackers (R142, R318), the watchdog of a
replay (R151), and sleep (R405, R406). -/

namespace Sys2Proof.Machine

/-! ## Waits -/

/-- Whether an access that a drain waits for is open (R189): sent before, by the context, to the range. -/
def Chip.openThrough (c : Chip) (since ctx lo size : Nat) : Bool :=
  c.cores.any fun k => k.2.reqs.any fun r =>
    decide (r.1 < since) && r.2.msg.frank.ctx == ctx && r.2.retry.isNone && !tst r.2.msg.va 63
    && decide (lo ≤ r.2.msg.va.toNat) && decide (r.2.msg.va.toNat < lo + size)

/-- Whether what a frame waits for has come about. -/
def Chip.waitOver (c : Chip) (core f : Nat) (w : Wait) : Bool :=
  let k := c.coreAt core
  let fr := k.frameAt f
  let hd := fun (q : Nat) => k.handleSeen c.now ⟨q % 8, Nat.mod_lt _ (by decide)⟩
  match w with
  | .reg r => !k.pendingReg f r
  | .vreg v =>
    !(k.reqs.any fun p => match p.2.want with | .vpart x _ => x == v | _ => false)
    && !(k.vec.writes.any fun w => match w.dest with | .v n _ _ | .low n _ _ => n == v | _ => false)
  | .replySlots => decide (k.slotsUsed < 64)
  | .tracker => decide (k.trackerUsed < 128)
  | .acquire => !(k.reqs.any fun p => p.2.owner == .frame f && p.2.acq)
  | .release s => c.released core f s || !fr.refusals.isEmpty
  | .answers s => !c.openIn core (.frame f) s (fun _ => true) || !fr.refusals.isEmpty
  | .reads s => !c.openIn core (.frame f) s Req.isRead || !fr.refusals.isEmpty
  | .linkIn d => decide (0 < c.poppable core d)
  | .linkOut d => decide (0 < c.pushRoom core d)
  | .queueFull e => decide ((k.queue e).length < 16)
  | .vectorOwner => k.vec.owner.isNone
  | .matrixOwner => k.mowner.isNone
  | .sequencer => !k.sequencing f && k.vec.writes.isEmpty
  | .divider => k.divide.isNone
  | .cycle n => decide (n ≤ c.now)
  | .counter ctr t met _ => met || t.sle (rd64 k.pad ctr)
  | .filled q => (hd q).filled != 0 || !(hd q).en
  | .room q => (hd q).filled != (hd q).slots || !(hd q).en
  | .handleFree q => !(k.mxq ++ k.cpq).any fun m => m.names q
  | .home a n => !c.ahead core f a n && !k.stuck.any fun x => overlap x.part.lo x.part.len a n
  | .moved page => !k.reissuing (.frame f) (c.shiftAt core fr.ctx (page * 2 ^ 16)) (BitVec.ofNat 64 (page * 2 ^ 16))
  | .drain since ctx lo size => !c.openThrough since ctx lo size
  | .replay _ kind _ => (match fr.launch with
    | some l => c.logNext core l kind f == some true
    | none => true)
  | .sleep _ | .walk _ | .answer _ | .request .. | .report => false

/-- The oldest words of links that `wait` read at its issue, popped as it completes (R15, R315). -/
def Core.popDone (k : Core) (now : Nat) (l : List Dir) : Core :=
  l.foldl (fun k d => match k.links[dirIx d] with
    | [] => k
    | _ :: r => { k with
        links := k.links.set (dirIx d) r
        pops := k.pops.set (dirIx d) (now :: (k.pops[dirIx d]).filter (· == now)) }) k

/-- R127: `wait` and `xinv` complete when their condition holds (R141, R189); any other instruction issues again. -/
def execFrameReady (core frame : Nat) (s : State) : Host.Outcome State Fault Refusal :=
  event (fun c => match (c.frameAt core frame).st with
    | .stalled w =>
      if c.waitOver core frame w then
        let c := match w with | .counter _ _ _ l => c.modCore core fun k => k.popDone c.now l | _ => c
        some (c.modFrame core frame fun f =>
          let f := match w with | .counter .. | .drain .. => f.advance | _ => f
          { f with st := .ready, readySince := c.now })
      else none
    | _ => none) s

/-- The cycles of a signature's self-test that began at a time, since another time: a frame is not ready in them (R425). -/
def Chip.testedSince (c : Chip) (start since : Nat) : Nat := min c.now (start + testLimit) - max start since
/-- The cycles for which a ready frame has been ready without issuing (R129). -/
def Chip.readyCycles (c : Chip) (core : Nat) (f : Frame) : Nat :=
  c.now - f.readySince - ((c.testing.filter fun p => p.1 == .signature (sigOf core)).map fun p => c.testedSince p.2 f.readySince).sum
/-- R129 -/
def execFramePromotion (core frame : Nat) (s : State) : Host.Outcome State Fault Refusal :=
  event (fun c =>
    let f := c.frameAt core frame
    if f.st == .ready && !c.underTest core && !f.sup && decide (f.promoted < f.pri)
        && decide (1250000 * (f.promoted + 1) ≤ c.readyCycles core f) then
      some (c.modFrame core frame fun f => { f with promoted := f.promoted + 1 })
    else none) s

/-- R291: the result lands 24 cycles after the issue, in its thread's register, or on a link when that has room (log 67). -/
def execDivideComplete (core : Nat) (s : State) : Host.Outcome State Fault Refusal :=
  event (fun c => match (c.coreAt core).divide with
    | none => none
    | some d =>
      if c.now < d.due || !c.canLand core (some d.dest) then none
      else
        let c := c.modCore core fun k => { k with divide := none }
        some (match d.dest with
          | .g _ => if (c.frameAt core d.frame).thread = d.thread then c.landField core d.frame d.dest d.value else c
          | _ => c.landField core d.frame d.dest d.value)) s

/-! ## Pops and steals -/

/-- Whether an arrival that waits for a frame can start now: it goes before a pop (R135). -/
def Chip.arrivalStarts (c : Chip) (core : Nat) : Bool :=
  (c.coreAt core).postbox.any fun m => (c.startArrival core m).isSome

/-- Whether a core pops a task of some launch in this cycle (R135). -/
def Chip.popsNow (c : Chip) (core : Nat) : Bool :=
  let k := c.coreAt core
  c.dequeFree core && !c.arrivalStarts core && k.deque.any fun t =>
    t.launch.isSome && (k.lowest c.now fun f => f.reservedFor == t.launch).isSome

/-- R135: one task in a cycle, as one operation of the deque (R134). -/
def execTaskPop (core launch : Nat) (s : State) : Host.Outcome State Fault Refusal :=
  event (fun c =>
    let k := c.coreAt core
    match k.deque.find? fun t => t.launch == some launch, k.lowest c.now fun f => f.reservedFor == some launch with
    | some t, some f =>
      if c.arrivalStarts core || !c.dequeFree core then none
      else some ((c.modCore core fun k => { k with deque := k.deque.erase t, dequeOps := k.dequeOps + 1 }).startTask core f t)
    | _, _ => none) s

/-- Where a victim stands in a round (R143): own signature, other signatures of the quire, other quires of the die, other
dies, each after its own and wrapping. -/
def victimKey (core v : Nat) : Nat :=
  if sigOf v = sigOf core then (v % 16 + 16 - core % 16) % 16
  else if quireOf v = quireOf core then 2 ^ 20 + (sigOf v % 16 + 16 - sigOf core % 16) % 16 * 2 ^ 12 + v % 16
  else if dieOf v = dieOf core then 2 * 2 ^ 20 + (quireOf v % 16 + 16 - quireOf core % 16) % 16 * 2 ^ 12 + v % 256
  else 3 * 2 ^ 20 + (dieOf v + 8 - dieOf core) % 8 * 2 ^ 12 + v % 4096
/-- A victim put in its place. -/
def insertVictim (core v : Nat) : List Nat → List Nat
  | [] => [v]
  | w :: r => if victimKey core v < victimKey core w then v :: w :: r else w :: insertVictim core v r
/-- The victims of a round, in order, among the cores that hold a reservation of the launch (R143). -/
def victimOrder (core : Nat) (cores : List Nat) : List Nat :=
  (cores.filter (· != core)).foldr (insertVictim core) []

/-- The steal rounds of a core changed for one launch. -/
def Core.setSteal (k : Core) (launch : Nat) (q : Option Steal) : Core :=
  { k with stealing := k.stealing.filter (·.launch != launch) ++ q.toList }

/-- Whether a core may steal for a launch (R143): a free frame of its reservation, no task of it, no request out. -/
def Chip.maySteal (c : Chip) (core launch : Nat) : Bool :=
  let k := c.coreAt core
  (k.lowest c.now fun f => f.reservedFor == some launch).isSome && !(k.deque.any fun t => t.launch == some launch)
  && !(k.stealing.any (·.waiting)) && !(k.stealing.any fun q => q.launch == launch && q.backoff.isSome)

/-- R143, R151, R454: the request goes to the next victim of the round. In modes 1 and 2 it takes a record first; in a
replay it goes to the victim that the record holds. -/
def execStealRequest (core launch : Nat) (s : State) : Host.Outcome State Fault Refusal :=
  event (fun c => match tfind c.launches launch with
    | none => none
    | some l =>
      let k := c.coreAt core
      let victims := match k.stealing.find? (·.launch == launch) with
        | some q => q.victims
        | none => victimOrder core l.cores
      if !l.placed || !l.cores.contains core || !c.maySteal core launch || victims.isEmpty
        || (l.mode != 0 && c.logFull core launch) then none
      else match c.logNext core launch 1 0x7F with
      | none => if c.reports.contains (.slice core launch) then none else some (c.lostSlice core launch)
      | some false => none
      | some true =>
        let (c, log) := if l.mode = 0 then (c, none) else
          let (c, n) := c.logTake core launch 1 0x7F
          (c, some (launch, n))
        let expect := if l.mode = 2 then log.bind fun p => c.logOutcome core launch p.2 else none
        let victim := match expect with | some w => bits w 14 0 | none => victims.headD 0
        let c := c.modCore core fun k => k.setSteal launch (some ⟨launch, true, victims.drop 1, none, log⟩)
        some { c with steals := c.steals ++ [⟨false, core, victim, launch, none, expect⟩] }) s

/-- The n-th message of the steal network, when the core it is for is awake (R406). -/
def Chip.stealAt (c : Chip) (n : Nat) (reply : Bool) : Option StealMsg :=
  match c.steals[n]? with
  | none => none
  | some m =>
    let core := if reply then m.thief else m.victim
    let k := c.coreAt core
    if m.reply == reply && !k.asleep && decide (k.wakeAt ≤ c.now) && c.dequeFree core then some m else none

/-- The bottom task of a launch in a deque (R143). -/
def Core.bottom (k : Core) (launch : Nat) : Option Task := k.deque.reverse.find? fun t => t.launch == some launch

/-- A list without its last entry equal to x. -/
def eraseLast (l : List Task) (x : Task) : List Task := (l.reverse.erase x).reverse

/-- The outcome word of a steal's record (R151). -/
def stealOutcome (victim : Nat) (t : Option Task) : Word :=
  match t with
  | some t => BitVec.ofNat 64 (bits t.word 29 0 * 2 ^ 16 + victim)
  | none => BitVec.ofNat 64 (2 ^ 15 + victim)

/-- R143, R144: the victim answers with its bottom task of the launch or with empty, after the pop of its cycle (R134); in a
replay it waits until that is the outcome that the record holds (R151). -/
def execStealService (n : Nat) (s : State) : Host.Outcome State Fault Refusal :=
  event (fun c => match c.stealAt n false with
    | none => none
    | some m =>
      let t := match m.expect with
        | some w => if tst w 15 then none else (c.coreAt m.victim).bottom m.launch
        | none => (c.coreAt m.victim).bottom m.launch
      let fits := match m.expect with | some w => stealOutcome m.victim t == w | none => true
      if !fits || c.popsNow m.victim then none
      else
        let c := c.modCore m.victim fun k => { k with
          deque := match t with | some t => eraseLast k.deque t | none => k.deque
          dequeOps := k.dequeOps + 1 }
        some { c with steals := c.steals.set n { m with reply := true, task := t } }) s

/-- R143: the thief receives a task, or goes on with its round; a full round of empty replies begins a wait of 256 cycles. -/
def execStealReply (n : Nat) (s : State) : Host.Outcome State Fault Refusal :=
  event (fun c => match c.stealAt n true with
    | none => none
    | some m =>
      let k := c.coreAt m.thief
      match k.stealing.find? (·.launch == m.launch) with
      | none => some { c with steals := c.steals.eraseIdx n }
      | some q =>
        if m.task.isSome && k.dequeFull then none
        else
          let c := { c with steals := c.steals.eraseIdx n }
          let c := c.settleRecord m.thief q.log (stealOutcome m.victim m.task)
          some (match m.task with
            | some t => c.modCore m.thief fun k => (k.push t).setSteal m.launch none
            | none => c.modCore m.thief fun k => k.setSteal m.launch
                (some { q with waiting := false, log := none, backoff := if q.victims.isEmpty then some (c.now + 256) else none }))) s

/-- R143: the wait after an empty round is over. -/
def execStealBackoffExpiry (core : Nat) (s : State) : Host.Outcome State Fault Refusal :=
  event (fun c => match (c.coreAt core).stealing.find? fun q => match q.backoff with | some t => decide (t ≤ c.now) | none => false with
    | none => none
    | some q => some (c.modCore core fun k => k.setSteal q.launch none)) s

/-- R134, R313: a fired entry whose push waited, pushed. -/
def execDeferredTaskPush (core entry : Nat) (s : State) : Host.Outcome State Fault Refusal :=
  event (fun c =>
    let k := c.coreAt core
    if h : entry < 32 then
      let i : Fin 32 := ⟨entry, h⟩
      match k.wtab[i].fired with
      | none => none
      | some t =>
        if k.dequeFull || k.binderDraining k.wtab[i] || !c.dequeFree core then none
        else some (c.modCore core fun k => { k with wtab := k.wtab.set i WEntry.reset }.push t)
    else none) s

/-! ## Retirement -/

/-- What a `join` has bound and written, undone, since it traps (R290, R313): the entries of its thread are free, and their records
hold what they held. -/
def Core.unbind (k : Core) (thread : Nat) : Core :=
  (List.finRange 32).foldl (fun k i =>
    let e := k.wtab[i]
    if e.binder = some thread then { k with wtab := k.wtab.set i WEntry.reset }.padWrite (bits e.ctl 49 32 + 16) e.was else k) k
/-- R142, R165: a drain that completes cleanly makes the count-down and then frees the frame, which takes another thread from the
cycle after that on (log 80); a refusal that the drain meets is a trap at the `end` or `join` (R62, R313, R318). -/
def execRetirementDrainComplete (core frame : Nat) (s : State) : Host.Outcome State Fault Refusal :=
  event (fun c =>
    let f := c.frameAt core frame
    match f.st with
    | .retiring isJoin word =>
      if !c.drained core (.frame frame) f.thread || !f.engErr.isEmpty then none
      else match f.refusals with
        | r :: rest =>
          let c := if isJoin then c.modCore core fun k => k.unbind f.thread else c
          some ((c.modFrame core frame fun f => { f with refusals := rest }).takeTrap core frame word false r.cause r.detail r.eaddr)
        | [] =>
          let m := if isJoin then none else
            countDownMsg c.pkg core frame f.ctx f.sup f.pri f.tjoin f.tname (c.modeOf f.launch != 0) f.owner
          some (((c.sendCountDown core m).freeFrame core frame).modFrame core frame fun f => { f with freeAt := c.now + 2 })
    | _ => none) s

/-- R142, R318: a tail's entry drains, and what its thread owned is free (R161); a refusal withholds the count-down and is
reported. -/
def execTrackerDrainComplete (core t : Nat) (s : State) : Host.Outcome State Fault Refusal :=
  event (fun c => match tfind (c.coreAt core).trackers t with
    | none => none
    | some x =>
      let k := c.coreAt core
      if !c.drained core (.tracker t) x.thread || (k.vec.owner == some (tailParty t) && !k.vec.writes.isEmpty) then none
      else
        let c := c.modCore core fun k => { k.disown (tailParty t) with trackers := tdel k.trackers t }
        if x.refused then some c
        else some (c.sendCountDown core
          (countDownMsg c.pkg core x.frame x.ctx x.sup x.pri x.tjoin x.tname (c.modeOf x.launch != 0) x.launch))) s

/-! ## The watchdog of a replay -/

/-- The request of a frame whose logged outcome has not been possible for 2^20 cycles, if there is one. -/
def Chip.overdue (c : Chip) (core frame : Nat) : Option (Nat × Req) :=
  (c.coreAt core).reqs.find? fun p => p.2.owner == .frame frame && decide (p.2.sent + 2 ^ 20 < c.now)
    && (match p.2.msg.body with
        | .condStore _ _ (some _) | .object (.edit _ (some _)) _ _ => true
        | _ => false)

/-- R151, R410: trap 0x14 on the waiting frame. A conditional store is withdrawn and an edit gives its claims back. -/
def execOrderLogWatchdog (core frame : Nat) (s : State) : Host.Outcome State Fault Refusal :=
  event (fun c => match (c.frameAt core frame).st with
    | .stalled (.replay since _ word) =>
      if since + 2 ^ 20 < c.now then some (c.takeTrap core frame word false 0x14 0 0) else none
    | .ready | .stalled _ => (match c.overdue core frame with
      | none => none
      | some (id, r) =>
        let c := { c with
          net := c.net.filter fun m => !(m.id == id && isRequest m.body)
          edits := c.edits.map fun (e : EditRun) =>
            if e.msg.id == id && e.msg.frank.core == core then { e with dead := true } else e }
        some ((c.close core id).takeTrap core frame r.word false 0x14 0 0))
    | _ => none) s

/-! ## Sleep -/

/-- R405: `cy` has reached the count. -/
def execSleepExpiry (core frame : Nat) (s : State) : Host.Outcome State Fault Refusal :=
  event (fun c => match (c.frameAt core frame).st with
    | .stalled (.sleep till) =>
      if c.now < till then none
      else some (c.modFrame core frame fun f => { f.advance with st := .ready, readySince := c.now })
    | _ => none) s

/-- Whether a core has nothing to do (R406). -/
def Core.idle (k : Core) : Bool :=
  (k.frames.all fun p => match p.2.st with | .free | .parked | .stalled _ => true | _ => false)
  && k.mxq.isEmpty && k.cpq.isEmpty && k.postboxUsed == 0
/-- R406 -/
def execCoreSleep (core : Nat) (s : State) : Host.Outcome State Fault Refusal :=
  event (fun c =>
    let k := c.coreAt core
    if k.asleep || !k.idle || decide (c.now < k.wakeAt) then none
    else some (c.modCore core fun k => { k with asleep := true })) s

/-- Wake latency of a depth (R423). -/
def wakeLatency (depth : Nat) : Nat := match depth with | 0 => 2 | 1 => 40 | _ => 400
/-- Whether a message waits for a core. -/
def Chip.messageFor (c : Chip) (core : Nat) : Bool :=
  (c.net.any fun m => m.dest == ⟨c.pkg, .core core⟩)
  || c.steals.any fun m => (if m.reply then m.thief else m.victim) == core
/-- R406, R423: a frame that is ready, or a message, wakes the core, which acts after the latency of its depth. -/
def execCoreWake (core : Nat) (s : State) : Host.Outcome State Fault Refusal :=
  event (fun c =>
    let k := c.coreAt core
    if k.asleep && ((k.frames.any fun p => p.2.st == .ready) || c.messageFor core) then
      some (c.modCore core fun k => { k with asleep := false, wakeAt := c.now + wakeLatency (bits k.slpcfg 1 0) })
    else none) s

end Sys2Proof.Machine
end

