-- ==== Sys2Proof/Machine/Preempt.lean ====
section
/-! DEFINITION. Pre-emption and resume (R163 to R167): the four requests, parking with its save, and what a discarded or
fatal thread breaks (R156, R179). -/

namespace Sys2Proof.Machine

/-! ## What breaks with a thread -/

/-- The objects of a list broken that still hold a launch in their lset, each in one step at its home, with every waiter woken
(R179). -/
def Chip.breakListed (c : Chip) (w : Word) (l : List Listed) : Chip :=
  l.foldl (fun c o => match c.listedAt o with
    | some (h, a) => if c.inLset h a w then (c.breakHeader h a).wake h else c
    | none => c) c
/-- The objects of a launch broken (R179). -/
def Chip.breakObjects (c : Chip) (launch : Option Nat) : Chip :=
  match launch with
  | none => c
  | some n => match tfind c.launches n with
    | none => c
    | some l => c.breakListed (BitVec.ofNat 64 (c.pkg * 2 ^ 52 + n)) l.objects

/-- Instructions that wait at their object's home (R177, R389). -/
def waitsAtHome : ObjOp → Bool
  | .bwait | .chsend | .chrecv | .verpubO | .versettle => true
  | _ => false
/-- The withdrawal of an instruction that may wait at its object's home (R177). -/
def withdrawal (r : Req) : Option Msg :=
  match r.msg.body with
  | .object op _ _ => if waitsAtHome op then some { r.msg with body := .withdraw } else none
  | _ => none

/-- The requests of a frame left to themselves: their answers are dropped (R389), waiters are withdrawn (R177), and edits finish
the phase that they have reached (R226). -/
def Chip.orphan (c : Chip) (core frame : Nat) : Chip :=
  let mine := (c.coreAt core).reqs.filter fun p => p.2.owner == .frame frame
  let c := mine.foldl (fun c p => match withdrawal p.2 with | some m => c.post m | none => c) c
  let c := { c with edits := c.edits.map fun (e : EditRun) =>
    if e.msg.frank.pkg == c.pkg && e.msg.frank.core == core && mine.any (·.1 == e.msg.id) then { e with dead := true } else e }
  c.modCore core fun k => { k with
    reqs := k.reqs.map fun p => if p.2.owner == .frame frame then (p.1, { p.2 with owner := .gone }) else p
    divide := match k.divide with | some d => if d.frame == frame then none else some d | none => none }

/-- A thread discarded: its frame is freed without a count-down, and its objects break (R164, R179). -/
def Chip.discard (c : Chip) (core frame : Nat) : Chip :=
  let f := c.frameAt core frame
  ((c.orphan core frame).freeFrame core frame).breakObjects f.launch

/-! ## Saving (R162, R164) -/

/-- The vector part of a saved image (R162); an idle repetition buffer has no place in a repetition. -/
def Vec.image (x : Vec) : List Byte :=
  let busy := x.running || decide (0 < x.capturing)
  ((List.finRange 32).flatMap fun i => toLe 64 (x.v[i]).toNat)
  ++ ((List.finRange 8).flatMap fun i => toLe 8 (x.k[i]).toNat)
  ++ ((List.range 16).flatMap fun i => toLe 4 (x.words.getD i 0).toNat)
  ++ (if busy then toLe 8 (x.count + x.position * 2 ^ 8 + x.stride * 2 ^ 16 + x.remaining * 2 ^ 32) ++ toLe 8 x.iteration
      else toLe 16 0)
  ++ toLe 48 0
/-- The matrix part of a saved image. -/
def Core.accImage (k : Core) : List Byte := ((List.range 1024).flatMap fun i => toLe 4 (tget 0 k.acc i).toNat) ++ toLe 64 0

/-- Results in flight written before a save. -/
def Chip.flushVec (c : Chip) (core : Nat) : Chip :=
  let ws := (c.coreAt core).vec.writes
  let c := ws.foldl (fun c w => (c.landResult core w).getD c) c
  c.modCore core fun k => { k with vec := { k.vec with writes := [] } }

/-- Whether a save address faults (R163): alignment, one stack's installed space, a home that refuses. -/
def Chip.saveFaults (c : Chip) (a : Nat) : Bool := a % 64 != 0 || !installed a 6400 || c.isShut a 6400

/-- The owned state of a frame written to an address, and ownership ended (R164). Poisoned registers leave their sectors
poisoned (R453). -/
def Chip.save (c : Chip) (core frame a : Nat) : Chip :=
  let c := c.flushVec core
  let k := c.coreAt core
  let ownV := k.vec.owner == some frame
  let ownM := k.mowner == some frame
  let c := if ownV then c.writeHome (hbmHome a) a k.vec.image else c
  let c := if ownM then c.writeHome (hbmHome a) (a + 0x8C0) k.accImage else c
  let bad := if ownV then k.vec.poisoned.filter (fun p => decide (p.1 < 32)) else []
  let c := { c with hbmPoison := c.hbmPoison ++ bad.flatMap fun (p : Nat × Word) => [(a + 64 * p.1) / 32, (a + 64 * p.1) / 32 + 1] }
  c.modCore core fun k =>
    let k := k.modFrame frame fun f =>
      { f with esave := BitVec.ofNat 64 a, savedVec := ownV, savedCap := if ownV then k.vec.capturing else 0, savedAcc := ownM }
    let k := if ownV then { k with vec := k.vec.disown } else k
    if ownM then { k with mowner := none } else k

/-! ## Requests (R163) -/

/-- The asker's request on its way: its frame waits for the report from here on. The command processor asks by its own
path. -/
def Chip.asked (c : Chip) (q : Asker) (op core frame : Nat) : Option Chip :=
  if 96 ≤ frame || decide (Config.cores ≤ core) then none
  else match q with
    | .processor _ => some c
    | .frame ac af =>
      if (c.frameAt ac af).st == .stalled (.request op core frame) then
        some (c.modFrame ac af fun f => { f with st := .stalled .report })
      else none

/-- The withdrawal that a pre-emption sends to the home of a waiting frame's object (R177). -/
def Chip.withdraw (c : Chip) (core frame : Nat) : Chip :=
  match (c.frameAt core frame).st with
  | .stalled (.answer id) => (match (tfind (c.coreAt core).reqs id).bind withdrawal with
    | some m => c.post m
    | none => c)
  | _ => c

/-- R163, R164: pre-empt. A parked frame stays as it is, with status 0 (log 29). -/
def execPreqPreempt (q : Asker) (core frame : Nat) (s : State) : Host.Outcome State Fault Refusal :=
  event (fun c => match c.asked q 1 core frame with
    | none => none
    | some c =>
      let f := c.frameAt core frame
      match f.st with
      | .free => some (c.reportPreempt (some q) 1)
      | st =>
        if f.sup then some (c.reportPreempt (some q) 3)
        else if st == .parked then some (c.reportPreempt (some q) 0)
        else if f.preempt.isSome then none
        else some ((c.modFrame core frame fun f => { f with preempt := some q }).withdraw core frame)) s

/-- R164: resume and reissue. -/
def execPreqResumeReissue (q : Asker) (core frame : Nat) (s : State) : Host.Outcome State Fault Refusal :=
  event (fun c => match c.asked q 2 core frame with
    | none => none
    | some c =>
      if (c.frameAt core frame).st != .parked then some (c.reportPreempt (some q) 2)
      else some ((c.modFrame core frame fun f => { f with st := .ready, fatal := false, readySince := c.now }).reportPreempt
        (some q) 0)) s

/-- The word at a frame's pc, as its context's tables place it. -/
def Chip.wordAt (c : Chip) (core frame : Nat) : Option (BitVec 32) :=
  let f := c.frameAt core frame
  match c.translateNow (sigOf core) f.ctx f.sup f.pc .x false with
  | .ok p => some (BitVec.ofNat 32 (leNat (c.readPhys p 4)))
  | .error _ => none

/-- The register fields of an instruction that a resume with skip passes over (R167): those that it reads, whose links it pops, and
its destination, if it has one. -/
def skipFields (i : Instr) : List Reg × Option Reg :=
  match i with
  | .add _ d a b | .sub _ d a b | .mul _ d a b | .mulh _ d a b | .mulhu _ d a b | .div _ d a b | .divu _ d a b
  | .rem _ d a b | .remu _ d a b | .and _ d a b | .or _ d a b | .xor _ d a b | .andn _ d a b | .shl _ d a b
  | .shr _ d a b | .sar _ d a b | .rol _ d a b | .ror _ d a b | .min _ d a b | .max _ d a b | .minu _ d a b
  | .maxu _ d a b | .bfx _ d a b | .bfxu _ d a b | .verwait _ d a b | .gosset _ d a b | .barv _ d a b | .hqput _ d a b
  | .hqpeek _ d a b | .hqrel _ d a b | .hqveto _ d a b => ([a, b], some d)
  | .popc _ d a | .clz _ d a | .ctz _ d a | .sext8 _ d a | .sext16 _ d a | .sext32 _ d a | .zext8 _ d a | .zext16 _ d a
  | .zext32 _ d a | .mov _ d a | .wclr _ d a | .tlk _ d a | .mround _ d a | .verpub _ d a | .verpubO _ d a
  | .verpubFin _ d a | .verstop _ d a | .gosspr _ d a | .bar _ d a | .olog _ d a | .probe _ d a => ([a], some d)
  | .bfi _ d a b => ([d, a, b], some d)
  | .lea _ d a b .. | .sel _ d a b .. | .amoAdd _ d a b .. | .amoAnd _ d a b .. | .amoOr _ d a b .. | .amoXor _ d a b ..
  | .amoMin _ d a b .. | .amoMax _ d a b .. | .amoMinu _ d a b .. | .amoMaxu _ d a b .. | .amoSwap _ d a b ..
  | .rsc _ d a b .. | .mgetLink _ d a b .. | .mgetTwin _ d a b .. | .mgetOrigin _ d a b .. | .mgetEdge _ d a b ..
  | .mgetFace _ d a b .. | .mnext _ d a b .. | .mfldLow _ d a b .. | .mfldHigh _ d a b .. | .mflip _ d a b ..
  | .mref _ d a b .. => ([a, b], some d)
  | .cmp _ _ a b .. => ([a, b], none)
  | .addImm _ d a .. | .subImm _ d a .. | .andImm _ d a .. | .orImm _ d a .. | .xorImm _ d a .. | .shlImm _ d a ..
  | .shrImm _ d a .. | .sarImm _ d a .. | .get _ d a .. | .rll _ d a .. | .gosest _ d a .. | .chrecv _ d a .. => ([a], some d)
  | .cmpImm _ _ _ a .. => ([a], none)
  | .movi _ d .. | .qwait _ d .. | .qroom _ d .. | .qpos _ d .. | .getc _ d .. => ([], some d)
  | .call .. => ([], some (.g 15))
  | .jr _ _ a => ([a], none)
  | .fork _ c .. => ([c], none)
  | .join _ _ c t a => ([c, t, a], none)
  | .spawn _ a | .go _ a | .tinv _ a | .sleep _ a | .tgcfgWrite _ a | .tvbaseWrite _ a | .swWrite _ a | .slpcfgWrite _ a => ([a], none)
  | .wtab _ _ d c t a => ([c, t, a], some d)
  | .wait _ c t => ([c, t], none)
  | .ld _ _ d a .. | .lds _ _ d a .. | .gld _ _ d a .. => ([a], some d)
  | .st _ _ d a .. | .gst _ _ d a .. => ([d, a], none)
  | .tins _ a b | .corr _ a b | .gosadd _ a b | .xinv _ a b => ([a, b], none)
  | .cas _ d a b .. | .msplit _ d a b .. | .mcoll _ d a b .. => ([d, a, b], some d)
  | .qset _ a .. | .versettle _ a .. | .versettleT _ a .. | .setc _ a .. | .windowWrite _ a ..
  | .errorRegisterClear _ a .. => ([a], none)
  | .rep _ _ a .. => ([a], none)
  | .vbcst _ _ _ _ a .. | .vld _ _ _ _ a .. | .vldG _ _ _ _ a .. | .vst _ _ _ _ a .. | .vstG _ _ _ _ a ..
  | .vgather _ _ _ _ a .. | .vscatter _ _ _ _ a .. | .vamo _ _ _ _ a .. | .vamoG _ _ _ _ a .. => ([a], none)
  | .vext _ _ _ d .. => ([], some d)
  | .put _ d a b .. => ([d, a, b], none)
  | .putv _ d a .. => ([d, a], none)
  | .amsg _ d a b => ([d, a, b], none)
  | .red _ a b .. | .mval _ a b .. | .mclaim _ a b .. | .mrel _ a b .. | .verchk _ a b .. | .verchkD _ a b ..
  | .bwait _ a b .. | .chsend _ a b .. => ([a, b], none)
  | .fwd _ d a => ([.link a], some (.link d))
  | .mfstLow _ s a b .. | .mfstHigh _ s a b .. => ([s, a, b], none)
  | _ => ([], none)

/-- The links among the registers that an instruction reads, popped. -/
def popLinks : List Reg → M Unit
  | [] => pure ()
  | .link d :: l => do
    let _ ← popLink d
    popLinks l
  | _ :: l => popLinks l

/-- R167: the instruction at the saved pc is taken as performed. Its destination receives `paddr`; a `join` retires its
thread, and it and a `wtab` leave the bytes of their record as R139 writes them. None while a link that it names is not ready
(R259). -/
def skipped (c : Chip) (core frame : Nat) (paddr : Word) : Option Chip :=
  let c0 := { c with core := core, frame := frame }
  let go : M Unit := do
    match (c.wordAt core frame).bind decode with
    | none => advance
    | some i => do
      let (src, dst) := skipFields i
      checkLinks src dst.toList
      match i with
      | .join _ _ _ _ a => do
        popLinks (src.dropLast)
        let ga ← rd a
        let f ← theFrame
        spadWrite (ga.toNat + 16) 8 f.tjoin.toNat
        spadWrite (ga.toNat + 24) 8 f.tname.toNat
        modFrame fun f => { f with st := .retiring true ((c.wordAt core frame).getD 0) }
      | .wtab _ _ d _ _ a => do
        popLinks (src.dropLast)
        let ga ← rd a
        let j ← spad64 (ga.toNat + 16)
        let (ref, w) ← countUp j
        spadWrite (ga.toNat + 16) 8 ref.toNat
        spadWrite (ga.toNat + 24) 8 w.toNat
        wr d paddr
        advance
      | _ => do
        popLinks src
        match dst with
        | some d => wr d paddr
        | none => pure ()
        advance
  let on := fun (c : Chip) => c.modFrame core frame fun f => match f.st with
    | .retiring .. => f
    | _ => { f with st := .ready, fatal := false, readySince := c.now }
  match go c0 with
  | .ok _ c' => some (on c')
  | .error (.wait _) _ => none
  | .error _ _ => some (on (c0.modFrame core frame Frame.advance))

/-- The `paddr` that a request goes by. -/
def Chip.paddrOf (c : Chip) (q : Asker) : Word :=
  match q with
  | .frame core _ => (c.coreAt core).paddr
  | .processor a => a

/-- R167 -/
def execPreqResumeSkip (q : Asker) (core frame : Nat) (s : State) : Host.Outcome State Fault Refusal :=
  event (fun c => match c.asked q 3 core frame with
    | none => none
    | some c =>
      if (c.frameAt core frame).st != .parked then some (c.reportPreempt (some q) 2)
      else (skipped c core frame (c.paddrOf q)).map fun c => c.reportPreempt (some q) 0) s

/-- R164: discard. -/
def execPreqDiscard (q : Asker) (core frame : Nat) (s : State) : Host.Outcome State Fault Refusal :=
  event (fun c => match c.asked q 4 core frame with
    | none => none
    | some c =>
      if (c.frameAt core frame).st != .parked then some (c.reportPreempt (some q) 2)
      else some ((c.discard core frame).reportPreempt (some q) 0)) s

/-! ## Parking (R164, R165) -/

/-- Whether a frame stands at a boundary where a pre-emption can be taken: its traps are delivered, no answer is awaited
(R177, R389), but for one to a read of a list (R366), no append to a list is half made (R335), and what its owned state still waits for has come: its parts in flight, room for its pushes onto links (R15), and the
release of its save (R164). -/
def Chip.atBoundary (c : Chip) (core frame : Nat) : Bool :=
  let k := c.coreAt core
  let f := k.frameAt frame
  let owns := k.vec.owner == some frame || k.mowner == some frame
  (match f.st with
    | .ready => true
    | .stalled w => (match w with
      | .answer id => (match tfind k.reqs id with | some r => r.want == .listed | none => false)
      | .request .. | .report | .drain .. => false
      | _ => true)
    | _ => false)
  && f.engErr.isEmpty && f.trapping.isNone && !f.far.contains .done
  && (!owns || (c.released core frame .pkg
    && !(k.reqs.any fun p => p.2.owner == .frame frame && (match p.2.want with | .vpart .. => true | _ => false))
    && !(k.vec.writes.any fun w => match w.dest with | .g (.link _) _ => true | _ => false)))

/-- A frame's reads of a list in another package left to themselves: the instruction that makes them issues again from its start
(R366). -/
def Core.dropListed (k : Core) (frame : Nat) : Core :=
  let drop := fun (p : Nat × Req) =>
    if p.2.owner == .frame frame && p.2.want == .listed then (p.1, { p.2 with owner := .gone }) else p
  ({ k with reqs := k.reqs.map drop }).modFrame frame fun f => { f with far := [] }
/-- R164, R165: the frame parks, its owned state saved to `paddr`. A sleep ends, with the triple after it (R405). -/
def execFramePark (core frame : Nat) (s : State) : Host.Outcome State Fault Refusal :=
  event (fun c => match (c.frameAt core frame).preempt with
    | none => none
    | some q =>
      if !c.atBoundary core frame then none
      else
        let k := c.coreAt core
        let owns := k.vec.owner == some frame || k.mowner == some frame
        let a := (c.paddrOf q).toNat
        let c := c.modFrame core frame fun f =>
          { (match f.st with | .stalled (.sleep _) => f.advance | _ => f) with st := .parked, preempt := none }
        let c := c.modCore core fun k => k.dropListed frame
        some (if !owns then c.reportPreempt (some q) 0
          else if c.saveFaults a then c.reportPreempt (some q) 4
          else (c.save core frame a).reportPreempt (some q) 0)) s

end Sys2Proof.Machine
end

