-- ==== Sys2Proof/Machine/System.lean ====
section
/-! DEFINITION. Class 111 (R400 to R412): traps, control registers, sleep, invalidation, halt, the program's own order log
records, and the translation probe. -/

namespace Sys2Proof.Machine

/-! ## Traps and returns -/

/-- R401: the trap instruction. -/
def execTrap (g : Guard) (i : BitVec 11) (s : State) : Host.Outcome State Fault Refusal :=
  plain (.trap g i) (do
    notSequencing
    raise 0x11 (i.setWidth 64) (i.toNat % 256)) s

/-- R158, R400, R402: outside a handler it raises 0x01, which goes before the 0x02 of a slot (R153). -/
def execRfe (g : Guard) (s : State) : Host.Outcome State Fault Refusal :=
  .next { s with chip := finish (.rfe g) false (do
    let c ← get
    if c.capturing then
      modCore fun k => k.dropCapture c.frame
      raise 1
    let f ← theFrame
    let yes := guardHolds g f.sw
    if yes then notSequencing
    raiseIf (yes && !f.inTrap) 1
    raiseIf f.inSlot 2
    if yes then
      modCore fun k => k.resumeSeq c.frame
      modFrame Frame.leave
    else advance) s.chip }

/-- R408 -/
def execBrkpt (g : Guard) (s : State) : Host.Outcome State Fault Refusal :=
  plain (.brkpt g) (do
    notSequencing
    raise 0x10) s

/-! ## Control registers (R403, R404) -/

/-- `engq` (R104). -/
def Core.engq (k : Core) : Word := BitVec.ofNat 64 (k.cpq.length * 2 ^ 8 + k.mxq.length)
/-- `ctxinfo` (R93). -/
def Ctx.info (x : Ctx) : Word :=
  BitVec.ofNat 64 (x.rtcount * 16 + x.maxpri * 4 + x.flags % 2 * 2 + (x.st == .draining).toNat)
/-- The monitors of a die (R424). -/
def Chip.monitor (c : Chip) (die : Nat) : Monitor := c.monitors[die % 9]'(Nat.mod_lt _ (by decide))

/-- A control register as `getc` reads it; none for a selector that is not listed (R403). -/
def Chip.control (c : Chip) (sel : Nat) : Option Word :=
  let k := c.coreAt c.core
  let f := k.frameAt c.frame
  let m := c.monitor (dieOf c.core)
  match sel with
  | 0x000 => some (k.swOf c.frame)
  | 0x001 => some f.tname
  | 0x002 => some f.tjoin
  | 0x010 => some f.epc
  | 0x011 => some f.enpc
  | 0x012 => some f.ennpc
  | 0x013 => some f.esw
  | 0x014 => some f.ecause
  | 0x015 => some f.eaddr
  | 0x016 => some f.esave
  | 0x020 => some f.volist
  | 0x021 => some f.vobase
  | 0x030 => some k.win[0]
  | 0x031 => some k.win[1]
  | 0x032 => some k.win[2]
  | 0x033 => some k.win[3]
  | 0x034 => some k.tgcfg
  | 0x035 => some k.engq
  | 0x036 => some k.mxerr
  | 0x037 => some k.cperr
  | 0x040 => some (c.ctxAt f.ctx).info
  | 0x041 => some (c.ctxAt f.ctx).tvbase
  | 0x050 => some 0
  | 0x051 => some k.pstat
  | 0x052 => some k.paddr
  | 0x060 => some k.slpcfg
  | 0x070 => some m.tmon
  | 0x071 => some m.vmon
  | 0x072 => some m.pmon
  | _ => none
/-- Registers that `getc` gives to a supervisor frame alone (R403). -/
def supervisorOnly (sel : Nat) : Bool := (0x50 ≤ sel && sel ≤ 0x52) || (0x70 ≤ sel && sel ≤ 0x72)

/-- R403 -/
def execGetc (g : Guard) (d : Reg) (sel : BitVec 10) (s : State) : Host.Outcome State Fault Refusal :=
  plain (.getc g d sel) (do
    notSequencing
    let c ← get
    match c.control sel.toNat with
    | none => raise 1
    | some v => do
      let f ← theFrame
      raiseIf (supervisorOnly sel.toNat && !f.sup) 7
      use [] [d]
      wr d v) s

/-! ## Writes with a behaviour of their own -/

/-- Whether a write to a window register is refused (R59): a foreign context too, whatever en is, but for the zero word, by which a
program closes its window (R436, log 30). -/
def badWindow (v : Word) (ctx : Nat) (sup : Bool) : Bool :=
  (tst v 63 && decide (bits v 27 16 < bits v 11 0)) || decide (0xB00 ≤ bits v 27 16) || decide (5 ≤ bits v 46 44)
  || (!sup && v != 0 && (tst v 47 || bits v 57 48 != ctx))
/-- The reserved bits of a window register read as zero (R58). -/
def windowBits (v : Word) : Word := putBits (putBits v 43 28 0) 15 12 0
/-- A window register written in cycle `now`: the windows as they stood before that cycle are kept for its arrivals (R404). -/
def Core.putWindow (k : Core) (now : Nat) (n : Fin 4) (v : Word) : Core :=
  { k with winOld := if k.winAt = now then k.winOld else k.win, winAt := now, win := k.win.set n (windowBits v) }
/-- R59 -/
def setWindow (n : Fin 4) (v : Word) : M Unit := do
  let f ← theFrame
  raiseIf (badWindow v f.ctx f.sup) 7
  let c ← get
  modCore fun k => k.putWindow c.now n v

/-- Whether a slot geometry is refused (R63). -/
def badGeometry (v : Word) : Bool :=
  bits v 19 18 == 3 || decide (256 < bits v 8 0)
  || decide (Config.dataEnd < bits v 17 12 * 4096 + bits v 8 0 * 2 ^ (8 + 2 * bits v 19 18))
/-- R63: every entry is invalidated; without privilege only while no other context has one. -/
def setGeometry (v : Word) : M Unit := do
  let f ← theFrame
  let k ← theCore
  raiseIf (badGeometry v || (!f.sup && k.tags.any fun p => p.2.ctx != f.ctx)) 7
  modCore fun k => { k with tgcfg := putBits (putBits v 63 20 0) 11 9 0, tags := [] }

/-- R93 -/
def setVectors (v : Word) : M Unit := do
  let f ← theFrame
  raiseIf (!f.sup || v.toNat % 256 != 0 || bits v 63 57 != 0) 7
  modify fun c => c.modCtx f.ctx fun x => { x with tvbase := v }

/-- R264: pri, unless it is more urgent than the context's maxpri, mig and p7 to p1. -/
def setStatus (v : Word) : M Unit := do
  let c ← get
  modFrame fun f =>
    let sw := if (c.ctxAt f.ctx).maxpri ≤ bits v 31 30 then putBits f.sw 31 30 (bits v 31 30) else f.sw
    { f with sw := putBits (putBits sw 17 17 (bits v 17 17)) 7 1 (bits v 7 1) }

/-- R352: 0 in bit v clears it, 1 is ignored. -/
def clearError (e : Engine) (v : Word) : M Unit :=
  if tst v 63 then pure ()
  else match e with
    | .mx => modCore fun k => { k with mxerr := putBits k.mxerr 63 63 0 }
    | .cp => modCore fun k => { k with cperr := putBits k.cperr 63 63 0 }

/-- R406 -/
def setSleep (v : Word) : M Unit := do
  let f ← theFrame
  raiseIf (!f.sup || bits v 1 0 == 3) 7
  modCore fun k => { k with slpcfg := BitVec.ofNat 64 (bits v 1 0) }

/-- R154: the saved words are written in a handler alone, and sup of `esw` not without privilege. -/
def setSaved (sel : Nat) (v : Word) : M Unit := do
  let f ← theFrame
  raiseIf (!f.inTrap) 7
  match sel with
  | 0x010 => modFrame fun f => { f with epc := v }
  | 0x011 => modFrame fun f => { f with enpc := v }
  | 0x012 => modFrame fun f => { f with ennpc := v }
  | 0x013 => modFrame fun f =>
      let w := putBits (putBits (putBits v 63 32 0) 23 20 0) 14 8 0
      { f with esw := if f.sup then w else putBits w 19 19 (bits f.esw 19 19) }
  | _ => modFrame fun f => { f with eaddr := v }

/-- R163: the request goes on its way and the frame stalls until the report. Reserved bits are ignored (R6, log 13). -/
def setRequest (v : Word) : M Unit := do
  let c ← get
  let f ← theFrame
  let op := bits v 63 61
  raiseIf (!f.sup || op == 0 || decide (5 ≤ op) || decide (96 ≤ bits v 38 32) || quireOf (bits v 14 0) != quireOf c.core) 7
  modFrame fun f => { f with st := .stalled (.request op (bits v 14 0) (bits v 38 32)) }

/-- A `setc` by selector; whether the frame goes on to its next instruction (R163 stalls it). -/
def setControl (sel : Nat) (v : Word) : M Bool := do
  let f ← theFrame
  match sel with
  | 0x000 => do setStatus v; pure true
  | 0x010 | 0x011 | 0x012 | 0x013 | 0x015 => do setSaved sel v; pure true
  | 0x020 => do modFrame fun f => { f with volist := putBits (putBits v 63 57 0) 2 0 0 }; pure true
  | 0x021 => do modFrame fun f => { f with vobase := putBits v 63 32 0 }; pure true
  | 0x030 => do setWindow 0 v; pure true
  | 0x031 => do setWindow 1 v; pure true
  | 0x032 => do setWindow 2 v; pure true
  | 0x033 => do setWindow 3 v; pure true
  | 0x034 => do setGeometry v; pure true
  | 0x036 => do clearError .mx v; pure true
  | 0x037 => do clearError .cp v; pure true
  | 0x041 => do setVectors v; pure true
  | 0x050 => do setRequest v; pure false
  | 0x052 => do
    raiseIf (!f.sup) 7
    modCore fun k => { k with paddr := v }
    pure true
  | 0x060 => do setSleep v; pure true
  | _ => raise 7

/-- R403, R404: a selector that is not listed raises 0x01, a register that takes no writes 0x07. -/
def execSetc (g : Guard) (a : Reg) (sel : BitVec 10) (s : State) : Host.Outcome State Fault Refusal :=
  steers (.setc g a sel) (do
    notSequencing
    let c ← get
    raiseIf (c.control sel.toNat).isNone 1
    use [a] []
    let v ← rd a
    let on ← setControl sel.toNat v
    if on then advance) s

/-- A `setc` of one register. -/
def setcOf (i : Instr) (a : Reg) (f : Word → M Unit) (s : State) : Host.Outcome State Fault Refusal :=
  plain i (do
    notSequencing
    use [a] []
    let v ← rd a
    f v) s
/-- R59 -/
def execWindowWrite (g : Guard) (a : Reg) (n : BitVec 2) (s : State) : Host.Outcome State Fault Refusal :=
  setcOf (.windowWrite g a n) a (setWindow n.toFin) s
/-- R63 -/
def execTgcfgWrite (g : Guard) (a : Reg) (s : State) : Host.Outcome State Fault Refusal :=
  setcOf (.tgcfgWrite g a) a setGeometry s
/-- R93 -/
def execTvbaseWrite (g : Guard) (a : Reg) (s : State) : Host.Outcome State Fault Refusal :=
  setcOf (.tvbaseWrite g a) a setVectors s
/-- R264 -/
def execSwWrite (g : Guard) (a : Reg) (s : State) : Host.Outcome State Fault Refusal :=
  setcOf (.swWrite g a) a setStatus s
/-- R352 -/
def execErrorRegisterClear (g : Guard) (a : Reg) (e : Engine) (s : State) : Host.Outcome State Fault Refusal :=
  setcOf (.errorRegisterClear g a e) a (clearError e) s
/-- R406 -/
def execSlpcfgWrite (g : Guard) (a : Reg) (s : State) : Host.Outcome State Fault Refusal :=
  setcOf (.slpcfgWrite g a) a setSleep s

/-! ## Sleep and halt -/

/-- R405: the frame is not ready until `cy` reaches its value at issue plus the count. -/
def execSleep (g : Guard) (a : Reg) (s : State) : Host.Outcome State Fault Refusal :=
  steers (.sleep g a) (do
    notSequencing
    use [a] []
    let v ← rd a
    let c ← get
    if bits v 31 0 = 0 then advance
    else modFrame fun f => { f with st := .stalled (.sleep (c.now + bits v 31 0)) }) s

/-- R409: parked with the triple that follows, and reported. -/
def execHalt (g : Guard) (s : State) : Host.Outcome State Fault Refusal :=
  steers (.halt g) (do
    notSequencing
    let f ← theFrame
    raiseIf (!f.sup) 7
    advance
    modFrame fun f => { f with st := .parked }
    modify fun c => { c with reports := c.reports ++ [Report.halt c.core c.frame] }) s

/-! ## Invalidation (R188, R189, R407) -/

/-- Whether a cached translation is removed with a range of a context (R188). -/
def Tlb.within (e : Tlb) (ctx lo n : Nat) : Bool :=
  e.ctx == ctx && overlap (e.page * pageBytes e.size) (pageBytes e.size) lo n
/-- A queued command without the translations whose pages meet a range: it translates afresh (R189). -/
def Cmd.forget (m : Cmd) (ctx lo n : Nat) : Cmd :=
  let keeps := fun (l : Nat × Word × Nat) =>
    let b := pageBytes l.2.2
    !overlap (l.1 * 2 ^ 16 / b * b) b lo n
  if m.ctx == ctx && !m.ran then { m with leaves := m.leaves.filter keeps } else m
/-- Every cached translation of a context whose page meets a range removed from every cache (R188). -/
def Chip.invalidate (c : Chip) (ctx lo n : Nat) : Chip :=
  { c with
    tlb := c.tlb.map fun (p : Nat × List Tlb) => (p.1, p.2.filter fun e => !e.within ctx lo n)
    cores := c.cores.map fun (p : Nat × Core) =>
      (p.1, { p.2 with mxq := p.2.mxq.map fun m => m.forget ctx lo n, cpq := p.2.cpq.map fun m => m.forget ctx lo n }) }
/-- The addresses that the entries removed with a range translate: the range, and the pages of larger entries that it lies in
(R189). -/
def Chip.removedSpan (c : Chip) (ctx lo n : Nat) : Nat × Nat :=
  let l := (c.tlb.flatMap fun p => p.2).filter fun e => e.within ctx lo n
  let a := l.foldl (fun a e => min a (e.page * pageBytes e.size)) lo
  (a, l.foldl (fun b e => max b ((e.page + 1) * pageBytes e.size)) (lo + n) - a)

/-- R188, R189, R407: the translations go at once, and the frame waits for the drain, an acquire at its end. -/
def execXinv (g : Guard) (a b : Reg) (s : State) : Host.Outcome State Fault Refusal :=
  steers (.xinv g a b) (do
    notSequencing
    use [a, b] []
    let va ← rd a
    let gt ← rd b
    let f ← theFrame
    let all := tst gt 63
    let ctx := bits gt 57 48
    let size := bits gt 1 0
    raiseIf (!f.sup) 7
    raiseIf (bits gt 62 58 != 0 || bits gt 47 2 != 0 || size == 3 || (f.ctx != 0 && ctx != f.ctx)) 7
    raiseIf (!all && va.toNat % pageBytes size != 0) 3 va
    let (lo, n) := if all then (0, 2 ^ 64) else (va.toNat, pageBytes size)
    let c ← get
    let (a, m) := c.removedSpan ctx lo n
    set (c.invalidate ctx lo n)
    modFrame fun f => { f with st := .stalled (.drain c.nextReq ctx a m) }) s

/-! ## The order log and the probe -/

/-- R410 -/
def execOlog (g : Guard) (d a : Reg) (s : State) : Host.Outcome State Fault Refusal :=
  plain (.olog g d a) (do
    notSequencing
    use [a] [d]
    let v ← rd a
    let c ← get
    let f ← theFrame
    match f.launch with
    | none => wr d v
    | some l =>
      match c.modeOf (some l) with
      | 0 => wr d v
      | 1 => do
        let r ← takeRecord 5
        modify fun c => c.settleRecord c.core r v
        wr d v
      | _ => do
        let w ← prescribed (← takeRecord 5)
        wr d (w.getD 0)) s

/-- The word that `probe` gives for a leaf (R411). -/
def probeWord (leaf : Word) (size : Nat) (sup : Bool) : Word :=
  let x := putBits leaf 13 12 size
  if sup then x else putBits x 63 16 0
/-- R411: a walk that faults gives 0, and so does an address outside the space. -/
def execProbe (g : Guard) (d a : Reg) (s : State) : Host.Outcome State Fault Refusal :=
  plain (.probe g d a) (do
    notSequencing
    use [a] [d]
    let va ← rd a
    let c ← get
    let f ← theFrame
    let page := va.toNat / 2 ^ 16
    if bits va 63 57 != 0 then wr d 0
    else match c.cached (sigOf c.core) f.ctx va.toNat with
      | some (leaf, size) => wr d (probeWord leaf size f.sup)
      | none => do
        let failed := match f.walkFault with | some p => p.1 == page | none => false
        waitIf (!failed) (.walk page)
        modFrame fun f => { f with walkFault := none }
        wr d 0) s

/-- The issue of a word that names no instruction: 0x01, and a capture that it breaks is dropped (R269, R289). -/
def illegal : M Unit := do
  let c ← get
  if c.capturing then
    modCore fun k => k.dropCapture c.frame
  raise 1
/-- R289: a word that the opcode map does not assign raises 0x01 at issue. -/
def execIllegalInstruction (w : BitVec 32) (s : State) : Host.Outcome State Fault Refusal :=
  .next { s with chip := finishWord w false illegal s.chip }

end Sys2Proof.Machine
end

