-- ==== Sys2Proof/Machine/Command.lean ====
section
/-! DEFINITION. Host command queues (R94 to R101): their registers, the choice of the next record, completions and
rejections. -/

namespace Sys2Proof.Machine

/-! ## Queues and records -/

/-- Queue q: 16 times its context plus its number (R94). -/
def Chip.queueAt (c : Chip) (q : Nat) : HostQueue := tget HostQueue.reset c.queues q
/-- A queue changed. -/
def Chip.modQueue (c : Chip) (q : Nat) (f : HostQueue → HostQueue) : Chip := { c with queues := tset c.queues q (f (c.queueAt q)) }
/-- Whether a queue page belongs to a queue of a context (R83, R94); those of context 0 exist from the start (log 11). -/
def Chip.hasQueue (c : Chip) (q : Nat) : Bool :=
  decide (q < 16384) && (decide (q < 16) || ((c.ctxAt (q / 16)).st != .free && decide (q % 16 < (c.ctxAt (q / 16)).nqueue)))
/-- Entries of a ring (R94). -/
def HostQueue.size (q : HostQueue) : Nat := 2 ^ q.lsize
/-- Whether records from head to tail - 1, modulo the entry count, are left (R96): a doorbell in error may have left the tail at
or above the count (R101, log 76). -/
def HostQueue.unread (q : HostQueue) : Bool := q.head != q.tail % q.size
/-- Pending records (R96). -/
def HostQueue.hasPending (q : HostQueue) : Bool := q.st == .running && q.unread
/-- The index of the record that was just taken. -/
def Chip.taking (c : Chip) (q : Nat) : Nat := let x := c.queueAt q; (x.head + x.size - 1) % x.size
/-- The record at a queue's head; no bytes where the read of the ring fails (R100). -/
def Chip.headRecord (c : Chip) (q : Nat) : List Byte :=
  let x := c.queueAt q
  let a := x.base.toNat + 256 * x.head
  if c.hostFails a 256 then [] else rdBytes c.host a 256

/-- Whether the command processor accepts records now (R84, R98, R422). -/
def Chip.accepting (c : Chip) : Bool := c.job.isNone && (c.devState == 1 || c.devState == 2)
/-- The queue whose record is read next (R98): ascending, wrapping after the last one served. -/
def Chip.nextQueue (c : Chip) : Option Nat :=
  let l := (c.queues.filter fun p => p.2.hasPending).map (·.1)
  if !c.accepting then none else (l.find? fun q => decide (c.turn ≤ q)).orElse fun _ => l.head?

/-! ## Completions -/

/-- A completion slot (R99): bytes 4 to 31 first, then bytes 0 to 3. It stands where `cqcpl` points at that moment, also for a
launch whose queue has been disabled and given another `cqcpl` since (DESIGN CHOICE, log 83). -/
def Chip.complete (c : Chip) (q index code kind tag : Nat) (launch detail : Word) : Chip :=
  let a := (c.queueAt q).cpl.toNat + 32 * index
  let c := c.writeHome .host (a + 4) (toLe 4 tag ++ toLe 8 launch.toNat ++ toLe 8 detail.toNat ++ toLe 8 0)
  c.writeHome .host a (toLe 2 code ++ toLe 1 kind ++ toLe 1 1)
/-- The completion of a record. -/
def Chip.completeRecord (c : Chip) (q index code : Nat) (r : List Byte) (launch detail : Word) : Chip :=
  c.complete q index code (field r 0 1) (field r 4 4) launch detail

/-- What the command processor does with a record: a rejection, an action complete, or one that completes later. -/
inductive Verdict where
  | reject (code : Nat)
  | done (c : Chip) (detail : Word)
  | later (c : Chip)
  deriving DecidableEq, Repr

/-- A record taken from the head of its queue and acted on (R98 to R101). Every code but 0 counts as a rejection at validation,
those of grant, accept and revoke too (log 74). -/
def Chip.handle (c : Chip) (q : Nat) (r : List Byte) (v : Chip → Verdict) : Chip :=
  let i := (c.queueAt q).head
  let c := { c.modQueue q fun x => { x with head := (x.head + 1) % x.size } with turn := q + 1 }
  match v c with
  | .reject code =>
    (c.modQueue q fun x => { x with
      st := if x.st = .running then .error else x.st
      err := BitVec.ofNat 64 (i * 2 ^ 32 + code) }).completeRecord q i code r 0 0
  | .done c detail => c.completeRecord q i 0 r 0 detail
  | .later c => c

/-- The checks that come before a record's own: the kinds of context 0, a context that is killed, one that is building,
whose queues take mapping records alone, and the reserved header bytes (R84, R85, R97, R100), those of a launch record aside:
it tests whether its context is live before them (R116). While its context is building a record of an invalid kind from 0x0B up
is rejected with 0x0005 as those of 7 to 0x0A are, and one of kind 0 with 0x0001 (DESIGN CHOICE, log 42). -/
def Chip.headerCode (c : Chip) (q : Nat) (r : List Byte) : Option Nat :=
  let kind := field r 0 1
  let ctx := q / 16
  if (c.ctxAt ctx).st = .killing ∨ (c.ctxAt ctx).st = .closing then some 6
  else if 2 ≤ kind ∧ kind ≤ 5 ∧ ctx ≠ 0 then some 0x000C
  else if (c.ctxAt ctx).st = .building ∧ 7 ≤ kind then some 5
  else if kind ≠ 1 ∧ !zeroBytes r 1 3 then some 1 else none

/-- The step for records of a kind: enabled while such a record is the next one. -/
def recordStep (q : Nat) (is : List Byte → Bool) (v : Nat → List Byte → Chip → Verdict) (s : State) :
    Host.Outcome State Fault Refusal :=
  event (fun c =>
    let r := c.headRecord q
    if c.nextQueue == some q && is r then
      some (c.handle q r fun c => match c.headerCode q r with | some e => .reject e | none => v q r c)
    else none) s

/-- Whether a record is of a kind. -/
def isKind (k : Nat) (r : List Byte) : Bool := field r 0 1 == k

/-- R100: a record of invalid kind, or one that could not be read. Its completion then gives kind and tag 0 (log 40). -/
def execMalformedRecord (q : Nat) (s : State) : Host.Outcome State Fault Refusal :=
  recordStep q (fun r => isKind 0 r || decide (0x0B ≤ field r 0 1)) (fun _ r _ => .reject (if r.isEmpty then 9 else 1)) s

/-! ## Registers (R94, R95, R101) -/

/-- R101: `cqcfg.en` written 1 while disabled; another configuration than a valid one is ignored. -/
def execQueueEnable (q : Nat) (v : Word) (s : State) : Host.Outcome State Fault Refusal :=
  event (fun c =>
    let x := c.queueAt q
    if !c.hasQueue q || x.st != .disabled || !tst v 0 then none
    else if bits v 12 8 < 4 || decide (16 < bits v 12 8) || x.base.toNat % 4096 != 0 || x.cpl.toNat % 4096 != 0 then some c
    else some (c.modQueue q fun x => { x with st := .running, lsize := bits v 12 8, head := 0, tail := 0, err := 0 })) s
/-- R101: `cqcfg.en` written 0, whatever resume and flush hold beside it (DESIGN CHOICE, log 83). While disabled it only sets
lsize (R95). -/
def execQueueDisable (q : Nat) (v : Word) (s : State) : Host.Outcome State Fault Refusal :=
  event (fun c =>
    if !c.hasQueue q || tst v 0 then none
    else match (c.queueAt q).st with
      | .running | .error => some (c.modQueue q fun x => { x with st := .disabled, err := 0 })
      | .disabled => some (c.modQueue q fun x => { x with lsize := bits v 12 8 })
      | .stopped => some c) s
/-- R96, R101: a doorbell; while the queue runs a tail at or above the entry count is a bad one. A write while it is disabled or
stopped is ignored (log 76). -/
def execQueueDoorbell (q : Nat) (v : Word) (s : State) : Host.Outcome State Fault Refusal :=
  event (fun c =>
    if !c.hasQueue q then none
    else
      let x := c.queueAt q
      let t := bits v 15 0
      match x.st with
      | .running =>
        if x.size ≤ t then some (c.modQueue q fun x => { x with st := .error, err := BitVec.ofNat 64 (x.head * 2 ^ 32 + 0x0B) })
        else some (c.modQueue q fun x => { x with tail := t })
      | .error => some (c.modQueue q fun x => { x with tail := t })
      | .disabled | .stopped => some c) s
/-- R101: resume in error. A write that sets resume and flush may do either (DESIGN CHOICE, log 83). -/
def execQueueResume (q : Nat) (v : Word) (s : State) : Host.Outcome State Fault Refusal :=
  event (fun c =>
    if c.hasQueue q && tst v 0 && tst v 2 && (c.queueAt q).st == .error then
      some (c.modQueue q fun x => { x with st := .running, err := 0 })
    else none) s

/-- Every record from head to tail - 1 completes with a code (R101: 0x000A, R85: 0x0006), at most n of them. -/
def Chip.flush (c : Chip) (q code : Nat) : Nat → Chip
  | 0 => c
  | n + 1 =>
    let x := c.queueAt q
    if !x.unread then c
    else
      let c := c.completeRecord q x.head code (c.headRecord q) 0 0
      (c.modQueue q fun x => { x with head := (x.head + 1) % x.size }).flush q code n
/-- R101: flush in error. A write that sets resume and flush may do either (DESIGN CHOICE, log 83). -/
def execQueueFlush (q : Nat) (v : Word) (s : State) : Host.Outcome State Fault Refusal :=
  event (fun c =>
    if c.hasQueue q && tst v 0 && tst v 3 && (c.queueAt q).st == .error then
      let c := c.flush q 0x0A (c.queueAt q).size
      some (c.modQueue q fun x => { x with st := .running, err := 0 })
    else none) s

end Sys2Proof.Machine
end

