-- ==== Sys2Proof/Machine/Launches.lean ====
section
/-! DEFINITION. Launches: validation (R116, R117), placement (R118 to R120), completion, the launch record ring and its
signatures (R121 to R125). -/

namespace Sys2Proof.Machine

/-! ## Ranges as the command processor reads them -/

/-- The pieces of a virtual range, one for each page it meets, through a context's tables at its privilege; none where
one faults. A range of no bytes has no page, and its address is not translated (DESIGN CHOICE, log 81). -/
def Chip.pieces (c : Chip) (ctx : Nat) (need : Need) : Nat → Nat → Nat → Option (List (Phys × Nat))
  | 0, _, _ => some []
  | fuel + 1, va, n =>
    if n = 0 then some []
    else if (addrCheck (BitVec.ofNat 64 va) (ctx == 0)).isSome || decide (2 ^ 57 ≤ va) then none
    else match c.walk ctx va with
      | none => none
      | some (leaf, size) =>
        if !leafRights leaf need false then none
        else
          let k := min n (pageBytes size - va % pageBytes size)
          (c.pieces ctx need fuel (va + k) (n - k)).map fun l => (⟨leaf, size, leafAddr leaf size va⟩, k) :: l
/-- The pieces of a range. -/
def Chip.range (c : Chip) (ctx : Nat) (need : Need) (va n : Nat) : Option (List (Phys × Nat)) :=
  c.pieces ctx need (n / 65536 + 2) va n
/-- The bytes of a range; none where it faults or delivers poison. -/
def Chip.readRange (c : Chip) (ctx va n : Nat) : Option (List Byte) :=
  (c.range ctx .r va n).bind fun l =>
    if l.any fun p => c.physBad p.1 p.2 then none else some (l.flatMap fun p => c.readPhys p.1 p.2)

/-! ## The record -/

/-- count of a level. -/
def Launch.count (l : Launch) (i : Nat) : Nat := field l.record (130 + 16 * i) 2
/-- Units of a domain in one unit of another (R115); a core carries 96 threads. -/
def capacity (p d : Nat) : Nat := if d = 0 then 96 else domainCores p / domainCores d
/-- The domain that a level's units fill: the package for level 0 (R115). -/
def Launch.parent (l : Launch) (i : Nat) : Nat := if i = 0 then 5 else l.domain (i - 1)
/-- code, image, imgsize, outlist and nout. -/
def Launch.code (l : Launch) : Word := BitVec.ofNat 64 (field l.record 8 8)
def Launch.image (l : Launch) : Nat := field l.record 24 8
def Launch.imgsize (l : Launch) : Nat := field l.record 32 4
def Launch.outlist (l : Launch) : Nat := field l.record 56 8
def Launch.nout (l : Launch) : Nat := field l.record 64 2
def Launch.seed (l : Launch) : Nat := field l.record 40 8
def Launch.olog (l : Launch) : Nat := field l.record 72 8
def Launch.ologsz (l : Launch) : Nat := field l.record 80 4

/-- The rules of a level entry (R114, R116 step 2). -/
def Launch.levelOk (l : Launch) (i : Nat) : Bool :=
  let b := 128 + 16 * i
  let d := l.domain i
  let scope := field l.record (b + 1) 1
  decide (d ≤ 5) && decide (scope ≤ 6) && decide (d ≤ scope) && (i == 0 || decide (d < l.domain (i - 1)))
  && (d != 0 || (i + 1 == l.nlev && decide (0 < i) && l.domain (i - 1) == 1))
  && decide (1 ≤ l.count i) && decide (l.count i ≤ capacity (l.parent i) d)
  && decide (field l.record (b + 4) 2 ≤ 96) && field l.record (b + 8) 4 % 64 == 0
  && zeroBytes l.record (b + 6) 2 && zeroBytes l.record (b + 12) 4
/-- Step 2 of R116: reserved fields, alignments and ranges of R113 and R114. -/
def Launch.wellFormed (l : Launch) : Bool :=
  let r := l.record
  let mode := field r 67 1
  zeroBytes r 1 3 && field r 8 8 % 4 == 0 && decide (field r 8 8 < 2 ^ 57)
  && l.image % 64 == 0 && l.imgsize % 64 == 0 && decide (l.imgsize ≤ Config.dataEnd) && (l.image != 0 || l.imgsize == 0)
  && l.spbase % 64 == 0 && l.outlist % 8 == 0 && decide (l.nout ≤ 255) && (l.outlist != 0 || l.nout == 0)
  && decide (field r 66 1 < 4) && decide (mode < 3) && decide (1 ≤ l.nlev) && decide (l.nlev ≤ 8)
  && zeroBytes r 69 3 && (if mode = 0 then l.olog == 0 && l.ologsz == 0 else l.olog != 0)
  && l.olog % 64 == 0 && l.ologsz % 64 == 0 && zeroBytes r 84 44
  && (List.range l.nlev).all l.levelOk && zeroBytes r (128 + 16 * l.nlev) (128 - 16 * l.nlev)
  && decide (1 ≤ field r (132 + 16 * (l.nlev - 1)) 2)

/-- Entry i of an output list (R122): its address and its length, none where it is malformed. -/
def outputEntry (b : List Byte) (i : Nat) : Option (Nat × Nat) :=
  if zeroBytes b (16 * i + 12) 4 && field b (16 * i + 8) 4 != 0 then some (field b (16 * i) 8, field b (16 * i + 8) 4) else none
/-- Step 6 of R116 for the outputs: the code of the first that fails. A malformed entry is rejected there with 0x0001
(DESIGN CHOICE, log 81). -/
def Chip.outputsCode (c : Chip) (ctx : Nat) (b : List Byte) : List Nat → Option Nat
  | [] => none
  | i :: r => match outputEntry b i with
    | none => some 1
    | some (va, n) => if (c.range ctx .r va n).isNone then some 7 else c.outputsCode ctx b r

/-- Validation (R116): the code of the first step that fails. An output list that is poisoned or cannot be read fails step 6 with
0x0007 (DESIGN CHOICE, log 81). -/
def Chip.launchCode (c : Chip) (l : Launch) : Option Nat :=
  let x := c.ctxAt l.ctx
  if x.st ≠ .live then some 5
  else if !l.wellFormed then some 1
  else if l.pri < x.maxpri then some 3
  else if l.mode ≠ 0 ∧ x.flags % 2 = 0 then some 4
  else if 96 < l.frames || decide (Config.dataEnd < l.spbase + l.spad) || decide (l.spad < l.imgsize) then some 2
  else if (c.range l.ctx .x l.code.toNat 4).isNone || (c.range l.ctx .r l.image l.imgsize).isNone
      || (c.range l.ctx (if l.mode = 1 then .w else .r) l.olog l.ologsz).isNone then some 7
  else match c.readRange l.ctx l.outlist (16 * l.nout) with
    | none => some 7
    | some b => c.outputsCode l.ctx b (List.range l.nout)

/-- R116, R123: a launch record. An accepted launch takes the next number and waits for placement. -/
def execLaunch (q : Nat) (s : State) : Host.Outcome State Fault Refusal :=
  recordStep q (isKind 1) (fun q r c =>
    let ctx := q / 16
    let l : Launch := { ctx := ctx, queue := q, index := c.taking q, record := r, sup := ctx == 0, placed := false,
                        cores := [], killed := false, objects := [], olen := 0 }
    match c.launchCode l with
    | some e => .reject e
    | none => .later { c with launches := tset c.launches c.nextLaunch l, nextLaunch := c.nextLaunch + 1 }) s

/-! ## Placement (R118 to R120) -/

/-- A core is free for a launch (R118); a signature retired without a spare never is (R425). -/
def Chip.coreFree (c : Chip) (l : Launch) (core : Nat) : Bool :=
  let k := c.coreAt core
  decide (l.frames ≤ ((List.range Config.frames).filter fun f => (k.frameAt f).reservedFor.isNone).length)
  && !c.failed.contains (sigOf core)
  && !(c.launches.any fun p => p.2.placed && p.2.cores.contains core
        && overlap l.spbase l.spad p.2.spbase p.2.spad && decide (0 < l.spad) && decide (0 < p.2.spad))
/-- A unit is free when every core in it is free (R118). -/
def Chip.unitFree (c : Chip) (l : Launch) (d u : Nat) : Bool :=
  (List.range (domainCores d)).all fun i => c.coreFree l (u * domainCores d + i)
/-- The units that level 0 takes (R119), none while they are not free. -/
def Chip.outerUnits (c : Chip) (l : Launch) : Option (List Nat) :=
  let d := l.domain 0
  let n := capacity 5 d
  let us := if l.mode = 0 then ((List.range n).filter (c.unitFree l d)).take (l.count 0)
    else (List.range (l.count 0)).map fun j => (l.seed % 2 ^ 16 + j) % n
  if us.length = l.count 0 ∧ us.all (c.unitFree l d) then some us else none
/-- The innermost units with their path names (R119, R131): (domain, unit, name) from level i inward. -/
def Launch.innerUnits (l : Launch) (i : Nat) (us : List (Nat × Nat × Nat)) : Nat → List (Nat × Nat × Nat)
  | 0 => us
  | n + 1 =>
    let d := l.domain i
    l.innerUnits (i + 1) (us.flatMap fun u => (List.range (l.count i)).map fun j =>
      (d, if d = 0 then u.2.1 else u.2.1 * capacity u.1 d + j, u.2.2 * l.count i + j)) n
/-- The units that receive the initial tasks. -/
def Launch.units (l : Launch) (us : List Nat) : List (Nat × Nat × Nat) :=
  l.innerUnits 1 (us.zipIdx.map fun p => (l.domain 0, p.1, p.2)) (l.nlev - 1)
/-- The lowest core of a unit, which takes its task. -/
def unitCore (u : Nat × Nat × Nat) : Nat := u.2.1 * domainCores u.1

/-- Whether a scratchpad place lies in the range that a launch reserves on its cores (R118). -/
def Launch.reserves (l : Launch) (cores : List Nat) (h : Home) (a : Nat) : Bool :=
  match h with
  | .core k => cores.contains k && decide (l.spbase ≤ a) && decide (a < l.spbase + l.spad)
  | _ => false
/-- What tiles left known in a range goes as a new reservation zeroes it (R120, R234). -/
def Chip.dropTiles (c : Chip) (l : Launch) (cores : List Nat) : Chip :=
  { c with tiles := c.tiles.filter fun t => !l.reserves cores t.home t.addr }

/-- One core reserved and filled (R120). -/
def Chip.occupy (c : Chip) (n : Nat) (l : Launch) (image : List Byte) (bad : Bool) (core : Nat) : Chip :=
  c.modCore core fun k =>
    let mine := ((List.range Config.frames).filter fun f => (k.frameAt f).reservedFor.isNone).take l.frames
    let k := mine.foldl (fun k f => k.modFrame f fun fr => { fr with reservedFor := some n }) k
    let k := k.padWrite l.spbase (image ++ List.replicate (l.spad - image.length) 0)
    if bad then { k with padPoison := k.padPoison ++ (List.range (image.length / 8)).map (l.spbase / 8 + ·) } else k
/-- The initial task of a unit (R120, R131). -/
def Launch.task (l : Launch) (n : Nat) (u : Nat × Nat × Nat) : Task :=
  ⟨l.code, BitVec.ofNat 64 (field l.record 16 8), 0, BitVec.ofNat 64 (l.pri * 2 ^ 62 + u.2.2 % 2 ^ 30), some n, l.ctx, l.sup⟩

/-- Whether a waiting launch is the first of its class (R118). -/
def Chip.firstOfClass (c : Chip) (n : Nat) (l : Launch) : Bool :=
  !l.placed && !l.killed && !(c.launches.any fun p => decide (p.1 < n) && !p.2.placed && !p.2.killed && p.2.pri == l.pri)
/-- Whether a more urgent launch can be placed now (R118). -/
def Chip.urgentFirst (c : Chip) (l : Launch) : Bool :=
  c.launches.any fun p => c.firstOfClass p.1 p.2 && decide (p.2.pri < l.pri) && (c.outerUnits p.2).isSome

/-- Whether each core that tasks are pushed onto has room for all of its own, and its deque is free (R134). -/
def Chip.roomFor (c : Chip) (units : List (Nat × Nat × Nat)) : Bool :=
  units.all fun u => c.dequeFree (unitCore u)
    && decide ((c.coreAt (unitCore u)).deque.length + (units.filter fun v => unitCore v == unitCore u).length ≤ 128)

/-- R118 to R120: a waiting launch is placed whole, where the cores have power (R424) and the deques room for its tasks
(DESIGN CHOICE, log 71). An image that cannot be read by then delivers a free value, and poisoned bytes arrive poisoned (log 32). -/
def execLaunchPlacement (n : Nat) (s : State) : Host.Outcome State Fault Refusal :=
  event (fun c => match tfind c.launches n with
    | none => none
    | some l =>
      if c.devState == 4 || !c.firstOfClass n l || c.urgentFirst l then none
      else match c.outerUnits l with
        | none => none
        | some us =>
          let units := l.units us
          let cores := ((units.flatMap fun u => (List.range (domainCores u.1)).map (unitCore u + ·)).foldr (fun k t => tset t k ()) []).map (·.1)
          if !c.roomFor units then none else
          let ps := c.range l.ctx .r l.image l.imgsize
          let bad := match ps with | some ps => ps.any fun p => c.physBad p.1 p.2 | none => true
          let image := match ps with
            | some ps => ps.flatMap fun p => c.readPhys p.1 p.2
            | none => (List.range (l.imgsize / 8)).flatMap fun i => lostBytes (c.freeCount + i) 8
          let c := { c with freeCount := c.freeCount + l.imgsize / 8 }
          let c := cores.foldl (fun c core => c.occupy n l image bad core) (c.dropTiles l cores)
          let c := units.foldl (fun c u => c.modCore (unitCore u) fun k => k.push (l.task n u)) c
          some { c with launches := tset c.launches n { l with placed := true, cores := cores } }) s

/-! ## Completion (R121 to R125) -/

/-- A ring entry (R123). -/
def Launch.ringEntry (l : Launch) (n status : Nat) (digest : List Byte) : List Byte :=
  toLe 8 n ++ toLe 2 l.ctx ++ toLe 1 l.mode ++ toLe 1 status ++ (l.record.drop 4).take 4 ++ (l.record.drop 8).take 8
  ++ (l.record.drop 40).take 16 ++ toLe 8 l.olen ++ toLe 32 0 ++ digest
/-- The ring entry written, then its signature (R121, R123). -/
def Chip.writeRing (c : Chip) (n : Nat) (e : List Byte) : Chip :=
  let sg := Config.sign (BitVec.ofNat 384 (beNat (sha384 e)))
  let sb := toBe 96 sg.toNat ++ toLe 32 0
  { c with
    ring := tset c.ring (n % 65536) (BitVec.ofNat 1024 (leNat e))
    signatures := tset c.signatures (n % 65536) (BitVec.ofNat 1024 (leNat sb)) }
/-- The launch ended (R121, steps 2 to 4): its slots cleared in the objects listed under it (R178), ring entry and signature,
frames and ranges freed, the queue's completion. -/
def Chip.endLaunch (c : Chip) (n : Nat) (l : Launch) (status code : Nat) (digest : List Byte) : Chip :=
  let w := BitVec.ofNat 64 (c.pkg * 2 ^ 52 + n)
  let c := l.objects.foldl (fun c o => match c.listedAt o with
    | some (h, a) => c.clearLset h a w
    | none => c) c
  let c := c.writeRing n (l.ringEntry n status digest)
  let c := l.cores.foldl (fun c core => c.modCore core fun k => { k with
    frames := k.frames.map fun p => if p.2.reservedFor == some n then (p.1, { p.2 with reservedFor := none }) else p
    stealing := k.stealing.filter fun q => q.launch != n
    logSeq := tdel k.logSeq n }) c
  { c with launches := tdel c.launches n }.completeRecord l.queue l.index code l.record (BitVec.ofNat 64 n) 0

/-- Whether a message comes from a launch of a package. -/
def frankedFor (fr : Frank) (pkg n : Nat) : Bool := fr.pkg == pkg && fr.launch == some n
/-- Whether a task record or a thread of a launch of this package is anywhere in it, or work that its frames or messages began
(R121). -/
def Core.worksFor (k : Core) (pkg n : Nat) : Bool :=
  let is := fun (x : Option Nat) => x == some n
  (k.frames.any fun p => p.2.st != .free && (is p.2.launch || is p.2.origin))
  || (k.deque.any fun t => is t.launch) || (k.trackers.any fun t => is t.2.launch)
  || (k.wtab.toList.any fun e => !e.isFree && is e.launch)
  || ((k.mxq ++ k.cpq).any fun q => is q.launch)
  || ((k.postbox ++ k.held ++ k.waiters).any fun m => frankedFor m.frank pkg n)
  || (k.reqs.any fun r => frankedFor r.2.msg.frank pkg n)
/-- Whether anything of a launch is left. A handler that its message starts in another package is not waited for
(DESIGN CHOICE, log 82). -/
def Chip.worksFor (c : Chip) (n : Nat) : Bool :=
  (c.cores.any fun k => k.2.worksFor c.pkg n) || (c.net.any fun m => frankedFor m.frank c.pkg n)
  || (c.steals.any fun q => q.task.any fun t => t.launch == some n)
  || (c.edits.any fun e => frankedFor e.msg.frank c.pkg n)

/-- The declared outputs in list order (R121, R122). The list is read again at the completion: one that cannot be read or is
malformed by then gives no digest (DESIGN CHOICE, log 82). -/
def Chip.outputs (c : Chip) (l : Launch) : Option (List Byte) :=
  (c.readRange l.ctx l.outlist (16 * l.nout)).bind fun b =>
    ((List.range l.nout).mapM fun i => (outputEntry b i).bind fun e => c.readRange l.ctx e.1 e.2).map List.flatten

/-- R121, R124: a launch of which nothing is left ends. The one that Dalox places for the supervisor frames has no record and
stays (R265). -/
def execLaunchCompletion (n : Nat) (s : State) : Host.Outcome State Fault Refusal :=
  event (fun c => match tfind c.launches n with
    | none => none
    | some l =>
      if !l.placed || l.record.isEmpty || c.worksFor n then none
      else if l.killed then some (c.endLaunch n l 1 6 (toLe 48 0))
      else match c.outputs l with
        | some b => some (c.endLaunch n l 0 0 (sha384 b))
        | none => some (c.endLaunch n l 2 7 (toLe 48 0))) s

end Sys2Proof.Machine
end

