-- ==== Sys2Proof/Machine/Pages.lean ====
section
/-! DEFINITION. Pages: walks and retries (R185, R186, R191), map records (R183, R184), and pages that move, are parked and
come back (R190 to R194). -/

namespace Sys2Proof.Machine

/-! ## Walks (R185, R186) -/

/-- A leaf put into a signature's cache of 1,024 entries; which entry a full cache replaces is a free value (R185). -/
def Chip.cacheLeaf (c : Chip) (sig ctx va : Nat) (leaf : Word) (size : Nat) : Chip :=
  let e : Tlb := ⟨ctx, va / 2 ^ pageShift size, size, leaf⟩
  let l := (tget [] c.tlb sig).filter fun x => !(x.ctx == ctx && x.page == e.page && x.size == size)
  if l.length < 1024 then { c with tlb := tset c.tlb sig (l ++ [e]) }
  else { c with tlb := tset c.tlb sig (l.eraseIdx (Config.tlbVictim c.freeCount % l.length) ++ [e]), freeCount := c.freeCount + 1 }

/-- What a walk brings back to a frame: it issues again, and a fault raises 0x06 there (R182); a trap that waits for the walk of its
vector is taken, and a fault makes it fatal (R155). -/
def Chip.walked (c : Chip) (w : Walk) (fault : Bool) (core frame : Nat) : Chip :=
  let page := w.va / 2 ^ 16
  let k := c.coreAt core
  let waits := (k.frameAt frame).st == .stalled (.walk page)
  let met := fun (f : Frame) => { f with walkFault := if fault then some (page, 6) else f.walkFault }
  if (k.frameAt frame).ctx ≠ w.ctx || !(waits || k.sequencing frame) then c
  else match (k.frameAt frame).trapping with
  | some t =>
    if waits then (c.modFrame core frame met).takeTrap core frame t.word t.seq t.cause t.detail t.eaddr else c
  | none => c.modFrame core frame fun f => { f with
    st := if waits then .ready else f.st
    readySince := if waits then c.now else f.readySince
    walkFault := if fault then some (page, 6) else f.walkFault }

/-- A command of a core with a tag that has not run, changed. -/
def Core.modCmd (k : Core) (tag : Nat) (f : Cmd → Cmd) : Core :=
  let at_ := fun (m : Cmd) => if m.tag == tag && !m.ran then f m else m
  { k with mxq := k.mxq.map at_, cpq := k.cpq.map at_ }
/-- What a walk brings back to a command: the leaf, through which it translates, or the fault that it raises (R186, R350). -/
def Cmd.walked (m : Cmd) (va : Nat) (r : Option (Word × Nat)) : Cmd :=
  let page := va / 2 ^ 16
  match r with
  | some (leaf, size) => { m with leaves := (m.leaves.filter fun l => l.1 != page) ++ [(page, leaf, size)] }
  | none => { m with fault := some page }

/-- R186: the oldest request of a die's pool. -/
def execTranslationWalk (die : Nat) (s : State) : Host.Outcome State Fault Refusal :=
  event (fun c => match tget [] c.walks die with
    | [] => none
    | w :: _ =>
      let c := { c with walks := tset c.walks die (nextWalks (tget [] c.walks die)) }
      let r := c.walk w.ctx w.va
      let c := match r with
        | some (leaf, size) => w.sigs.foldl (fun c sig => c.cacheLeaf sig w.ctx w.va leaf size) c
        | none => c
      let c := w.frames.foldl (fun c p => c.walked w r.isNone p.1 p.2) c
      some (w.cmds.foldl (fun c p => c.modCore p.1 fun k => k.modCmd p.2 fun m => m.walked w.va r) c)) s

/-! ## Retries after a page-moved answer (R191) -/

/-- What an access of a request needs of its page. -/
def needOf (b : Body) : Need :=
  match b with
  | .get _ | .object .. => .r
  | _ => .w
/-- Whether an earlier request of the owner to the same page is to be issued again first, or may have to be: it still stands
before a home other than this one (R68, R191). -/
def Chip.retriesBefore (c : Chip) (core id : Nat) (r : Req) (dest : Place) (addr : Nat) : Bool :=
  let sh := c.shiftAt core r.msg.frank.ctx r.msg.va.toNat
  (c.coreAt core).reqs.any fun p => decide (p.1 < id) && p.2.owner == r.owner && inPage p.2.msg sh r.msg.va
    && (p.2.retry.isSome || pageBlock sh p.2.msg.dest p.2.msg.addr != pageBlock sh dest addr)
/-- A pre-emption that waits takes a waiter whose request was not performed (R177). -/
def Chip.preempted (c : Chip) (core : Nat) (r : Req) : Bool :=
  match r.owner, r.msg.body with
  | .frame f, .object op _ _ => (c.frameAt core f).preempt.isSome && waitsAtHome op
  | _, _ => false

/-- R191: the page is dropped from the cache and walked again; an old home that still holds it is asked again after 64
cycles, a new one takes the request, and a fault is reported (R62). -/
def execPageMovedRetry (core id : Nat) (s : State) : Host.Outcome State Fault Refusal :=
  event (fun c => match tfind (c.coreAt core).reqs id with
    | none => none
    | some r => match r.retry with
      | none => none
      | some t =>
        let late := c.retriesBefore core id r
        if c.now < t || late r.msg.dest r.msg.addr then none
        else if c.preempted core r then
          let c := c.close core id
          some (match r.owner with
            | .frame f => c.modFrame core f fun fr => { fr with st := .ready, readySince := c.now }
            | _ => c)
        else
          let ctx := r.msg.frank.ctx
          let va := r.msg.va.toNat
          let sig := sigOf core
          let c := { c with tlb := tset c.tlb sig ((tget [] c.tlb sig).filter fun e =>
            !(e.ctx == ctx && va / 2 ^ pageShift e.size == e.page)) }
          match c.walk ctx va with
          | none => some (c.refuse core id r 6)
          | some (leaf, size) =>
            if !leafRights leaf (needOf r.msg.body) (match r.msg.body with | .object .. => true | _ => false) then
              some (c.refuse core id r 8)
            else
              let p : Phys := ⟨leaf, size, leafAddr leaf size va⟩
              let dest := c.placeOf p
              let here := dest == r.msg.dest && p.pa == r.msg.addr
              let set := fun (c : Chip) (q : Req) => c.modCore core fun k => { k with reqs := tset k.reqs id q }
              if here && (dest.pkg != c.pkg || c.physShut p 1) then some (set c { r with retry := some (c.now + 64) })
              else if late dest p.pa then none
              else
                let m := { r.msg with dest := dest, addr := p.pa, pmark := 0, epoch := 0 }
                some ((set (c.cacheLeaf sig ctx va leaf size) { r with msg := m, retry := none, sent := c.now }).post m)) s

/-! ## Writing tables (R180 to R184) -/

/-- Bytes and alignment of a table at a level. -/
def tableBytes (level : Nat) : Nat := if level = 0 then 256 else 4096

/-- An area for new tables: the next free address and its end (R183). -/
abbrev Pool := Nat × Nat

/-- The address of the entry for a virtual address at a level, where every entry above it is a well-formed pointer. -/
def entryAddr (m : Memory) (va target : Nat) : Nat → Nat → Option Nat
  | level, table =>
    let a := table + 8 * levelIndex va level
    if level = target then some a
    else match level with
      | 0 => none
      | l + 1 =>
        let e := rd64 m a
        if tst e 0 && !tst e 1 && pointerOk e (l + 1) then entryAddr m va target l (bits e 51 8 * 256) else none

/-- A leaf written for a page that is invalid, with the tables that it needs taken from the pool (R184). None where the page
is not invalid or the pool is too small. -/
def Chip.putLeaf (c : Chip) (va target : Nat) (leaf : Word) : Nat → Nat → Pool → Option (Chip × Pool)
  | level, table, pool =>
    let a := table + 8 * levelIndex va level
    let e := rd64 c.hbm a
    if level = target then
      if tst e 0 then none else some (c.write64 (hbmHome a) a leaf, pool)
    else match level with
      | 0 => none
      | l + 1 =>
        if tst e 0 then
          if !tst e 1 && pointerOk e (l + 1) then c.putLeaf va target leaf l (bits e 51 8 * 256) pool else none
        else
          let n := tableBytes l
          let t := (pool.1 + n - 1) / n * n
          if pool.2 < t + n || pool.1 = 0 then none
          else
            let c := c.writeHome (hbmHome t) t (List.replicate n 0)
            let c := c.write64 (hbmHome a) a (BitVec.ofNat 64 (t + 1))
            c.putLeaf va target leaf l t (t + n, pool.2)

/-- A leaf word (R181). -/
def leafWord (pkg pa loc rights : Nat) : Word := BitVec.ofNat 64 (pkg * 2 ^ 52 + pa + loc * 2 ^ 10 + rights * 2 ^ 3 + 3)
/-- A physical range that a record maps is a home again, if a move had left it (R190, log 31). -/
def Chip.reopen (c : Chip) (a n : Nat) : Chip := { c with shut := c.shut.filter fun r => !overlap a n r.1 r.2 }
/-- A range of this package's HBM or of host memory that a leaf names again. -/
def Chip.reopenAt (c : Chip) (loc a n : Nat) : Chip :=
  match loc with
  | 0 => c.reopen a n
  | 2 => c.reopen (hostMark + a) n
  | 3 => c.reopen (spineMark + a) n
  | _ => c
/-- n leaves from page i up. -/
def Chip.putLeaves (c : Chip) (root va size pa pkg loc rights i : Nat) : Nat → Pool → Option (Chip × Pool)
  | 0, pool => some (c, pool)
  | n + 1, pool =>
    let b := pageBytes size
    match c.putLeaf (va + i * b) size (leafWord pkg (pa + i * b) loc rights) 4 root pool with
    | none => none
    | some (c, pool) =>
      (c.reopenAt loc (pa + i * b) b).putLeaves root va size pa pkg loc rights (i + 1) n pool

/-- The leaf of a page, when it is a valid leaf of this size. -/
def Chip.pageLeaf (c : Chip) (ctx va size : Nat) : Option Word :=
  (c.walk ctx va).bind fun p => if p.2 = size then some p.1 else none
/-- A valid leaf's entry written. -/
def Chip.setLeaf (c : Chip) (ctx va size : Nat) (w : Word) : Chip :=
  match entryAddr c.hbm va size 4 (c.ctxAt ctx).ptroot.toNat with
  | some a => c.write64 (hbmHome a) a w
  | none => c

/-! ## Map records (R183) -/

/-- The fields of a map record. -/
structure MapRec where
  op : Nat
  size : Nat
  rights : Nat
  loc : Nat
  count : Nat
  va : Nat
  pa : Nat
  pkg : Nat
  name : Nat
  pool : Pool
  deriving DecidableEq, Repr

/-- A map record read. -/
def mapRec (r : List Byte) : MapRec :=
  let t := field r 48 8
  ⟨field r 8 1, field r 9 1, field r 10 1, field r 11 1, field r 12 4, field r 16 8, field r 24 8, field r 32 8, field r 40 8,
   (t, if t = 0 then 0 else t + field r 56 4)⟩
/-- The limits of R183 that every op shares. -/
def MapRec.ok (x : MapRec) (r : List Byte) : Bool :=
  let b := pageBytes x.size
  decide (1 ≤ x.op) && decide (x.op ≤ 5) && decide (x.size ≤ 2) && decide (x.rights / 8 = 0) && decide (x.loc ≤ 3)
  && decide (1 ≤ x.count) && decide (x.count ≤ 65536) && x.va % b == 0 && decide (x.va + x.count * b ≤ 2 ^ 57)
  && (if x.op = 1 ∨ x.op = 3 then x.pa % b == 0 else x.op == 2 || x.pa % 65536 == 0) && decide (x.pa < 2 ^ 52)
  && (if (x.op = 1 ∨ x.op = 3) ∧ x.loc = 1 then decide (x.pkg < 4096)
      else if x.op = 5 then x.pkg % b == 0 && decide (x.pkg < 2 ^ 52) else x.pkg == 0)
  && (x.op == 4 || x.op == 5 || x.name == 0)
  && field r 48 8 % 4096 == 0 && field r 56 4 % 4096 == 0 && zeroBytes r 60 196

/-- A map record of an op. -/
def isMap (op : Nat) (r : List Byte) : Bool := isKind 6 r && field r 8 1 == op

/-- R184: map. An op that is not assigned is rejected here too. -/
def execMap (q : Nat) (s : State) : Host.Outcome State Fault Refusal :=
  recordStep q (fun r => isKind 6 r && (field r 8 1 == 1 || field r 8 1 == 0 || decide (6 ≤ field r 8 1))) (fun q r c =>
    let x := mapRec r
    if !x.ok r then .reject 1
    else match c.putLeaves (c.ctxAt (q / 16)).ptroot.toNat x.va x.size x.pa x.pkg x.loc x.rights 0 x.count x.pool with
      | none => .reject 1
      | some (c, _) => .done c 0) s

/-- Every page of a record's range is a valid leaf of its size: the leaves. -/
def Chip.leavesOf (c : Chip) (ctx : Nat) (x : MapRec) : Option (List Word) :=
  (List.range x.count).mapM fun i => c.pageLeaf ctx (x.va + i * pageBytes x.size) x.size

/-- A record that waits for the drain of a range, and of what else the removed entries translated (R189). -/
def Chip.startDrain (c : Chip) (ctx q index : Nat) (r : List Byte) (va n : Nat) : Chip :=
  let (lo, m) := c.removedSpan ctx va n
  let c := c.invalidate ctx va n
  { c with job := some ⟨.drain, ctx, q, index, r, lo, m, 0, 0, .moved, 0, c.nextReq⟩ }

/-- The leaves of a range zeroed. -/
def Chip.zeroLeaves (c : Chip) (ctx va size n : Nat) : Chip :=
  (List.range n).foldl (fun c i => c.setLeaf ctx (va + i * pageBytes size) size 0) c
/-- Whether a page lies in a configured gossip region, which is neither unmapped nor parked (R245). -/
def Chip.pageInRegion (c : Chip) (size : Nat) (leaf : Word) : Bool :=
  bits leaf 11 10 == 0 && c.inRegion (leafAddr leaf size 0) (pageBytes size)
/-- R184: unmap; it completes after its drain (PAGE_RELEASED). -/
def execUnmap (q : Nat) (s : State) : Host.Outcome State Fault Refusal :=
  recordStep q (isMap 2) (fun q r c =>
    let x := mapRec r
    let ctx := q / 16
    if !x.ok r then .reject 1
    else match c.leavesOf ctx x with
      | none => .reject 7
      | some l =>
        if l.any (c.pageInRegion x.size) then .reject 1
        else .later ((c.zeroLeaves ctx x.va x.size x.count).startDrain ctx q (c.taking q) r x.va (x.count * pageBytes x.size))) s

/-- A job that goes page by page. -/
def Chip.startJob (c : Chip) (kind : JobKind) (ctx q : Nat) (r : List Byte) (x : MapRec) : Chip :=
  { c with job := some ⟨kind, ctx, q, c.taking q, r, x.va, x.count * pageBytes x.size, x.size, 0, .mapped, 0, 0⟩ }
/-- The bytes of an object from its base up: its header or descriptor, a channel's slots, and the area that an accept gave
(R92, R174, R213). -/
def Chip.objectBytes (c : Chip) (ctx : Nat) (e : Rights) : Nat :=
  let head := match e.kind with
    | 1 => 256
    | 5 => match c.placeIn ctx (e.base + 24) with
      | some p => 64 + 8 * min 4096 (leNat (c.readPhys p 4))
      | none => 64
    | _ => 64
  (c.shares.filter fun y => y.holder == ctx && y.base == e.base).foldl (fun n y => max n y.len) head
/-- Whether a page, with its leaf and size, holds a part of an object reached through a rights entry, or words of a gossip region
(R184). -/
def Chip.holdsObject (c : Chip) (size : Nat) (leaf : Word) : Bool :=
  let a := leafAddr leaf size 0
  let lo := fun (e : Rights) => e.base.toNat / 65536
  c.pageInRegion size leaf || c.ctxs.any fun x => x.2.st != .free && (c.rightsOf x.1).any fun e =>
    (List.range ((e.base.toNat + c.objectBytes x.1 e - 1) / 65536 - lo e + 1)).any fun i =>
      match c.placeIn x.1 (BitVec.ofNat 64 ((lo e + i) * 65536)) with
      | some p => p.loc == bits leaf 11 10 && (p.loc != 1 || bits p.leaf 63 52 == bits leaf 63 52)
        && decide (a ≤ p.pa) && decide (p.pa < a + pageBytes size)
      | none => false

/-- R184, R190: migrate. -/
def execMigrate (q : Nat) (s : State) : Host.Outcome State Fault Refusal :=
  recordStep q (isMap 3) (fun q r c =>
    let x := mapRec r
    let ctx := q / 16
    if !x.ok r then .reject 1
    else match c.leavesOf ctx x with
      | none => .reject 7
      | some l =>
        if 1 < x.loc || l.any (fun w => decide (1 < bits w 11 10)) || l.any (c.holdsObject x.size) then .reject 1
        else .later (c.startJob .migrate ctx q r x)) s
/-- R184, R193: park. -/
def execPark (q : Nat) (s : State) : Host.Outcome State Fault Refusal :=
  recordStep q (isMap 4) (fun q r c =>
    let x := mapRec r
    let ctx := q / 16
    if !x.ok r then .reject 1
    else match c.leavesOf ctx x with
      | none => .reject 7
      | some l =>
        if (x.loc != 0 && x.loc != 2) || l.any (fun w => bits w 5 3 != bits (l.headD 0) 5 3) || l.any (c.pageInRegion x.size) then
          .reject 1
        else .later (c.startJob .park ctx q r x)) s

/-! ## Pages on their way -/

/-- The map record of a job. -/
def PageJob.fields (j : PageJob) : MapRec := mapRec j.record
/-- Reservations broken and waiters turned away at the old home of a page that is sealed (R79, R190). -/
def Chip.sealRange (c : Chip) (a n : Nat) : Chip :=
  let gone := c.agentWait.flatMap fun (p : Nat × List Msg) => p.2.filter fun m => overlap a n m.addr 1
  let c := { c with
    shut := c.shut ++ [(a, n)]
    agentResv := c.agentResv.map fun (p : Nat × List Resv) => (p.1, p.2.filter fun r => !overlap a n r.addr r.size)
    agentWait := c.agentWait.map fun (p : Nat × List Msg) => (p.1, p.2.filter fun m => !overlap a n m.addr 1) }
  gone.foldl (fun c m => c.answer m (.nack 2)) c

/-- R190, R226: the page in hand is sealed, unless a claim word on it holds a claim. A page of host memory or of the
spine's object area is sealed as one of HBM; one of another package is sealed there. -/
def execPageSeal (s : State) : Host.Outcome State Fault Refusal :=
  event (fun c => match c.job with
    | none => none
    | some j =>
      if j.kind = .drain || j.st ≠ .mapped then none
      else match c.pageLeaf j.ctx j.pageVa j.fields.size with
        | none => none
        | some leaf =>
          let (a, n) := j.oldRange leaf
          let here := bits leaf 11 10 == 0
          if here && c.claimed.any (fun p => decide (a ≤ p) && decide (p < a + n)) then none
          else
            let c := match bits leaf 11 10 with
              | 0 => c.sealRange a n
              | 1 => c
              | 2 => { c with shut := c.shut ++ [(hostMark + a, n)] }
              | _ => { c with shut := c.shut ++ [(spineMark + a, n)] }
            some { c with job := some { j with st := .sealed_, old := leaf } }) s

/-- Bytes copied into the backing or to the destination, with poison where it stood (R453). -/
def Chip.copyTo (c : Chip) (src dst : Phys) (n : Nat) : Chip :=
  let b := c.readPhys src n
  let bad := if src.loc = 0 then c.hbmPoison.filter (fun d => overlap src.pa n (d * 32) 32) else []
  let c := match dst.loc with
    | 0 => c.writeHome (hbmHome dst.pa) dst.pa b
    | 1 => { c with far := wrBytes c.far (bits dst.leaf 63 52 * 2 ^ 52 + dst.pa) b }
    | _ => c.writeHome .host dst.pa b
  if dst.loc = 0 then { c with hbmPoison := c.hbmPoison ++ bad.map fun d => d + dst.pa / 32 - src.pa / 32 } else c

/-- A completed job's record. -/
def Chip.endJob (c : Chip) (j : PageJob) : Chip := { c with job := none }.completeRecord j.queue j.index 0 j.record 0 0
/-- The set header of a parked set (R192). -/
def MapRec.header (x : MapRec) (rights : Nat) : List Byte :=
  toLe 8 x.name ++ toLe 8 x.va ++ toLe 4 x.count ++ toLe 1 x.size ++ toLe 1 rights ++ toLe 42 0
/-- The place of a backing area. -/
def MapRec.backing (x : MapRec) (off : Nat) : Phys := ⟨BitVec.ofNat 64 (x.loc * 2 ^ 10), x.size, x.pa + off⟩

/-- R190, R193: the copy of a sealed page is complete. A migrated page's leaf names the new home; a parked page's leaf is
zero, and after the last page the range drains. -/
def execPageCopyComplete (s : State) : Host.Outcome State Fault Refusal :=
  event (fun c => match c.job with
    | none => none
    | some j =>
      if j.kind = .drain || j.st ≠ .sealed_ then none
      else
        let x := j.fields
        let b := pageBytes x.size
        let src : Phys := ⟨j.old, x.size, leafAddr j.old x.size j.pageVa⟩
        if j.kind = .migrate then
          let leaf := leafWord (if x.loc = 1 then x.pkg else 0) (x.pa + j.page * b) x.loc (bits j.old 5 3)
          let c := c.copyTo src ⟨leaf, x.size, x.pa + j.page * b⟩ b
          let c := (c.reopenAt x.loc (x.pa + j.page * b) b).setLeaf j.ctx j.pageVa x.size leaf
          let c := if src.loc = 0 then c.moveListed src.pa b (if x.loc = 1 then x.pkg else c.pkg) (x.pa + j.page * b) else c
          let c := c.invalidate j.ctx j.pageVa b
          some { c with job := some { j with st := .moved, since := c.nextReq } }
        else
          let c := (c.copyTo src (x.backing (0x10000 + j.page * b)) b).setLeaf j.ctx j.pageVa x.size 0
          let c := if src.loc = 0 then c.parkListed src.pa b j.ctx j.pageVa else c
          if j.page + 1 < x.count then some { c with job := some { j with page := j.page + 1, st := .mapped } }
          else
            let c := c.invalidate j.ctx j.va j.size
            some { c with job := some { j with st := .moved, since := c.nextReq } }) s

/-- R189, R190, R193: the drain is complete. The next page follows, or the record completes; a park writes its header
first. -/
def execPageReleased (s : State) : Host.Outcome State Fault Refusal :=
  event (fun c => match c.job with
    | none => none
    | some j =>
      let (lo, n) := if j.kind = .migrate then (j.pageVa, pageBytes j.fields.size) else (j.va, j.size)
      if j.st ≠ .moved || c.openThrough j.since j.ctx lo n then none
      else match j.kind with
        | .drain => some (c.endJob j)
        | .migrate =>
          if j.page + 1 < j.fields.count then some { c with job := some { j with page := j.page + 1, st := .mapped } }
          else some (c.endJob j)
        | .park =>
          let x := j.fields
          let p := x.backing 0
          let h := if p.loc = 0 then hbmHome p.pa else Home.host
          some ((c.writeHome h p.pa (x.header (bits j.old 5 3))).endJob j)) s

/-! ## Restore (R194) -/

/-- Whether a backing read fails. -/
def Chip.backingBad (c : Chip) (p : Phys) (n : Nat) : Bool := c.physBad p n
/-- The pages of a set copied back from page i up: the package, and whether every read succeeded. -/
def Chip.restorePages (c : Chip) (ctx : Nat) (x : MapRec) (rights i : Nat) : Nat → Pool → Chip × Bool
  | 0, _ => (c, true)
  | n + 1, pool =>
    let b := pageBytes x.size
    let src := x.backing (0x10000 + i * b)
    let dst : Phys := ⟨0, x.size, x.pkg + i * b⟩
    if c.backingBad src b then (c, false)
    else
      let c := ((c.reopen dst.pa b).copyTo src dst b).restoreListed ctx (x.va + i * b) b dst.pa
      match c.putLeaf (x.va + i * b) x.size (leafWord 0 dst.pa 0 rights) 4 (c.ctxAt ctx).ptroot.toNat pool with
      | none => (c, false)
      | some (c, pool) => c.restorePages ctx x rights (i + 1) n pool
/-- Whether a set header names the set of a record (R194). -/
def MapRec.names (x : MapRec) (h : List Byte) : Bool :=
  field h 0 8 == x.name && field h 8 8 == x.va && field h 16 4 == x.count && field h 20 1 == x.size
/-- R184, R194: restore. A header that cannot be read is a backing read that fails: no page is mapped. -/
def execRestore (q : Nat) (s : State) : Host.Outcome State Fault Refusal :=
  recordStep q (isMap 5) (fun q r c =>
    let x := mapRec r
    let ctx := q / 16
    let h := c.readPhys (x.backing 0) 64
    let rights := field h 21 1 % 8
    if !x.ok r || (x.loc != 0 && x.loc != 2) then .reject 1
    else if c.physBad (x.backing 0) 64 then .later (c.completeRecord q (c.taking q) 7 r 0 0)
    else if !x.names h then .reject 1
    else match c.putLeaves (c.ctxAt ctx).ptroot.toNat x.va x.size x.pkg 0 0 rights 0 x.count x.pool with
      | none => .reject 1
      | some _ => match c.restorePages ctx x rights 0 x.count x.pool with
        | (c, true) => .done c 0
        | (c, false) => .later (c.completeRecord q (c.taking q) 7 r 0 0)) s

end Sys2Proof.Machine
end

