-- ==== Sys2Proof/Machine/Context.lean ====
section
/-! DEFINITION. Contexts (R81 to R87): creation, kill and what it breaks, closing and clean-up, and fatal reports (R156). -/

namespace Sys2Proof.Machine

/-! ## Objects of an owner (R86) -/

/-- The HBM addresses of the objects of one kind that rights entries name as an owner's. -/
def Chip.ownedAt (c : Chip) (owner kind : Nat) : List Nat :=
  c.ctxs.flatMap fun x => if x.2.st = .free then [] else
    ((c.rightsOf x.1).filter fun e => e.owner == owner && e.kind == kind && !e.bad).filterMap fun e =>
      (c.placeIn x.1 e.base).bind fun p => if p.loc = 0 then some p.pa else none
/-- Every object of an owner broken, each in one step at its home (R86, R112, R179, R243, R252). A mesh answers as broken
from its owner's state (R233). -/
def Chip.breakOwned (c : Chip) (owner : Nat) : Chip :=
  let headers := c.ownedAt owner 4 ++ c.ownedAt owner 5
  let local_ := c.tiles.filter fun t =>
    (match t.home with | .core _ => true | _ => false) && c.tileOwner t.home t.addr == some owner
  let tiles := local_.map (fun t => (t.home, t.addr)) ++ (c.ownedAt owner 2).map fun a => (hbmHome a, a)
  let c := headers.foldl (fun c a => (c.breakHeader (hbmHome a) a).wake (hbmHome a)) c
  let c := tiles.foldl (fun c t => (c.breakTile t.1 t.2 owner).wakeAfter t.1 t.2) c
  { c with
    regions := c.regions.map fun r => if r.owner == owner then { r with st := .broken } else r
    hqs := c.hqs.map fun p => if p.2.owner == owner then (p.1, p.2.break_) else p }

/-! ## States (R84) -/

/-- A context enters closing: its queues are stopped (R101), where `cqerr` reads zero (R94), and its objects are broken for every
other holder (R86). -/
def Chip.enterClosing (c : Chip) (ctx : Nat) : Chip :=
  let c := (c.modCtx ctx fun x => { x with st := .closing }).breakOwned ctx
  { c with queues := c.queues.map fun (p : Nat × HostQueue) =>
      if p.1 / 16 == ctx && (p.2.st == .running || p.2.st == .error) then (p.1, { p.2 with st := .stopped, err := 0 }) else p }

/-- What a core still holds of a context besides frames, discarded: task records, wait-table entries, queued commands and
arrivals (R84, R86). -/
def Core.dropWork (k : Core) (ctx : Nat) : Core :=
  { k with
    deque := k.deque.filter fun t => t.ctx != ctx
    wtab := k.wtab.map fun e => if !e.isFree && e.ctx == ctx then WEntry.reset else e
    mxq := k.mxq.filter fun q => q.ran || q.ctx != ctx
    cpq := k.cpq.filter fun q => q.ran || q.ctx != ctx
    postbox := k.postbox.filter fun m => m.lctx.getD m.frank.ctx != ctx
    held := k.held.filter fun m => m.lctx.getD m.frank.ctx != ctx }
/-- Arrivals that no answer has been sent for yet: their senders take trap 0x05 (R86). -/
def Core.unanswered (k : Core) (ctx : Nat) : List Msg :=
  (k.postbox ++ k.held).filter fun m => m.lctx.getD m.frank.ctx == ctx && (match m.body with | .reduce .. => true | _ => false)
/-- Threads that have been accepted and wait for a frame (R127). -/
def Core.boxed (k : Core) (ctx : Nat) : List (Msg × Image) :=
  k.postbox.filterMap fun m => match m.body with | .migrate im => if im.ctx == ctx then some (m, im) else none | _ => none
/-- A context's work discarded everywhere, the claims of its waiting threads released (R233). -/
def Chip.dropWork (c : Chip) (ctx : Nat) : Chip :=
  let nacks := c.cores.flatMap fun k => k.2.unanswered ctx
  let boxed := c.cores.flatMap fun k => k.2.boxed ctx
  let mine := fun (t : Task) => t.ctx == ctx
  let c := { c with
    cores := c.cores.map fun (p : Nat × Core) => (p.1, p.2.dropWork ctx)
    net := c.net.filter fun m => match m.body with | .taskPush t => !mine t | _ => true
    steals := c.steals.map fun (q : StealMsg) => { q with task := q.task.filter fun t => !mine t } }
  let c := boxed.foldl (fun c p => c.dropClaims p.1.frank.core p.1.frank.frame p.2.claims) c
  nacks.foldl (fun c m => c.answer m (.nack 1)) c

/-- The frames of a context. -/
def Chip.framesOf (c : Chip) (ctx : Nat) : List (Nat × Nat) :=
  c.cores.flatMap fun k => (k.2.frames.filter fun p => p.2.st != .free && p.2.ctx == ctx).map fun p => (k.1, p.1)

/-- The launches of a context killed: those that wait end at once, the others when nothing of them is left (R85, R124). -/
def Chip.killLaunches (c : Chip) (ctx : Nat) : Chip :=
  let mine := c.launches.filter fun p => p.2.ctx == ctx
  mine.foldl (fun c p => if p.2.placed then { c with launches := tset c.launches p.1 { p.2 with killed := true } }
    else c.endLaunch p.1 p.2 1 6 (toLe 48 0)) c

/-- The records still in a context's queues rejected one after another, which leaves those queues in the error state: head stands
after the last of them, which `cqerr` names (R85, R101, log 75). -/
def Chip.rejectUnread (c : Chip) (ctx : Nat) : Chip :=
  let mine := c.queues.filter fun p => p.1 / 16 == ctx && (p.2.st == .running || p.2.st == .error) && p.2.unread
  mine.foldl (fun c p => (c.flush p.1 6 p.2.size).modQueue p.1 fun x => { x with
    st := .error, err := BitVec.ofNat 64 ((x.head + x.size - 1) % x.size * 2 ^ 32 + 6) }) c
/-- A context killed at a command boundary (R84, R85, R86, R179). -/
def Chip.killContext (c : Chip) (ctx : Nat) : Chip :=
  if (c.ctxAt ctx).st = .building then c.enterClosing ctx
  else
    let mine := c.launches.filter fun p => p.2.ctx == ctx
    let c := c.modCtx ctx fun x => { x with st := .killing }
    let c := mine.foldl (fun c p => c.breakObjects (some p.1)) c
    let c := (c.framesOf ctx).foldl (fun c f => c.discard f.1 f.2) c
    (((c.dropWork ctx).killLaunches ctx).breakOwned ctx).rejectUnread ctx

/-! ## Records (R83, R92) -/

/-- The descriptor of a create record (R83), none where it breaks a limit. -/
def descriptor (r : List Byte) : Option Ctx :=
  let w := fun i => field r (16 + i) 8
  let inHbm := fun a => a % 4096 == 0 && installed a 4096
  if inHbm (w 0) && w 8 % 256 == 0 && decide (w 8 < 2 ^ 57) && inHbm (w 16) && decide (field r 40 2 ≤ 256)
    && decide (field r 42 1 ≤ 3) && decide (field r 43 1 < 2) && decide (1 ≤ field r 44 1) && decide (field r 44 1 ≤ 16)
    && zeroBytes r 45 35 then
    some { st := .building, ptroot := BitVec.ofNat 64 (w 0), tvbase := BitVec.ofNat 64 (w 8), rtbase := BitVec.ofNat 64 (w 16),
           rtcount := field r 40 2, maxpri := field r 42 1, flags := field r 43 1, nqueue := field r 44 1 }
  else none
/-- The target context of a record, none where it is out of range or a reserved byte is not zero. -/
def targetCtx (r : List Byte) : Option Nat :=
  let t := field r 8 2
  if 1 ≤ t ∧ t ≤ 1023 ∧ zeroBytes r 10 (if isKind 2 r then 6 else 246) then some t else none
/-- The code of a record whose target is in the wrong state. -/
def wrongState (st : CSt) : Nat := match st with | .killing | .closing => 6 | _ => 5

/-- R83, R84: create. -/
def execCreate (q : Nat) (s : State) : Host.Outcome State Fault Refusal :=
  recordStep q (isKind 2) (fun _ r c => match targetCtx r, descriptor r with
    | some t, some x =>
      if (c.ctxAt t).st ≠ .free || !zeroBytes r 80 176 then .reject 1 else .done { c with ctxs := tset c.ctxs t x } 0
    | _, _ => .reject 1) s
/-- R84: activate. -/
def execActivate (q : Nat) (s : State) : Host.Outcome State Fault Refusal :=
  recordStep q (isKind 3) (fun _ r c => match targetCtx r with
    | none => .reject 1
    | some t =>
      if (c.ctxAt t).st = .building then .done (c.modCtx t fun x => { x with st := .live }) 0
      else .reject (wrongState (c.ctxAt t).st)) s
/-- R84: close. -/
def execClose (q : Nat) (s : State) : Host.Outcome State Fault Refusal :=
  recordStep q (isKind 4) (fun _ r c => match targetCtx r with
    | none => .reject 1
    | some t =>
      if (c.ctxAt t).st = .live then .done (c.modCtx t fun x => { x with st := .draining }) 0
      else .reject (wrongState (c.ctxAt t).st)) s
/-- R85: kill. -/
def execKill (q : Nat) (s : State) : Host.Outcome State Fault Refusal :=
  recordStep q (isKind 5) (fun _ r c => match targetCtx r with
    | none => .reject 1
    | some t => match (c.ctxAt t).st with
      | .live | .draining | .building => .done (c.killContext t) 0
      | st => .reject (wrongState st)) s

/-! ## Reports (R156, R318, R351, R454) -/

/-- What a report names: a core and a frame or launch, or a context. -/
def Report.key : Report → Option (Nat × Nat)
  | .fatal c f => some (c, f)
  | .slice c l => some (c, l)
  | .lost ctx _ => some (ctx, 0)
  | .halt .. => none
/-- The context and the launch that a report condemns. A frame that is no longer parked fatally condemns none. -/
def Chip.condemned (c : Chip) : Report → Option (Nat × Option Nat)
  | .fatal core f => if (c.frameAt core f).fatal then some ((c.frameAt core f).ctx, (c.frameAt core f).launch) else none
  | .slice _ l => (tfind c.launches l).map fun x => (x.ctx, some l)
  | .lost ctx l => some (ctx, l)
  | .halt .. => none
/-- R156: the report is handled at a command boundary: the thread's objects break, and its context is killed. Context 0 is
never torn down (R81): its report alone is handled (log 33). -/
def execFatalTrapReport (core frame : Nat) (s : State) : Host.Outcome State Fault Refusal :=
  event (fun c =>
    if c.job.isSome then none
    else (c.reports.find? fun r => r.key == some (core, frame)).map fun r =>
      let c := { c with reports := c.reports.erase r }
      match c.condemned r with
      | none => c
      | some (ctx, l) =>
        let c := c.breakObjects l
        match (c.ctxAt ctx).st with
        | .live | .draining => if ctx = 0 then c else c.killContext ctx
        | _ => c) s

/-! ## The end of a context -/

/-- Whether an engine command of a context is queued or running. -/
def Chip.commandsIn (c : Chip) (ctx : Nat) : Bool := c.cores.any fun k => (k.2.mxq ++ k.2.cpq).any fun q => q.ctx == ctx
/-- Whether a task record of a context is left. -/
def Chip.tasksIn (c : Chip) (ctx : Nat) : Bool :=
  (c.cores.any fun k => (k.2.deque.any fun t => t.ctx == ctx) || k.2.wtab.toList.any fun e => !e.isFree && e.ctx == ctx)
  || (c.net.any fun m => match m.body with | .taskPush t => t.ctx == ctx | _ => false)
  || (c.steals.any fun q => q.task.any fun t => t.ctx == ctx)
/-- Whether a message acts for a context: it is franked with it, or was admitted for it (R87, R211). -/
def actsFor (m : Msg) (ctx : Nat) : Bool := m.frank.ctx == ctx || m.lctx == some ctx
/-- Whether a message franked with a context is not yet acknowledged or refused (R87). An edit that waits for its round has been
answered (R228). -/
def Chip.trafficOf (c : Chip) (ctx : Nat) : Bool :=
  (c.cores.any fun k => (k.2.reqs.any fun r => r.2.msg.frank.ctx == ctx) || (k.2.trackers.any fun t => t.2.ctx == ctx)
    || (k.2.postbox ++ k.2.held).any fun m => actsFor m ctx)
  || (c.net.any fun m => actsFor m ctx) || (c.out.any fun w => w.msg.frank.ctx == ctx)
  || (c.retained.any fun x => x.msg.frank.ctx == ctx) 
  || (c.edits.any fun e => e.ctx == ctx && (match e.phase with | .pending _ => false | _ => true))
/-- Whether an instruction that acts for a context waits at a home (R87, R176, R229). -/
def Chip.waitsFor (c : Chip) (ctx : Nat) : Bool :=
  ((c.cores.flatMap fun k => k.2.waiters) ++ c.agentWait.flatMap (·.2)).any (fun m => c.waiterCtx m == ctx || m.frank.ctx == ctx)
  || c.rounds.any fun q => q.2 == ctx
/-- Whether records still wait in a running queue of a context (R85). -/
def Chip.recordsIn (c : Chip) (ctx : Nat) : Bool := c.queues.any fun p => p.1 / 16 == ctx && p.2.hasPending

/-- R84: a draining context whose work has ended. -/
def execContextDrained (ctx : Nat) (s : State) : Host.Outcome State Fault Refusal :=
  event (fun c =>
    if c.job.isSome || (c.ctxAt ctx).st ≠ .draining || !(c.framesOf ctx).isEmpty || c.commandsIn ctx || c.tasksIn ctx || c.trafficOf ctx
      || (c.launches.any fun p => p.2.ctx == ctx) then none
    else some (c.enterClosing ctx)) s
/-- R84: a killing context with nothing left. Launch records still in its running queues are rejected first (R85). -/
def execKillComplete (ctx : Nat) (s : State) : Host.Outcome State Fault Refusal :=
  event (fun c =>
    if c.job.isSome || (c.ctxAt ctx).st ≠ .killing || !(c.framesOf ctx).isEmpty || c.commandsIn ctx || c.tasksIn ctx || c.recordsIn ctx
      || (c.launches.any fun p => p.2.ctx == ctx) then none
    else some (c.enterClosing ctx)) s

/-- Windows, tags and handles of a context cleared (R84, steps 1 to 3). -/
def Core.forget (k : Core) (ctx : Nat) : Core :=
  { k with
    win := k.win.map fun w => if bits w 57 48 == ctx && !tst w 47 then 0 else w
    winOld := k.winOld.map fun w => if bits w 57 48 == ctx && !tst w 47 then 0 else w
    tags := k.tags.filter fun t => t.2.ctx != ctx
    handles := k.handles.map fun h => if h.owner == some ctx then ⟨putBits h.cfg 63 63 0, none, h.pi, h.ci⟩ else h }
/-- A rights entry emptied (R88). -/
def Chip.emptyEntry (c : Chip) (ctx i : Nat) : Chip :=
  let a := (c.ctxAt ctx).rtbase.toNat + 16 * i
  c.writeHome (hbmHome a) a (toLe 16 0)
/-- The pages of an area removed from its holder's tables (R91): whole pages, though another object of the holder may lie in one of
them (DESIGN CHOICE, log 77). -/
def Chip.unshare (c : Chip) (x : Share) : Chip :=
  let lo := x.base.toNat / 65536 * 65536
  let n := (x.base.toNat % 65536 + x.len + 65535) / 65536
  let c := (List.range n).foldl (fun c i => c.setLeaf x.holder (lo + i * 65536) 0 0) c
  c.invalidate x.holder lo (n * 65536)
/-- The areas through which a holder reaches an object: those that its accepts mapped, or for the owner itself the object (R91,
log 77). -/
def Chip.areasOf (c : Chip) (holder : Nat) (e : Rights) : List Share :=
  match c.shares.filter fun y => y.holder == holder && y.base == e.base with
  | [] => [⟨e.owner, holder, e.base, c.objectBytes holder e, none⟩]
  | l => l
/-- The areas of every holder of an owner's objects. -/
def Chip.ownedAreas (c : Chip) (owner : Nat) : List Share :=
  c.ctxs.flatMap fun x => if x.2.st = .free then [] else
    ((c.rightsOf x.1).filter fun e => e.owner == owner).flatMap (c.areasOf x.1)
/-- Every rights entry that names an owner's object revoked with its mapping, the owner's own among them (R84 step 4, R91). -/
def Chip.revokeAll (c : Chip) (owner : Nat) : Chip :=
  let areas := c.ownedAreas owner
  let c := c.ctxs.foldl (fun c x => if x.2.st = .free then c else
    ((c.rightsOf x.1).filter fun e => e.owner == owner).foldl (fun c e => c.emptyEntry x.1 e.index) c) c
  let c := areas.foldl Chip.unshare c
  { c with
    shares := c.shares.filter fun x => x.owner != owner && x.holder != owner
    grants := c.grants.filter fun g => g.owner != owner && g.giver != owner && g.taker != owner }

/-- R84, R87: the five steps of clean-up, once every message franked with the number is acknowledged or refused. -/
def execContextCleanup (ctx : Nat) (s : State) : Host.Outcome State Fault Refusal :=
  event (fun c =>
    let held := (c.ownedAreas ctx).any fun x => c.openThrough c.nextReq x.holder x.base.toNat x.len
    if c.job.isSome || (c.ctxAt ctx).st ≠ .closing || c.trafficOf ctx || c.waitsFor ctx || held then none
    else
      let c := { c with cores := c.cores.map fun (p : Nat × Core) => (p.1, p.2.forget ctx) }
      let c := c.tiles.foldl (fun c t => (c.dropSubscriber t.home t.addr ctx).wakeAfter t.home t.addr) c
      let c := (c.revokeAll ctx).invalidate ctx 0 (2 ^ 57)
      some { c with
        tiles := c.tiles.map fun (t : TileRec) => { t with
          owner := if t.owner == some ctx then none else t.owner
          subs := t.subs.filter fun p => p.2.1 != ctx }
        ctxs := tdel c.ctxs ctx
        walks := c.walks.map fun (p : Nat × List Walk) => (p.1, p.2.filter fun w => w.ctx != ctx)
        queues := c.queues.map fun (p : Nat × HostQueue) =>
          if p.1 / 16 == ctx then (p.1, { p.2 with st := .disabled, err := 0 }) else p }) s

end Sys2Proof.Machine
end

