-- ==== Sys2Proof/Machine/Copy.lean ====
section
/-! DEFINITION. The copy engine's commands (R363 to R365). Each runs whole in one step (log 4); its rows and elements are
performed in the order written. -/

namespace Sys2Proof.Machine

/-- The place of a copy operand: its location word, or the slot of the handle that serves it (R363); `lo` and `hi` bound
the bytes that it touches, relative to its start. -/
def copySource (core : Nat) (m : Cmd) (loc : Nat) (lo hi : Int) : E Spot := do
  if served (m.byte 8) then
    failIf (decide (lo < 0)) 0x31
    let o ← sourceAt core m loc hi.toNat
    pure ⟨true, o⟩
  else pure (spotOf loc)
/-- The place of a copy destination. -/
def copyDest (core : Nat) (m : Cmd) (loc : Nat) (lo hi : Int) : E Spot := do
  if served (m.byte 9) then
    failIf (decide (lo < 0)) 0x31
    let o ← destAt core m loc hi.toNat
    pure ⟨true, o⟩
  else pure (spotOf loc)

/-- Rows r and up, n of them (R364). -/
def copyRows (core : Nat) (m : Cmd) (src dst : Spot) (width : Nat) (ss ds : Int) (r : Nat) : Nat → E Unit
  | 0 => pure ()
  | n + 1 => do
    let b ← (src.plus (r * ss)).read core m width
    (dst.plus (r * ds)).write core m .cp b
    copyRows core m src dst width ss ds (r + 1) n

/-- R364: `cp.copy2d` -/
def execCpCopy2d (core : Nat) (s : State) : Host.Outcome State Fault Refusal :=
  event (fun c => c.runCmd core .cp 0x81 fun m => do
    let (src, dst, width, rows) := (m.field 16 8, m.field 24 8, m.field 32 4, m.field 36 4)
    let (ss, ds) := (m.signed 40, m.signed 44)
    checkRecord m (handleByteOk (m.byte 8) && handleByteOk (m.byte 9) && m.zero 10 16 && locationOk src && locationOk dst
      && decide (1 ≤ width) && decide (width ≤ 2 ^ 24) && decide (1 ≤ rows) && decide (rows ≤ 65536) && m.zero 48 64)
    let last := fun (st : Int) => st * (rows - 1)
    let a ← copySource core m src (min 0 (last ss)) (max 0 (last ss) + width)
    let b ← copyDest core m dst (min 0 (last ds)) (max 0 (last ds) + width)
    copyRows core m a b width ss ds 0 rows
    advanceSlots core m true true) s

/-- The slot that bounds an operand, if a handle serves it: one past its last byte. -/
def slotEnd (core : Nat) (m : Cmd) (b : Nat) (start : Int) : E (Option Int) := do
  if served b then
    let h ← handleFor core m b
    pure (some (start + h.slotBytes))
  else pure none
/-- An element that leaves its slot (R363). -/
def inSlot (limit : Option Int) (last : Int) : E Unit :=
  failIf (match limit with | some l => decide (l < last) | none => false) 0x31

/-- Elements i and up of a gather or a scatter (R364). -/
def moveElems (core : Nat) (m : Cmd) (gather : Bool) (src dst idx : Spot) (ls ld : Option Int) (esz i : Nat) : Nat → E Unit
  | 0 => pure ()
  | n + 1 => do
    let ix ← (idx.plus (4 * i)).read core m 4
    let (si, di) := if gather then (leNat ix, i) else (i, leNat ix)
    inSlot ls (src.at_ + (si + 1) * esz)
    inSlot ld (dst.at_ + (di + 1) * esz)
    let e ← (src.plus (si * esz)).read core m esz
    (dst.plus (di * esz)).write core m .cp e
    moveElems core m gather src dst idx ls ld esz (i + 1) n

/-- The body that gather and scatter share. -/
def indexed (core : Nat) (gather : Bool) (m : Cmd) : E Unit := do
  let (src, dst, idx, count, esz) := (m.field 16 8, m.field 24 8, m.field 32 8, m.field 40 4, m.field 44 4)
  checkRecord m (handleByteOk (m.byte 8) && handleByteOk (m.byte 9) && m.zero 10 16 && locationOk src && locationOk dst
    && locationOk idx && idx % 4 == 0 && decide (1 ≤ count) && decide (count ≤ 65536) && decide (1 ≤ esz)
    && decide (esz ≤ 256) && m.zero 48 64)
  let a ← copySource core m src 0 (if gather then 0 else count * esz)
  let b ← copyDest core m dst 0 (if gather then count * esz else 0)
  let ls ← slotEnd core m (m.byte 8) a.at_
  let ld ← slotEnd core m (m.byte 9) b.at_
  moveElems core m gather a b (spotOf idx) ls ld esz 0 count
  advanceSlots core m true true

/-- R364: `cp.gather` -/
def execCpGather (core : Nat) (s : State) : Host.Outcome State Fault Refusal :=
  event (fun c => c.runCmd core .cp 0x82 (indexed core true)) s
/-- R364: `cp.scatter` -/
def execCpScatter (core : Nat) (s : State) : Host.Outcome State Fault Refusal :=
  event (fun c => c.runCmd core .cp 0x83 (indexed core false)) s

/-- R364: `cp.fill` -/
def execCpFill (core : Nat) (s : State) : Host.Outcome State Fault Refusal :=
  event (fun c => c.runCmd core .cp 0x84 fun m => do
    let (dst, len, pattern) := (m.field 16 8, m.field 24 4, m.field 32 8)
    checkRecord m (m.byte 8 == 0 && handleByteOk (m.byte 9) && m.zero 10 16 && locationOk dst && decide (1 ≤ len)
      && m.zero 28 32 && m.zero 40 64)
    let b ← copyDest core m dst 0 len
    b.write core m .cp ((List.range len).map fun j => BitVec.ofNat 8 (pattern / 256 ^ (j % 8)))
    advanceSlots core m false true) s

/-- R364: `cp.mark` -/
def execCpMark (core : Nat) (s : State) : Host.Outcome State Fault Refusal :=
  event (fun c => c.runCmd core .cp 0x85 fun m => checkRecord m (m.zero 8 64)) s

end Sys2Proof.Machine
end

