-- ==== Sys2Proof/Machine/Links.lean ====
section
/-! DEFINITION. The external ports (R201, R206, R207, R209) and the health log that they write to (R426). -/

namespace Sys2Proof.Machine

/-! ## Ports -/

/-- Credits of each class at a successful training (R201). -/
def fullCredits : Vector Nat 3 := #v[576, 576, 144]

/-- Whether a port in a state carries traffic (R206). -/
def carries : PortSt → Bool
  | .up | .degraded => true
  | _ => false
/-- A port by number. -/
def Chip.portAt (c : Chip) (p : Nat) : Port := c.ports[p % 16]'(Nat.mod_lt _ (by decide))
/-- A port changed. -/
def Chip.modPort (c : Chip) (p : Nat) (f : Port → Port) : Chip :=
  { c with ports := c.ports.set (p % 16) (f (c.portAt p)) (Nat.mod_lt _ (by decide)) }

/-! ## The health log (R426) -/

/-- The unit field of an entry: its class and its number. -/
def unitOf (b : Block) : Nat :=
  match b with
  | .signature n => n % 2048
  | .channel st ch => 2 ^ 12 + st % 8 * 32 + ch % 32
  | .port n => 2 * 2 ^ 12 + n % 16
  | .die n => 3 * 2 ^ 12 + n % 16
/-- An entry written, with `cy` of the spine: its number goes last, and MSI-X vector 0 is raised. -/
def Chip.logHealth (c : Chip) (kind unit detail : Nat) : Chip :=
  let i := c.hlhead.toNat
  let e := toLe 4 i ++ toLe 1 kind ++ toLe 1 0 ++ toLe 2 unit ++ toLe 8 (c.now - c.started) ++ toLe 8 detail ++ toLe 8 0
  { c with health := tset c.health (i % 256) (BitVec.ofNat 256 (leNat e)), hlhead := c.hlhead + 1, msix := c.msix ++ [0] }
/-- `devst.state` set; a change raises MSI-X vector 2 (R413, R422). Only a start leaves state 4 (R424). -/
def Chip.setDevState (c : Chip) (st : Nat) : Chip :=
  if c.devState = st ∨ c.devState = 4 then c else { c with devState := st, msix := c.msix ++ [2] }

/-! ## State changes of a port (R206, R209) -/

/-- A millisecond in cycles. -/
def oneMs : Nat := 1000 * Config.cyclesPerUs
/-- A port that leaves up or degraded: credits are forgotten, its link replay buffer is emptied, and what it carried is to be sent
again through other ports (R201, R203, R209). -/
def Chip.leavePort (c : Chip) (p : Nat) (st : PortSt) : Chip :=
  let was := carries (c.portAt p).st
  let c := c.modPort p fun x => { x with
    st := st, since := c.now, lanes := 0, rate := 0, recentReplays := [], buffer := []
    credits := if was then Vector.replicate 3 0 else x.credits }
  if was then { c with retained := c.retained.map fun (r : Retained) => if r.port == p then { r with port := 16 + p } else r } else c
/-- A port quarantined, with its log entry (R426; log 37). -/
def Chip.quarantine (c : Chip) (p : Nat) : Chip := (c.leavePort p .quarantined).logHealth 8 (unitOf (.port p)) 0
/-- Entries into training of the last second. -/
def Chip.recentEntries (c : Chip) (p : Nat) : List Nat :=
  (c.portAt p).entries.filter fun t => decide (c.now < t + 1000 * oneMs)
/-- A port sent to training. -/
def Chip.train (c : Chip) (p : Nat) : Chip :=
  let e := c.recentEntries p ++ [c.now]
  (c.leavePort p .training).modPort p fun x => { x with entries := e }
/-- A port that carries traffic sent to training, or quarantined at the third entry within a second (R206). -/
def Chip.retrain (c : Chip) (p : Nat) : Chip := if 2 ≤ (c.recentEntries p).length then c.quarantine p else c.train p
/-- A replay counted, to 0xFFFF at most; more than 64 within a millisecond send the port to training (R206, R207). -/
def Chip.countReplay (c : Chip) (p : Nat) : Chip :=
  let recent := ((c.portAt p).recentReplays.filter fun t => decide (c.now < t + oneMs)) ++ [c.now]
  let c := c.modPort p fun x => { x with replay := min 0xFFFF (x.replay + 1), recentReplays := recent }
  if 64 < recent.length then c.retrain p else c
/-- The far end of a link has acknowledged its n oldest frames, which leave the link replay buffer (R206). -/
def Chip.linkAck (c : Chip) (p n : Nat) : Chip := c.modPort p fun x => { x with buffer := x.buffer.drop n }

/-- A step of port p. -/
def portStep (p : Nat) (f : Port → Chip → Option Chip) (s : State) : Host.Outcome State Fault Refusal :=
  event (fun c => if 16 ≤ p then none else f (c.portAt p) c) s

/-- R206: a frame that fails its check is replayed from the replay buffer and counted. -/
def execLinkReplay (p : Nat) (s : State) : Host.Outcome State Fault Refusal :=
  portStep p (fun x c => if carries x.st then some (c.countReplay p) else none) s
/-- R206: a port that is down and not held there starts training after 1 ms. -/
def execLinkTrainingStart (p : Nat) (s : State) : Host.Outcome State Fault Refusal :=
  portStep p (fun x c => if x.st = .down && !x.dis && decide (x.since + oneMs ≤ c.now) then some (c.train p) else none) s
/-- R206: training ends up with 8 lanes at 224 Gb/s, or degraded; credits are set (R201). -/
def execLinkTrained (p lanes rate : Nat) (s : State) : Host.Outcome State Fault Refusal :=
  portStep p (fun x c =>
    if x.st = .training && decide (2 ≤ lanes) && decide (lanes ≤ 8) && decide (1 ≤ rate) && decide (rate ≤ 3)
        && decide (c.now < x.since + 100 * Config.cyclesPerUs) then
      some (c.modPort p fun x => { x with
        st := if lanes = 8 ∧ rate = 3 then .up else .degraded
        since := c.now, lanes := lanes, rate := rate, replay := 0, trains := 0, credits := fullCredits, recentReplays := [] })
    else none) s
/-- R206: 100 microseconds without success; the 8th failure in a row quarantines. -/
def execLinkTrainingTimeout (p : Nat) (s : State) : Host.Outcome State Fault Refusal :=
  portStep p (fun x c =>
    if x.st = .training && decide (x.since + 100 * Config.cyclesPerUs ≤ c.now) then
      let c := (c.leavePort p .down).modPort p fun y => { y with trains := x.trains + 1 }
      some (if 8 ≤ x.trains + 1 then c.quarantine p else c)
    else none) s
/-- R206: a loss of lane lock. -/
def execLinkFault (p : Nat) (s : State) : Host.Outcome State Fault Refusal :=
  portStep p (fun x c => if carries x.st then some (c.retrain p) else none) s

/-! ## `lkctl` (R207) -/

/-- A write to `lkctl`: dis holds the port down, rel releases a quarantined port, retrain sends one to training. -/
def Chip.lkctl (c : Chip) (p : Nat) (v : Word) : Chip :=
  let x := c.portAt p
  let c := c.modPort p fun y => { y with dis := tst v 2 }
  if tst v 2 then (if x.st = .down then c else c.leavePort p .down)
  else if tst v 1 && x.st = .quarantined then (c.leavePort p .down).modPort p fun y => { y with trains := 0 }
  else if tst v 0 && carries x.st then c.retrain p
  else c
/-- R207: dis written 1. -/
def execLinkDisable (p : Nat) (s : State) : Host.Outcome State Fault Refusal := portStep p (fun _ c => some (c.lkctl p 4)) s
/-- R207: rel written 1. -/
def execLinkRelease (p : Nat) (s : State) : Host.Outcome State Fault Refusal := portStep p (fun _ c => some (c.lkctl p 2)) s
/-- R207: retrain written 1. -/
def execLinkRetrain (p : Nat) (s : State) : Host.Outcome State Fault Refusal := portStep p (fun _ c => some (c.lkctl p 1)) s

end Sys2Proof.Machine
end

