-- ==== Sys2Proof/Machine/Fabric.lean ====
section
/-! DEFINITION. Traffic between packages (R198 to R205, R210, R452): heads and lengths, the choice of a port, postmarks, the
retention buffer, the resequencing store, and messages that find no port. -/

namespace Sys2Proof.Machine

/-! ## Classes, lengths and ports -/

/-- The class of a message (R200): 0 requests, 1 replies, 2 gossip. -/
def classOf (b : Body) : Fin 3 :=
  match b with
  | .mass .. | .commit _ | .withdrawal _ => 2
  | .reply .. | .ack _ | .nack _ | .objReply _ | .deliveryAck _ => 1
  | _ => 0
/-- Payload flits of 32 bytes (R199, R200, R236); for object messages the count that their operands take (log 34). -/
def payloadFlits (b : Body) : Nat :=
  match b with
  | .put d _ => if d.length ≤ 8 then 1 else 2
  | .piece _ => 2
  | .reply d _ => max 1 ((d.length + 31) / 32)
  | .active _ _ d | .exhaustion d => 1 + (d.length + 31) / 32
  | .migrate _ => 6
  | .reduce .. | .vreduce .. | .condStore .. => 1
  | .object op _ _ => (match op with
    | .gosset _ => 2
    | .bar | .verpub | .verpubO | .verpubFin | .verstop | .versettle | .versettleT | .chrecv | .gosspr | .gosest | .mround => 0
    | _ => 1)
  | .objReply _ | .notice .. => 1
  | .mass _ _ ws => (ws.length + 3) / 4
  | _ => 0
/-- Flits of a message with its head. -/
def flitsOf (m : Msg) : Nat := 1 + payloadFlits m.body

/-! ## The head flit (R199) -/

/-- The kind code of R200; a notice, a settle message and a withdrawal of a waiter go as object requests (R236, R241, R177). A
count-down and a pushed task, which stay on the package, have none (log 34). -/
def kindCode (b : Body) : Option Nat :=
  match b with
  | .put .. | .piece _ => some 0x01
  | .get _ => some 0x02
  | .reply .. => some 0x03
  | .active .. | .exhaustion _ => some 0x04
  | .migrate _ => some 0x05
  | .reduce .. | .vreduce .. => some 0x06
  | .reserve _ => some 0x07
  | .condStore .. => some 0x08
  | .ack _ => some 0x0B
  | .nack _ => some 0x0C
  | .object .. | .notice .. | .settle _ | .withdraw => some 0x0D
  | .objReply _ => some 0x0E
  | .mass .. => some 0x0F
  | .commit _ | .withdrawal _ => some 0x10
  | .deliveryAck _ => some 0x11
  | .invalid code => some code
  | .countDown | .taskPush _ => none
/-- The agent field: a core, or an agent's kind with its stack and channel. -/
def agentField (h : Home) : Nat :=
  match h with
  | .core n => n
  | .hbm st ch => 2 ^ 15 + st * 2 ^ 5 + ch
  | .spine => 2 ^ 15 + 2 ^ 8
  | .host => 2 ^ 15 + 2 ^ 9
/-- The scope code that a request carries. -/
def scopeField (x : Option Scope) : Nat :=
  match x with
  | none | some .thr => 0
  | some .core => 1
  | some .sig => 2
  | some .qre => 3
  | some .die => 4
  | some .pkg => 5
  | some .sys => 6
/-- The status of an answer, or of a gossip commit or withdrawal. -/
def statusField (b : Body) : Nat :=
  match b with
  | .ack st | .nack st => st
  | .withdrawal _ => 1
  | _ => 0
/-- The head flit of a message, with its requester's reply slot. Mass carries its region's id in the place of a counter (R249). -/
def headBytes (slot : Nat) (m : Msg) : Option (List Byte) :=
  (kindCode m.body).map fun k =>
    let ctr := match m.body with | .put _ (some o) | .notice o _ => 2 ^ 15 + o / 8 | .mass gid _ _ => gid | _ => 0
    let addr := match m.dest.home with | .core _ => m.addr % 2 ^ 18 | _ => m.addr % 2 ^ 52
    toLe 1 k ++ toLe 1 (payloadFlits m.body * 16 + scopeField m.scope * 2) ++ toLe 2 m.dest.pkg ++ toLe 2 (agentField m.dest.home)
      ++ toLe 2 ctr ++ toLe 8 ((frankWord m.frank).toNat + m.frank.frame * 2 ^ 38) ++ toLe 4 m.pmark ++ toLe 2 m.epoch
      ++ toLe 2 (statusField m.body * 2 ^ 8 + slot % 64) ++ toLe 8 addr

/-! ## The choice of a port -/
/-- The port with the most free credits among those in one state but one, the lowest number on a tie (R198). -/
def Chip.bestPort (c : Chip) (st : PortSt) (left : Option Nat) (m : Msg) : Option Nat :=
  let ok := (List.range 16).filter fun p =>
    (c.portAt p).st == st && left != some p && decide (flitsOf m ≤ (c.portAt p).credits[classOf m.body])
  ok.foldl (fun b p => match b with
    | some q => if (c.portAt q).credits[classOf m.body] < (c.portAt p).credits[classOf m.body] then some p else b
    | none => some p) none
/-- The candidate port that a message takes, another than the one it is to leave (R198, R209). -/
def Chip.candidateBut (c : Chip) (left : Option Nat) (m : Msg) : Option Nat :=
  (c.bestPort .up left m).orElse fun _ => c.bestPort .degraded left m
/-- The candidate port that a message takes (R198). -/
def Chip.candidate (c : Chip) (m : Msg) : Option Nat := c.candidateBut none m
/-- A message that goes out through a port: it spends its credits (R201), and its frame stands in the link replay buffer of 1,024
flits until the far end acknowledges it; none while that has no room (R206). -/
def Chip.carry (c : Chip) (p : Nat) (m : Msg) : Option Chip :=
  if 1024 < ((c.portAt p).buffer.map (·.2)).sum + flitsOf m then none
  else some (c.modPort p fun x => { x with
    credits := x.credits.set (classOf m.body) (x.credits[classOf m.body] - flitsOf m)
    seq := x.seq + 1, buffer := x.buffer ++ [(x.seq, flitsOf m)] })
/-- The waiting messages and the retained copies as time comes to `now`: those with a candidate port have had one until then
(R205). -/
def Chip.routesAt (c : Chip) (now : Nat) : Chip :=
  { c with
    out := c.out.map fun w => if (c.candidate w.msg).isSome then { w with since := now } else w
    retained := c.retained.map fun r => if (c.candidate r.msg).isSome then { r with since := now } else r }
/-- The time held in `fabcfg.tmo`, in cycles (R208). -/
def Chip.tmo (c : Chip) : Nat :=
  (if bits c.fabcfg 15 0 = 0 then 1000 else bits c.fabcfg 15 0) * 10 * Config.cyclesPerUs

/-! ## Postmarks (R202, R204) -/

/-- The cycle of postmarks. -/
def pmarks : Nat := 2 ^ 32 - 1
/-- How far a postmark lies beyond another in the cycle; 0 stands before the first. -/
def pmarkPast (p last : Nat) : Nat := (p + pmarks - last) % pmarks
/-- Whether a postmark is covered by an acknowledged one (R204). -/
def covered (p acked : Nat) : Bool := decide (pmarkPast acked p < 2 ^ 31)
/-- The stream from a core to a package, as a table index (R202). -/
def streamKey (core pkg : Nat) : Nat := core * 4096 + pkg
/-- The start count as epochs carry it (R202). -/
def Chip.epoch (c : Chip) : Nat := c.starts % 2 ^ 16
/-- Whether a message takes a postmark and is retained: a delivery ack is neither (R203, R452; log 35). -/
def marked (b : Body) : Bool := match b with | .deliveryAck _ => false | _ => true

/-! ## Sending -/

/-- R198, R202, R203: the n-th waiting message leaves, if no earlier one of its stream and class waits, nor a deferred notice that
it follows (R240), a candidate port holds its credits and the retention buffer has room. -/
def execOffpackageSend (n : Nat) (s : State) : Host.Outcome State Fault Refusal :=
  event (fun c => match c.out[n]? with
    | none => none
    | some w =>
      let m := w.msg
      let before := (c.out.take n).any fun x =>
        (x.msg.frank.core == m.frank.core && x.msg.dest.pkg == m.dest.pkg && classOf x.msg.body == classOf m.body)
          || noticeBefore x.msg m
      if before || (marked m.body && decide (8192 ≤ c.retained.length)) then none
      else (c.candidate m).bind fun p => (c.carry p m).map fun c =>
        let c := { c with out := c.out.eraseIdx n }
        if !marked m.body then c
        else
          let key := streamKey m.frank.core m.dest.pkg
          let k := tget 0 c.streamsOut key % pmarks + 1
          { c with
            streamsOut := tset c.streamsOut key k
            retained := c.retained ++ [⟨{ m with pmark := k, epoch := c.epoch }, p, c.now, c.now⟩] }) s

/-- Whether a body is gossip mass. -/
def isMass (b : Body) : Bool := match b with | .mass .. => true | _ => false
/-- Whether 20 microseconds have passed since a copy was sent (R203). -/
def Chip.copyOverdue (c : Chip) (r : Retained) : Bool := decide (r.sent + 20 * Config.cyclesPerUs ≤ c.now)
/-- Whether a retained copy is due to be sent again (R203): its link has left, or 20 microseconds have passed. Mass is not
sent again (R210). -/
def Chip.resendDue (c : Chip) (r : Retained) : Bool := !isMass r.msg.body && (decide (16 ≤ r.port) || c.copyOverdue r)
/-- R203, R209: the i-th retained message is sent again with its postmark; after its link has left, through another port. -/
def execRetentionResend (i : Nat) (s : State) : Host.Outcome State Fault Refusal :=
  event (fun c => match c.retained[i]? with
    | none => none
    | some r =>
      if !c.resendDue r then none
      else
        let left := if 16 ≤ r.port && !c.copyOverdue r then some (r.port - 16) else none
        (c.candidateBut left r.msg).bind fun p => (c.carry p r.msg).map fun c =>
          { c with retained := c.retained.set i ⟨r.msg, p, c.now, c.now⟩ }) s

/-- R201: the far end returns credits. -/
def execCreditReturn (port cls flits : Nat) (s : State) : Host.Outcome State Fault Refusal :=
  event (fun c =>
    if h : port < 16 ∧ cls < 3 then
      let x := c.portAt port
      let v := x.credits[cls]'h.2 + flits
      if carries x.st && decide (v ≤ fullCredits[cls]'h.2) then
        some (c.modPort port fun x => { x with credits := x.credits.set cls v h.2 })
      else none
    else none) s

/-! ## Receiving -/

/-- The receiving end of a stream, in the epoch of a message (R202). -/
def Chip.streamFor (c : Chip) (m : Msg) : Stream :=
  match c.streamsIn.find? fun x => x.pkg == m.frank.pkg && x.core == m.frank.core with
  | some x => if x.epoch = m.epoch then x else { x with epoch := m.epoch, last := 0, held := [] }
  | none => ⟨m.frank.pkg, m.frank.core, m.epoch, 0, []⟩
/-- A stream written back. -/
def Chip.setStream (c : Chip) (x : Stream) : Chip :=
  { c with streamsIn := x :: c.streamsIn.filter fun y => !(y.pkg == x.pkg && y.core == x.core) }
/-- A message handed to its home: only an object request names its launch off the package (R178). -/
def landed (m : Msg) : Msg :=
  match m.body with
  | .object .. => m
  | _ => { m with frank := { m.frank with launch := none } }
/-- Held successors that are in order now, delivered (R204). -/
def Stream.deliver (x : Stream) (net : List Msg) : Nat → Stream × List Msg
  | 0 => (x, net)
  | n + 1 => match x.held.find? fun m => pmarkPast m.pmark x.last == 1 with
    | none => (x, net)
    | some m => ({ x with last := m.pmark, held := x.held.erase m } : Stream).deliver (net ++ [landed m]) n
/-- The delivery ack of a stream, on its way back (R204). -/
def Chip.ackStream (c : Chip) (x : Stream) : Chip :=
  c.post ⟨0, ⟨c.pkg, x.core, 0, false, 0x7F, none⟩, ⟨x.pkg, .core x.core⟩, 0, 0, none, 0, none, 0, x.epoch,
    .deliveryAck x.last, none, false⟩
/-- Messages of a class held in the resequencing store (R204). -/
def Chip.heldIn (c : Chip) (cls : Fin 3) : Nat :=
  (c.streamsIn.map fun x => (x.held.filter fun m => classOf m.body == cls).length).sum

/-- Nack status 5 to the party that sent a request (R205). -/
def Chip.returnMsg (c : Chip) (m : Msg) : Chip :=
  { c with net := c.net ++ [{ m with
      dest := ⟨c.pkg, .core m.frank.core⟩, addr := 0, scope := none, pmark := 0, epoch := 0, body := .nack 5 }] }
/-- The retained request that a board or rack switch returns, because its package does not exist in the tree (R205): the
switch sends the request's own head back with nack status 5 and no postmark (log 41). -/
def Chip.returned (c : Chip) (m : Msg) : Option Retained :=
  if m.body = .nack 5 ∧ m.pmark = 0 then
    c.retained.find? fun r => isRequest r.msg.body && r.msg.frank == m.frank && r.msg.id == m.id
  else none

/-- What a message leaves at its home whose payload an uncorrectable error in the receive buffer has spoiled (R425, log 78): a
reply delivers poisoned data, and a request is not performed. -/
def spoiled (m : Msg) : List Msg :=
  match m.body with
  | .reply d _ => [{ landed m with body := .reply d true }]
  | .objReply _ => [{ landed m with body := .objReply (.trap 0x0E 0x52 m.va) }]
  | _ => []
/-- A spoiled message's answer: nack status 4 to a request, and to mass, which its sender takes back (R200, R249, log 78). -/
def Chip.refuseSpoiled (c : Chip) (m : Msg) : Chip :=
  match m.body with
  | .mass gid _ _ => c.refuseMass m gid 4
  | b => if isRequest b then c.answer m (.nack 4) else c

/-- R204: a message from another package, by its postmark; R205: a request that a switch returns; R200: an invalid kind, which is
discarded and counts a replay. -/
def execPostmarkArrival (port : Nat) (m : Msg) (s : State) : Host.Outcome State Fault Refusal :=
  event (fun c =>
    if let some r := c.returned m then
      if 16 ≤ port || !carries (c.portAt port).st then none
      else some ({ c with retained := c.retained.erase r }.returnMsg r.msg)
    else if (match m.body with | .invalid _ => true | _ => false) then
      if 16 ≤ port || !carries (c.portAt port).st then none else some (c.countReplay port)
    else if 16 ≤ port || !carries (c.portAt port).st || m.dest.pkg != c.pkg || m.frank.pkg == c.pkg || !marked m.body
      || m.pmark == 0 || decide (pmarks < m.pmark) || m.waits || m.lctx.isSome then none
    else
      let x := c.streamFor m
      let d := pmarkPast m.pmark x.last
      let bad := (c.portAt port).bad && decide (0 < payloadFlits m.body)
      let c := if bad then c.modPort port fun y => { y with bad := false } else c
      if d = 1 then
        let (x, net) := ({ x with last := m.pmark } : Stream).deliver (c.net ++ if bad then spoiled m else [landed m]) x.held.length
        let c := ({ c with net := net }.setStream x).ackStream x
        some (if bad then c.refuseSpoiled m else c)
      else if d = 0 || decide (2 ^ 31 ≤ d) then some ((c.setStream x).ackStream x)
      else if bad then some (c.setStream x)
      else if (x.held.any fun h => h.pmark == m.pmark) || decide (1024 ≤ c.heldIn (classOf m.body)) then some (c.setStream x)
      else some (c.setStream { x with held := x.held ++ [m] })) s

/-- R369, R249: a refusal at the core that sent the request, or of mass at the region that sent it. -/
def execNack (n : Nat) (s : State) : Host.Outcome State Fault Refusal :=
  event (fun c => match c.arriving n with
    | some m => match m.dest.home, m.body with
      | .core core, .nack st =>
        let c := c.taken n
        match tfind (c.coreAt core).reqs m.id with
        | none => some c
        | some r =>
          if st = 2 && r.owner != .gone then
            some (c.modCore core fun k => { k with reqs := tset k.reqs m.id { r with retry := some c.now } })
          else some (c.refuse core m.id r st)
      | .spine, .nack _ => some ((c.taken n).takeBack m.addr m.id)
      | _, _ => none
    | none => none) s

/-- A retained copy freed by a delivery ack: mass is followed by its commit, and a commit ends the mass (R210). -/
def Chip.freeCopy (c : Chip) (r : Retained) : Chip :=
  match r.msg.body with
  | .mass .. => c.post { r.msg with pmark := 0, epoch := 0, body := .commit r.msg.pmark }
  | .commit _ => { c with regions := c.regions.map fun (g : Region) => match tfind g.sent r.msg.id with
      | some x => { g with sent := tdel g.sent r.msg.id, committed := tset g.committed r.msg.id x }
      | none => g }
  | _ => c
/-- R204: a delivery ack frees every retained copy of its stream at or below its postmark. -/
def execDeliveryAck (m : Msg) (s : State) : Host.Outcome State Fault Refusal :=
  event (fun c => match m.body, m.dest.home with
    | .deliveryAck p, .core core =>
      if m.dest.pkg != c.pkg || m.frank.pkg == c.pkg || m.epoch != c.epoch || !c.ports.toList.any (carries ·.st) then none
      else
        let mine := fun (r : Retained) => r.msg.dest.pkg == m.frank.pkg && r.msg.frank.core == core && covered r.msg.pmark p
        let freed := c.retained.filter mine
        some (freed.foldl Chip.freeCopy { c with retained := c.retained.filter fun r => !mine r })
    | _, _ => none) s

/-! ## Mass that is not acknowledged (R210) -/

/-- Mass taken back after it left: added back, its copy dropped, and a withdrawal sent. -/
def Chip.withdrawMass (c : Chip) (r : Retained) (gid : Nat) : Chip :=
  let c := { c with retained := c.retained.erase r }
  (c.takeBack gid r.msg.id).post { r.msg with pmark := 0, epoch := 0, body := .withdrawal r.msg.pmark }
/-- R210: no delivery ack within the time of `fabcfg.tmo`. -/
def execGossipMassTimeout (i : Nat) (s : State) : Host.Outcome State Fault Refusal :=
  event (fun c => match c.retained[i]? with
    | none => none
    | some r => match r.msg.body with
      | .mass gid _ _ => if r.sent + c.tmo ≤ c.now then some (c.withdrawMass r gid) else none
      | _ => none) s

/-! ## No port (R205, R452) -/

/-- The n-th message that may find no port: the waiting ones, then the retained ones. -/
def Chip.portless (c : Chip) (n : Nat) : Option (Msg × Nat) :=
  if n < c.out.length then c.out[n]?.map fun w => (w.msg, w.since)
  else c.retained[n - c.out.length]?.map fun r => (r.msg, r.since)
/-- Whether a message has had no candidate for the time held in `fabcfg.tmo`: since its last one, it has none. -/
def Chip.noRoute (c : Chip) (m : Msg) (since : Nat) : Bool := (c.candidate m).isNone && decide (since + c.tmo ≤ c.now)
/-- R205: a request returned, and with it every retained request to its destination. -/
def execNoRouteReturn (n : Nat) (s : State) : Host.Outcome State Fault Refusal :=
  event (fun c => match c.portless n with
    | none => none
    | some (m, since) =>
      if !isRequest m.body || !c.noRoute m since then none
      else
        let back := fun (r : Retained) => isRequest r.msg.body && r.msg.dest.pkg == m.dest.pkg
        let copies := c.retained.filter back
        let c' := { c with
          out := if n < c.out.length then c.out.eraseIdx n else c.out
          retained := c.retained.filter fun r => !back r }
        let c' := if n < c.out.length then c'.returnMsg m else c'
        some (copies.foldl (fun c r => c.returnMsg r.msg) c')) s
/-- R452: a message that is no request and finds no port, by its kind. The withdrawal of mass that never left names no postmark
(log 36). -/
def execNonrequestDrop (n : Nat) (s : State) : Host.Outcome State Fault Refusal :=
  event (fun c => match c.portless n with
    | none => none
    | some (m, since) =>
      if isRequest m.body || !c.noRoute m since then none
      else match m.body with
        | .commit _ | .withdrawal _ => none
        | .mass gid _ _ =>
          if n < c.out.length then
            some (({ c with out := c.out.eraseIdx n }.takeBack gid m.id).post { m with body := .withdrawal 0 })
          else c.retained[n - c.out.length]?.map fun r => c.withdrawMass r gid
        | _ =>
          if n < c.out.length then some { c with out := c.out.eraseIdx n }
          else some { c with retained := c.retained.eraseIdx (n - c.out.length) }) s

end Sys2Proof.Machine
end

