-- ==== Sys2Proof/Machine/Matrix.lean ====
section
/-! DEFINITION. The matrix unit's commands (R353 to R362). Each runs whole in one step (log 4). -/

namespace Sys2Proof.Machine

/-! ## Contexts and buffers -/

/-- Format context f of a core. -/
def Core.context (k : Core) (f : Nat) : VWord := k.fctx[f % 4]'(Nat.mod_lt _ (by decide))
/-- The code of a format (R39). -/
def fmtCode : Option Fmt → Nat
  | some .fp32 => 0 | some .bf16 => 1 | some .e4m3 => 2 | some .e5m2 => 3 | some .int8 => 4 | some .int32 => 5
  | some .cb8 => 6 | none => 15
/-- The core of the command. -/
def coreE (core : Nat) : E Core := do let c ← chipE; pure (c.coreAt core)
/-- Change the core of the command. -/
def modCoreE (core : Nat) (f : Core → Core) : E Unit := modChipE fun c => c.modCore core f

/-- Index of an accumulator word: accumulator a, row r, column n. -/
def accIx (a r n : Nat) : Nat := 256 * a + 16 * r + n
/-- An accumulator word; one never written holds zero (log 1). -/
def Core.accAt (k : Core) (a r n : Nat) : BitVec 32 := tget 0 k.acc (accIx a r n)

/-! ## mx.setf (R354) -/

/-- R354, R40 -/
def execMxSetf (core : Nat) (s : State) : Host.Outcome State Fault Refusal :=
  event (fun c => c.runCmd core .mx 0x47 fun m => do
    let off := m.field 16 4
    checkRecord m (handleByteOk (m.byte 8) && m.zero 9 16 && off % 64 == 0 && m.byte 20 / 4 == 0 && m.zero 21 64)
    let o ← sourceAt core m off 64
    let img ← padRead core o 64
    let x := BitVec.ofNat 512 (leNat img)
    failIf (!ctxValid x) 0x33 (BitVec.ofNat 64 o)
    modCoreE core fun k => { k with fctx := k.fctx.set (m.byte 20 % 4) x (Nat.mod_lt _ (by decide)) }
    advanceSlots core m true false) s

/-! ## mx.lda (R355) -/

/-- Elements of one row of CB8 blocks from offset o up: blocks until klen elements are covered (R32, R355). `limit` is the
first offset beyond the slot, where a handle serves the operand. -/
def cbRow (core : Nat) (ctx : VWord) (limit : Option Nat) : Nat → Nat → E (List (Option FVal))
  | 0, _ => pure []
  | blocks + 1, o => do
    padRange o 19
    let c ← chipE
    let byte := fun i => rdByte (c.coreAt core).pad (o + i)
    let n := 19 + (byte 2).toNat % 64
    failIf (match limit with | some l => decide (l < o + n) | none => false) 0x31
    padRange o n
    failIf (c.poisonAt (.core core) o n) 0x39 (BitVec.ofNat 64 o)
    match decodeBlock (ctxTable ctx) byte with
    | none => throw (.fail 0x32 (BitVec.ofNat 64 o))
    | some (els, len) => do
      let rest ← cbRow core ctx limit blocks (o + len)
      pure ((List.range 32).map (fun i => els[i]?) ++ rest)

/-- One row of plain elements (R355). -/
def plainRow (core : Nat) (f : Fmt) (klen o : Nat) : E (List (Option FVal)) := do
  let b ← padRead core o (klen * f.bytes)
  pure ((List.range klen).map fun k => some (decodeElem f (field b (k * f.bytes) f.bytes)))

/-- A row of the A buffer written. -/
def setRow (r : Nat) (els : List (Option FVal)) (t : Tab FVal) : Tab FVal :=
  els.zipIdx.foldl (fun t p => match p.1 with | some v => tset t (256 * r + p.2) v | none => t) t

/-- Rows r and up of A, n of them. -/
def loadRows (core : Nat) (ctx : VWord) (f : Fmt) (a stride klen : Nat) (limit : Option Nat) (r : Nat) : Nat → E Unit
  | 0 => pure ()
  | n + 1 => do
    let o := a + r * stride
    let els ← (match f with
      | .cb8 => cbRow core ctx limit ((klen + 31) / 32) o
      | f => plainRow core f klen o)
    modCoreE core fun k => { k with abuf := setRow r (els.take klen) k.abuf }
    loadRows core ctx f a stride klen limit (r + 1) n

/-- R355 -/
def execMxLda (core : Nat) (s : State) : Host.Outcome State Fault Refusal :=
  event (fun c => c.runCmd core .mx 0x41 fun m => do
    let (off, stride, klen, rows, f) := (m.field 16 4, m.field 20 4, m.field 24 2, m.byte 26, m.byte 27)
    checkRecord m (handleByteOk (m.byte 8) && m.zero 9 16 && off % 8 == 0 && stride % 8 == 0 && decide (1 ≤ klen)
      && decide (klen ≤ 256) && decide (1 ≤ rows) && decide (rows ≤ 16) && f / 4 == 0 && m.zero 28 64)
    let k ← coreE core
    let ctx := k.context f
    failIf (!ctxValid ctx) 0x34
    match afmtOf ctx with
    | none => failIf true 0x34
    | some fm => do
      let extent := if fm = .cb8 then 0 else (rows - 1) * stride + klen * fm.bytes
      let o ← sourceAt core m off extent
      let limit ← (if served (m.byte 8) then do let h ← handleFor core m (m.byte 8); pure (some (o + h.slotBytes))
        else pure none)
      modCoreE core fun k => { k with abuf := [] }
      loadRows core ctx fm o stride klen limit 0 rows
      modCoreE core fun k => { k with afmt := fmtCode (some fm) }
      advanceSlots core m true false) s

/-! ## mx.ldb (R356) -/

/-- Rows of 16 bytes gathered from offset o at a stride. -/
def latchRows (core o stride : Nat) : Nat → E (List Byte)
  | 0 => pure []
  | n + 1 => do
    let b ← padRead core o 16
    let rest ← latchRows core (o + stride) stride n
    pure (b ++ rest)

/-! ## mx.mac (R357) -/

/-- The elements of B by row k and column n, absent where none is supplied. -/
abbrev BTile := Nat → Nat → Option FVal

/-- B from the latch: k is below 16 (R357). -/
def latchTile (f : Fmt) (b : List Byte) : BTile := fun k n =>
  match f with
  | .bf16 => if n < 8 then some (decodeElem .bf16 (field b (16 * k + 2 * n) 2)) else none
  | f => some (decodeElem f (field b (16 * k + n) 1))

/-- Rows of B in scratchpad: 16 bytes each. -/
def scratchRows (core o stride : Nat) : Nat → E (List (List Byte))
  | 0 => pure []
  | n + 1 => do
    let b ← padRead core o 16
    let rest ← scratchRows core (o + stride) stride n
    pure (b :: rest)

/-- Columns of B as rows of CB8 blocks. -/
def scratchBlocks (core : Nat) (ctx : VWord) (limit : Option Nat) (o stride blocks : Nat) : Nat → E (List (List (Option FVal)))
  | 0 => pure []
  | n + 1 => do
    let els ← cbRow core ctx limit blocks o
    let rest ← scratchBlocks core ctx limit (o + stride) stride blocks n
    pure (els :: rest)

/-- The sixteen products of one result in one chunk: absent where either is (R357). -/
def macGroup (a : Nat → Option FVal) (b : Nat → Option FVal) : List FVal :=
  (List.range 16).filterMap fun i => match a i, b i with | some x, some y => some (fmul x y) | _, _ => none

/-- One chunk added into an accumulator. -/
def macChunk (isInt : Bool) (acc ka j c0 ncol : Nat) (b : BTile) (k : Core) : Core :=
  { k with acc := (List.range 16).foldl (fun t r => (List.range ncol).foldl (fun t n =>
      let ps := macGroup (fun i => tfind k.abuf (256 * r + ka + 16 * j + i)) fun i => b (16 * j + i) n
      let w := tget 0 t (accIx acc r (c0 + n))
      tset t (accIx acc r (c0 + n)) (if isInt then groupAddInt w (ps.map toInt) else groupAdd w ps)) t) k.acc }

/-- R357 -/
def execMxMac (core : Nat) (s : State) : Host.Outcome State Fault Refusal :=
  event (fun c => c.runCmd core .mx 0x43 fun m => do
    let (acc, f, ka, kn, src) := (m.byte 16, m.byte 17, m.byte 18, m.byte 19, m.byte 20)
    let (off, stride) := (m.field 24 4, m.field 28 4)
    let scratch := src % 2 == 1
    let nh := src / 2 % 2
    checkRecord m (handleByteOk (m.byte 8) && m.zero 9 16 && decide (acc ≤ 3) && decide (f ≤ 3) && ka % 16 == 0
      && decide (1 ≤ kn) && decide (kn ≤ 16) && decide (ka + 16 * kn ≤ 256) && src / 4 == 0 && m.zero 21 24
      && (if scratch then off % 16 == 0 && stride % 16 == 0 else off == 0 && stride == 0 && m.byte 8 == 0) && m.zero 32 64)
    let k ← coreE core
    let ctx := k.context f
    failIf (!ctxValid ctx || fmtCode (afmtOf ctx) != k.afmt) 0x34
    let bf := (bfmtOf ctx).getD .cb8
    failIf (!scratch && (bf == .cb8 || kn != 1)) 0x34
    failIf (nh == 1 && bf != .bf16) 0x34
    let ncol := if bf = .bf16 then 8 else 16
    let tile ← (if scratch then do
        let extent := if bf = .cb8 then 0 else (16 * kn - 1) * stride + 16
        let o ← sourceAt core m off extent
        match bf with
        | .cb8 => do
          let limit ← (if served (m.byte 8) then do let h ← handleFor core m (m.byte 8); pure (some (o + h.slotBytes))
            else pure none)
          let cols ← scratchBlocks core ctx limit o stride ((16 * kn + 31) / 32) 16
          pure (fun k n => ((cols.getD n []).getD k none) : BTile)
        | bf => do
          let rows ← scratchRows core o stride (16 * kn)
          pure (fun k n => latchTile bf (rows.getD k []) 0 n : BTile)
      else do
        holdIf k.latch.isNone
        pure (latchTile bf (k.latch.getD [])))
    modCoreE core fun k => (List.range kn).foldl (fun k j =>
      macChunk (bf == .int8) acc ka j (if bf = .bf16 then 8 * nh else 0) ncol tile k) k
    advanceSlots core m true false) s

/-! ## mx.zero, mx.drain, mx.mark -/

/-- R358 -/
def execMxZero (core : Nat) (s : State) : Host.Outcome State Fault Refusal :=
  event (fun c => c.runCmd core .mx 0x45 fun m => do
    let x := m.byte 16
    checkRecord m (m.zero 8 16 && x / 32 == 0 && m.zero 17 64)
    modCoreE core fun k => { k with
      acc := k.acc.filter fun p => x / 2 ^ (p.1 / 256) % 2 == 0
      latch := if x / 16 % 2 = 1 then none else k.latch }) s

/-- The elements of a drain in ascending 16r + c, from element i up (R359). -/
def drainFrom (core : Nat) (m : Cmd) (ofmt : Fmt) (isInt : Bool) (mode : Mode) (acc o stride base list i : Nat) : Nat → E Unit
  | 0 => pure ()
  | n + 1 => do
    let (r, c) := (i / 16, i % 16)
    let k ← coreE core
    let w := k.accAt acc r c
    let v := if isInt then ofInt w.toInt else f32 w
    let cv := convTo ofmt mode v
    let copy := ofmt == .fp32 || ofmt == .int32
    let code ← (if copy then pure w.toNat
      else if cv.overflows && list != 0 then do
        padRange (o + r * stride + c * ofmt.bytes) ofmt.bytes
        let room ← appendOutlier core m .mx list ((base + i) % 2 ^ 32) w.toNat
        pure (if room then 0 else cv.bound)
      else pure cv.code)
    padWriteE core (o + r * stride + c * ofmt.bytes) (toLe ofmt.bytes code)
    drainFrom core m ofmt isInt mode acc o stride base list (i + 1) n

/-- R359: FP32 and INT32 outputs copy the word. -/
def execMxDrain (core : Nat) (s : State) : Host.Outcome State Fault Refusal :=
  event (fun c => c.runCmd core .mx 0x46 fun m => do
    let (acc, f, opt, off, stride, base, list) :=
      (m.byte 16, m.byte 17, m.byte 18, m.field 20 4, m.field 24 4, m.field 28 4, m.field 32 8)
    let k ← coreE core
    let ctx := k.context f
    failIf (headerBad m) 0x30
    failIf (!(m.byte 8 == 0 && handleByteOk (m.byte 9) && m.zero 10 16 && decide (acc ≤ 3) && decide (f ≤ 3) && opt / 2 == 0
      && m.byte 19 == 0 && locationOk list && m.zero 40 64)) 0x31
    failIf (!ctxValid ctx) 0x34
    let ofmt := (ofmtOf ctx).getD .fp32
    failIf (off % ofmt.bytes != 0 || stride % ofmt.bytes != 0) 0x31
    let o ← destAt core m off (15 * stride + 16 * ofmt.bytes)
    drainFrom core m ofmt (afmtOf ctx == some .int8) (ctxMode ctx) acc o stride base list 0 256
    if opt % 2 = 1 then modCoreE core fun k => { k with acc := k.acc.filter fun p => p.1 / 256 != acc }
    advanceSlots core m false true) s

/-- R360 -/
def execMxMark (core : Nat) (s : State) : Host.Outcome State Fault Refusal :=
  event (fun c => c.runCmd core .mx 0x48 fun m => checkRecord m (m.zero 8 64)) s

/-! ## The ring (R362) -/

/-- The core that passes into a core. -/
def ringPrev (core : Nat) : Nat := core / 16 * 16 + (core % 16 + 15) % 16

/-- Every member of a set hands its latch on at once: each slice is read out before one is written in (R362). -/
def Chip.handOff (c : Chip) (l : List Nat) : Chip :=
  (l ++ (l.map ringNext).filter fun k => !l.contains k).foldl (fun x k =>
    x.modCore k fun y =>
      let y := match (if l.contains k then (c.coreAt k).passReady else none) with
        | some (i, _) => { y with mxq := markRan y.mxq i c.now }
        | none => y
      { y with latch := if l.contains (ringPrev k) then (c.coreAt (ringPrev k)).latch else none }) c

/-- R362: the passes that start in one cycle are one step. A pass with a body fails (R361). -/
def execMxPass (core : Nat) (s : State) : Host.Outcome State Fault Refusal :=
  event (fun c =>
    match (c.coreAt core).toRun .mx 0x44 with
    | none => none
    | some (i, m) =>
      if headerBad m then some (c.engineFail core .mx i m 0x30 0)
      else if !m.zero 8 64 then some (c.engineFail core .mx i m 0x31 0)
      else
        let l := c.passing core
        if l.contains core then some (c.handOff l) else none) s

/-- R356: it waits until the latch is empty, and lets a pass that can take the empty latch go first (R362). -/
def execMxLdb (core : Nat) (s : State) : Host.Outcome State Fault Refusal :=
  event (fun c => c.runCmd core .mx 0x42 fun m => do
    let (off, stride) := (m.field 16 4, m.field 20 4)
    checkRecord m (handleByteOk (m.byte 8) && m.zero 9 16 && off % 16 == 0 && stride % 16 == 0 && decide (16 ≤ stride)
      && m.zero 24 64)
    let c ← chipE
    holdIf ((c.coreAt core).latch.isSome || (c.passing (ringPrev core)).contains (ringPrev core))
    let o ← sourceAt core m off (15 * stride + 16)
    let b ← latchRows core o stride 16
    modCoreE core fun k => { k with latch := some b }
    advanceSlots core m true false) s

end Sys2Proof.Machine
end

