-- ==== Sys2Proof/Machine/Rights.lean ====
section
/-! DEFINITION. Rights that pass between contexts (R88 to R92) and the creation of holding queues (R108). -/

namespace Sys2Proof.Machine

/-! ## Rights tables -/

/-- A rights entry written (R88). -/
def Chip.putEntry (c : Chip) (ctx i : Nat) (base : Word) (kind rights owner : Nat) : Chip :=
  let a := (c.ctxAt ctx).rtbase.toNat + 16 * i
  c.writeHome (hbmHome a) a (toLe 8 base.toNat ++ toLe 1 (kind * 16) ++ toLe 1 rights ++ toLe 2 owner ++ toLe 4 0)
/-- The place of a new entry (R90): the lowest empty one, else the one at rtcount; none when the table is full. -/
def Chip.entryRoom (c : Chip) (ctx : Nat) : Option Nat :=
  let n := (c.ctxAt ctx).rtcount
  ((List.range n).find? fun i => (c.rightsAt ctx i).empty c ctx).orElse fun _ => if n < 256 then some n else none
/-- A new entry placed. -/
def Chip.addEntry (c : Chip) (ctx i : Nat) (base : Word) (kind rights owner : Nat) : Chip :=
  (c.putEntry ctx i base kind rights owner).modCtx ctx fun x => { x with rtcount := max x.rtcount (i + 1) }
/-- The entry of a context at a base. -/
def Chip.entryAtBase (c : Chip) (ctx : Nat) (base : Word) : Option Rights := (c.rightsOf ctx).find? fun e => e.base == base
/-- The object that a base names in a context: where its header stands. -/
def Chip.objectAt (c : Chip) (ctx : Nat) (base : Word) : Option (Nat × Nat × Nat) :=
  (c.placeIn ctx base).map fun p => (p.loc, bits p.leaf 63 52, p.pa)

/-- The base in its owner's space of the object that a context's entry names, where that is known: the owner's own, or the one
that an accept brought. -/
def Chip.ownersBase (c : Chip) (ctx : Nat) (e : Rights) : Option Word :=
  if e.owner = ctx then some e.base
  else (c.shares.find? fun y => y.holder == ctx && y.base == e.base).bind fun y => y.object
/-- Whether an entry of a context names the object that an owner maps at a base: by what its accept brought; else by the place of
its header, which need not be mapped where `unmapped` holds. -/
def Chip.namesObject (c : Chip) (ctx : Nat) (e : Rights) (owner : Nat) (base : Word) (unmapped : Bool) : Bool :=
  e.owner == owner && (match c.ownersBase ctx e with
    | some b => b == base
    | none => (match c.objectAt ctx e.base with | none => unmapped | o => o == c.objectAt owner base))

/-! ## Grant and accept (R90, R92) -/

/-- Whether a record's base breaks its limits: 64-byte aligned, and an address of the virtual space (R53, R92). -/
def badBase (base : Word) : Bool := base.toNat % 64 != 0 || decide (2 ^ 57 ≤ base.toNat)

/-- R92: grant. -/
def execGrant (q : Nat) (s : State) : Host.Outcome State Fault Refusal :=
  recordStep q (isKind 7) (fun q r c =>
    let giver := q / 16
    let base := BitVec.ofNat 64 (field r 8 8)
    let taker := field r 16 2
    let rights := field r 18 1
    let len := field r 20 4
    if badBase base || taker < 1 || 1023 < taker || taker == giver || len % 64 != 0 || len < 64 || !zeroBytes r 19 1
      || !zeroBytes r 24 232 then .reject 1
    else match c.entryAtBase giver base with
      | none => .reject 8
      | some e =>
        if e.bad || e.rights / 128 % 2 = 0 || rights &&& e.rights != rights || decide (256 ≤ c.grants.length) then .reject 8
        else .done { c with grants := c.grants ++ [⟨giver, taker, base, rights, len, e.kind, e.owner, c.ownersBase giver e⟩] } 0) s

/-- The giver's page that the receiver's page i of a grant is to map: its leaf rights, which the receiver's leaf takes over
(log 72), loc, package and address. -/
def Chip.givenPage (c : Chip) (g : Grant) (i : Nat) : Option (Nat × Nat × Nat × Nat) :=
  let va := g.base.toNat / 65536 * 65536 + i * 65536
  (c.walk g.giver va).map fun p => (bits p.1 5 3, bits p.1 11 10, bits p.1 63 52, leafAddr p.1 p.2 va)
/-- Whether the receiver's page is mapped: to the given page, or to something else. -/
def Chip.pageClash (c : Chip) (ctx va : Nat) (pg : Nat × Nat × Nat × Nat) : Option Bool :=
  (c.walk ctx va).map fun p => !(bits p.1 11 10 == pg.2.1 && bits p.1 63 52 == pg.2.2.1 && leafAddr p.1 p.2 va == pg.2.2.2)
/-- The pages of an accept mapped, those that are not mapped yet (R90); none where the pool is too small. -/
def Chip.mapGiven (c : Chip) (ctx lo : Nat) : Nat → List (Nat × Nat × Nat × Nat) → Pool → Option Chip
  | _, [], _ => some c
  | i, pg :: r, pool =>
    let va := lo + i * 65536
    if (c.walk ctx va).isSome then c.mapGiven ctx lo (i + 1) r pool
    else match c.putLeaf va 0 (leafWord pg.2.2.1 pg.2.2.2 pg.2.1 pg.1) 4 (c.ctxAt ctx).ptroot.toNat pool with
      | none => none
      | some (c, pool) => c.mapGiven ctx lo (i + 1) r pool

/-- Whether an entry of the receiver at an accept's base names the object that a grant gives (R90): an entry whose header page is
not mapped does, if kind and owner agree. -/
def Chip.sameObject (c : Chip) (ctx : Nat) (g : Grant) (e : Rights) : Bool :=
  e.kind == g.kind && (match g.object with
    | some b => c.namesObject ctx e g.owner b true
    | none => e.owner == g.owner && (match c.objectAt ctx e.base with | none => true | o => o == c.objectAt g.giver g.base))
/-- R90, R92: accept. It is rejected with 0x0007 where a page of the giver's range is not mapped (log 73). -/
def execAccept (q : Nat) (s : State) : Host.Outcome State Fault Refusal :=
  recordStep q (isKind 8) (fun q r c =>
    let ctx := q / 16
    let base := BitVec.ofNat 64 (field r 8 8)
    let giver := field r 16 2
    let tpool := field r 24 8
    let size := field r 32 4
    if badBase base || tpool % 4096 != 0 || size % 4096 != 0 || !zeroBytes r 18 6 || !zeroBytes r 36 220 then .reject 1
    else match c.grants.find? fun g => g.giver == giver && g.taker == ctx with
      | none => .reject 8
      | some g =>
        let n := (g.base.toNat % 65536 + g.len + 65535) / 65536
        let lo := base.toNat / 65536 * 65536
        if base.toNat % 65536 ≠ g.base.toNat % 65536 || decide (2 ^ 57 < lo + n * 65536) then .reject 1
        else match (List.range n).mapM (c.givenPage g) with
          | none => .reject 7
          | some pages =>
            let clash := pages.zipIdx.any fun p => (c.pageClash ctx (lo + p.2 * 65536) p.1).getD false
            let mine := c.entryAtBase ctx base
            if clash || mine.any fun e => !c.sameObject ctx g e then .reject 8
            else match (mine.map (·.index)).orElse fun _ => c.entryRoom ctx with
              | none => .reject 0x0D
              | some i =>
                match c.mapGiven ctx lo 0 pages (if tpool = 0 then (0, 0) else (tpool, tpool + size)) with
                | none => .reject 1
                | some c =>
                  let rights := match mine with | some e => e.rights ||| g.rights | none => g.rights
                  let c := c.addEntry ctx i base g.kind rights g.owner
                  .done { c with grants := c.grants.erase g, shares := c.shares ++ [⟨g.owner, ctx, base, g.len, g.object⟩] } 0) s

/-! ## Revoke (R91, R92) -/

/-- A set of rights without others. -/
def without (rights gone : Nat) : Nat := rights &&& (255 - gone % 256)
/-- R91: revoke. A revocation that leaves no right completes after the drain of the unmapped range. -/
def execRevoke (q : Nat) (s : State) : Host.Outcome State Fault Refusal :=
  recordStep q (isKind 9) (fun q r c =>
    let owner := q / 16
    let base := BitVec.ofNat 64 (field r 8 8)
    let holder := field r 16 2
    let gone := field r 18 1
    if !zeroBytes r 19 237 then .reject 1
    else match c.entryAtBase owner base with
      | none => .reject 8
      | some e =>
        let isGrant := fun (g : Grant) => g.taker == holder && g.owner == owner && (match g.object with
          | some b => b == base
          | none => c.objectAt g.giver g.base == c.objectAt owner base)
        let named := fun (unmapped : Bool) => (c.rightsOf holder).find? fun x =>
          x.kind == e.kind && c.namesObject holder x owner base unmapped
        let theirs := (named false).orElse fun _ => named true
        if e.owner ≠ owner || (theirs.isNone && !c.grants.any isGrant) then .reject 8
        else
          let c := { c with grants := (c.grants.map fun (g : Grant) =>
            if isGrant g then { g with rights := without g.rights gone } else g).filter fun g => !(isGrant g && g.rights == 0) }
          match theirs with
          | none => .done c 0
          | some x =>
            let left := without x.rights gone
            if left ≠ 0 then .done (c.putEntry holder x.index x.base x.kind left owner) 0
            else
              let areas := c.areasOf holder x
              let len := (areas.map (·.len)).foldl max 0
              let lo := x.base.toNat / 65536 * 65536
              let n := (x.base.toNat % 65536 + len + 65535) / 65536 * 65536
              let c := areas.foldl Chip.unshare (c.emptyEntry holder x.index)
              let c := { c with shares := c.shares.filter fun y => !(y.holder == holder && y.base == x.base) }
              .later (c.startDrain holder q (c.taking q) r lo n)) s

/-! ## Holding queues (R108) -/

/-- R108: create holding queue. Queue h has the 64 KiB page h of the spine object area. An entry that its owner's table already holds
at base is refused with 0x0008 (DESIGN CHOICE, log 86). -/
def execCreateHoldingQueue (q : Nat) (s : State) : Host.Outcome State Fault Refusal :=
  recordStep q (isKind 0x0A) (fun q r c =>
    let ctx := q / 16
    let base := BitVec.ofNat 64 (field r 8 8)
    let cap := field r 16 2
    let sring := field r 24 8
    let sent := field r 32 4
    let scount := field r 40 8
    let pow := (List.range 17).any fun k => 4 ≤ k && 2 ^ k == sent
    if badBase base || cap < 16 || 4096 < cap || sring % 4096 != 0 || !pow
      || scount % 8 != 0 || !zeroBytes r 18 6 || !zeroBytes r 36 4 || !zeroBytes r 48 208 then .reject 1
    else
      let va := base.toNat / 65536 * 65536
      if (c.walk ctx va).isSome then .reject 1
      else match entryAddr c.hbm va 0 4 (c.ctxAt ctx).ptroot.toNat with
        | none => .reject 1
        | some _ =>
          match c.entryRoom ctx, (List.range 1024).find? fun h => !thas c.hqs h with
          | some i, some h =>
            if (c.entryAtBase ctx base).isSome then .reject 8
            else match c.putLeaf va 0 (leafWord 0 (h * 65536) 3 3) 4 (c.ctxAt ctx).ptroot.toNat (0, 0) with
              | none => .reject 1
              | some (c, _) =>
                let hq : HoldQueue :=
                  { owner := ctx, base := base, nx := 1, rt := 0, sn := 0, vt := false, cap := cap
                    sring := BitVec.ofNat 64 sring, sent := sent, scount := BitVec.ofNat 64 scount, pqack := 0
                    tokens := [], broken := false }
                .done (({ c with hqs := tset c.hqs h hq }.reopenAt 3 (h * 65536) 65536).addEntry ctx i base 6 0xF1 ctx) (BitVec.ofNat 64 h)
          | _, _ => .reject 0x0D) s

end Sys2Proof.Machine
end

