-- ==== Sys2Proof/Machine/Scalar.lean ====
section
/-! DEFINITION. Classes 000 and 001: arithmetic, logic, shifts, bit operations, moves, compares and predicates
(R290 to R306). -/

namespace Sys2Proof.Machine

/-- The shape of a register operation: two sources, one destination (R290). -/
def binary (f : Word → Word → Word) (d a b : Reg) : M Unit := do
  use [a, b] [d]
  let x ← rd a
  let y ← rd b
  wr d (f x y)
/-- The shape with one source. -/
def unary (f : Word → Word) (d a : Reg) : M Unit := do
  use [a] [d]
  let x ← rd a
  wr d (f x)
/-- The shape with a literal. -/
def immediate (f : Word → Word → Word) (d a : Reg) (i : Word) : M Unit := unary (fun x => f x i) d a

/-- The upper 64 bits of the signed product (R293). -/
def mulHigh (x y : Word) : Word := BitVec.ofInt 64 (x.toInt * y.toInt / 2 ^ 64)
/-- The upper 64 bits of the unsigned product (R293). -/
def mulHighU (x y : Word) : Word := BitVec.ofNat 64 (x.toNat * y.toNat / 2 ^ 64)
/-- Signed quotient, truncated toward zero; -2^63 over -1 is -2^63 (R294). -/
def quotS (x y : Word) : Word := BitVec.ofInt 64 (x.toInt.tdiv y.toInt)
/-- Signed remainder, with the sign of the dividend (R294). -/
def remS (x y : Word) : Word := BitVec.ofInt 64 (x.toInt.tmod y.toInt)
/-- Unsigned quotient (R294). -/
def quotU (x y : Word) : Word := BitVec.ofNat 64 (x.toNat / y.toNat)
/-- Unsigned remainder (R294). -/
def remU (x y : Word) : Word := BitVec.ofNat 64 (x.toNat % y.toNat)
/-- The shift count: bits 5:0 (R296). -/
def count (y : Word) : Nat := bits y 5 0
/-- The one bits of the low n bits (R298). -/
def ones (x : Word) : Nat → Nat
  | 0 => 0
  | n + 1 => (x.getLsbD n).toNat + ones x n
/-- Zero bits above the highest one bit of the low n bits (R298). -/
def leadingZeros (x : Word) : Nat → Nat
  | 0 => 0
  | n + 1 => if x.getLsbD n then 0 else 1 + leadingZeros x n
/-- Zero bits below the lowest one bit, looking at n bits from bit 64 - n (R298). -/
def trailingZeros (x : Word) : Nat → Nat
  | 0 => 0
  | n + 1 => if x.getLsbD (63 - n) then 0 else 1 + trailingZeros x n
/-- Position and length of a bit field (R300). -/
def fieldOf (y : Word) : Nat × Nat :=
  let pos := bits y 5 0
  let w := bits y 13 8
  (pos, min (if w = 0 then 64 else w) (64 - pos))
/-- `bfxu` (R300). -/
def extractU (x y : Word) : Word :=
  let (p, n) := fieldOf y
  BitVec.ofNat 64 (x.toNat / 2 ^ p % 2 ^ n)
/-- `bfx` (R300). -/
def extractS (x y : Word) : Word :=
  let (p, n) := fieldOf y
  let v := x.toNat / 2 ^ p % 2 ^ n
  BitVec.ofNat 64 (if v / 2 ^ (n - 1) % 2 = 1 then v + (2 ^ 64 - 2 ^ n) else v)
/-- `bfi` (R300). -/
def insert (old x y : Word) : Word :=
  let (p, n) := fieldOf y
  BitVec.ofNat 64 (old.toNat - old.toNat / 2 ^ p % 2 ^ n * 2 ^ p + x.toNat % 2 ^ n * 2 ^ p)

/-- The divide family (R291, R294): 0x0D on a zero divisor, otherwise the divider is started and the destination is
pending until it writes, 24 cycles from issue. -/
def divide (f : Word → Word → Word) (d a b : Reg) : M Unit := do
  use [a, b] [d]
  let k ← theCore
  waitIf k.divide.isSome .divider
  let x ← rd a
  let y ← rd b
  raiseIf (y == 0) 0x0D
  let c ← get
  modCore fun k => { k with divide := some ⟨c.frame, (c.frameAt c.core c.frame).thread, d, f x y, c.now + 24⟩ }

/-- The predicate operations (R305). -/
def predicate (f : Bool → Bool → Bool) (p a b : BitVec 3) : M Unit := do
  let x ← readPred a
  let y ← readPred b
  writePred p (f x y)

/-- R292 -/
def execAdd (g : Guard) (d a b : Reg) (s : State) : Host.Outcome State Fault Refusal :=
  plain (.add g d a b) (binary (· + ·) d a b) s

/-- R292 -/
def execSub (g : Guard) (d a b : Reg) (s : State) : Host.Outcome State Fault Refusal :=
  plain (.sub g d a b) (binary (· - ·) d a b) s

/-- R292 -/
def execMul (g : Guard) (d a b : Reg) (s : State) : Host.Outcome State Fault Refusal :=
  plain (.mul g d a b) (binary (· * ·) d a b) s

/-- R293 -/
def execMulh (g : Guard) (d a b : Reg) (s : State) : Host.Outcome State Fault Refusal :=
  plain (.mulh g d a b) (binary mulHigh d a b) s

/-- R293 -/
def execMulhu (g : Guard) (d a b : Reg) (s : State) : Host.Outcome State Fault Refusal :=
  plain (.mulhu g d a b) (binary mulHighU d a b) s

/-- R294 -/
def execDiv (g : Guard) (d a b : Reg) (s : State) : Host.Outcome State Fault Refusal :=
  plain (.div g d a b) (divide quotS d a b) s

/-- R294 -/
def execDivu (g : Guard) (d a b : Reg) (s : State) : Host.Outcome State Fault Refusal :=
  plain (.divu g d a b) (divide quotU d a b) s

/-- R294 -/
def execRem (g : Guard) (d a b : Reg) (s : State) : Host.Outcome State Fault Refusal :=
  plain (.rem g d a b) (divide remS d a b) s

/-- R294 -/
def execRemu (g : Guard) (d a b : Reg) (s : State) : Host.Outcome State Fault Refusal :=
  plain (.remu g d a b) (divide remU d a b) s

/-- R295 -/
def execAnd (g : Guard) (d a b : Reg) (s : State) : Host.Outcome State Fault Refusal :=
  plain (.and g d a b) (binary (· &&& ·) d a b) s

/-- R295 -/
def execOr (g : Guard) (d a b : Reg) (s : State) : Host.Outcome State Fault Refusal :=
  plain (.or g d a b) (binary (· ||| ·) d a b) s

/-- R295 -/
def execXor (g : Guard) (d a b : Reg) (s : State) : Host.Outcome State Fault Refusal :=
  plain (.xor g d a b) (binary (· ^^^ ·) d a b) s

/-- R295 -/
def execAndn (g : Guard) (d a b : Reg) (s : State) : Host.Outcome State Fault Refusal :=
  plain (.andn g d a b) (binary (fun x y => x &&& ~~~y) d a b) s

/-- R296 -/
def execShl (g : Guard) (d a b : Reg) (s : State) : Host.Outcome State Fault Refusal :=
  plain (.shl g d a b) (binary (fun x y => x <<< count y) d a b) s

/-- R296 -/
def execShr (g : Guard) (d a b : Reg) (s : State) : Host.Outcome State Fault Refusal :=
  plain (.shr g d a b) (binary (fun x y => x >>> count y) d a b) s

/-- R296 -/
def execSar (g : Guard) (d a b : Reg) (s : State) : Host.Outcome State Fault Refusal :=
  plain (.sar g d a b) (binary (fun x y => x.sshiftRight (count y)) d a b) s

/-- R296 -/
def execRol (g : Guard) (d a b : Reg) (s : State) : Host.Outcome State Fault Refusal :=
  plain (.rol g d a b) (binary (fun x y => x.rotateLeft (count y)) d a b) s

/-- R296 -/
def execRor (g : Guard) (d a b : Reg) (s : State) : Host.Outcome State Fault Refusal :=
  plain (.ror g d a b) (binary (fun x y => x.rotateRight (count y)) d a b) s

/-- R297 -/
def execMin (g : Guard) (d a b : Reg) (s : State) : Host.Outcome State Fault Refusal :=
  plain (.min g d a b) (binary (fun x y => if x.slt y then x else y) d a b) s

/-- R297 -/
def execMax (g : Guard) (d a b : Reg) (s : State) : Host.Outcome State Fault Refusal :=
  plain (.max g d a b) (binary (fun x y => if x.slt y then y else x) d a b) s

/-- R297 -/
def execMinu (g : Guard) (d a b : Reg) (s : State) : Host.Outcome State Fault Refusal :=
  plain (.minu g d a b) (binary (fun x y => if x.ult y then x else y) d a b) s

/-- R297 -/
def execMaxu (g : Guard) (d a b : Reg) (s : State) : Host.Outcome State Fault Refusal :=
  plain (.maxu g d a b) (binary (fun x y => if x.ult y then y else x) d a b) s

/-- R298 -/
def execPopc (g : Guard) (d a : Reg) (s : State) : Host.Outcome State Fault Refusal :=
  plain (.popc g d a) (unary (fun x => BitVec.ofNat 64 (ones x 64)) d a) s

/-- R298 -/
def execClz (g : Guard) (d a : Reg) (s : State) : Host.Outcome State Fault Refusal :=
  plain (.clz g d a) (unary (fun x => BitVec.ofNat 64 (leadingZeros x 64)) d a) s

/-- R298 -/
def execCtz (g : Guard) (d a : Reg) (s : State) : Host.Outcome State Fault Refusal :=
  plain (.ctz g d a) (unary (fun x => BitVec.ofNat 64 (trailingZeros x 64)) d a) s

/-- R299 -/
def execSext8 (g : Guard) (d a : Reg) (s : State) : Host.Outcome State Fault Refusal :=
  plain (.sext8 g d a) (unary (signExt · 1) d a) s

/-- R299 -/
def execSext16 (g : Guard) (d a : Reg) (s : State) : Host.Outcome State Fault Refusal :=
  plain (.sext16 g d a) (unary (signExt · 2) d a) s

/-- R299 -/
def execSext32 (g : Guard) (d a : Reg) (s : State) : Host.Outcome State Fault Refusal :=
  plain (.sext32 g d a) (unary (signExt · 4) d a) s

/-- R299 -/
def execZext8 (g : Guard) (d a : Reg) (s : State) : Host.Outcome State Fault Refusal :=
  plain (.zext8 g d a) (unary (zeroExt · 1) d a) s

/-- R299 -/
def execZext16 (g : Guard) (d a : Reg) (s : State) : Host.Outcome State Fault Refusal :=
  plain (.zext16 g d a) (unary (zeroExt · 2) d a) s

/-- R299 -/
def execZext32 (g : Guard) (d a : Reg) (s : State) : Host.Outcome State Fault Refusal :=
  plain (.zext32 g d a) (unary (zeroExt · 4) d a) s

/-- R300 -/
def execBfx (g : Guard) (d a b : Reg) (s : State) : Host.Outcome State Fault Refusal :=
  plain (.bfx g d a b) (binary extractS d a b) s

/-- R300 -/
def execBfxu (g : Guard) (d a b : Reg) (s : State) : Host.Outcome State Fault Refusal :=
  plain (.bfxu g d a b) (binary extractU d a b) s

/-- R300: d is read before it is written, so a link is popped and then pushed. -/
def execBfi (g : Guard) (d a b : Reg) (s : State) : Host.Outcome State Fault Refusal :=
  plain (.bfi g d a b) (do
    use [d, a, b] [d]
    let old ← rd d
    let x ← rd a
    let y ← rd b
    wr d (insert old x y)) s

/-- R301 -/
def execLea (g : Guard) (d a b : Reg) (m : BitVec 4) (s : State) : Host.Outcome State Fault Refusal :=
  plain (.lea g d a b m) (binary (fun x y => x + y <<< m.toNat) d a b) s

/-- R303 -/
def execCmp (g : Guard) (p : BitVec 3) (a b : Reg) (c : Cond) (s : State) : Host.Outcome State Fault Refusal :=
  plain (.cmp g p a b c) (do
    use [a, b] []
    let x ← rd a
    let y ← rd b
    writePred p (condHolds c x y)) s

/-- R304: both sources are read. -/
def execSel (g : Guard) (d a b : Reg) (neg : Bool) (q : BitVec 3) (s : State) : Host.Outcome State Fault Refusal :=
  plain (.sel g d a b neg q) (do
    let t ← readPred q
    binary (fun x y => if t != neg then x else y) d a b) s

/-- R305 -/
def execPand (g : Guard) (p a b : BitVec 3) (s : State) : Host.Outcome State Fault Refusal :=
  plain (.pand g p a b) (predicate (· && ·) p a b) s

/-- R305 -/
def execPor (g : Guard) (p a b : BitVec 3) (s : State) : Host.Outcome State Fault Refusal :=
  plain (.por g p a b) (predicate (· || ·) p a b) s

/-- R305 -/
def execPxor (g : Guard) (p a b : BitVec 3) (s : State) : Host.Outcome State Fault Refusal :=
  plain (.pxor g p a b) (predicate (· != ·) p a b) s

/-- R305 -/
def execPandn (g : Guard) (p a b : BitVec 3) (s : State) : Host.Outcome State Fault Refusal :=
  plain (.pandn g p a b) (predicate (fun x y => x && !y) p a b) s

/-- R302 -/
def execMov (g : Guard) (d a : Reg) (s : State) : Host.Outcome State Fault Refusal :=
  plain (.mov g d a) (unary (fun x => x) d a) s

/-- R292, R295: the literal is zero-extended. -/
def execAddImm (g : Guard) (d a : Reg) (i : BitVec 11) (s : State) : Host.Outcome State Fault Refusal :=
  plain (.addImm g d a i) (immediate (· + ·) d a (i.setWidth 64)) s

/-- R292, R295: the literal is zero-extended. -/
def execSubImm (g : Guard) (d a : Reg) (i : BitVec 11) (s : State) : Host.Outcome State Fault Refusal :=
  plain (.subImm g d a i) (immediate (· - ·) d a (i.setWidth 64)) s

/-- R292, R295: the literal is zero-extended. -/
def execAndImm (g : Guard) (d a : Reg) (i : BitVec 11) (s : State) : Host.Outcome State Fault Refusal :=
  plain (.andImm g d a i) (immediate (· &&& ·) d a (i.setWidth 64)) s

/-- R292, R295: the literal is zero-extended. -/
def execOrImm (g : Guard) (d a : Reg) (i : BitVec 11) (s : State) : Host.Outcome State Fault Refusal :=
  plain (.orImm g d a i) (immediate (· ||| ·) d a (i.setWidth 64)) s

/-- R292, R295: the literal is zero-extended. -/
def execXorImm (g : Guard) (d a : Reg) (i : BitVec 11) (s : State) : Host.Outcome State Fault Refusal :=
  plain (.xorImm g d a i) (immediate (· ^^^ ·) d a (i.setWidth 64)) s

/-- R296 -/
def execShlImm (g : Guard) (d a : Reg) (i : BitVec 6) (s : State) : Host.Outcome State Fault Refusal :=
  plain (.shlImm g d a i) (unary (fun x => x <<< i.toNat) d a) s

/-- R296 -/
def execShrImm (g : Guard) (d a : Reg) (i : BitVec 6) (s : State) : Host.Outcome State Fault Refusal :=
  plain (.shrImm g d a i) (unary (fun x => x >>> i.toNat) d a) s

/-- R296 -/
def execSarImm (g : Guard) (d a : Reg) (i : BitVec 6) (s : State) : Host.Outcome State Fault Refusal :=
  plain (.sarImm g d a i) (unary (fun x => x.sshiftRight i.toNat) d a) s

/-- R303: the literal is sign-extended. -/
def execCmpImm (g : Guard) (p c : BitVec 3) (a : Reg) (i : BitVec 12) (s : State) : Host.Outcome State Fault Refusal :=
  plain (.cmpImm g p c a i) (do
    use [a] []
    let x ← rd a
    writePred p (condHolds (condOfCode c) x (i.signExtend 64))) s

/-- R302: every other bit becomes zero. -/
def execMovi (g : Guard) (d : Reg) (m : BitVec 2) (i : BitVec 16) (s : State) : Host.Outcome State Fault Refusal :=
  plain (.movi g d m i) (do
    use [] [d]
    wr d (i.setWidth 64 <<< (16 * m.toNat))) s

end Sys2Proof.Machine
end

