-- ==== Sys2Proof/Machine/Start.lean ====
section
/-! DEFINITION. Errors, self-test and thermal limits (R424, R425, R453), the start of the package and its journal (R419 to
R422), measurement and attestation (R417, R418, R420), and host writes to plain registers (R414). -/

namespace Sys2Proof.Machine

/-! ## Memory errors (R425, R453) -/

/-- The block that a granule belongs to. -/
def blockAt : Granule → Block
  | .pad core _ => .signature (sigOf core)
  | .hbm sector => .channel (sector * 32 / 2 ^ 37) (sector * 32 / 256 % 32)
  | .link p => .port p
/-- Whether a granule exists. -/
def granuleExists : Granule → Bool
  | .pad core d => decide (core < Config.cores) && decide (d < 0x6000)
  | .hbm sector => installed (sector * 32) 32
  | .link p => decide (p < 16)
/-- A granule poisoned (R453): of the frame store's general registers it is the register that delivers poison. What `eaddr`
then holds is a free value (log 9). A link buffer spoils the next message with a payload that comes through it (log 78). -/
def Chip.poison (c : Chip) (g : Granule) : Chip :=
  match g with
  | .pad core d =>
    let o := d * 8
    let i := (o - 0x2C000) % 160 / 8
    if 0x2C000 ≤ o && o < 0x2FC00 && decide (i < 16) then
      { c.modFrame core ((o - 0x2C000) / 160) fun f => { f with poisoned := f.poisoned ++ [(i, Config.lostData c.freeCount)] } with
        freeCount := c.freeCount + 1 }
    else c.modCore core fun k => { k with padPoison := k.padPoison ++ [d] }
  | .hbm sector => { c with hbmPoison := c.hbmPoison ++ [sector] }
  | .link p => c.modPort p fun x => { x with bad := true }
/-- Corrected errors counted against a block (R425). -/
def Chip.correctedOf (c : Chip) (b : Block) : Nat := (c.corrected.filter fun p => p.1 == b).length
/-- Whether a block is a signature. -/
def isSignature : Block → Bool
  | .signature _ => true
  | _ => false
/-- Whether a self-test that began at a time still runs; that of a signature takes at most 2 ms (R425). -/
def Chip.testRuns (c : Chip) (p : Block × Nat) : Bool := !isSignature p.1 || decide (c.now ≤ p.2 + testLimit)
/-- A block's self-test over (R425): to the ready frames of a signature its time counts as none (R129). -/
def Chip.endTest (c : Chip) (b : Block) : Chip :=
  let mine := (c.testing.filter fun p => p.1 == b).map (·.2)
  let later := fun (fr : Frame) => if fr.st == .ready then
    { fr with readySince := fr.readySince + (mine.map fun t => c.testedSince t fr.readySince).sum } else fr
  { c with
    testing := c.testing.filter fun p => p.1 != b
    cores := c.cores.map fun (p : Nat × Core) => if b == .signature (sigOf p.1) then
      (p.1, { p.2 with frames := p.2.frames.map fun (q : Nat × Frame) => (q.1, later q.2) }) else p }
/-- A block's self-test begun, unless it runs (R425). -/
def Chip.startTest (c : Chip) (b : Block) : Chip :=
  if c.testing.any fun p => p.1 == b && c.testRuns p then c
  else let c := c.endTest b; { c with testing := c.testing ++ [(b, c.now)] }

/-- R425: a memory error, corrected or not. -/
def execEccError (g : Granule) (corrected : Bool) (s : State) : Host.Outcome State Fault Refusal :=
  event (fun c =>
    let b := blockAt g
    if !granuleExists g then none
    else if corrected then
      let c : Chip := { c with corrected := c.corrected ++ [(b, c.now)] }
      let c := c.logHealth 1 (unitOf b) (c.correctedOf b)
      let recent := c.corrected.filter fun p => p.1 == b && decide (c.now < p.2 + 1000 * oneMs)
      some (if 16 ≤ recent.length then c.startTest b else c)
    else some (((c.poison g).logHealth 2 (unitOf b) (c.correctedOf b)).startTest b)) s

/-- The threads of a signature discarded as under a fatal trap (R156, R425): their contexts are reported. -/
def Chip.discardSignature (c : Chip) (n : Nat) : Chip :=
  let fs := (List.range 16).flatMap fun i =>
    ((c.coreAt (n * 16 + i)).frames.filter fun p => p.2.st != .free).map fun p => (n * 16 + i, p.1, p.2)
  fs.foldl (fun c f =>
    let c := c.discard f.1 f.2.1
    { c with reports := c.reports ++ [.lost f.2.2.ctx f.2.2.launch] }) c
/-- R425: a self-test ends. A signature's does within 2 ms. -/
def execSelfTestComplete (b : Block) (r : TestEnd) (s : State) : Host.Outcome State Fault Refusal :=
  event (fun c =>
    if !c.testing.any (fun p => p.1 == b && c.testRuns p) then none
    else
      let c := c.endTest b
      let log := fun (c : Chip) (k : Nat) => c.logHealth k (unitOf b) 0
      match b, r with
      | _, .pass => some (c.logHealth 3 (unitOf b) (c.correctedOf b))
      | .signature n, .spare =>
        if c.spares.contains (n / 16) then none
        else some (log { c.discardSignature n with spares := c.spares ++ [n / 16] } 4)
      | .signature n, .noSpare =>
        if !c.spares.contains (n / 16) then none
        else some ((log { c.discardSignature n with failed := c.failed ++ [n] } 5).setDevState 2)
      | .channel _ _, .repaired => some (log c 4)
      | .channel _ _, .unrepaired l => some ((log { c with dead := c.dead ++ l } 5).setDevState 2)
      | .port p, .portFailed => some (c.quarantine p)
      | _, _ => none) s

/-! ## Temperatures (R424) -/

/-- A die's monitors changed. -/
def Chip.modMonitor (c : Chip) (die : Nat) (f : Monitor → Monitor) : Chip :=
  { c with monitors := c.monitors.set (die % 9) (f (c.monitor die)) (Nat.mod_lt _ (by decide)) }
/-- A temperature reading taken into `tmon`: temp, and peak where it is higher. -/
def Monitor.warm (m : Monitor) (t : BitVec 16) : Monitor :=
  let peak := BitVec.ofNat 16 (bits m.tmon 31 16)
  { m with tmon := putBits (putBits m.tmon 15 0 t.toNat) 31 16 (if peak.slt t then t else peak).toNat }
/-- The warning of a temperature: whether it is at or above 95 degrees. -/
def warns (t : BitVec 16) : Bool := !t.slt 0x5F0
/-- An entry of kind 6 where warn has become set since `was`. -/
def Chip.logWarn (c : Chip) (die : Nat) (was : Bool) : Chip :=
  if !was && tst (c.monitor die).tmon 32 then c.logHealth 6 (unitOf (.die die)) 0 else c
/-- A die's temperature read: temp, peak and warn, with the entry that a new warning writes. -/
def Chip.readTemp (c : Chip) (die : Nat) (t : BitVec 16) : Chip :=
  let was := tst (c.monitor die).tmon 32
  (c.modMonitor die fun m => let m := m.warm t; { m with tmon := putBits m.tmon 32 32 (warns t).toNat }).logWarn die was
/-- A die has reached 110 degrees: crit is set, every context but the firmware's is killed, the compute dies lose power, and only
a new start leaves state 4 (log 38). A record that the command processor works on goes no further. -/
def Chip.thermalStop (c : Chip) (die : Nat) : Chip :=
  let c := c.modMonitor die fun m => { m with tmon := putBits m.tmon 33 33 1 }
  let live := c.ctxs.filter fun x => x.1 != 0 && (x.2.st == .live || x.2.st == .draining || x.2.st == .building)
  let c := live.foldl (fun c x => c.killContext x.1) c
  let c := { c with cores := [], job := none, net := c.net.filter (fun m => match m.dest.home with | .core _ => false | _ => true), steals := [] }
  (c.logHealth 7 (unitOf (.die die)) 0).setDevState 4
/-- R424: a die at or above 95 degrees sets warn, and an entry of kind 6 is written. -/
def execThermalWarning (die : Nat) (t : BitVec 16) (s : State) : Host.Outcome State Fault Refusal :=
  event (fun c => if 9 ≤ die || !warns t || tst (c.monitor die).tmon 32 then none else some (c.readTemp die t)) s
/-- R424: a die at 110 degrees sets crit. -/
def execThermalStop (die : Nat) (t : BitVec 16) (s : State) : Host.Outcome State Fault Refusal :=
  event (fun c => if 9 ≤ die || t.slt 0x6E0 || tst (c.monitor die).tmon 33 then none else some ((c.readTemp die t).thermalStop die)) s

/-- New readings of a die's sensors (R424), an input from outside. -/
def Chip.sense (c : Chip) (die : Nat) (temp rail power speed : BitVec 16) : Chip :=
  let c := (c.readTemp die temp).modMonitor die fun m =>
    let low := BitVec.ofNat 16 (bits m.vmon 31 16)
    { m with
      vmon := BitVec.ofNat 64 (power.toNat * 2 ^ 32 + (if low == 0 || rail < low then rail else low).toNat * 2 ^ 16 + rail.toNat)
      pmon := BitVec.ofNat 64 speed.toNat }
  if die < 9 && !temp.slt 0x6E0 && !tst (c.monitor die).tmon 33 then c.thermalStop die else c

/-! ## The start (R419, R421, R422) -/

/-- The steps of the start in order. -/
def startSteps : List Nat :=
  [0x01] ++ (List.range 8).map (0x10 + ·) ++ (List.range 8).map (0x20 + ·) ++ (List.range 8).map (0x30 + ·) ++ [0x40]
/-- Whether a step has an alternative. -/
def hasAlternative (code : Nat) : Bool := code != 0x40
/-- The block that the log names for a step. -/
def stepUnit (code : Nat) : Nat :=
  if code / 16 = 1 then unitOf (.channel (code % 16) 0) else if code / 16 = 2 ∨ code / 16 = 3 then unitOf (.die (code % 16)) else unitOf (.die 8)
/-- How the steps of a start end: cut off, failed at a code, or all done. -/
inductive StartEnd where
  | cut
  | failed (code : Nat)
  | done
  deriving DecidableEq, Repr
/-- The signatures of a die whose self-test fails at this start: those that `bad` names by 0x100 and their number. -/
def badSignatures (bad : List Nat) (die : Nat) : List Nat :=
  (bad.filter fun b => decide (0x100 ≤ b) && (b - 0x100) / 256 == die).map (· - 0x100)
/-- The quire's spare mapped in for each of some signatures; none where one is taken already (R3, R421). -/
def Chip.mapSpares (c : Chip) : List Nat → Option Chip
  | [] => some c
  | n :: r => if c.spares.contains (n / 16) then none else { c with spares := c.spares ++ [n / 16] }.mapSpares r
/-- A step's alternative taken, none where it fails. That of a die's self-test maps in spares (R421). -/
def Chip.alternative (c : Chip) (code : Nat) (bad : List Nat) : Option Chip :=
  if code / 16 = 3 then c.mapSpares (badSignatures bad (code % 16)) else if hasAlternative code then some c else none
/-- The steps run from one on (R421). `bad` lists each form that fails, the normal one before the alternative, and the failing
signatures of `badSignatures`. -/
def Chip.runSteps (c : Chip) (hang : Option Nat) (bad : List Nat) : List Nat → Chip × StartEnd
  | [] => (c, .done)
  | code :: r =>
    let alt := c.jstarted.contains code || c.jalt.contains code
    let c := { c with jstarted := code :: c.jstarted.filter (· != code) }
    if hang = some code then (c, .cut)
    else
      let end_ := fun (c : Chip) (b : Byte) => { c with jstarted := c.jstarted.filter (· != code), journal := tset c.journal code b }
      let n := bad.count code
      if !alt && n == 0 && (code / 16 != 3 || (badSignatures bad (code % 16)).isEmpty) then (end_ c 1).runSteps hang bad r
      else match if (if alt then 0 else 1) < n then none else c.alternative code bad with
        | none => ({ c with journal := tset c.journal code 3 }, .failed code)
        | some c => ({ (end_ c 2).logHealth 9 (stepUnit code) code with jalt := code :: c.jalt.filter (· != code) }).runSteps hang bad r

/-- The package as a start leaves it before its steps: contexts, queues, launches and every volatile register are lost; what
flash, the health log and the units' retirement hold stays (R415, R419; log 39). Memory is as at reset (log 2). Dalox places the
launch of context 0 that keeps the supervisor frames, as number 0 (R265, log 1). -/
def Chip.restart (c : Chip) : Chip :=
  let jr := c.jreset
  let hosts := (List.range 128).map (256 * ·)
  { Chip.reset with
    launches := [(0, { ctx := 0, queue := 0, index := 0, record := [], sup := true, placed := true, cores := hosts, killed := false,
                       objects := [], olen := 0 })]
    now := c.now, started := c.now, host := c.host, hostBad := c.hostBad, far := c.far, starts := c.starts + 1, dead := c.dead, failed := c.failed, spares := c.spares
    monitors := c.monitors.map fun m => { m with
      tmon := BitVec.ofNat 64 ((warns (BitVec.ofNat 16 (bits m.tmon 15 0))).toNat * 2 ^ 32 + bits m.tmon 15 0 * 2 ^ 16 + bits m.tmon 15 0)
      vmon := putBits m.vmon 31 16 (bits m.vmon 15 0) }
    health := c.health, hlhead := c.hlhead, msix := c.msix ++ (if c.devState = 0 then [] else [2])
    jstarted := if jr then [] else c.jstarted
    jalt := if jr then [] else c.jalt
    ports := Vector.replicate 16 { Port.reset with since := c.now }
    nextReq := c.nextReq, nextThread := c.nextThread, freeCount := c.freeCount
    cores := hosts.map fun n => (n, (Core.reset).modFrame 95 fun f => { f with reservedFor := some 0 }) }

/-- MR i extended by 48 bytes (R418). -/
def extendMr (mr : Vector (BitVec 384) 8) (i : Nat) (d : BitVec 384) : Vector (BitVec 384) 8 :=
  let m := mr[i % 8]'(Nat.mod_lt _ (by decide))
  mr.set (i % 8) (BitVec.ofNat 384 (leNat (sha384 (toLe 48 m.toNat ++ toLe 48 d.toNat)))) (Nat.mod_lt _ (by decide))

/-- The dies that still stand at 110 degrees as a start reads them stop the package again (R424). -/
def Chip.stillHot (c : Chip) : Chip :=
  (List.range 9).foldl (fun c d => if (BitVec.ofNat 16 (bits (c.monitor d).tmon 15 0)).slt 0x6E0 then c else c.thermalStop d) c
/-- R419, R421, R422: power-up or a function level reset. `hang` is the step at which the start is cut off. -/
def execPackageStart (hang : Option Nat) (bad : List Nat) (s : State) : Host.Outcome State Fault Refusal :=
  let warned := (List.range 9).foldl (fun c d => c.logWarn d (tst (s.chip.monitor d).tmon 32)) s.chip.restart
  let (c, e) := warned.runSteps hang bad startSteps
  let mr0 : Vector (BitVec 384) 8 := Vector.replicate 8 0
  let d := fun i => Config.startDigest c.starts i
  let loaded := tget 0 c.journal 1 == 1 || tget 0 c.journal 1 == 2
  let mr1 := if loaded then extendMr mr0 0 (d 0) else mr0
  let mr2 := if e = .done then extendMr (extendMr (extendMr mr1 1 (d 1)) 2 (d 2)) 3 (d 3) else mr1
  let c := match e with
    | .cut => c
    | .failed code => ({ c with devStep := code }.setDevState 3).stillHot
    | .done => (c.setDevState (if c.jalt.isEmpty && c.failed.isEmpty && c.dead.isEmpty then 1 else 2)).stillHot
  .next { s with chip := c, mr := mr2 }

/-- R421: `jctl` bit 0 written 1. -/
def execJournalReset (s : State) : Host.Outcome State Fault Refusal := event (fun c => some { c with jreset := true }) s

/-! ## Attestation (R420) -/

/-- The op of a value written to `atctl`; none where it is refused. -/
def attestOp (v : Word) : Option Nat :=
  if bits v 60 3 != 0 then none
  else if bits v 63 61 = 1 ∧ bits v 2 0 = 0 then some 1
  else if bits v 63 61 = 2 ∧ 4 ≤ bits v 2 0 then some 2 else none
/-- The highest launch number whose ring entry is written. -/
def Chip.lastWritten (c : Chip) : Nat := (c.ring.map fun p => bits p.2 63 0).foldl max 0
/-- Bytes 0 to 495 of a report. -/
def reportBody (c : Chip) (mr : Vector (BitVec 384) 8) : List Byte :=
  toLe 4 1 ++ toLe 2 c.pkg ++ toLe 2 c.epoch ++ toLe 8 c.lastWritten ++ toLe 48 c.nonce.toNat
  ++ (mr.toList.flatMap fun m => toLe 48 m.toNat) ++ sha384 (toBe 96 Config.publicKey.toNat)
/-- R420: a write to `atctl` that is not an extension: a report starts, or the write is refused. While an operation runs
it is ignored. -/
def execAttestReport (v : Word) (s : State) : Host.Outcome State Fault Refusal :=
  if attestOp v = some 2 then .fault .notEnabled
  else event (fun c =>
    if c.atst = 1 then some c
    else if attestOp v = some 1 then some { c with atst := 1, atstSince := c.now, report := reportBody c s.mr }
    else some { c with atst := 3 }) s
/-- R420: op 2 written. -/
def execAttestExtend (v : Word) (s : State) : Host.Outcome State Fault Refusal :=
  if attestOp v ≠ some 2 then .fault .notEnabled
  else if s.chip.atst = 1 then .next s
  else .next { s with chip := { s.chip with atst := 2 }, mr := extendMr s.mr (bits v 2 0) s.chip.nonce }
/-- R420: a report completes, with its signature. -/
def execAttestComplete (s : State) : Host.Outcome State Fault Refusal :=
  event (fun c =>
    if c.atst ≠ 1 || decide (c.atstSince + 5 * oneMs < c.now) then none
    else
      let sg := Config.sign (BitVec.ofNat 384 (beNat (sha384 c.report)))
      some { c with atst := 2, report := c.report ++ toBe 96 sg.toNat, msix := c.msix ++ [1] }) s

/-! ## Host writes to plain registers (R414) -/

/-- Whether a BAR 0 offset names a register whose writes are steps of their own (R95, R101, R111, R207, R420, R421). -/
def ownBehaviour (off : Nat) (v : Word) : Bool :=
  off == 0x8 || off == 0x10000
  || (0x2000000 ≤ off && off < 0x2010000 && off % 0x1000 == 8 && [1, 2, 4].contains (bits v 2 0))
  || (0x4000000 ≤ off && off < 0x8000000 && (off % 0x1000 == 0x10 || off % 0x1000 == 0x18))
  || (0x8000000 ≤ off && off < 0x8400000 && off % 0x1000 == 0)
/-- `fabcfg` written (R208). -/
def Chip.setFabcfg (c : Chip) (v : Word) : Chip :=
  let w := putBits c.fabcfg 15 0 (bits v 15 0)
  let still := (List.range 16).all fun p => (c.portAt p).st == .down || (c.portAt p).st == .quarantined
  { c with fabcfg := if still then putBits w 43 32 (bits v 43 32) else w }
/-- R414: a doubleword written by the host. Read-only and unlisted offsets ignore it. -/
def execRegisterWrite (off : Nat) (v : Word) (s : State) : Host.Outcome State Fault Refusal :=
  event (fun c =>
    if off % 8 ≠ 0 || decide (2 ^ 28 ≤ off) || ownBehaviour off v then none
    else if 0x10100 ≤ off ∧ off < 0x10130 then
      some { c with nonce := putBits c.nonce (8 * (off - 0x10100) + 63) (8 * (off - 0x10100)) v.toNat }
    else if off = 0x2010000 then some (c.setFabcfg v)
    else if 0x2020000 ≤ off ∧ off < 0x2022000 then some { c with exports := wr64 c.exports (off - 0x2020000) v }
    else if 0x2000000 ≤ off ∧ off < 0x2010000 ∧ off % 0x1000 = 8 then some (c.lkctl (off / 0x1000 % 16) v)
    else if 0x4000000 ≤ off ∧ off < 0x8000000 then
      let q := (off - 0x4000000) / 0x1000
      if !c.hasQueue q || (c.queueAt q).st != .disabled then some c
      else if off % 0x1000 = 0 then some (c.modQueue q fun x => { x with base := v })
      else if off % 0x1000 = 8 then some (c.modQueue q fun x => { x with cpl := v })
      else some c
    else some c) s

end Sys2Proof.Machine
end

