-- ==== Sys2Proof/Machine/Dispatch.lean ====
section
/-! DEFINITION. The one dispatch: each row of the opcode table to its meaning. -/

namespace Sys2Proof.Machine

def exec (i : Instr) (s : State) : Host.Outcome State Fault Refusal :=
  match i with
  | .add g d a b => Sys2Proof.Machine.execAdd g d a b s
  | .sub g d a b => Sys2Proof.Machine.execSub g d a b s
  | .mul g d a b => Sys2Proof.Machine.execMul g d a b s
  | .mulh g d a b => Sys2Proof.Machine.execMulh g d a b s
  | .mulhu g d a b => Sys2Proof.Machine.execMulhu g d a b s
  | .div g d a b => Sys2Proof.Machine.execDiv g d a b s
  | .divu g d a b => Sys2Proof.Machine.execDivu g d a b s
  | .rem g d a b => Sys2Proof.Machine.execRem g d a b s
  | .remu g d a b => Sys2Proof.Machine.execRemu g d a b s
  | .and g d a b => Sys2Proof.Machine.execAnd g d a b s
  | .or g d a b => Sys2Proof.Machine.execOr g d a b s
  | .xor g d a b => Sys2Proof.Machine.execXor g d a b s
  | .andn g d a b => Sys2Proof.Machine.execAndn g d a b s
  | .shl g d a b => Sys2Proof.Machine.execShl g d a b s
  | .shr g d a b => Sys2Proof.Machine.execShr g d a b s
  | .sar g d a b => Sys2Proof.Machine.execSar g d a b s
  | .rol g d a b => Sys2Proof.Machine.execRol g d a b s
  | .ror g d a b => Sys2Proof.Machine.execRor g d a b s
  | .min g d a b => Sys2Proof.Machine.execMin g d a b s
  | .max g d a b => Sys2Proof.Machine.execMax g d a b s
  | .minu g d a b => Sys2Proof.Machine.execMinu g d a b s
  | .maxu g d a b => Sys2Proof.Machine.execMaxu g d a b s
  | .popc g d a => Sys2Proof.Machine.execPopc g d a s
  | .clz g d a => Sys2Proof.Machine.execClz g d a s
  | .ctz g d a => Sys2Proof.Machine.execCtz g d a s
  | .sext8 g d a => Sys2Proof.Machine.execSext8 g d a s
  | .sext16 g d a => Sys2Proof.Machine.execSext16 g d a s
  | .sext32 g d a => Sys2Proof.Machine.execSext32 g d a s
  | .zext8 g d a => Sys2Proof.Machine.execZext8 g d a s
  | .zext16 g d a => Sys2Proof.Machine.execZext16 g d a s
  | .zext32 g d a => Sys2Proof.Machine.execZext32 g d a s
  | .bfx g d a b => Sys2Proof.Machine.execBfx g d a b s
  | .bfxu g d a b => Sys2Proof.Machine.execBfxu g d a b s
  | .bfi g d a b => Sys2Proof.Machine.execBfi g d a b s
  | .lea g d a b s0 => Sys2Proof.Machine.execLea g d a b s0 s
  | .cmp g p a b c => Sys2Proof.Machine.execCmp g p a b c s
  | .sel g d a b neg q => Sys2Proof.Machine.execSel g d a b neg q s
  | .pand g p a b => Sys2Proof.Machine.execPand g p a b s
  | .por g p a b => Sys2Proof.Machine.execPor g p a b s
  | .pxor g p a b => Sys2Proof.Machine.execPxor g p a b s
  | .pandn g p a b => Sys2Proof.Machine.execPandn g p a b s
  | .mov g d a => Sys2Proof.Machine.execMov g d a s
  | .addImm g d a i0 => Sys2Proof.Machine.execAddImm g d a i0 s
  | .subImm g d a i0 => Sys2Proof.Machine.execSubImm g d a i0 s
  | .andImm g d a i0 => Sys2Proof.Machine.execAndImm g d a i0 s
  | .orImm g d a i0 => Sys2Proof.Machine.execOrImm g d a i0 s
  | .xorImm g d a i0 => Sys2Proof.Machine.execXorImm g d a i0 s
  | .shlImm g d a i0 => Sys2Proof.Machine.execShlImm g d a i0 s
  | .shrImm g d a i0 => Sys2Proof.Machine.execShrImm g d a i0 s
  | .sarImm g d a i0 => Sys2Proof.Machine.execSarImm g d a i0 s
  | .cmpImm g p c a i0 => Sys2Proof.Machine.execCmpImm g p c a i0 s
  | .movi g d s0 i0 => Sys2Proof.Machine.execMovi g d s0 i0 s
  | .br g an i0 => Sys2Proof.Machine.execBr g an i0 s
  | .call g an i0 => Sys2Proof.Machine.execCall g an i0 s
  | .jr g an a => Sys2Proof.Machine.execJr g an a s
  | .ret g an => Sys2Proof.Machine.execRet g an s
  | .fork g c i0 => Sys2Proof.Machine.execFork g c i0 s
  | .join g k c t a => Sys2Proof.Machine.execJoin g k c t a s
  | .spawn g a => Sys2Proof.Machine.execSpawn g a s
  | .wtab g k d c t a => Sys2Proof.Machine.execWtab g k d c t a s
  | .wclr g d a => Sys2Proof.Machine.execWclr g d a s
  | .yield g => Sys2Proof.Machine.execYield g s
  | .wait g c t => Sys2Proof.Machine.execWait g c t s
  | .go g a => Sys2Proof.Machine.execGo g a s
  | .tail g => Sys2Proof.Machine.execTail g s
  | .endThread g => Sys2Proof.Machine.execEndThread g s
  | .ld g z d a o => Sys2Proof.Machine.execLd g z d a o s
  | .lds g z d a o => Sys2Proof.Machine.execLds g z d a o s
  | .st g z d a o => Sys2Proof.Machine.execSt g z d a o s
  | .gld g z d a q o => Sys2Proof.Machine.execGld g z d a q o s
  | .gst g z d a q o => Sys2Proof.Machine.execGst g z d a q o s
  | .tlk g d a => Sys2Proof.Machine.execTlk g d a s
  | .tins g a b => Sys2Proof.Machine.execTins g a b s
  | .tinv g a => Sys2Proof.Machine.execTinv g a s
  | .tinvAll g => Sys2Proof.Machine.execTinvAll g s
  | .fence g k => Sys2Proof.Machine.execFence g k s
  | .fenceRel g k => Sys2Proof.Machine.execFenceRel g k s
  | .fenceAcq g k => Sys2Proof.Machine.execFenceAcq g k s
  | .cas g d a b z => Sys2Proof.Machine.execCas g d a b z s
  | .qwait g d q => Sys2Proof.Machine.execQwait g d q s
  | .qroom g d q => Sys2Proof.Machine.execQroom g d q s
  | .qadvP g q => Sys2Proof.Machine.execQadvP g q s
  | .qadvC g q => Sys2Proof.Machine.execQadvC g q s
  | .qset g a q => Sys2Proof.Machine.execQset g a q s
  | .qpos g d q => Sys2Proof.Machine.execQpos g d q s
  | .amoAdd g d a b z => Sys2Proof.Machine.execAmoAdd g d a b z s
  | .amoAnd g d a b z => Sys2Proof.Machine.execAmoAnd g d a b z s
  | .amoOr g d a b z => Sys2Proof.Machine.execAmoOr g d a b z s
  | .amoXor g d a b z => Sys2Proof.Machine.execAmoXor g d a b z s
  | .amoMin g d a b z => Sys2Proof.Machine.execAmoMin g d a b z s
  | .amoMax g d a b z => Sys2Proof.Machine.execAmoMax g d a b z s
  | .amoMinu g d a b z => Sys2Proof.Machine.execAmoMinu g d a b z s
  | .amoMaxu g d a b z => Sys2Proof.Machine.execAmoMaxu g d a b z s
  | .amoSwap g d a b z => Sys2Proof.Machine.execAmoSwap g d a b z s
  | .vfmaF32 g w sd sa sb d a b => Sys2Proof.Machine.execVfmaF32 g w sd sa sb d a b s
  | .vfmaBf16 g w sd sa sb d a b => Sys2Proof.Machine.execVfmaBf16 g w sd sa sb d a b s
  | .vaddF32 g w sd sa sb d a b => Sys2Proof.Machine.execVaddF32 g w sd sa sb d a b s
  | .vsubF32 g w sd sa sb d a b => Sys2Proof.Machine.execVsubF32 g w sd sa sb d a b s
  | .vmulF32 g w sd sa sb d a b => Sys2Proof.Machine.execVmulF32 g w sd sa sb d a b s
  | .vmaxF32 g w sd sa sb d a b => Sys2Proof.Machine.execVmaxF32 g w sd sa sb d a b s
  | .vminF32 g w sd sa sb d a b => Sys2Proof.Machine.execVminF32 g w sd sa sb d a b s
  | .vaddI32 g w sd sa sb d a b => Sys2Proof.Machine.execVaddI32 g w sd sa sb d a b s
  | .vsubI32 g w sd sa sb d a b => Sys2Proof.Machine.execVsubI32 g w sd sa sb d a b s
  | .vmulI32 g w sd sa sb d a b => Sys2Proof.Machine.execVmulI32 g w sd sa sb d a b s
  | .vdotF0 g w sd sa sb d a b => Sys2Proof.Machine.execVdotF0 g w sd sa sb d a b s
  | .vdotF1 g w sd sa sb d a b => Sys2Proof.Machine.execVdotF1 g w sd sa sb d a b s
  | .vdotF2 g w sd sa sb d a b => Sys2Proof.Machine.execVdotF2 g w sd sa sb d a b s
  | .vdotF3 g w sd sa sb d a b => Sys2Proof.Machine.execVdotF3 g w sd sa sb d a b s
  | .vmaxI32 g w sd sa sb d a b => Sys2Proof.Machine.execVmaxI32 g w sd sa sb d a b s
  | .vminI32 g w sd sa sb d a b => Sys2Proof.Machine.execVminI32 g w sd sa sb d a b s
  | .rep g n a x => Sys2Proof.Machine.execRep g n a x s
  | .vand g w sd sa d a x => Sys2Proof.Machine.execVand g w sd sa d a x s
  | .vor g w sd sa d a x => Sys2Proof.Machine.execVor g w sd sa d a x s
  | .vxor g w sd sa d a x => Sys2Proof.Machine.execVxor g w sd sa d a x s
  | .vandn g w sd sa d a x => Sys2Proof.Machine.execVandn g w sd sa d a x s
  | .vshlI32 g w sd sa d a x => Sys2Proof.Machine.execVshlI32 g w sd sa d a x s
  | .vshrI32 g w sd sa d a x => Sys2Proof.Machine.execVshrI32 g w sd sa d a x s
  | .vsarI32 g w sd sa d a x => Sys2Proof.Machine.execVsarI32 g w sd sa d a x s
  | .vcmpEq g w sa t k a x => Sys2Proof.Machine.execVcmpEq g w sa t k a x s
  | .vcmpLt g w sa t k a x => Sys2Proof.Machine.execVcmpLt g w sa t k a x s
  | .vcmpLe g w sa t k a x => Sys2Proof.Machine.execVcmpLe g w sa t k a x s
  | .vsel g w sd sa d a k => Sys2Proof.Machine.execVsel g w sd sa d a k s
  | .vcvt g w sd sa d a k m => Sys2Proof.Machine.execVcvt g w sd sa d a k m s
  | .vcvtOl g w sd sa d a k m => Sys2Proof.Machine.execVcvtOl g w sd sa d a k m s
  | .vwid g w sd sa d a c f => Sys2Proof.Machine.execVwid g w sd sa d a c f s
  | .vred g w sd sa d a k => Sys2Proof.Machine.execVred g w sd sa d a k s
  | .vperm g w sd sa d a x => Sys2Proof.Machine.execVperm g w sd sa d a x s
  | .vbcst g w sd d a z => Sys2Proof.Machine.execVbcst g w sd d a z s
  | .vext g w sa d a l => Sys2Proof.Machine.execVext g w sa d a l s
  | .vlane g w sd d => Sys2Proof.Machine.execVlane g w sd d s
  | .vexp2F32 g w sd sa d a => Sys2Proof.Machine.execVexp2F32 g w sd sa d a s
  | .vrcpF32 g w sd sa d a => Sys2Proof.Machine.execVrcpF32 g w sd sa d a s
  | .vrsqF32 g w sd sa d a => Sys2Proof.Machine.execVrsqF32 g w sd sa d a s
  | .vld g w sd d a f => Sys2Proof.Machine.execVld g w sd d a f s
  | .vldG g w sd d a f => Sys2Proof.Machine.execVldG g w sd d a f s
  | .vst g w sd d a f => Sys2Proof.Machine.execVst g w sd d a f s
  | .vstG g w sd d a f => Sys2Proof.Machine.execVstG g w sd d a f s
  | .vgather g w sd d a x => Sys2Proof.Machine.execVgather g w sd d a x s
  | .vscatter g w sd d a x => Sys2Proof.Machine.execVscatter g w sd d a x s
  | .vamo g w sd d a k => Sys2Proof.Machine.execVamo g w sd d a k s
  | .vamoG g w sd d a k => Sys2Proof.Machine.execVamoG g w sd d a k s
  | .put g d a b q z => Sys2Proof.Machine.execPut g d a b q z s
  | .putv g d a b q => Sys2Proof.Machine.execPutv g d a b q s
  | .get g d a q z => Sys2Proof.Machine.execGet g d a q z s
  | .amsg g d a b => Sys2Proof.Machine.execAmsg g d a b s
  | .red g a b k => Sys2Proof.Machine.execRed g a b k s
  | .rll g d a q z => Sys2Proof.Machine.execRll g d a q z s
  | .rsc g d a b q z => Sys2Proof.Machine.execRsc g d a b q z s
  | .postMx g a => Sys2Proof.Machine.execPostMx g a s
  | .postCp g a => Sys2Proof.Machine.execPostCp g a s
  | .fwd g d a => Sys2Proof.Machine.execFwd g d a s
  | .corr g a b => Sys2Proof.Machine.execCorr g a b s
  | .mgetLink g d a b p => Sys2Proof.Machine.execMgetLink g d a b p s
  | .mgetTwin g d a b p => Sys2Proof.Machine.execMgetTwin g d a b p s
  | .mgetOrigin g d a b p => Sys2Proof.Machine.execMgetOrigin g d a b p s
  | .mgetEdge g d a b p => Sys2Proof.Machine.execMgetEdge g d a b p s
  | .mgetFace g d a b p => Sys2Proof.Machine.execMgetFace g d a b p s
  | .mnext g d a b p => Sys2Proof.Machine.execMnext g d a b p s
  | .mfldLow g d a b p j => Sys2Proof.Machine.execMfldLow g d a b p j s
  | .mfldHigh g d a b p j => Sys2Proof.Machine.execMfldHigh g d a b p j s
  | .mfstLow g s0 a b p j => Sys2Proof.Machine.execMfstLow g s0 a b p j s
  | .mfstHigh g s0 a b p j => Sys2Proof.Machine.execMfstHigh g s0 a b p j s
  | .mval g a b p => Sys2Proof.Machine.execMval g a b p s
  | .mclaim g a b p => Sys2Proof.Machine.execMclaim g a b p s
  | .mrel g a b p => Sys2Proof.Machine.execMrel g a b p s
  | .msplit g d a b p => Sys2Proof.Machine.execMsplit g d a b p s
  | .mcoll g d a b p => Sys2Proof.Machine.execMcoll g d a b p s
  | .mflip g d a b p => Sys2Proof.Machine.execMflip g d a b p s
  | .mref g d a b p => Sys2Proof.Machine.execMref g d a b p s
  | .mround g d a => Sys2Proof.Machine.execMround g d a s
  | .verpub g d a => Sys2Proof.Machine.execVerpub g d a s
  | .verpubO g d a => Sys2Proof.Machine.execVerpubO g d a s
  | .verpubFin g d a => Sys2Proof.Machine.execVerpubFin g d a s
  | .verstop g d a => Sys2Proof.Machine.execVerstop g d a s
  | .verwait g d a b => Sys2Proof.Machine.execVerwait g d a b s
  | .verchk g a b p => Sys2Proof.Machine.execVerchk g a b p s
  | .verchkD g a b p => Sys2Proof.Machine.execVerchkD g a b p s
  | .versettle g a p => Sys2Proof.Machine.execVersettle g a p s
  | .versettleT g a p => Sys2Proof.Machine.execVersettleT g a p s
  | .gosadd g a b => Sys2Proof.Machine.execGosadd g a b s
  | .gosest g d a p => Sys2Proof.Machine.execGosest g d a p s
  | .gosspr g d a => Sys2Proof.Machine.execGosspr g d a s
  | .gosset g d a b => Sys2Proof.Machine.execGosset g d a b s
  | .bar g d a => Sys2Proof.Machine.execBar g d a s
  | .barv g d a b => Sys2Proof.Machine.execBarv g d a b s
  | .bwait g a b p => Sys2Proof.Machine.execBwait g a b p s
  | .chsend g a b p => Sys2Proof.Machine.execChsend g a b p s
  | .chrecv g d a p => Sys2Proof.Machine.execChrecv g d a p s
  | .hqput g d a b => Sys2Proof.Machine.execHqput g d a b s
  | .hqpeek g d a b => Sys2Proof.Machine.execHqpeek g d a b s
  | .hqrel g d a b => Sys2Proof.Machine.execHqrel g d a b s
  | .hqveto g d a b => Sys2Proof.Machine.execHqveto g d a b s
  | .trap g i0 => Sys2Proof.Machine.execTrap g i0 s
  | .rfe g => Sys2Proof.Machine.execRfe g s
  | .getc g d s0 => Sys2Proof.Machine.execGetc g d s0 s
  | .setc g a s0 => Sys2Proof.Machine.execSetc g a s0 s
  | .sleep g a => Sys2Proof.Machine.execSleep g a s
  | .xinv g a b => Sys2Proof.Machine.execXinv g a b s
  | .brkpt g => Sys2Proof.Machine.execBrkpt g s
  | .halt g => Sys2Proof.Machine.execHalt g s
  | .olog g d a => Sys2Proof.Machine.execOlog g d a s
  | .probe g d a => Sys2Proof.Machine.execProbe g d a s
  | .windowWrite g a n => Sys2Proof.Machine.execWindowWrite g a n s
  | .tgcfgWrite g a => Sys2Proof.Machine.execTgcfgWrite g a s
  | .tvbaseWrite g a => Sys2Proof.Machine.execTvbaseWrite g a s
  | .swWrite g a => Sys2Proof.Machine.execSwWrite g a s
  | .errorRegisterClear g a e => Sys2Proof.Machine.execErrorRegisterClear g a e s
  | .slpcfgWrite g a => Sys2Proof.Machine.execSlpcfgWrite g a s
  | .preqPreempt q core frame => Sys2Proof.Machine.execPreqPreempt q core frame s
  | .preqResumeReissue q core frame => Sys2Proof.Machine.execPreqResumeReissue q core frame s
  | .preqResumeSkip q core frame => Sys2Proof.Machine.execPreqResumeSkip q core frame s
  | .preqDiscard q core frame => Sys2Proof.Machine.execPreqDiscard q core frame s
  | .framePark core frame => Sys2Proof.Machine.execFramePark core frame s
  | .fatalTrapReport core frame => Sys2Proof.Machine.execFatalTrapReport core frame s
  | .engineErrorDelivery core frame => Sys2Proof.Machine.execEngineErrorDelivery core frame s
  | .frameReady core frame => Sys2Proof.Machine.execFrameReady core frame s
  | .framePromotion core frame => Sys2Proof.Machine.execFramePromotion core frame s
  | .divideComplete core => Sys2Proof.Machine.execDivideComplete core s
  | .sequencerReissue core => Sys2Proof.Machine.execSequencerReissue core s
  | .taskPop core launch => Sys2Proof.Machine.execTaskPop core launch s
  | .handlerStart core => Sys2Proof.Machine.execHandlerStart core s
  | .migrateArrival n => Sys2Proof.Machine.execMigrateArrival n s
  | .stealRequest core launch => Sys2Proof.Machine.execStealRequest core launch s
  | .stealService n => Sys2Proof.Machine.execStealService n s
  | .stealReply n => Sys2Proof.Machine.execStealReply n s
  | .stealBackoffExpiry core => Sys2Proof.Machine.execStealBackoffExpiry core s
  | .deferredTaskPush core entry => Sys2Proof.Machine.execDeferredTaskPush core entry s
  | .remoteTaskPush n => Sys2Proof.Machine.execRemoteTaskPush n s
  | .joinCountdown n => Sys2Proof.Machine.execJoinCountdown n s
  | .retirementDrainComplete core frame => Sys2Proof.Machine.execRetirementDrainComplete core frame s
  | .trackerDrainComplete core t => Sys2Proof.Machine.execTrackerDrainComplete core t s
  | .putArrival n => Sys2Proof.Machine.execPutArrival n s
  | .getArrival n => Sys2Proof.Machine.execGetArrival n s
  | .reply n => Sys2Proof.Machine.execReply n s
  | .ack n => Sys2Proof.Machine.execAck n s
  | .nack n => Sys2Proof.Machine.execNack n s
  | .activeArrival n => Sys2Proof.Machine.execActiveArrival n s
  | .reduceArrival n => Sys2Proof.Machine.execReduceArrival n s
  | .reserveArrival n => Sys2Proof.Machine.execReserveArrival n s
  | .conditionalStoreArrival n => Sys2Proof.Machine.execConditionalStoreArrival n s
  | .objectRequest n => Sys2Proof.Machine.execObjectRequest n s
  | .objectReply n => Sys2Proof.Machine.execObjectReply n s
  | .notice n => Sys2Proof.Machine.execNotice n s
  | .waiterWithdrawal n => Sys2Proof.Machine.execWaiterWithdrawal n s
  | .meshClaim e => Sys2Proof.Machine.execMeshClaim e s
  | .mxSetf core => Sys2Proof.Machine.execMxSetf core s
  | .mxLda core => Sys2Proof.Machine.execMxLda core s
  | .mxLdb core => Sys2Proof.Machine.execMxLdb core s
  | .mxMac core => Sys2Proof.Machine.execMxMac core s
  | .mxPass core => Sys2Proof.Machine.execMxPass core s
  | .mxZero core => Sys2Proof.Machine.execMxZero core s
  | .mxDrain core => Sys2Proof.Machine.execMxDrain core s
  | .mxMark core => Sys2Proof.Machine.execMxMark core s
  | .cpCopy2d core => Sys2Proof.Machine.execCpCopy2d core s
  | .cpGather core => Sys2Proof.Machine.execCpGather core s
  | .cpScatter core => Sys2Proof.Machine.execCpScatter core s
  | .cpFill core => Sys2Proof.Machine.execCpFill core s
  | .cpMark core => Sys2Proof.Machine.execCpMark core s
  | .commandCompletion core e => Sys2Proof.Machine.execCommandCompletion core e s
  | .engineWaitTimeout core e => Sys2Proof.Machine.execEngineWaitTimeout core e s
  | .orderLogWatchdog core frame => Sys2Proof.Machine.execOrderLogWatchdog core frame s
  | .translationWalk die => Sys2Proof.Machine.execTranslationWalk die s
  | .pageMovedRetry core id => Sys2Proof.Machine.execPageMovedRetry core id s
  | .pageSeal => Sys2Proof.Machine.execPageSeal s
  | .pageCopyComplete => Sys2Proof.Machine.execPageCopyComplete s
  | .pageReleased => Sys2Proof.Machine.execPageReleased s
  | .queueEnable q v => Sys2Proof.Machine.execQueueEnable q v s
  | .queueDisable q v => Sys2Proof.Machine.execQueueDisable q v s
  | .queueDoorbell q v => Sys2Proof.Machine.execQueueDoorbell q v s
  | .queueResume q v => Sys2Proof.Machine.execQueueResume q v s
  | .queueFlush q v => Sys2Proof.Machine.execQueueFlush q v s
  | .launch q => Sys2Proof.Machine.execLaunch q s
  | .create q => Sys2Proof.Machine.execCreate q s
  | .activate q => Sys2Proof.Machine.execActivate q s
  | .close q => Sys2Proof.Machine.execClose q s
  | .kill q => Sys2Proof.Machine.execKill q s
  | .map q => Sys2Proof.Machine.execMap q s
  | .unmap q => Sys2Proof.Machine.execUnmap q s
  | .migrate q => Sys2Proof.Machine.execMigrate q s
  | .park q => Sys2Proof.Machine.execPark q s
  | .restore q => Sys2Proof.Machine.execRestore q s
  | .grant q => Sys2Proof.Machine.execGrant q s
  | .accept q => Sys2Proof.Machine.execAccept q s
  | .revoke q => Sys2Proof.Machine.execRevoke q s
  | .createHoldingQueue q => Sys2Proof.Machine.execCreateHoldingQueue q s
  | .launchPlacement l => Sys2Proof.Machine.execLaunchPlacement l s
  | .launchCompletion l => Sys2Proof.Machine.execLaunchCompletion l s
  | .contextDrained c => Sys2Proof.Machine.execContextDrained c s
  | .killComplete c => Sys2Proof.Machine.execKillComplete c s
  | .contextCleanup c => Sys2Proof.Machine.execContextCleanup c s
  | .hqStream h => Sys2Proof.Machine.execHqStream h s
  | .pqackWrite h v => Sys2Proof.Machine.execPqackWrite h v s
  | .gossipRound r => Sys2Proof.Machine.execGossipRound r s
  | .gossipDrainComplete r => Sys2Proof.Machine.execGossipDrainComplete r s
  | .gossipMass n => Sys2Proof.Machine.execGossipMass n s
  | .gossipCommit n => Sys2Proof.Machine.execGossipCommit n s
  | .gossipWithdrawal n => Sys2Proof.Machine.execGossipWithdrawal n s
  | .gossipMassTimeout i0 => Sys2Proof.Machine.execGossipMassTimeout i0 s
  | .offpackageSend n => Sys2Proof.Machine.execOffpackageSend n s
  | .postmarkArrival port m => Sys2Proof.Machine.execPostmarkArrival port m s
  | .deliveryAck m => Sys2Proof.Machine.execDeliveryAck m s
  | .retentionResend i0 => Sys2Proof.Machine.execRetentionResend i0 s
  | .requestTimeout core id => Sys2Proof.Machine.execRequestTimeout core id s
  | .noRouteReturn n => Sys2Proof.Machine.execNoRouteReturn n s
  | .nonrequestDrop n => Sys2Proof.Machine.execNonrequestDrop n s
  | .creditReturn port cls flits => Sys2Proof.Machine.execCreditReturn port cls flits s
  | .linkReplay port => Sys2Proof.Machine.execLinkReplay port s
  | .linkTrainingStart port => Sys2Proof.Machine.execLinkTrainingStart port s
  | .linkTrained port lanes rate => Sys2Proof.Machine.execLinkTrained port lanes rate s
  | .linkTrainingTimeout port => Sys2Proof.Machine.execLinkTrainingTimeout port s
  | .linkFault port => Sys2Proof.Machine.execLinkFault port s
  | .linkDisable port => Sys2Proof.Machine.execLinkDisable port s
  | .linkRelease port => Sys2Proof.Machine.execLinkRelease port s
  | .linkRetrain port => Sys2Proof.Machine.execLinkRetrain port s
  | .registerWrite off v => Sys2Proof.Machine.execRegisterWrite off v s
  | .sleepExpiry core frame => Sys2Proof.Machine.execSleepExpiry core frame s
  | .coreSleep core => Sys2Proof.Machine.execCoreSleep core s
  | .coreWake core => Sys2Proof.Machine.execCoreWake core s
  | .eccError at_ corrected => Sys2Proof.Machine.execEccError at_ corrected s
  | .selfTestComplete blk r => Sys2Proof.Machine.execSelfTestComplete blk r s
  | .thermalWarning die temp => Sys2Proof.Machine.execThermalWarning die temp s
  | .thermalStop die temp => Sys2Proof.Machine.execThermalStop die temp s
  | .packageStart hang bad => Sys2Proof.Machine.execPackageStart hang bad s
  | .journalReset => Sys2Proof.Machine.execJournalReset s
  | .attestReport v => Sys2Proof.Machine.execAttestReport v s
  | .attestExtend v => Sys2Proof.Machine.execAttestExtend v s
  | .attestComplete => Sys2Proof.Machine.execAttestComplete s
  | .illegalInstruction w => Sys2Proof.Machine.execIllegalInstruction w s
  | .vectorResultWrite core => Sys2Proof.Machine.execVectorResultWrite core s
  | .unassignedEngineCommand core e => Sys2Proof.Machine.execUnassignedEngineCommand core e s
  | .malformedRecord q => Sys2Proof.Machine.execMalformedRecord q s

end Sys2Proof.Machine
end

