-- ==== Sys2Proof/Machine/Merge.lean ====
section
/-! DEFINITION. The merge step of the scratchpad banks (R78, R79), its collisions in the order log (R151, R454), the deque's one
operation in a cycle (R134), the order of handle advances (R107), and what else follows every step: waiters tried again (R171,
R242) and the poison of frame images written anew (R453). -/

namespace Sys2Proof.Machine

/-! ## Writers -/

/-- The party that makes the scratchpad writes of a step: its core, its place in the order of a merge step, its frame as
`MergePart` gives it, and the launch that it works for. -/
structure Writer where
  core : Nat
  rank : Nat
  frame : Nat
  launch : Option Nat
  deriving DecidableEq, Repr

/-- The place of a frame's writes (R78): above the copy engine's, 0, and the matrix unit's, 1, a lower frame above a higher. -/
def frameRank (f : Nat) : Nat := 2 + (95 - f)
/-- The place of the remote access, above all others. -/
def remoteRank : Nat := 98
/-- The party that makes a step's scratchpad writes: the remote access, with the number of its message in flight where there is one;
an engine; the sequencer; a frame; or a tail's tracker entry. -/
inductive Party where
  | remote (msg : Option Nat)
  | engine (core : Nat) (e : Engine)
  | sequencer (core : Nat)
  | frame (core f : Nat)
  | tracker (core : Nat)
  deriving DecidableEq, Repr

/-- The writer that a party is. -/
def Chip.writerOf (c : Chip) (p : Party) : Writer :=
  match p with
  | .remote _ => ⟨0, remoteRank, 127, none⟩
  | .engine k e => ⟨k, if e = .mx then 1 else 0, 127, ((c.coreAt k).queue e).head?.bind (·.launch)⟩
  | .sequencer k =>
    let f := (c.coreAt k).vec.owner.getD 0
    ⟨k, frameRank f, 128 + f, (c.frameAt k f).launch⟩
  | .frame k f => ⟨k, frameRank f, f, (c.frameAt k f).launch⟩
  | .tracker k => ⟨k, frameRank 95, 127, none⟩
/-- The party of a step of another agent. -/
def partyOf (i : Instr) : Party :=
  match i with
  | .mxSetf k | .mxLda k | .mxLdb k | .mxMac k | .mxPass k | .mxZero k | .mxDrain k | .mxMark k => .engine k .mx
  | .cpCopy2d k | .cpGather k | .cpScatter k | .cpFill k | .cpMark k => .engine k .cp
  | .unassignedEngineCommand k e | .commandCompletion k e | .engineWaitTimeout k e => .engine k e
  | .sequencerReissue k => .sequencer k
  | .retirementDrainComplete k f => .frame k f
  | .trackerDrainComplete k _ => .tracker k
  | .putArrival n | .getArrival n | .reserveArrival n | .conditionalStoreArrival n | .reduceArrival n | .activeArrival n
  | .migrateArrival n | .joinCountdown n | .remoteTaskPush n | .notice n | .objectRequest n => .remote (some n)
  | _ => .remote none

/-! ## The cycle of a core -/

/-- What a core's banks and handles have done in a cycle. -/
def Core.cycleAt (k : Core) (now : Nat) : Cycle := if k.cycle.at_ = now then k.cycle else Cycle.fresh now
/-- Whether a core's collisions are logged: a launch in mode 1 or 2 runs on it (R151). -/
def Chip.logging (c : Chip) (core : Nat) : Bool := c.launches.any fun p => p.2.mode != 0 && p.2.cores.contains core
/-- The parts that a step from `k` to `k'` adds to the merge steps of its cycle. What their bytes held before is kept where
collisions are logged. -/
def Writer.parts (w : Writer) (k k' : Core) (log : Bool) : List MergePart :=
  k'.touched.map fun t => ⟨w.rank, t.lo, t.len, t.kind, w.frame, w.launch, if log && t.kind != .look then rdBytes k.pad t.lo t.len else []⟩
/-- Whether two parts have bytes in common. -/
def MergePart.meets (p q : MergePart) : Bool := overlap p.lo p.len q.lo q.len
/-- Whether a part `q` cannot be made any more in the cycle that has `p`: a second remote access of a bank (R78); one that stands
below it, where either reads the bytes; a remote atomic on a word of a local one, which would have gone first (R79, log 48). -/
def MergePart.tooLate (q p : MergePart) : Bool :=
  (q.rank == remoteRank && p.rank == remoteRank && bankMeets (p.lo, p.len) (q.lo, q.len))
  || (p.meets q &&
    ((decide (q.rank < p.rank) && (p.kind != .write || q.kind != .write))
      || (q.rank == remoteRank && decide (p.rank < q.rank) && p.kind != .write && q.kind != .write)))
/-- Whether writes of a range are followed by a test: a bound entry's counter (R140) or the one that `wait` names (R141). -/
def Core.tests (k : Core) (a n : Nat) : Bool :=
  (k.wtab.toList.any fun e => e.bound && overlap a n e.ctr 8)
  || k.frames.any fun p => match p.2.st with | .stalled (.counter o _ _ _) => overlap a n o 8 | _ => false
/-- Whether a write of a step meets one that a collision without a record withholds (R454): its bytes. -/
def Core.blocked (k k' : Core) : Option (Nat × Nat) :=
  (k'.touched.find? fun t => t.kind != .look && k.stuck.any fun x => overlap t.lo t.len x.part.lo x.part.len).map fun t => (t.lo, t.len)
/-- Whether a core cannot take a step's effects in this cycle: a part that comes too late, or that would stand below a write which
has been tested; an operation of the deque while it is busy (R134); an advance of a handle that a party above has advanced (R107); a
write that meets a withheld one. `k` is the core before the step, `k'` after it. -/
def Core.mustWait (k k' : Core) (now : Nat) (w : Writer) : Bool :=
  let y := k.cycleAt now
  (decide (0 < k'.dequeOps) && decide (now < k.dequeTill))
  || (k'.advanced.any fun h => y.advs.any fun a => a.1 == h && decide (w.rank < a.2))
  || ((w.parts k k' false).any fun q => y.parts.any fun p =>
      q.tooLate p || (decide (q.rank < p.rank) && p.meets q && (k.tests q.lo q.len || k.tests p.lo p.len)))
  || (k.blocked k').isSome

/-- The bytes of earlier writes above a writer, which stand in spite of its write (R78). -/
def keepAbove (old : Memory) (parts : List MergePart) (w : Writer) (t : Touch) (pad : Memory) : Memory :=
  parts.foldl (fun pad p =>
    let lo := max p.lo t.lo
    let n := min (p.lo + p.len) (t.lo + t.len) - lo
    if w.rank < p.rank && decide (0 < n) then wrBytes pad lo (rdBytes old lo n) else pad) pad

/-- The first granule of a frame's pc, npc, nnpc and sw images (R126). -/
def imageGranule (f : Nat) : Nat := (0x2C000 + 160 * f) / 8 + 16
/-- The granules of a frame's pc, npc, nnpc and sw images that a step writes whole (R126, R453): all of them as a thread starts or
comes back; the triple as a handler is entered or left, and `sw` as it is left. A predicate, and what else an instruction writes of
`sw`, is a part of its image; and an instruction issues only where none of the four is poisoned. -/
def imagesWritten (f : Nat) (old new : Frame) : List Nat :=
  let d := imageGranule f
  let begins := new.thread != old.thread || (new.st != .free && old.st == .free) || (new.st != .parked && old.st == .parked)
  let turns := new.inTrap != old.inTrap && new.pc != old.pc
  (if begins || turns then [d, d + 1, d + 2] else []) ++ (if begins || (turns && old.inTrap) then [d + 3] else [])
/-- The poison of a core without that of images written anew (R453). -/
def Core.freshImages (k k' : Core) : Core :=
  if k'.padPoison.isEmpty then k'
  else { k' with padPoison := k'.padPoison.filter fun d => !(k'.frames.any fun p => (imagesWritten p.1 (k.frameAt p.1) p.2).contains d) }

/-- A core after a step that it takes: its accesses noted in the cycle's merge steps, bytes that stand above its writes kept, its
deque busy for one cycle with each operation (R134). -/
def Core.merge (k k' : Core) (now : Nat) (w : Writer) (log : Bool) : Core :=
  let y := k.cycleAt now
  let k' := k.freshImages k'
  if k'.touched.isEmpty && k'.dequeOps == 0 && k'.advanced.isEmpty then k'
  else { k' with
    pad := k'.touched.foldl (fun pad t => keepAbove k.pad y.parts w t pad) k'.pad
    cycle := { y with parts := y.parts ++ w.parts k k' log, advs := y.advs ++ k'.advanced.map (·, w.rank) }
    dequeTill := if k'.dequeOps = 0 then k'.dequeTill else max now k'.dequeTill + k'.dequeOps
    touched := []
    advanced := []
    dequeOps := 0 }
/-- The accesses of a step from `c0` to `c`, which the banks take as it is, noted. -/
def Chip.noteWrites (c0 c : Chip) (w : Writer) : Chip :=
  { c with cores := c.cores.map fun p => (p.1, (c0.coreAt p.1).merge p.2 c.now w (c.logging p.1)) }

/-! ## Collisions in the order log (R151, R454) -/

/-- Whether two writes of different parties have bytes of a bank in common. -/
def MergePart.collides (b : Nat) (p q : MergePart) : Bool :=
  let lo := max p.lo q.lo
  let hi := min (p.lo + p.len) (q.lo + q.len)
  (q.rank != p.rank || q.frame != p.frame) && p.kind != .look && q.kind != .look && decide (lo < hi) && (banksOf (lo, hi - lo)).contains b
/-- The writes of a cycle that collide in a bank. -/
def colliding (b : Nat) (l : List MergePart) : List MergePart := l.filter fun p => l.any (p.collides b)
/-- The outcome word of a collision: the frames of the pipeline's and the sequencer's write, 0x7F for none, and which of remote,
matrix and copy are present (log 66). -/
def collisionWord (l : List MergePart) : Word :=
  let pipe := (l.find? fun p => decide (p.frame < 96)).elim 127 (·.frame)
  let seq := (l.find? fun p => decide (128 ≤ p.frame)).elim 127 fun p => p.frame - 128
  let has := fun r => (l.any fun p => p.rank == r).toNat
  BitVec.ofNat 64 (pipe + seq * 2 ^ 8 + has remoteRank * 2 ^ 16 + has 1 * 2 ^ 17 + has 0 * 2 ^ 18)
/-- Whether a collision so far is a part of the one that a record holds. -/
def collisionFits (v w : Word) : Bool :=
  (bits v 6 0 == 127 || bits v 6 0 == bits w 6 0) && (bits v 14 8 == 127 || bits v 14 8 == bits w 14 8)
  && bits v 18 16 &&& bits w 18 16 == bits v 18 16
/-- The launch in mode 1 or 2 in whose log a core's collision stands: that of the writer, or of one it meets. -/
def Chip.collisionLaunch (c : Chip) (core : Nat) (l : List MergePart) : Option Nat :=
  (l.reverse.filterMap (·.launch)).find? fun n => c.modeOf (some n) != 0 && (match tfind c.launches n with
    | some x => x.cores.contains core
    | none => false)

/-- How a step's writes fare: taken, or held back in this cycle, with what the core sends because of it. -/
inductive Merged where
  | taken (c : Chip)
  | held (c : Chip)
  deriving DecidableEq, Repr

/-- What a part writes in a bank, line by line. -/
def MergePart.inBank (p : MergePart) (b : Nat) : List MergePart :=
  (List.range ((p.lo % 64 + p.len + 63) / 64)).filterMap fun i =>
    let l := p.lo / 64 + i
    let lo := max p.lo (64 * l)
    let hi := min (p.lo + p.len) (64 * l + 64)
    if l % 8 = b ∧ lo < hi then some { p with lo := lo, len := hi - lo, was := (p.was.drop (lo - p.lo)).take (hi - lo) } else none
/-- The writes of a cycle in a bank withheld, whose merge step is not made (R454): their bytes stand as before, and the frames that
made them wait. -/
def Core.withhold (k : Core) (now bank log : Nat) : Core :=
  let l := ((k.cycleAt now).parts.filter fun p => p.kind != .look && p.was.length == p.len).flatMap (·.inBank bank)
  let k := { k with
    pad := l.foldr (fun p m => wrBytes m p.lo p.was) k.pad
    stuck := k.stuck ++ l.map fun p => ⟨p, rdBytes k.pad p.lo p.len, log⟩ }
  l.foldl (fun k p => if p.frame < 96 ∧ (k.frameAt p.frame).st = .ready then
    k.modFrame p.frame fun f => { f with st := .stalled (.home p.lo p.len) } else k) k
/-- The record of a collision in a core's bank, which has just been made in `c` (the package before it is `c0`): taken at its first
byte in common, its outcome completed by later writes of the cycle. In mode 2 the next record must be this one. Where no record is
free the bank makes no merge step: this step's writes are held back, those of the cycle before it are withheld, and the quire's
supervisor is told once. -/
def Chip.recordCollision (c0 c : Chip) (core bank : Nat) (l : List MergePart) (launch : Nat) : Merged :=
  let v := collisionWord l
  let note := fun (c : Chip) (n : Nat) => c.modCore core fun k =>
    { k with cycle := { k.cycle with records := k.cycle.records ++ [(bank, launch, n)] } }
  match tfind c.launches launch with
  | none => .taken c
  | some x =>
    match (c.coreAt core).cycle.records.find? fun r => r.1 == bank && r.2.1 == launch with
    | some (_, _, n) =>
      if x.mode = 2 && !(c.logOutcome core launch n).any (collisionFits v) then .held c0
      else .taken (c.settleRecord core (some (launch, n)) v)
    | none =>
      let n := (c.coreAt core).taken launch
      if (x.slice core).2 ≤ n then
        let told := (c0.coreAt core).stuck.any fun y => y.log == launch
        let c := if told then c0 else c0.sendExhaustion core 0x7F x.ctx (ecauseOf 0 false 0x0B 4) 0 0
        .held (c.modCore core fun k => k.withhold c0.now bank launch)
      else if x.mode = 2 then
        match c.slicePhys core x n .r with
        | none => .held (c0.lostSlice core launch)
        | some p =>
          if field (c.readPhys p 16) 4 4 == 4 * 2 ^ 24 + 0x7F && collisionFits v (BitVec.ofNat 64 (field (c.readPhys p 16) 8 8)) then
            .taken (note (c.logTake core launch 4 0x7F).1 n)
          else .held c0
      else
        let (c, n) := c.logTake core launch 4 0x7F
        .taken (note (c.settleRecord core (some (launch, n)) v) n)

/-- The collisions that a writer makes in banks of cores recorded, one after another. -/
def Chip.recordCollisions (c0 : Chip) (w : Writer) : List (Nat × Nat) → Chip → Merged
  | [], c => .taken c
  | (core, bank) :: r, c =>
    let l := colliding bank (c.coreAt core).cycle.parts
    if !l.any (fun p => p.rank == w.rank && p.frame == w.frame) then c0.recordCollisions w r c
    else match c.collisionLaunch core l with
      | none => c0.recordCollisions w r c
      | some n => match c0.recordCollision c core bank l n with
        | .taken c => c0.recordCollisions w r c
        | h => h

/-! ## A step's end -/

/-- Withheld writes made after all, as the launch ends in whose log their collision had no record (R454); those of a launch that has
ended are not made. -/
def Core.freeStuck (k : Core) (gone : Nat → Bool) : Core :=
  let out := k.stuck.filter fun x => gone x.log
  if out.isEmpty then k
  else out.foldl (fun k x => if x.part.launch.any gone then k else k.padWrite x.part.lo x.data x.part.kind)
    { k with stuck := k.stuck.filter fun x => !gone x.log }
/-- Withheld writes of every core. -/
def Chip.freeStuck (c : Chip) : Chip :=
  { c with cores := c.cores.map fun p => (p.1, p.2.freeStuck fun n => !thas c.launches n) }
/-- The end of a step: the waiters of every home are tried, since a write may end a wait (R171, R242). -/
def Chip.stepEnd (c : Chip) : Chip := c.noteWrites c.freeStuck.wakeAll ⟨0, remoteRank, 127, none⟩
/-- Whether a write of a party is withheld: the party waits (R454). -/
def Chip.withheld (c : Chip) (w : Writer) : Bool :=
  w.rank != remoteRank && (c.coreAt w.core).stuck.any fun x => x.part.rank == w.rank && x.part.frame == w.frame
/-- A step from `c0` to `c` as the banks, deques and handles of its cycle allow it. -/
def Chip.merge (c0 c : Chip) (w : Writer) : Merged :=
  if c0.withheld w || c.cores.any fun p => (c0.coreAt p.1).mustWait p.2 c.now w then .held c0
  else
    let wrote := (c.cores.filter fun p => !p.2.touched.isEmpty && c.logging p.1).flatMap fun p => (List.range 8).map fun b => (p.1, b)
    match c0.recordCollisions w wrote (c0.noteWrites c w) with
    | .taken c => .taken c.stepEnd
    | h => h
/-- A request that the banks hold back waits in the crossbar (R451). -/
def Chip.heldBack (c : Chip) (p : Party) : Chip :=
  match p with
  | .remote (some n) => (match c.net[n]? with
    | some m => if m.waits then c else { c with net := c.net.set n { m with waits := true } }
    | none => c)
  | _ => c

end Sys2Proof.Machine
end

