-- ==== Sys2Proof/Machine/Issue.lean ====
section
/-! DEFINITION. The issue slot of a core: the frame that issues (R17, R128, R130) and fetching its instruction (R309); the
passing of time, in which each sequencer keeps its pace (R325); and what the host and other packages change in their own
memory. -/

namespace Sys2Proof.Machine

/-! ## The frame that issues -/

/-- Whether a frame may issue: ready, with nothing to be taken at its boundary first (R165, R351), unless an instruction under way
has already written in another package. -/
def Frame.mayIssue (f : Frame) : Bool :=
  f.st == .ready && (f.far.contains .done || (f.preempt.isNone && f.engErr.isEmpty))
/-- Whether a frame of a core may issue: not while its sequencer goes through another package (R335). -/
def Core.mayIssue (k : Core) (f : Nat) : Bool := (k.frameAt f).mayIssue && !(k.sequencing f && !(k.frameAt f).far.isEmpty)
/-- Whether a core issues at all: awake, and not under self-test (R406, R425). -/
def Chip.issues (c : Chip) (core : Nat) : Bool :=
  !(c.coreAt core).asleep && decide ((c.coreAt core).wakeAt ≤ c.now) && !c.underTest core
/-- The most urgent class with a frame that may issue, from class k up (R128). -/
def Core.topClass (k : Core) : Option Nat :=
  (List.range 5).find? fun cls => k.frames.any fun p => decide (p.1 < Config.frames) && k.mayIssue p.1 && p.2.issueClass == cls
/-- The first frame of a class after the last that issued in it, wrapping from 95 to 0 (R128). -/
def Core.nextIn (k : Core) (cls : Nat) : Option Nat :=
  let last := k.rr[cls % 5]'(Nat.mod_lt _ (by decide))
  ((List.range Config.frames).map fun i => (last + 1 + i) % Config.frames).find? fun f =>
    k.mayIssue f && (k.frameAt f).issueClass == cls
/-- The frame that a core issues from (R128). -/
def Chip.pick (c : Chip) (core : Nat) : Option Nat :=
  if c.issues core then ((c.coreAt core).topClass).bind (c.coreAt core).nextIn else none

/-! ## Time -/

/-- Cycles pass; a message with a candidate port has had one until then (R205). -/
def Chip.tick (c : Chip) (n : Nat) : Chip := { c.routesAt (c.now + n) with now := c.now + n }
/-- Whether the vector unit of some core has a reissue or a result ahead. -/
def Chip.vectorBusy (c : Chip) : Bool := c.cores.any fun p => p.2.vec.running || !p.2.vec.writes.isEmpty
/-- What the vector unit of a core does as a cycle begins: the results of the cycles before are in place, and the sequencer
issues (R324, R325). Its writes come first in the cycle's merge steps (R78), unless a withheld write holds them back (R454). -/
def Chip.vectorDue (c : Chip) (core : Nat) : Chip :=
  let c := (c.landResults core).getD c
  let w := c.writerOf (.sequencer core)
  match c.reissue core with
  | none => c
  | some c' => if c.withheld w || ((c.coreAt core).blocked (c'.coreAt core)).isSome then c else c.noteWrites c' w
/-- Cycles pass one by one while a vector unit has something to do, and all at once when none has. -/
def Chip.pass (c : Chip) : Nat → Chip
  | 0 => c
  | n + 1 =>
    if c.vectorBusy then
      let c := c.tick 1
      ((c.cores.map (·.1)).foldl Chip.vectorDue c).pass n
    else c.tick (n + 1)

/-- A core issues at most one instruction in a cycle (R17): the next cycle comes if it has issued in this one. -/
def Chip.freeSlot (c : Chip) (core : Nat) : Chip := if (c.coreAt core).lastIssue = some c.now then c.pass 1 else c
/-- Frame f of a core takes the issue slot: its class's position moves, and its ageing starts anew (R128, R129). -/
def Chip.begin_ (c : Chip) (core f : Nat) : Chip :=
  let cls := (c.frameAt core f).issueClass
  let c := { c with core := core, frame := f }
  (c.modCore core fun k => { k with
    lastIssue := some c.now, rr := k.rr.set (cls % 5) f (Nat.mod_lt _ (by decide)) }).modFrame core f fun fr =>
      { fr with promoted := 0, readySince := c.now }

/-! ## Fetching (R309) -/

/-- The first poisoned granule of a frame's pc, npc, nnpc and sw images, which an issue reads (R453). -/
def Core.badImage (k : Core) (f : Nat) : Option Nat :=
  ((List.range 4).map (imageGranule f + ·)).find? k.padPoison.contains
/-- The word at the issuing frame's pc; a poisoned word, or image of pc, npc, nnpc or sw, raises 0x0E, detail 0x52 (log 21). -/
def Chip.fetch (c : Chip) : Except Stop (BitVec 32) :=
  let pc := (c.frameAt c.core c.frame).pc
  match (c.coreAt c.core).badImage c.frame with
  | some d => .error (.trap 0x0E 0x52 (BitVec.ofNat 64 (8 * d)))
  | none => match c.lookup pc .x false with
    | .error e => .error e
    | .ok p =>
      if c.physBad p 4 then .error (.trap 0x0E 0x52 pc) else .ok (BitVec.ofNat 32 (leNat (c.readPhys p 4)))
/-- The issuing frame with free values for those of its triple whose images are poisoned (R453, log 21). -/
def Chip.loseTriple (c : Chip) : Chip :=
  let d := imageGranule c.frame
  let bad := fun (i : Nat) => (c.coreAt c.core).padPoison.contains (d + i)
  if (c.coreAt c.core).badImage c.frame = none then c
  else { c.modFrame c.core c.frame fun f => { f with
      pc := if bad 0 then Config.lostData c.freeCount else f.pc
      npc := if bad 1 then Config.lostData (c.freeCount + 1) else f.npc
      nnpc := if bad 2 then Config.lostData (c.freeCount + 2) else f.nnpc } with freeCount := c.freeCount + 3 }
/-- An instruction that cannot be fetched. `ecause.word` is then a free value (log 9). -/
def Chip.noFetch (c : Chip) (e : Stop) : Chip :=
  match e with
  | .wait _ | .hold _ => finishWord 0 false (stopped e) c
  | .trap .. =>
    let c := c.loseTriple
    finishWord ((Config.lostData c.freeCount).setWidth 32) false (stopped e) { c with freeCount := c.freeCount + 1 }

/-- The writer of the issuing frame's instruction (R78). -/
def Chip.wordWriter (c : Chip) : Writer := ⟨c.core, frameRank c.frame, c.frame, (c.frameAt c.core c.frame).launch⟩

/-! ## Placing a word where it is fetched -/

/-- The package with a word where a core's next issue fetches it: the frame that would issue, or else frame 0, made ready
at its pc, with that page mapped to HBM (log 17). -/
def Chip.placeWord (c : Chip) (core : Nat) (w : BitVec 32) : Chip :=
  let f := (c.pick core).getD 0
  let was := (c.coreAt core).mayIssue f
  let pc := (c.frameAt core f).pc
  let page := pc.toNat / 2 ^ 16
  let c := { c with testing := c.testing.filter fun (p : Block × Nat) => p.1 != Block.signature (sigOf core) }
  let c := c.modCore core fun k => { k with
    asleep := false, wakeAt := 0, lastIssue := none, cycle := Cycle.fresh c.now
    padPoison := k.padPoison.filter fun d => !(decide (imageGranule f ≤ d) && decide (d < imageGranule f + 4)) }
  let c := c.modFrame core f fun fr =>
    if was then { fr with walkFault := none, far := [] }
    else { fr with st := .ready, preempt := none, engErr := [], walkFault := none, trapping := none, far := [], npc := pc + 4, nnpc := pc + 8 }
  let e : Tlb := ⟨(c.frameAt core f).ctx, page, 0, BitVec.ofNat 64 (7 * 8 + 3)⟩
  let a := pc.toNat % 2 ^ 16
  ({ c with tlb := tset c.tlb (sigOf core) (e :: tget [] c.tlb (sigOf core)) }).writeHome (hbmHome a) a (toLe 4 w.toNat)

/-! ## Other parties -/

/-- Bytes that the host changes in its own memory. -/
def Chip.hostWrite (c : Chip) (a : Nat) (b : List Byte) : Chip := { c with host := wrBytes c.host a b }
/-- The ranges of host memory whose reads fail from now on (R413). -/
def Chip.setHostFails (c : Chip) (l : List (Nat × Nat)) : Chip := { c with hostBad := l }
/-- Bytes of other packages' memory as they change there (log 8). -/
def Chip.farWrite (c : Chip) (a : Nat) (b : List Byte) : Chip := { c with far := wrBytes c.far a b }
/-- What another package's command processor does to the objects here that its launch is entered in (R178, R179): it breaks
them, or it clears the launch's slots when the launch ends. -/
def Chip.farLaunch (c : Chip) (w : Word) (brk : Bool) : Chip :=
  let mine := (c.foreign.filter fun e => e.1 == w).map (·.2)
  if brk then c.breakListed w mine
  else
    let c := mine.foldl (fun c o => match c.listedAt o with
      | some (h, a) => c.clearLset h a w
      | none => c) c
    { c with foreign := c.foreign.filter fun e => e.1 != w }

/-- Whether a term is a step of another agent, which the agenda may name; an instruction is only ever fetched. -/
def isEvent (i : Instr) : Bool :=
  match i with
  | .illegalInstruction _ => false
  | i => WellFormed i && causeWord i == 0

end Sys2Proof.Machine
end

