-- ==== Sys2Proof/Machine/Schedule.lean ====
section
/-! DEFINITION. The order in which the package's own agents take their steps while nothing stands on the agenda (log 3): the
first of a list that is enabled. Every order is allowed by the spec; an agenda names any other. -/

namespace Sys2Proof.Machine

/-- A step that may be taken. -/
abbrev StepFn := State → Host.Outcome State Fault Refusal
/-- A step that may be taken, with the party that makes its scratchpad writes. -/
abbrev Try := Party × StepFn
/-- Steps of one party. -/
def by_ (p : Party) (l : List StepFn) : List Try := l.map fun f => (p, f)
/-- Steps whose scratchpad writes, if any, are the remote access of a merge step. -/
def others (l : List StepFn) : List Try := by_ (.remote none) l

/-- Steps on one frame but for its retirement. -/
def frameSteps (core f : Nat) (fr : Frame) : List StepFn :=
  match fr.st with
  | .free => []
  | .ready => [execEngineErrorDelivery core f, execFramePark core f, execFramePromotion core f]
  | .stalled w =>
    let q : Asker := .frame core f
    (match w with
      | .request 1 c t => [execPreqPreempt q c t]
      | .request 2 c t => [execPreqResumeReissue q c t]
      | .request 3 c t => [execPreqResumeSkip q c t]
      | .request _ c t => [execPreqDiscard q c t]
      | _ => [])
    ++ [execEngineErrorDelivery core f, execFramePark core f, execFrameReady core f, execSleepExpiry core f, execOrderLogWatchdog core f]
  | .retiring .. => [execEngineErrorDelivery core f]
  | .parked => []
/-- Steps on one frame. -/
def frameTries (core f : Nat) (fr : Frame) : List Try :=
  others (frameSteps core f fr) ++ match fr.st with
  | .retiring .. => by_ (.frame core f) [execRetirementDrainComplete core f]
  | _ => []
/-- Steps of one engine: the command at its head, its completion, and the end of its waits. A predecessor's pass comes before a
load of the latch that it hands over to (R362). -/
def engineTries (core : Nat) (e : Engine) : List Try :=
  by_ (.engine core e) ((match e with
    | .mx => [execMxSetf core, execMxLda core, execMxPass core, execMxLdb core, execMxMac core, execMxZero core, execMxDrain core, execMxMark core]
    | .cp => [execCpCopy2d core, execCpGather core, execCpScatter core, execCpFill core, execCpMark core])
    ++ [execUnassignedEngineCommand core e, execCommandCompletion core e, execEngineWaitTimeout core e])
/-- Steps of one core besides issuing. -/
def coreTries (s : State) (core : Nat) (k : Core) : List Try :=
  others [execVectorResultWrite core, execDivideComplete core] ++ by_ (.sequencer core) [execSequencerReissue core]
  ++ k.frames.flatMap (fun p => frameTries core p.1 p.2)
  ++ (if k.mxq.isEmpty then [] else engineTries core .mx) ++ (if k.cpq.isEmpty then [] else engineTries core .cp)
  ++ by_ (.tracker core) (k.trackers.map fun t => execTrackerDrainComplete core t.1)
  ++ others (((List.range 32).map fun e => execDeferredTaskPush core e)
    ++ [execHandlerStart core]
    ++ (s.chip.launches.flatMap fun l => [execTaskPop core l.1, execStealRequest core l.1])
    ++ [execStealBackoffExpiry core, execCoreWake core]
    ++ (k.reqs.map fun r => execPageMovedRetry core r.1))
/-- Steps that take the n-th message in flight. -/
def messageSteps (n : Nat) (m : Msg) : List StepFn :=
  match m.body with
  | .put .. | .piece _ => [execPutArrival n]
  | .get _ => [execGetArrival n]
  | .reply .. => [execReply n]
  | .active .. | .exhaustion _ => [execActiveArrival n]
  | .migrate _ => [execMigrateArrival n]
  | .reduce .. | .vreduce .. => [execReduceArrival n]
  | .reserve _ => [execReserveArrival n]
  | .condStore .. => [execConditionalStoreArrival n]
  | .ack _ => [execAck n]
  | .nack _ => [execNack n]
  | .object .. => [execObjectRequest n]
  | .objReply _ => [execObjectReply n]
  | .notice .. | .settle _ => [execNotice n]
  | .countDown => [execJoinCountdown n]
  | .taskPush _ => [execRemoteTaskPush n]
  | .withdraw => [execWaiterWithdrawal n]
  | .mass .. => [execGossipMass n]
  | .commit _ => [execGossipCommit n]
  | .withdrawal _ => [execGossipWithdrawal n]
  | .deliveryAck _ | .invalid _ => []
/-- Steps that take the n-th message in flight, by the remote access where it is a request. -/
def messageTries (n : Nat) (m : Msg) : List Try := by_ (.remote (if isRequest m.body then some n else none)) (messageSteps n m)
/-- Steps of the command processor on the record at a queue's head. -/
def recordSteps (q : Nat) : List StepFn :=
  [execLaunch q, execCreate q, execActivate q, execClose q, execKill q, execMap q, execUnmap q, execMigrate q, execPark q,
   execRestore q, execGrant q, execAccept q, execRevoke q, execCreateHoldingQueue q, execMalformedRecord q]
/-- Steps of the command processor. -/
def processorSteps (s : State) : List StepFn :=
  (s.chip.reports.filterMap fun r => r.key.map fun p => execFatalTrapReport p.1 p.2)
  ++ [execPageSeal, execPageCopyComplete, execPageReleased]
  ++ (match s.chip.nextQueue with | some q => recordSteps q | none => [])
  ++ (s.chip.launches.flatMap fun l => [execLaunchPlacement l.1, execLaunchCompletion l.1])
  ++ (s.chip.ctxs.flatMap fun c => [execContextDrained c.1, execKillComplete c.1, execContextCleanup c.1])
/-- Steps of the fabric, the spine and the regions but for the arrivals. -/
def fabricSteps (s : State) : List StepFn :=
  ((List.range s.chip.steals.length).flatMap fun n => [execStealService n, execStealReply n])
  ++ (s.chip.walks.map fun w => execTranslationWalk w.1)
  ++ ((List.range s.chip.edits.length).map fun e => execMeshClaim e)
  ++ (s.chip.hqs.map fun h => execHqStream h.1)
  ++ ((List.range s.chip.regions.length).flatMap fun r => [execGossipDrainComplete r, execGossipRound r])
  ++ ((List.range s.chip.out.length).map fun n => execOffpackageSend n)
  ++ ((List.range s.chip.retained.length).flatMap fun i => [execGossipMassTimeout i, execRetentionResend i])
  ++ ((List.range (s.chip.out.length + s.chip.retained.length)).flatMap fun n => [execNoRouteReturn n, execNonrequestDrop n])
  ++ ((List.range 16).flatMap fun p =>
        [execLinkTrainingStart p, execLinkTrainingTimeout p])

/-- Every step that some agent of the package may take by itself. A request that finds no port returns before it times out,
and a core goes to sleep last. -/
def tries (s : State) : List Try :=
  (s.chip.cores.flatMap fun k => coreTries s k.1 k.2)
  ++ (s.chip.net.zipIdx.flatMap fun m => messageTries m.2 m.1)
  ++ others (fabricSteps s ++ processorSteps s
    ++ (s.chip.cores.flatMap fun k => k.2.reqs.map fun r => execRequestTimeout k.1 r.1)
    ++ s.chip.cores.map fun k => execCoreSleep k.1)
/-- The next core that has a frame to issue from, after the last one. -/
def State.nextCore (s : State) : Option Nat :=
  let l := (s.chip.cores.map (·.1)).filter fun n => (s.chip.pick n).isSome
  (l.find? fun n => decide (s.turnCore < n)).orElse fun _ => l.head?

end Sys2Proof.Machine
end

