-- ==== Sys2Proof/Machine/Step.lean ====
section
/-! DEFINITION. One step of the model: an issue slot, a step of another agent, or a cycle that passes (log 3, log 4). -/

namespace Sys2Proof.Machine

/-- The state with another package. -/
def State.withChip (s : State) (c : Chip) : State := { s with chip := c }

/-- The word at the chosen frame's pc fetched, decoded and executed (R309); a word that names no instruction raises 0x01 (R289). -/
def issueWord (s : State) : Host.Outcome State Fault Refusal :=
  match s.chip.fetch with
  | .error e => .next (s.withChip (s.chip.noFetch e))
  | .ok w => match decode w with
    | some i => exec i s
    | none => execIllegalInstruction w s
/-- The package as the banks hold an instruction back: its frame waits for the withheld write that it meets (R454), or else the cycle
passes. `k'` is the core as the instruction would leave it. -/
def Chip.holdFrame (c : Chip) (core f : Nat) (k' : Core) : Chip :=
  match (c.coreAt core).blocked k' with
  | some (a, n) => c.stall core f (.home a n)
  | none => c.pass 1
/-- The issue slot of a core (R17, R128), in the next cycle if the core has issued in this one. Without a frame to issue from, or
where the banks hold the instruction back (R78, R79), the cycle passes. -/
def issueStep (s : State) (core : Nat) : Host.Outcome State Fault Refusal :=
  let c := s.chip.freeSlot core
  match c.pick core with
  | none => .next (s.withChip (c.pass 1))
  | some f =>
    let b := c.begin_ core f
    match issueWord (s.withChip b) with
    | .next t => match c.merge t.chip b.wordWriter with
      | .taken c' => .next (t.withChip c')
      | .held c' => .next (s.withChip (c'.holdFrame core f (t.chip.coreAt core)))
    | o => o

/-- A step of another party as the banks and deques take it (R78, R134): none where it is not enabled, or is held back with nothing
to show for it; a request that is held back waits in the crossbar (R451). -/
def taken (s : State) (p : Party) (o : Host.Outcome State Fault Refusal) : Option State :=
  match o with
  | .next t => match s.chip.merge t.chip (s.chip.writerOf p) with
    | .taken c => some (t.withChip c)
    | .held c => let c := c.heldBack p; if c = s.chip then none else some (s.withChip c)
  | _ => none
/-- The first step of a list that may be taken. -/
def firstOf (s : State) : List Try → Option State
  | [] => none
  | f :: r => (taken s f.1 (f.2 s)).orElse fun _ => firstOf s r
/-- A step of another agent that the agenda names. One that is not enabled leaves the state as it is (log 5). -/
def eventStep (s : State) (i : Instr) : Host.Outcome State Fault Refusal :=
  if isEvent i then .next ((taken s (partyOf i) (exec i s)).getD s) else .next s

/-- One entry of the agenda performed. -/
def actStep (s : State) (a : Act) : Host.Outcome State Fault Refusal :=
  match a with
  | .issue core => issueStep { s with turnCore := core } core
  | .event i => eventStep s i
  | .hostWrite addr bytes => .next (s.withChip (s.chip.hostWrite addr bytes).stepEnd)
  | .farWrite addr bytes => .next (s.withChip (s.chip.farWrite addr bytes))
  | .hostFails ranges => .next (s.withChip (s.chip.setHostFails ranges))
  | .sense die temp rail power speed => .next (s.withChip (s.chip.sense die temp rail power speed).stepEnd)
  | .linkAck port n => .next (s.withChip (s.chip.linkAck port n))
  | .farLaunch w brk => .next (s.withChip (s.chip.farLaunch w brk).stepEnd)

/-- One step: the agenda's next entry; without one, the first step that an agent may take, else the issue slot of the next
core, else a cycle passes (log 3). -/
def step (s : State) : Host.Outcome State Fault Refusal :=
  match s.agenda with
  | t :: rest => actStep { s with chip := s.chip.pass t.after, agenda := rest } t.act
  | [] => match firstOf s (tries s) with
    | some t => .next t
    | none => match s.nextCore with
      | some core => issueStep { s with turnCore := core } core
      | none => .next (s.withChip (s.chip.pass 1))

/-- The state with an instruction's word where the next step fetches it, and that issue slot first on the agenda
(log 17). -/
def State.withFetchWord (s : State) (nbits w : Nat) : State :=
  { s with
    chip := s.chip.placeWord s.turnCore (BitVec.ofNat 32 (w % 2 ^ nbits))
    agenda := [⟨0, .issue s.turnCore⟩] }

end Sys2Proof.Machine
end

