-- ==== Sys2Proof/Laws/Fields.lean ====
section
/-! SUPPORT. Laws of the word formats (R272 to R278): fields that are packed and cut again are the same fields, what each
format's word decodes to, and codes of operands read back. -/

-- The whole package as one text elaborates one proof at a time from here on: many at once ask for too much memory.
set_option Elab.async false

namespace Sys2Proof

theorem pack_lt (l : List (Nat × Nat)) (h : ∀ p ∈ l, p.2 < 2 ^ p.1) : pack l < 2 ^ (l.map Prod.fst).sum := by
  induction l with
  | nil => simp [pack]
  | cons p r ih =>
    obtain ⟨w, v⟩ := p
    have h1 : v < 2 ^ w := h (w, v) (by simp)
    have h2 := ih fun q hq => h q (by simp [hq])
    simp only [pack, List.map_cons, List.sum_cons, Nat.pow_add]
    calc v * 2 ^ (r.map Prod.fst).sum + pack r < v * 2 ^ (r.map Prod.fst).sum + 2 ^ (r.map Prod.fst).sum := by omega
      _ = (v + 1) * 2 ^ (r.map Prod.fst).sum := by rw [Nat.add_mul, Nat.one_mul]
      _ ≤ 2 ^ w * 2 ^ (r.map Prod.fst).sum := Nat.mul_le_mul_right _ h1

/-- Fields cut from a packed number are the fields packed. -/
theorem cut_pack (l : List (Nat × Nat)) (h : ∀ p ∈ l, p.2 < 2 ^ p.1) : cut (l.map Prod.fst) (pack l) = l.map Prod.snd := by
  have key : ∀ (l : List (Nat × Nat)) (k : Nat), (∀ p ∈ l, p.2 < 2 ^ p.1) →
      cut (l.map Prod.fst) (k * 2 ^ (l.map Prod.fst).sum + pack l) = l.map Prod.snd := by
    intro l
    induction l with
    | nil => intro k _; rfl
    | cons p r ih =>
      intro k h
      obtain ⟨w, v⟩ := p
      have hv : v < 2 ^ w := h (w, v) (by simp)
      have hr : ∀ p ∈ r, p.2 < 2 ^ p.1 := fun q hq => h q (by simp [hq])
      have hlt := pack_lt r hr
      simp only [List.map_cons, cut, pack, List.sum_cons, List.cons.injEq]
      have e : k * 2 ^ (w + (r.map Prod.fst).sum) + (v * 2 ^ (r.map Prod.fst).sum + pack r)
          = (k * 2 ^ w + v) * 2 ^ (r.map Prod.fst).sum + pack r := by
        rw [Nat.pow_add, ← Nat.mul_assoc, Nat.add_mul, Nat.add_assoc]
      rw [e]
      refine ⟨?_, ih _ hr⟩
      rw [Nat.add_comm, Nat.add_mul_div_right _ _ (Nat.two_pow_pos _), Nat.div_eq_of_lt hlt, Nat.zero_add,
        Nat.add_comm, Nat.add_mul_mod_self_right, Nat.mod_eq_of_lt hv]
  simpa using key l 0 h

/-- A packed word of 32 bits as a number. -/
theorem word_toNat (l : List (Nat × Nat)) (h : ∀ p ∈ l, p.2 < 2 ^ p.1) (hs : (l.map Prod.fst).sum = 32) :
    (BitVec.ofNat 32 (pack l)).toNat = pack l := by
  rw [BitVec.toNat_ofNat, Nat.mod_eq_of_lt (by rw [← hs]; exact pack_lt l h)]

/-! ## What each format's word decodes to -/

theorem decode_wR {g d a b m op : Nat} (hg : g < 16) (hd : d < 32) (ha : a < 32) (hb : b < 32) (hm : m < 16) (hop : op < 64) :
    decode (BitVec.ofNat 32 (pack [(3, 0), (4, g), (5, d), (5, a), (5, b), (4, m), (6, op)]))
      = decode0 g d a b m op := by
  have hl : ∀ pr ∈ [(3, 0), (4, g), (5, d), (5, a), (5, b), (4, m), (6, op)], pr.2 < 2 ^ pr.1 := by
    simp [hg, hd, ha, hb, hm, hop]
  have hn := word_toNat _ hl rfl
  have hcut := cut_pack _ hl
  simp only [List.map_cons, List.map_nil] at hcut
  have k0 : pack [(3, 0), (4, g), (5, d), (5, a), (5, b), (4, m), (6, op)] / 2 ^ 29 = 0 := by
    simp only [pack, List.map_cons, List.map_nil, List.sum_cons, List.sum_nil]; omega
  simp only [decode, hn, k0, hcut]

theorem decode_wI {g op d a i : Nat} (hg : g < 16) (hop : op < 8) (hd : d < 32) (ha : a < 32) (hi : i < 2048) :
    decode (BitVec.ofNat 32 (pack [(3, 1), (4, g), (4, op), (5, d), (5, a), (11, i)]))
      = decode1 g op d a i := by
  have hl : ∀ pr ∈ [(3, 1), (4, g), (4, op), (5, d), (5, a), (11, i)], pr.2 < 2 ^ pr.1 := by
    simp [hg, hd, ha, hi] <;> omega
  have hn := word_toNat _ hl rfl
  have hcut := cut_pack _ hl
  simp only [List.map_cons, List.map_nil] at hcut
  have k0 : pack [(3, 1), (4, g), (4, op), (5, d), (5, a), (11, i)] / 2 ^ 29 = 1 := by
    simp only [pack, List.map_cons, List.map_nil, List.sum_cons, List.sum_nil]; omega
  have k1 : pack [(3, 1), (4, g), (4, op), (5, d), (5, a), (11, i)] / 2 ^ 24 % 2 = 0 := by
    simp only [pack, List.map_cons, List.map_nil, List.sum_cons, List.sum_nil]; omega
  simp only [decode, hn, k0, k1, hcut, if_true]

theorem decode_cmpImm {g p c a i : Nat} (hg : g < 16) (hp : p < 8) (hc : c < 8) (ha : a < 32) (hi : i < 4096) :
    decode (BitVec.ofNat 32 (pack [(3, 1), (4, g), (2, 2), (3, p), (3, c), (5, a), (12, i)]))
      = (do
        some (.cmpImm (Guard.ofCode g) (← predDest p) (BitVec.ofNat 3 c) (← Reg.ofCode a) (BitVec.ofNat 12 i))) := by
  have hl : ∀ pr ∈ [(3, 1), (4, g), (2, 2), (3, p), (3, c), (5, a), (12, i)], pr.2 < 2 ^ pr.1 := by
    simp [hg, hp, hc, ha, hi]
  have hn := word_toNat _ hl rfl
  have hcut := cut_pack _ hl
  simp only [List.map_cons, List.map_nil] at hcut
  have k0 : pack [(3, 1), (4, g), (2, 2), (3, p), (3, c), (5, a), (12, i)] / 2 ^ 29 = 1 := by
    simp only [pack, List.map_cons, List.map_nil, List.sum_cons, List.sum_nil]; omega
  have k1 : pack [(3, 1), (4, g), (2, 2), (3, p), (3, c), (5, a), (12, i)] / 2 ^ 24 % 2 = 1 := by
    simp only [pack, List.map_cons, List.map_nil, List.sum_cons, List.sum_nil]; omega
  have k2 : pack [(3, 1), (4, g), (2, 2), (3, p), (3, c), (5, a), (12, i)] / 2 ^ 23 % 2 = 0 := by
    simp only [pack, List.map_cons, List.map_nil, List.sum_cons, List.sum_nil]; omega
  simp only [decode, hn, k0, k1, k2, hcut, if_true, Nat.one_ne_zero, if_false]

theorem decode_movi {g d s i : Nat} (hg : g < 16) (hd : d < 32) (hs : s < 4) (hi : i < 65536) :
    decode (BitVec.ofNat 32 (pack [(3, 1), (4, g), (2, 3), (5, d), (2, s), (16, i)]))
      = (do
        some (.movi (Guard.ofCode g) (← Reg.ofCode d) (BitVec.ofNat 2 s) (BitVec.ofNat 16 i))) := by
  have hl : ∀ pr ∈ [(3, 1), (4, g), (2, 3), (5, d), (2, s), (16, i)], pr.2 < 2 ^ pr.1 := by
    simp [hg, hd, hs, hi]
  have hn := word_toNat _ hl rfl
  have hcut := cut_pack _ hl
  simp only [List.map_cons, List.map_nil] at hcut
  have k0 : pack [(3, 1), (4, g), (2, 3), (5, d), (2, s), (16, i)] / 2 ^ 29 = 1 := by
    simp only [pack, List.map_cons, List.map_nil, List.sum_cons, List.sum_nil]; omega
  have k1 : pack [(3, 1), (4, g), (2, 3), (5, d), (2, s), (16, i)] / 2 ^ 24 % 2 = 1 := by
    simp only [pack, List.map_cons, List.map_nil, List.sum_cons, List.sum_nil]; omega
  have k2 : pack [(3, 1), (4, g), (2, 3), (5, d), (2, s), (16, i)] / 2 ^ 23 % 2 = 1 := by
    simp only [pack, List.map_cons, List.map_nil, List.sum_cons, List.sum_nil]; omega
  simp only [decode, hn, k0, k1, k2, hcut, Nat.one_ne_zero, if_false]

theorem decode_br {g an i : Nat} (hg : g < 16) (han : an < 4) (hi : i < 524288) :
    decode (BitVec.ofNat 32 (pack [(3, 2), (4, g), (4, 0), (2, an), (19, i)]))
      = (do
        some (.br (Guard.ofCode g) (← annul an) (BitVec.ofNat 19 i))) := by
  have hl : ∀ pr ∈ [(3, 2), (4, g), (4, 0), (2, an), (19, i)], pr.2 < 2 ^ pr.1 := by
    simp [hg, han, hi]
  have hn := word_toNat _ hl rfl
  have hcut := cut_pack _ hl
  simp only [List.map_cons, List.map_nil] at hcut
  have k0 : pack [(3, 2), (4, g), (4, 0), (2, an), (19, i)] / 2 ^ 29 = 2 := by
    simp only [pack, List.map_cons, List.map_nil, List.sum_cons, List.sum_nil]; omega
  have k1 : pack [(3, 2), (4, g), (4, 0), (2, an), (19, i)] / 2 ^ 21 % 16 = 0 := by
    simp only [pack, List.map_cons, List.map_nil, List.sum_cons, List.sum_nil]; omega
  simp only [decode, hn, k0, k1, hcut]

theorem decode_call {g an i : Nat} (hg : g < 16) (han : an < 4) (hi : i < 524288) :
    decode (BitVec.ofNat 32 (pack [(3, 2), (4, g), (4, 1), (2, an), (19, i)]))
      = (do
        some (.call (Guard.ofCode g) (← annul an) (BitVec.ofNat 19 i))) := by
  have hl : ∀ pr ∈ [(3, 2), (4, g), (4, 1), (2, an), (19, i)], pr.2 < 2 ^ pr.1 := by
    simp [hg, han, hi]
  have hn := word_toNat _ hl rfl
  have hcut := cut_pack _ hl
  simp only [List.map_cons, List.map_nil] at hcut
  have k0 : pack [(3, 2), (4, g), (4, 1), (2, an), (19, i)] / 2 ^ 29 = 2 := by
    simp only [pack, List.map_cons, List.map_nil, List.sum_cons, List.sum_nil]; omega
  have k1 : pack [(3, 2), (4, g), (4, 1), (2, an), (19, i)] / 2 ^ 21 % 16 = 1 := by
    simp only [pack, List.map_cons, List.map_nil, List.sum_cons, List.sum_nil]; omega
  simp only [decode, hn, k0, k1, hcut]

theorem decode_jr {g an a : Nat} (hg : g < 16) (han : an < 4) (ha : a < 32) :
    decode (BitVec.ofNat 32 (pack [(3, 2), (4, g), (4, 2), (2, an), (5, a), (14, 0)]))
      = (do
        some (.jr (Guard.ofCode g) (← annul an) (← Reg.ofCode a))) := by
  have hl : ∀ pr ∈ [(3, 2), (4, g), (4, 2), (2, an), (5, a), (14, 0)], pr.2 < 2 ^ pr.1 := by
    simp [hg, han, ha]
  have hn := word_toNat _ hl rfl
  have hcut := cut_pack _ hl
  simp only [List.map_cons, List.map_nil] at hcut
  have k0 : pack [(3, 2), (4, g), (4, 2), (2, an), (5, a), (14, 0)] / 2 ^ 29 = 2 := by
    simp only [pack, List.map_cons, List.map_nil, List.sum_cons, List.sum_nil]; omega
  have k1 : pack [(3, 2), (4, g), (4, 2), (2, an), (5, a), (14, 0)] / 2 ^ 21 % 16 = 2 := by
    simp only [pack, List.map_cons, List.map_nil, List.sum_cons, List.sum_nil]; omega
  simp only [decode, hn, k0, k1, hcut]
  rfl

theorem decode_ret {g an : Nat} (hg : g < 16) (han : an < 4) :
    decode (BitVec.ofNat 32 (pack [(3, 2), (4, g), (4, 3), (2, an), (5, 0), (14, 0)]))
      = (do
        some (.ret (Guard.ofCode g) (← annul an))) := by
  have hl : ∀ pr ∈ [(3, 2), (4, g), (4, 3), (2, an), (5, 0), (14, 0)], pr.2 < 2 ^ pr.1 := by
    simp [hg, han]
  have hn := word_toNat _ hl rfl
  have hcut := cut_pack _ hl
  simp only [List.map_cons, List.map_nil] at hcut
  have k0 : pack [(3, 2), (4, g), (4, 3), (2, an), (5, 0), (14, 0)] / 2 ^ 29 = 2 := by
    simp only [pack, List.map_cons, List.map_nil, List.sum_cons, List.sum_nil]; omega
  have k1 : pack [(3, 2), (4, g), (4, 3), (2, an), (5, 0), (14, 0)] / 2 ^ 21 % 16 = 3 := by
    simp only [pack, List.map_cons, List.map_nil, List.sum_cons, List.sum_nil]; omega
  simp only [decode, hn, k0, k1, hcut]
  rfl

theorem decode_fork {g c i : Nat} (hg : g < 16) (hc : c < 32) (hi : i < 65536) :
    decode (BitVec.ofNat 32 (pack [(3, 2), (4, g), (4, 4), (5, c), (16, i)]))
      = (do
        some (.fork (Guard.ofCode g) (← Reg.ofCode c) (BitVec.ofNat 16 i))) := by
  have hl : ∀ pr ∈ [(3, 2), (4, g), (4, 4), (5, c), (16, i)], pr.2 < 2 ^ pr.1 := by
    simp [hg, hc, hi]
  have hn := word_toNat _ hl rfl
  have hcut := cut_pack _ hl
  simp only [List.map_cons, List.map_nil] at hcut
  have k0 : pack [(3, 2), (4, g), (4, 4), (5, c), (16, i)] / 2 ^ 29 = 2 := by
    simp only [pack, List.map_cons, List.map_nil, List.sum_cons, List.sum_nil]; omega
  have k1 : pack [(3, 2), (4, g), (4, 4), (5, c), (16, i)] / 2 ^ 21 % 16 = 4 := by
    simp only [pack, List.map_cons, List.map_nil, List.sum_cons, List.sum_nil]; omega
  simp only [decode, hn, k0, k1, hcut]

theorem decode_wW {g op k d c t a : Nat} (hg : g < 16) (hop : op < 16) (hk : k < 2) (hd : d < 32) (hc : c < 32) (ht : t < 32) (ha : a < 32) (h5 : 5 ≤ op) :
    decode (BitVec.ofNat 32 (pack [(3, 2), (4, g), (4, op), (1, k), (5, d), (5, c), (5, t), (5, a)]))
      = decode2 g op k d c t a := by
  obtain ⟨n, rfl⟩ : ∃ n, op = n + 5 := ⟨op - 5, by omega⟩
  have hl : ∀ pr ∈ [(3, 2), (4, g), (4, n + 5), (1, k), (5, d), (5, c), (5, t), (5, a)], pr.2 < 2 ^ pr.1 := by
    simp [hg, hop, hk, hd, hc, ht, ha]
  have hn := word_toNat _ hl rfl
  have hcut := cut_pack _ hl
  simp only [List.map_cons, List.map_nil] at hcut
  have k0 : pack [(3, 2), (4, g), (4, n + 5), (1, k), (5, d), (5, c), (5, t), (5, a)] / 2 ^ 29 = 2 := by
    simp only [pack, List.map_cons, List.map_nil, List.sum_cons, List.sum_nil]; omega
  have k1 : pack [(3, 2), (4, g), (4, n + 5), (1, k), (5, d), (5, c), (5, t), (5, a)] / 2 ^ 21 % 16 = n + 5 := by
    simp only [pack, List.map_cons, List.map_nil, List.sum_cons, List.sum_nil]; omega
  simp only [decode, hn, k0, k1, hcut]

theorem decode_ld {g z d a o : Nat} (hg : g < 16) (hz : z < 4) (hd : d < 32) (ha : a < 32) (ho : o < 1024) :
    decode (BitVec.ofNat 32 (pack [(3, 3), (4, g), (3, 0), (2, z), (5, d), (5, a), (10, o)]))
      = fmtL .ld g z d a o := by
  have hl : ∀ pr ∈ [(3, 3), (4, g), (3, 0), (2, z), (5, d), (5, a), (10, o)], pr.2 < 2 ^ pr.1 := by
    simp [hg, hz, hd, ha, ho]
  have hn := word_toNat _ hl rfl
  have hcut := cut_pack _ hl
  simp only [List.map_cons, List.map_nil] at hcut
  have k0 : pack [(3, 3), (4, g), (3, 0), (2, z), (5, d), (5, a), (10, o)] / 2 ^ 29 = 3 := by
    simp only [pack, List.map_cons, List.map_nil, List.sum_cons, List.sum_nil]; omega
  have k1 : pack [(3, 3), (4, g), (3, 0), (2, z), (5, d), (5, a), (10, o)] / 2 ^ 22 % 8 = 0 := by
    simp only [pack, List.map_cons, List.map_nil, List.sum_cons, List.sum_nil]; omega
  simp only [decode, hn, k0, k1, hcut]

theorem decode_lds {g z d a o : Nat} (hg : g < 16) (hz : z < 4) (hd : d < 32) (ha : a < 32) (ho : o < 1024) :
    decode (BitVec.ofNat 32 (pack [(3, 3), (4, g), (3, 1), (2, z), (5, d), (5, a), (10, o)]))
      = when_ (z != 3) (fmtL .lds g z d a o) := by
  have hl : ∀ pr ∈ [(3, 3), (4, g), (3, 1), (2, z), (5, d), (5, a), (10, o)], pr.2 < 2 ^ pr.1 := by
    simp [hg, hz, hd, ha, ho]
  have hn := word_toNat _ hl rfl
  have hcut := cut_pack _ hl
  simp only [List.map_cons, List.map_nil] at hcut
  have k0 : pack [(3, 3), (4, g), (3, 1), (2, z), (5, d), (5, a), (10, o)] / 2 ^ 29 = 3 := by
    simp only [pack, List.map_cons, List.map_nil, List.sum_cons, List.sum_nil]; omega
  have k1 : pack [(3, 3), (4, g), (3, 1), (2, z), (5, d), (5, a), (10, o)] / 2 ^ 22 % 8 = 1 := by
    simp only [pack, List.map_cons, List.map_nil, List.sum_cons, List.sum_nil]; omega
  simp only [decode, hn, k0, k1, hcut]

theorem decode_st {g z d a o : Nat} (hg : g < 16) (hz : z < 4) (hd : d < 32) (ha : a < 32) (ho : o < 1024) :
    decode (BitVec.ofNat 32 (pack [(3, 3), (4, g), (3, 2), (2, z), (5, d), (5, a), (10, o)]))
      = fmtL .st g z d a o := by
  have hl : ∀ pr ∈ [(3, 3), (4, g), (3, 2), (2, z), (5, d), (5, a), (10, o)], pr.2 < 2 ^ pr.1 := by
    simp [hg, hz, hd, ha, ho]
  have hn := word_toNat _ hl rfl
  have hcut := cut_pack _ hl
  simp only [List.map_cons, List.map_nil] at hcut
  have k0 : pack [(3, 3), (4, g), (3, 2), (2, z), (5, d), (5, a), (10, o)] / 2 ^ 29 = 3 := by
    simp only [pack, List.map_cons, List.map_nil, List.sum_cons, List.sum_nil]; omega
  have k1 : pack [(3, 3), (4, g), (3, 2), (2, z), (5, d), (5, a), (10, o)] / 2 ^ 22 % 8 = 2 := by
    simp only [pack, List.map_cons, List.map_nil, List.sum_cons, List.sum_nil]; omega
  simp only [decode, hn, k0, k1, hcut]

theorem decode_gld {g z d a q s o : Nat} (hg : g < 16) (hz : z < 4) (hd : d < 32) (ha : a < 32) (hq : q < 2) (hs : s < 8) (ho : o < 64) :
    decode (BitVec.ofNat 32 (pack [(3, 3), (4, g), (3, 3), (2, z), (5, d), (5, a), (1, q), (3, s), (6, o)]))
      = (do
        some (.gld (Guard.ofCode g) (← Size.ofCode z) (← retReg d) (← Reg.ofCode a) (← ordOf q s) (BitVec.ofNat 6 o))) := by
  have hl : ∀ pr ∈ [(3, 3), (4, g), (3, 3), (2, z), (5, d), (5, a), (1, q), (3, s), (6, o)], pr.2 < 2 ^ pr.1 := by
    simp [hg, hz, hd, ha, hq, hs, ho]
  have hn := word_toNat _ hl rfl
  have hcut := cut_pack _ hl
  simp only [List.map_cons, List.map_nil] at hcut
  have k0 : pack [(3, 3), (4, g), (3, 3), (2, z), (5, d), (5, a), (1, q), (3, s), (6, o)] / 2 ^ 29 = 3 := by
    simp only [pack, List.map_cons, List.map_nil, List.sum_cons, List.sum_nil]; omega
  have k1 : pack [(3, 3), (4, g), (3, 3), (2, z), (5, d), (5, a), (1, q), (3, s), (6, o)] / 2 ^ 22 % 8 = 3 := by
    simp only [pack, List.map_cons, List.map_nil, List.sum_cons, List.sum_nil]; omega
  simp only [decode, hn, k0, k1, hcut]

theorem decode_gst {g z d a q s o : Nat} (hg : g < 16) (hz : z < 4) (hd : d < 32) (ha : a < 32) (hq : q < 2) (hs : s < 8) (ho : o < 64) :
    decode (BitVec.ofNat 32 (pack [(3, 3), (4, g), (3, 4), (2, z), (5, d), (5, a), (1, q), (3, s), (6, o)]))
      = (do
        some (.gst (Guard.ofCode g) (← Size.ofCode z) (← Reg.ofCode d) (← Reg.ofCode a) (← ordOf q s) (BitVec.ofNat 6 o))) := by
  have hl : ∀ pr ∈ [(3, 3), (4, g), (3, 4), (2, z), (5, d), (5, a), (1, q), (3, s), (6, o)], pr.2 < 2 ^ pr.1 := by
    simp [hg, hz, hd, ha, hq, hs, ho]
  have hn := word_toNat _ hl rfl
  have hcut := cut_pack _ hl
  simp only [List.map_cons, List.map_nil] at hcut
  have k0 : pack [(3, 3), (4, g), (3, 4), (2, z), (5, d), (5, a), (1, q), (3, s), (6, o)] / 2 ^ 29 = 3 := by
    simp only [pack, List.map_cons, List.map_nil, List.sum_cons, List.sum_nil]; omega
  have k1 : pack [(3, 3), (4, g), (3, 4), (2, z), (5, d), (5, a), (1, q), (3, s), (6, o)] / 2 ^ 22 % 8 = 4 := by
    simp only [pack, List.map_cons, List.map_nil, List.sum_cons, List.sum_nil]; omega
  simp only [decode, hn, k0, k1, hcut]

theorem decode_wM {g sub d a b m : Nat} (hg : g < 16) (hsub : sub < 32) (hd : d < 32) (ha : a < 32) (hb : b < 32) (hm : m < 4) :
    decode (BitVec.ofNat 32 (pack [(3, 3), (4, g), (3, 5), (5, sub), (5, d), (5, a), (5, b), (2, m)]))
      = decode3 g sub d a b m := by
  have hl : ∀ pr ∈ [(3, 3), (4, g), (3, 5), (5, sub), (5, d), (5, a), (5, b), (2, m)], pr.2 < 2 ^ pr.1 := by
    simp [hg, hsub, hd, ha, hb, hm]
  have hn := word_toNat _ hl rfl
  have hcut := cut_pack _ hl
  simp only [List.map_cons, List.map_nil] at hcut
  have k0 : pack [(3, 3), (4, g), (3, 5), (5, sub), (5, d), (5, a), (5, b), (2, m)] / 2 ^ 29 = 3 := by
    simp only [pack, List.map_cons, List.map_nil, List.sum_cons, List.sum_nil]; omega
  have k1 : pack [(3, 3), (4, g), (3, 5), (5, sub), (5, d), (5, a), (5, b), (2, m)] / 2 ^ 22 % 8 = 5 := by
    simp only [pack, List.map_cons, List.map_nil, List.sum_cons, List.sum_nil]; omega
  simp only [decode, hn, k0, k1, hcut]

theorem decode_wV3 {g op w s d a b : Nat} (hg : g < 16) (hop : op < 16) (hw : w < 4) (hs : s < 8) (hd : d < 32) (ha : a < 32) (hb : b < 32) :
    decode (BitVec.ofNat 32 (pack [(3, 4), (4, g), (1, 0), (4, op), (2, w), (3, s), (5, d), (5, a), (5, b)]))
      = decodeV3 g op w s d a b := by
  have hl : ∀ pr ∈ [(3, 4), (4, g), (1, 0), (4, op), (2, w), (3, s), (5, d), (5, a), (5, b)], pr.2 < 2 ^ pr.1 := by
    simp [hg, hop, hw, hs, hd, ha, hb]
  have hn := word_toNat _ hl rfl
  have hcut := cut_pack _ hl
  simp only [List.map_cons, List.map_nil] at hcut
  have k0 : pack [(3, 4), (4, g), (1, 0), (4, op), (2, w), (3, s), (5, d), (5, a), (5, b)] / 2 ^ 29 = 4 := by
    simp only [pack, List.map_cons, List.map_nil, List.sum_cons, List.sum_nil]; omega
  have k1 : pack [(3, 4), (4, g), (1, 0), (4, op), (2, w), (3, s), (5, d), (5, a), (5, b)] / 2 ^ 24 % 2 = 0 := by
    simp only [pack, List.map_cons, List.map_nil, List.sum_cons, List.sum_nil]; omega
  simp only [decode, hn, k0, k1, hcut, if_true]

theorem decode_wV2 {g op w s d a x : Nat} (hg : g < 16) (hop : op < 32) (hw : w < 4) (hs : s < 4) (hd : d < 32) (ha : a < 32) (hx : x < 32) :
    decode (BitVec.ofNat 32 (pack [(3, 4), (4, g), (1, 1), (5, op), (2, w), (2, s), (5, d), (5, a), (5, x)]))
      = decodeV2 g op w s d a x := by
  have hl : ∀ pr ∈ [(3, 4), (4, g), (1, 1), (5, op), (2, w), (2, s), (5, d), (5, a), (5, x)], pr.2 < 2 ^ pr.1 := by
    simp [hg, hop, hw, hs, hd, ha, hx]
  have hn := word_toNat _ hl rfl
  have hcut := cut_pack _ hl
  simp only [List.map_cons, List.map_nil] at hcut
  have k0 : pack [(3, 4), (4, g), (1, 1), (5, op), (2, w), (2, s), (5, d), (5, a), (5, x)] / 2 ^ 29 = 4 := by
    simp only [pack, List.map_cons, List.map_nil, List.sum_cons, List.sum_nil]; omega
  have k1 : pack [(3, 4), (4, g), (1, 1), (5, op), (2, w), (2, s), (5, d), (5, a), (5, x)] / 2 ^ 24 % 2 = 1 := by
    simp only [pack, List.map_cons, List.map_nil, List.sum_cons, List.sum_nil]; omega
  simp only [decode, hn, k0, k1, hcut, Nat.one_ne_zero, if_false]

theorem decode_w5 {g op d a b s m : Nat} (hg : g < 16) (hop : op < 16) (hd : d < 32) (ha : a < 32) (hb : b < 32) (hs : s < 8) (hm : m < 8) :
    decode (BitVec.ofNat 32 (pack [(3, 5), (4, g), (4, op), (5, d), (5, a), (5, b), (3, s), (3, m)]))
      = decode5 g op d a b s m := by
  have hl : ∀ pr ∈ [(3, 5), (4, g), (4, op), (5, d), (5, a), (5, b), (3, s), (3, m)], pr.2 < 2 ^ pr.1 := by
    simp [hg, hop, hd, ha, hb, hs, hm]
  have hn := word_toNat _ hl rfl
  have hcut := cut_pack _ hl
  simp only [List.map_cons, List.map_nil] at hcut
  have k0 : pack [(3, 5), (4, g), (4, op), (5, d), (5, a), (5, b), (3, s), (3, m)] / 2 ^ 29 = 5 := by
    simp only [pack, List.map_cons, List.map_nil, List.sum_cons, List.sum_nil]; omega
  simp only [decode, hn, k0, hcut]

theorem decode_w6 {g op d a b p m : Nat} (hg : g < 16) (hop : op < 32) (hd : d < 32) (ha : a < 32) (hb : b < 32) (hp : p < 8) (hm : m < 4) :
    decode (BitVec.ofNat 32 (pack [(3, 6), (4, g), (5, op), (5, d), (5, a), (5, b), (3, p), (2, m)]))
      = decode6 g op d a b p m := by
  have hl : ∀ pr ∈ [(3, 6), (4, g), (5, op), (5, d), (5, a), (5, b), (3, p), (2, m)], pr.2 < 2 ^ pr.1 := by
    simp [hg, hop, hd, ha, hb, hp, hm]
  have hn := word_toNat _ hl rfl
  have hcut := cut_pack _ hl
  simp only [List.map_cons, List.map_nil] at hcut
  have k0 : pack [(3, 6), (4, g), (5, op), (5, d), (5, a), (5, b), (3, p), (2, m)] / 2 ^ 29 = 6 := by
    simp only [pack, List.map_cons, List.map_nil, List.sum_cons, List.sum_nil]; omega
  simp only [decode, hn, k0, hcut]

theorem decode_w7 {g op d a low : Nat} (hg : g < 16) (hop : op < 16) (hd : d < 32) (ha : a < 32) (hlow : low < 2048) :
    decode (BitVec.ofNat 32 (pack [(3, 7), (4, g), (4, op), (5, d), (5, a), (11, low)]))
      = decode7 g op d a low := by
  have hl : ∀ pr ∈ [(3, 7), (4, g), (4, op), (5, d), (5, a), (11, low)], pr.2 < 2 ^ pr.1 := by
    simp [hg, hop, hd, ha, hlow]
  have hn := word_toNat _ hl rfl
  have hcut := cut_pack _ hl
  simp only [List.map_cons, List.map_nil] at hcut
  have k0 : pack [(3, 7), (4, g), (4, op), (5, d), (5, a), (11, low)] / 2 ^ 29 = 7 := by
    simp only [pack, List.map_cons, List.map_nil, List.sum_cons, List.sum_nil]; omega
  simp only [decode, hn, k0, hcut]

/-! ## Operand codes -/

theorem Guard.code_lt (g : Guard) : g.code < 16 := by
  have := g.p.isLt; cases h : g.neg <;> simp [Guard.code, h] <;> omega
@[simp] theorem Guard.ofCode_code (g : Guard) : Guard.ofCode g.code = g := by
  obtain ⟨n, p⟩ := g
  have := p.isLt
  cases n <;> simp only [Guard.ofCode, Guard.code, Bool.toNat_false, Bool.toNat_true, Guard.mk.injEq] <;>
    exact ⟨by simp; omega, BitVec.eq_of_toNat_eq (by simp <;> omega)⟩
theorem Reg.code_lt (r : Reg) : r.code < 32 := by
  cases r <;> simp [Reg.code] <;> first | omega | (next d => cases d <;> simp [Dir.code])
@[simp] theorem Reg.ofCode_code (r : Reg) : Reg.ofCode r.code = some r := by
  cases r <;> try rfl
  · next n => have := n.isLt; exact (if_pos (show n.toNat < 16 by omega)).trans (by simp [Reg.code])
  · next d => cases d <;> rfl
theorem Dir.code_lt (d : Dir) : d.code < 32 := by cases d <;> decide
@[simp] theorem Dir.ofCode_code (d : Dir) : Dir.ofCode d.code = some d := by cases d <;> rfl
theorem Size.code_lt (z : Size) : z.code < 4 := by cases z <;> decide
@[simp] theorem Size.ofCode_code (z : Size) : Size.ofCode z.code = some z := by cases z <;> rfl
theorem Scope.code_lt (k : Scope) : k.code < 8 := by cases k <;> decide
@[simp] theorem Scope.ofCode_code (k : Scope) : Scope.ofCode k.code = some k := by cases k <;> rfl
theorem ordBit_lt (q : Option Scope) : ordBit q < 2 := by cases q <;> simp [ordBit]
theorem ordScope_lt (q : Option Scope) : ordScope q < 8 := by
  cases q with
  | none => decide
  | some k => exact Scope.code_lt k
@[simp] theorem ordOf_bits (q : Option Scope) : ordOf (ordBit q) (ordScope q) = some q := by
  cases q with
  | none => rfl
  | some k => cases k <;> rfl
theorem Cond.code_lt (q : Cond) : q.code < 16 := by cases q <;> decide
@[simp] theorem Cond.ofCode_code (q : Cond) : Cond.ofCode q.code = some q := by cases q <;> rfl
theorem CmpType.code_lt (q : CmpType) : q.code < 4 := by cases q <;> decide
@[simp] theorem CmpType.ofCode_code (q : CmpType) : CmpType.ofCode q.code = some q := by cases q <;> rfl
theorem CvtKind.code_lt (q : CvtKind) : q.code < 8 := by cases q <;> decide
@[simp] theorem CvtKind.ofCode_code (q : CvtKind) : CvtKind.ofCode q.code = some q := by cases q <;> rfl
theorem Mode.code_lt (q : Mode) : q.code < 4 := by cases q <;> decide
@[simp] theorem Mode.ofCode_code (q : Mode) : Mode.ofCode q.code = some q := by cases q <;> rfl
theorem WidFmt.code_lt (q : WidFmt) : q.code < 8 := by cases q <;> decide
@[simp] theorem WidFmt.ofCode_code (q : WidFmt) : WidFmt.ofCode q.code = some q := by cases q <;> rfl
theorem VRed.code_lt (q : VRed) : q.code < 32 := by cases q <;> decide
@[simp] theorem VRed.ofCode_code (q : VRed) : VRed.ofCode q.code = some q := by cases q <;> rfl
theorem VAmo.code_lt (q : VAmo) : q.code < 8 := by cases q <;> decide
@[simp] theorem VAmo.ofCode_code (q : VAmo) : VAmo.ofCode q.code = some q := by cases q <;> rfl
theorem Amo.redCode_lt (q : Amo) (h : q ≠ .swap) : q.redCode < 8 := by
  cases q <;> first | decide | exact absurd rfl h
theorem Amo.ofRedCode_code (q : Amo) (h : q ≠ .swap) : Amo.ofRedCode q.redCode = some q := by
  cases q <;> first | rfl | exact absurd rfl h
theorem retReg_code (r : Reg) (h : r.isLink = false) : retReg r.code = some r := by
  simp [retReg, Reg.ofCode_code, h]
theorem predDest_toNat (p : BitVec 3) (h : p ≠ 0) : predDest p.toNat = some p := by
  have h1 := p.isLt
  have h2 : p.toNat ≠ 0 := fun e => h (BitVec.eq_of_toNat_eq (by simpa using e))
  rw [predDest, if_pos (by omega)]; simp
@[simp] theorem low3_toNat (p : BitVec 3) : low3 p.toNat = some p := by
  have h1 := p.isLt
  rw [low3, if_pos (by omega)]; simp
@[simp] theorem bit_toNat (b : Bool) : bit b.toNat = b := by cases b <;> rfl
theorem annul_toNat (p : BitVec 2) (h : p ≠ 3) : annul p.toNat = some p := by
  have h1 := p.isLt
  have h2 : p.toNat ≠ 3 := fun e => h (BitVec.eq_of_toNat_eq (by simpa using e))
  rw [annul, if_pos (by omega)]; simp
theorem selector_toNat (q : BitVec 10) (h : isSelector q = true) : selector q.toNat = some q := by
  simp [selector, h]
@[simp] theorem when_true (i : Option Instr) : when_ true i = i := rfl
theorem toNat_lt_two (b : Bool) : b.toNat < 2 := by cases b <;> decide

/-- The fields that a number is cut into pack to that number (R272). -/
theorem pack_cut (ls : List Nat) (n : Nat) : pack (ls.zip (cut ls n)) = n % 2 ^ ls.sum := by
  induction ls with
  | nil => simp [pack, cut, Nat.mod_one]
  | cons w ws ih =>
    have e : ((ws.zip (cut ws n)).map Prod.fst) = ws := by
      have hl : (cut ws n).length = ws.length := by
        clear ih
        induction ws with
        | nil => rfl
        | cons _ _ ih => simpa [cut] using ih
      exact List.map_fst_zip (by omega)
    simp only [cut, List.zip_cons_cons, pack, ih, e, List.sum_cons, Nat.pow_add]
    rw [Nat.mul_comm (2 ^ w), Nat.mod_mul]
    rw [Nat.mul_comm, Nat.add_comm]

end Sys2Proof
end

