-- ==== Sys2Proof/Laws/PerInstr.lean ====
section
/-! SUPPORT. The per-instruction family `RoundTrip`: the word of a well-formed instruction decodes to that instruction
(R272 to R289). One lemma per constructor; a row without an encoding has no word. -/

set_option linter.unusedSimpArgs false

namespace Sys2Proof.Laws.RoundTrip

set_option Elab.async false

/-- The word that an instruction encodes to, if it has one, decodes to it. -/
def Statement (i : Instr) : Prop := ∀ w : BitVec 32, WellFormed i = true → encode i = some w → decode w = some i

theorem add (g : Guard) (d : Reg) (a : Reg) (b : Reg) : Statement (.add g d a b) := by
  rintro w hw ⟨⟩
  have f0 := Reg.code_lt d
  have f1 := Reg.code_lt a
  have f2 := Reg.code_lt b
  refine (decode_wR (Guard.code_lt g) ?_ ?_ ?_ ?_ ?_).trans ?_ <;>
    first | omega | simp [decode0, dab, da, ppp]
theorem sub (g : Guard) (d : Reg) (a : Reg) (b : Reg) : Statement (.sub g d a b) := by
  rintro w hw ⟨⟩
  have f0 := Reg.code_lt d
  have f1 := Reg.code_lt a
  have f2 := Reg.code_lt b
  refine (decode_wR (Guard.code_lt g) ?_ ?_ ?_ ?_ ?_).trans ?_ <;>
    first | omega | simp [decode0, dab, da, ppp]
theorem mul (g : Guard) (d : Reg) (a : Reg) (b : Reg) : Statement (.mul g d a b) := by
  rintro w hw ⟨⟩
  have f0 := Reg.code_lt d
  have f1 := Reg.code_lt a
  have f2 := Reg.code_lt b
  refine (decode_wR (Guard.code_lt g) ?_ ?_ ?_ ?_ ?_).trans ?_ <;>
    first | omega | simp [decode0, dab, da, ppp]
theorem mulh (g : Guard) (d : Reg) (a : Reg) (b : Reg) : Statement (.mulh g d a b) := by
  rintro w hw ⟨⟩
  have f0 := Reg.code_lt d
  have f1 := Reg.code_lt a
  have f2 := Reg.code_lt b
  refine (decode_wR (Guard.code_lt g) ?_ ?_ ?_ ?_ ?_).trans ?_ <;>
    first | omega | simp [decode0, dab, da, ppp]
theorem mulhu (g : Guard) (d : Reg) (a : Reg) (b : Reg) : Statement (.mulhu g d a b) := by
  rintro w hw ⟨⟩
  have f0 := Reg.code_lt d
  have f1 := Reg.code_lt a
  have f2 := Reg.code_lt b
  refine (decode_wR (Guard.code_lt g) ?_ ?_ ?_ ?_ ?_).trans ?_ <;>
    first | omega | simp [decode0, dab, da, ppp]
theorem div (g : Guard) (d : Reg) (a : Reg) (b : Reg) : Statement (.div g d a b) := by
  rintro w hw ⟨⟩
  have f0 := Reg.code_lt d
  have f1 := Reg.code_lt a
  have f2 := Reg.code_lt b
  refine (decode_wR (Guard.code_lt g) ?_ ?_ ?_ ?_ ?_).trans ?_ <;>
    first | omega | simp [decode0, dab, da, ppp]
theorem divu (g : Guard) (d : Reg) (a : Reg) (b : Reg) : Statement (.divu g d a b) := by
  rintro w hw ⟨⟩
  have f0 := Reg.code_lt d
  have f1 := Reg.code_lt a
  have f2 := Reg.code_lt b
  refine (decode_wR (Guard.code_lt g) ?_ ?_ ?_ ?_ ?_).trans ?_ <;>
    first | omega | simp [decode0, dab, da, ppp]
theorem rem (g : Guard) (d : Reg) (a : Reg) (b : Reg) : Statement (.rem g d a b) := by
  rintro w hw ⟨⟩
  have f0 := Reg.code_lt d
  have f1 := Reg.code_lt a
  have f2 := Reg.code_lt b
  refine (decode_wR (Guard.code_lt g) ?_ ?_ ?_ ?_ ?_).trans ?_ <;>
    first | omega | simp [decode0, dab, da, ppp]
theorem remu (g : Guard) (d : Reg) (a : Reg) (b : Reg) : Statement (.remu g d a b) := by
  rintro w hw ⟨⟩
  have f0 := Reg.code_lt d
  have f1 := Reg.code_lt a
  have f2 := Reg.code_lt b
  refine (decode_wR (Guard.code_lt g) ?_ ?_ ?_ ?_ ?_).trans ?_ <;>
    first | omega | simp [decode0, dab, da, ppp]
theorem and (g : Guard) (d : Reg) (a : Reg) (b : Reg) : Statement (.and g d a b) := by
  rintro w hw ⟨⟩
  have f0 := Reg.code_lt d
  have f1 := Reg.code_lt a
  have f2 := Reg.code_lt b
  refine (decode_wR (Guard.code_lt g) ?_ ?_ ?_ ?_ ?_).trans ?_ <;>
    first | omega | simp [decode0, dab, da, ppp]
theorem or (g : Guard) (d : Reg) (a : Reg) (b : Reg) : Statement (.or g d a b) := by
  rintro w hw ⟨⟩
  have f0 := Reg.code_lt d
  have f1 := Reg.code_lt a
  have f2 := Reg.code_lt b
  refine (decode_wR (Guard.code_lt g) ?_ ?_ ?_ ?_ ?_).trans ?_ <;>
    first | omega | simp [decode0, dab, da, ppp]
theorem xor (g : Guard) (d : Reg) (a : Reg) (b : Reg) : Statement (.xor g d a b) := by
  rintro w hw ⟨⟩
  have f0 := Reg.code_lt d
  have f1 := Reg.code_lt a
  have f2 := Reg.code_lt b
  refine (decode_wR (Guard.code_lt g) ?_ ?_ ?_ ?_ ?_).trans ?_ <;>
    first | omega | simp [decode0, dab, da, ppp]
theorem andn (g : Guard) (d : Reg) (a : Reg) (b : Reg) : Statement (.andn g d a b) := by
  rintro w hw ⟨⟩
  have f0 := Reg.code_lt d
  have f1 := Reg.code_lt a
  have f2 := Reg.code_lt b
  refine (decode_wR (Guard.code_lt g) ?_ ?_ ?_ ?_ ?_).trans ?_ <;>
    first | omega | simp [decode0, dab, da, ppp]
theorem shl (g : Guard) (d : Reg) (a : Reg) (b : Reg) : Statement (.shl g d a b) := by
  rintro w hw ⟨⟩
  have f0 := Reg.code_lt d
  have f1 := Reg.code_lt a
  have f2 := Reg.code_lt b
  refine (decode_wR (Guard.code_lt g) ?_ ?_ ?_ ?_ ?_).trans ?_ <;>
    first | omega | simp [decode0, dab, da, ppp]
theorem shr (g : Guard) (d : Reg) (a : Reg) (b : Reg) : Statement (.shr g d a b) := by
  rintro w hw ⟨⟩
  have f0 := Reg.code_lt d
  have f1 := Reg.code_lt a
  have f2 := Reg.code_lt b
  refine (decode_wR (Guard.code_lt g) ?_ ?_ ?_ ?_ ?_).trans ?_ <;>
    first | omega | simp [decode0, dab, da, ppp]
theorem sar (g : Guard) (d : Reg) (a : Reg) (b : Reg) : Statement (.sar g d a b) := by
  rintro w hw ⟨⟩
  have f0 := Reg.code_lt d
  have f1 := Reg.code_lt a
  have f2 := Reg.code_lt b
  refine (decode_wR (Guard.code_lt g) ?_ ?_ ?_ ?_ ?_).trans ?_ <;>
    first | omega | simp [decode0, dab, da, ppp]
theorem rol (g : Guard) (d : Reg) (a : Reg) (b : Reg) : Statement (.rol g d a b) := by
  rintro w hw ⟨⟩
  have f0 := Reg.code_lt d
  have f1 := Reg.code_lt a
  have f2 := Reg.code_lt b
  refine (decode_wR (Guard.code_lt g) ?_ ?_ ?_ ?_ ?_).trans ?_ <;>
    first | omega | simp [decode0, dab, da, ppp]
theorem ror (g : Guard) (d : Reg) (a : Reg) (b : Reg) : Statement (.ror g d a b) := by
  rintro w hw ⟨⟩
  have f0 := Reg.code_lt d
  have f1 := Reg.code_lt a
  have f2 := Reg.code_lt b
  refine (decode_wR (Guard.code_lt g) ?_ ?_ ?_ ?_ ?_).trans ?_ <;>
    first | omega | simp [decode0, dab, da, ppp]
theorem min (g : Guard) (d : Reg) (a : Reg) (b : Reg) : Statement (.min g d a b) := by
  rintro w hw ⟨⟩
  have f0 := Reg.code_lt d
  have f1 := Reg.code_lt a
  have f2 := Reg.code_lt b
  refine (decode_wR (Guard.code_lt g) ?_ ?_ ?_ ?_ ?_).trans ?_ <;>
    first | omega | simp [decode0, dab, da, ppp]
theorem max (g : Guard) (d : Reg) (a : Reg) (b : Reg) : Statement (.max g d a b) := by
  rintro w hw ⟨⟩
  have f0 := Reg.code_lt d
  have f1 := Reg.code_lt a
  have f2 := Reg.code_lt b
  refine (decode_wR (Guard.code_lt g) ?_ ?_ ?_ ?_ ?_).trans ?_ <;>
    first | omega | simp [decode0, dab, da, ppp]
theorem minu (g : Guard) (d : Reg) (a : Reg) (b : Reg) : Statement (.minu g d a b) := by
  rintro w hw ⟨⟩
  have f0 := Reg.code_lt d
  have f1 := Reg.code_lt a
  have f2 := Reg.code_lt b
  refine (decode_wR (Guard.code_lt g) ?_ ?_ ?_ ?_ ?_).trans ?_ <;>
    first | omega | simp [decode0, dab, da, ppp]
theorem maxu (g : Guard) (d : Reg) (a : Reg) (b : Reg) : Statement (.maxu g d a b) := by
  rintro w hw ⟨⟩
  have f0 := Reg.code_lt d
  have f1 := Reg.code_lt a
  have f2 := Reg.code_lt b
  refine (decode_wR (Guard.code_lt g) ?_ ?_ ?_ ?_ ?_).trans ?_ <;>
    first | omega | simp [decode0, dab, da, ppp]
theorem popc (g : Guard) (d : Reg) (a : Reg) : Statement (.popc g d a) := by
  rintro w hw ⟨⟩
  have f0 := Reg.code_lt d
  have f1 := Reg.code_lt a
  refine (decode_wR (Guard.code_lt g) ?_ ?_ ?_ ?_ ?_).trans ?_ <;>
    first | omega | simp [decode0, dab, da, ppp]
theorem clz (g : Guard) (d : Reg) (a : Reg) : Statement (.clz g d a) := by
  rintro w hw ⟨⟩
  have f0 := Reg.code_lt d
  have f1 := Reg.code_lt a
  refine (decode_wR (Guard.code_lt g) ?_ ?_ ?_ ?_ ?_).trans ?_ <;>
    first | omega | simp [decode0, dab, da, ppp]
theorem ctz (g : Guard) (d : Reg) (a : Reg) : Statement (.ctz g d a) := by
  rintro w hw ⟨⟩
  have f0 := Reg.code_lt d
  have f1 := Reg.code_lt a
  refine (decode_wR (Guard.code_lt g) ?_ ?_ ?_ ?_ ?_).trans ?_ <;>
    first | omega | simp [decode0, dab, da, ppp]
theorem sext8 (g : Guard) (d : Reg) (a : Reg) : Statement (.sext8 g d a) := by
  rintro w hw ⟨⟩
  have f0 := Reg.code_lt d
  have f1 := Reg.code_lt a
  refine (decode_wR (Guard.code_lt g) ?_ ?_ ?_ ?_ ?_).trans ?_ <;>
    first | omega | simp [decode0, dab, da, ppp]
theorem sext16 (g : Guard) (d : Reg) (a : Reg) : Statement (.sext16 g d a) := by
  rintro w hw ⟨⟩
  have f0 := Reg.code_lt d
  have f1 := Reg.code_lt a
  refine (decode_wR (Guard.code_lt g) ?_ ?_ ?_ ?_ ?_).trans ?_ <;>
    first | omega | simp [decode0, dab, da, ppp]
theorem sext32 (g : Guard) (d : Reg) (a : Reg) : Statement (.sext32 g d a) := by
  rintro w hw ⟨⟩
  have f0 := Reg.code_lt d
  have f1 := Reg.code_lt a
  refine (decode_wR (Guard.code_lt g) ?_ ?_ ?_ ?_ ?_).trans ?_ <;>
    first | omega | simp [decode0, dab, da, ppp]
theorem zext8 (g : Guard) (d : Reg) (a : Reg) : Statement (.zext8 g d a) := by
  rintro w hw ⟨⟩
  have f0 := Reg.code_lt d
  have f1 := Reg.code_lt a
  refine (decode_wR (Guard.code_lt g) ?_ ?_ ?_ ?_ ?_).trans ?_ <;>
    first | omega | simp [decode0, dab, da, ppp]
theorem zext16 (g : Guard) (d : Reg) (a : Reg) : Statement (.zext16 g d a) := by
  rintro w hw ⟨⟩
  have f0 := Reg.code_lt d
  have f1 := Reg.code_lt a
  refine (decode_wR (Guard.code_lt g) ?_ ?_ ?_ ?_ ?_).trans ?_ <;>
    first | omega | simp [decode0, dab, da, ppp]
theorem zext32 (g : Guard) (d : Reg) (a : Reg) : Statement (.zext32 g d a) := by
  rintro w hw ⟨⟩
  have f0 := Reg.code_lt d
  have f1 := Reg.code_lt a
  refine (decode_wR (Guard.code_lt g) ?_ ?_ ?_ ?_ ?_).trans ?_ <;>
    first | omega | simp [decode0, dab, da, ppp]
theorem bfx (g : Guard) (d : Reg) (a : Reg) (b : Reg) : Statement (.bfx g d a b) := by
  rintro w hw ⟨⟩
  have f0 := Reg.code_lt d
  have f1 := Reg.code_lt a
  have f2 := Reg.code_lt b
  refine (decode_wR (Guard.code_lt g) ?_ ?_ ?_ ?_ ?_).trans ?_ <;>
    first | omega | simp [decode0, dab, da, ppp]
theorem bfxu (g : Guard) (d : Reg) (a : Reg) (b : Reg) : Statement (.bfxu g d a b) := by
  rintro w hw ⟨⟩
  have f0 := Reg.code_lt d
  have f1 := Reg.code_lt a
  have f2 := Reg.code_lt b
  refine (decode_wR (Guard.code_lt g) ?_ ?_ ?_ ?_ ?_).trans ?_ <;>
    first | omega | simp [decode0, dab, da, ppp]
theorem bfi (g : Guard) (d : Reg) (a : Reg) (b : Reg) : Statement (.bfi g d a b) := by
  rintro w hw ⟨⟩
  have f0 := Reg.code_lt d
  have f1 := Reg.code_lt a
  have f2 := Reg.code_lt b
  refine (decode_wR (Guard.code_lt g) ?_ ?_ ?_ ?_ ?_).trans ?_ <;>
    first | omega | simp [decode0, dab, da, ppp]
theorem lea (g : Guard) (d : Reg) (a : Reg) (b : Reg) (s : BitVec 4) : Statement (.lea g d a b s) := by
  rintro w hw ⟨⟩
  have f0 := Reg.code_lt d
  have f1 := Reg.code_lt a
  have f2 := Reg.code_lt b
  have f3 := s.isLt
  refine (decode_wR (Guard.code_lt g) ?_ ?_ ?_ ?_ ?_).trans ?_ <;>
    first | omega | simp [decode0, dab, da, ppp]
theorem cmp (g : Guard) (p : BitVec 3) (a : Reg) (b : Reg) (c : Cond) : Statement (.cmp g p a b c) := by
  rintro w hw ⟨⟩
  have f0 := p.isLt
  have f1 := Reg.code_lt a
  have f2 := Reg.code_lt b
  have f3 := Cond.code_lt c
  have e0 := predDest_toNat p (by simpa [WellFormed] using hw)
  refine (decode_wR (Guard.code_lt g) ?_ ?_ ?_ ?_ ?_).trans ?_ <;>
    first | omega | simp [decode0, dab, da, ppp, e0]
theorem sel (g : Guard) (d : Reg) (a : Reg) (b : Reg) (neg : Bool) (q : BitVec 3) : Statement (.sel g d a b neg q) := by
  rintro w hw ⟨⟩
  have f0 := Reg.code_lt d
  have f1 := Reg.code_lt a
  have f2 := Reg.code_lt b
  have f3 := toNat_lt_two neg
  have f4 := q.isLt
  have e0 : (neg.toNat * 8 + q.toNat) / 8 = neg.toNat := by omega
  have e1 : BitVec.ofNat 3 (neg.toNat * 8 + q.toNat) = q := BitVec.eq_of_toNat_eq (by simp only [BitVec.toNat_ofNat]; omega)
  refine (decode_wR (Guard.code_lt g) ?_ ?_ ?_ ?_ ?_).trans ?_ <;>
    first | omega | simp [decode0, dab, da, ppp, e0, e1]
theorem pand (g : Guard) (p : BitVec 3) (a : BitVec 3) (b : BitVec 3) : Statement (.pand g p a b) := by
  rintro w hw ⟨⟩
  have f0 := p.isLt
  have f1 := a.isLt
  have f2 := b.isLt
  have e0 := predDest_toNat p (by simpa [WellFormed] using hw)
  refine (decode_wR (Guard.code_lt g) ?_ ?_ ?_ ?_ ?_).trans ?_ <;>
    first | omega | simp [decode0, dab, da, ppp, e0]
theorem por (g : Guard) (p : BitVec 3) (a : BitVec 3) (b : BitVec 3) : Statement (.por g p a b) := by
  rintro w hw ⟨⟩
  have f0 := p.isLt
  have f1 := a.isLt
  have f2 := b.isLt
  have e0 := predDest_toNat p (by simpa [WellFormed] using hw)
  refine (decode_wR (Guard.code_lt g) ?_ ?_ ?_ ?_ ?_).trans ?_ <;>
    first | omega | simp [decode0, dab, da, ppp, e0]
theorem pxor (g : Guard) (p : BitVec 3) (a : BitVec 3) (b : BitVec 3) : Statement (.pxor g p a b) := by
  rintro w hw ⟨⟩
  have f0 := p.isLt
  have f1 := a.isLt
  have f2 := b.isLt
  have e0 := predDest_toNat p (by simpa [WellFormed] using hw)
  refine (decode_wR (Guard.code_lt g) ?_ ?_ ?_ ?_ ?_).trans ?_ <;>
    first | omega | simp [decode0, dab, da, ppp, e0]
theorem pandn (g : Guard) (p : BitVec 3) (a : BitVec 3) (b : BitVec 3) : Statement (.pandn g p a b) := by
  rintro w hw ⟨⟩
  have f0 := p.isLt
  have f1 := a.isLt
  have f2 := b.isLt
  have e0 := predDest_toNat p (by simpa [WellFormed] using hw)
  refine (decode_wR (Guard.code_lt g) ?_ ?_ ?_ ?_ ?_).trans ?_ <;>
    first | omega | simp [decode0, dab, da, ppp, e0]
theorem mov (g : Guard) (d : Reg) (a : Reg) : Statement (.mov g d a) := by
  rintro w hw ⟨⟩
  have f0 := Reg.code_lt d
  have f1 := Reg.code_lt a
  refine (decode_wR (Guard.code_lt g) ?_ ?_ ?_ ?_ ?_).trans ?_ <;>
    first | omega | simp [decode0, dab, da, ppp]
theorem addImm (g : Guard) (d : Reg) (a : Reg) (i : BitVec 11) : Statement (.addImm g d a i) := by
  rintro w hw ⟨⟩
  have f0 := Reg.code_lt d
  have f1 := Reg.code_lt a
  have f2 := i.isLt
  refine (decode_wI (Guard.code_lt g) ?_ ?_ ?_ ?_).trans ?_ <;>
    first | omega | simp [decode1, da]
theorem subImm (g : Guard) (d : Reg) (a : Reg) (i : BitVec 11) : Statement (.subImm g d a i) := by
  rintro w hw ⟨⟩
  have f0 := Reg.code_lt d
  have f1 := Reg.code_lt a
  have f2 := i.isLt
  refine (decode_wI (Guard.code_lt g) ?_ ?_ ?_ ?_).trans ?_ <;>
    first | omega | simp [decode1, da]
theorem andImm (g : Guard) (d : Reg) (a : Reg) (i : BitVec 11) : Statement (.andImm g d a i) := by
  rintro w hw ⟨⟩
  have f0 := Reg.code_lt d
  have f1 := Reg.code_lt a
  have f2 := i.isLt
  refine (decode_wI (Guard.code_lt g) ?_ ?_ ?_ ?_).trans ?_ <;>
    first | omega | simp [decode1, da]
theorem orImm (g : Guard) (d : Reg) (a : Reg) (i : BitVec 11) : Statement (.orImm g d a i) := by
  rintro w hw ⟨⟩
  have f0 := Reg.code_lt d
  have f1 := Reg.code_lt a
  have f2 := i.isLt
  refine (decode_wI (Guard.code_lt g) ?_ ?_ ?_ ?_).trans ?_ <;>
    first | omega | simp [decode1, da]
theorem xorImm (g : Guard) (d : Reg) (a : Reg) (i : BitVec 11) : Statement (.xorImm g d a i) := by
  rintro w hw ⟨⟩
  have f0 := Reg.code_lt d
  have f1 := Reg.code_lt a
  have f2 := i.isLt
  refine (decode_wI (Guard.code_lt g) ?_ ?_ ?_ ?_).trans ?_ <;>
    first | omega | simp [decode1, da]
theorem shlImm (g : Guard) (d : Reg) (a : Reg) (i : BitVec 6) : Statement (.shlImm g d a i) := by
  rintro w hw ⟨⟩
  have f0 := Reg.code_lt d
  have f1 := Reg.code_lt a
  have f2 := i.isLt
  have e0 : i.toNat / 64 = 0 := by omega
  refine (decode_wI (Guard.code_lt g) ?_ ?_ ?_ ?_).trans ?_ <;>
    first | omega | simp [decode1, da, e0]
theorem shrImm (g : Guard) (d : Reg) (a : Reg) (i : BitVec 6) : Statement (.shrImm g d a i) := by
  rintro w hw ⟨⟩
  have f0 := Reg.code_lt d
  have f1 := Reg.code_lt a
  have f2 := i.isLt
  have e0 : i.toNat / 64 = 0 := by omega
  refine (decode_wI (Guard.code_lt g) ?_ ?_ ?_ ?_).trans ?_ <;>
    first | omega | simp [decode1, da, e0]
theorem sarImm (g : Guard) (d : Reg) (a : Reg) (i : BitVec 6) : Statement (.sarImm g d a i) := by
  rintro w hw ⟨⟩
  have f0 := Reg.code_lt d
  have f1 := Reg.code_lt a
  have f2 := i.isLt
  have e0 : i.toNat / 64 = 0 := by omega
  refine (decode_wI (Guard.code_lt g) ?_ ?_ ?_ ?_).trans ?_ <;>
    first | omega | simp [decode1, da, e0]
theorem cmpImm (g : Guard) (p : BitVec 3) (c : BitVec 3) (a : Reg) (i : BitVec 12) : Statement (.cmpImm g p c a i) := by
  rintro w hw ⟨⟩
  have f0 := p.isLt
  have f1 := c.isLt
  have f2 := Reg.code_lt a
  have f3 := i.isLt
  have e0 := predDest_toNat p (by simpa [WellFormed] using hw)
  refine (decode_cmpImm (Guard.code_lt g) ?_ ?_ ?_ ?_).trans ?_ <;>
    first | omega | simp [e0]
theorem movi (g : Guard) (d : Reg) (s : BitVec 2) (i : BitVec 16) : Statement (.movi g d s i) := by
  rintro w hw ⟨⟩
  have f0 := Reg.code_lt d
  have f1 := s.isLt
  have f2 := i.isLt
  refine (decode_movi (Guard.code_lt g) ?_ ?_ ?_).trans ?_ <;>
    first | omega | simp []
theorem br (g : Guard) (an : BitVec 2) (i : BitVec 19) : Statement (.br g an i) := by
  rintro w hw ⟨⟩
  have f0 := an.isLt
  have f1 := i.isLt
  have e0 := annul_toNat an (by simpa [WellFormed] using hw)
  refine (decode_br (Guard.code_lt g) ?_ ?_).trans ?_ <;>
    first | omega | simp [e0]
theorem call (g : Guard) (an : BitVec 2) (i : BitVec 19) : Statement (.call g an i) := by
  rintro w hw ⟨⟩
  have f0 := an.isLt
  have f1 := i.isLt
  have e0 := annul_toNat an (by simpa [WellFormed] using hw)
  refine (decode_call (Guard.code_lt g) ?_ ?_).trans ?_ <;>
    first | omega | simp [e0]
theorem jr (g : Guard) (an : BitVec 2) (a : Reg) : Statement (.jr g an a) := by
  rintro w hw ⟨⟩
  have f0 := an.isLt
  have f1 := Reg.code_lt a
  have e0 := annul_toNat an (by simpa [WellFormed] using hw)
  refine (decode_jr (Guard.code_lt g) ?_ ?_).trans ?_ <;>
    first | omega | simp [e0]
theorem ret (g : Guard) (an : BitVec 2) : Statement (.ret g an) := by
  rintro w hw ⟨⟩
  have f0 := an.isLt
  have e0 := annul_toNat an (by simpa [WellFormed] using hw)
  refine (decode_ret (Guard.code_lt g) ?_).trans ?_ <;>
    first | omega | simp [e0]
theorem fork (g : Guard) (c : Reg) (i : BitVec 16) : Statement (.fork g c i) := by
  rintro w hw ⟨⟩
  have f0 := Reg.code_lt c
  have f1 := i.isLt
  refine (decode_fork (Guard.code_lt g) ?_ ?_).trans ?_ <;>
    first | omega | simp []
theorem join (g : Guard) (k : Bool) (c : Reg) (t : Reg) (a : Reg) : Statement (.join g k c t a) := by
  rintro w hw ⟨⟩
  have f0 := toNat_lt_two k
  have f1 := Reg.code_lt c
  have f2 := Reg.code_lt t
  have f3 := Reg.code_lt a
  refine (decode_wW (Guard.code_lt g) ?_ ?_ ?_ ?_ ?_ ?_ ?_).trans ?_ <;>
    first | omega | simp [decode2, one, da]
theorem spawn (g : Guard) (a : Reg) : Statement (.spawn g a) := by
  rintro w hw ⟨⟩
  have f0 := Reg.code_lt a
  refine (decode_wW (Guard.code_lt g) ?_ ?_ ?_ ?_ ?_ ?_ ?_).trans ?_ <;>
    first | omega | simp [decode2, one, da]
theorem wtab (g : Guard) (k : Bool) (d : Reg) (c : Reg) (t : Reg) (a : Reg) : Statement (.wtab g k d c t a) := by
  rintro w hw ⟨⟩
  have f0 := toNat_lt_two k
  have f1 := Reg.code_lt d
  have f2 := Reg.code_lt c
  have f3 := Reg.code_lt t
  have f4 := Reg.code_lt a
  refine (decode_wW (Guard.code_lt g) ?_ ?_ ?_ ?_ ?_ ?_ ?_).trans ?_ <;>
    first | omega | simp [decode2, one, da]
theorem wclr (g : Guard) (d : Reg) (a : Reg) : Statement (.wclr g d a) := by
  rintro w hw ⟨⟩
  have f0 := Reg.code_lt d
  have f1 := Reg.code_lt a
  refine (decode_wW (Guard.code_lt g) ?_ ?_ ?_ ?_ ?_ ?_ ?_).trans ?_ <;>
    first | omega | simp [decode2, one, da]
theorem yield (g : Guard) : Statement (.yield g) := by
  intro w hw h
  simp only [encode, wW, word, Option.some.injEq] at h
  subst h
  refine (decode_wW (Guard.code_lt g) ?_ ?_ ?_ ?_ ?_ ?_ ?_).trans ?_ <;>
    first | omega | simp [decode2, one, da]
theorem wait (g : Guard) (c : Reg) (t : Reg) : Statement (.wait g c t) := by
  rintro w hw ⟨⟩
  have f0 := Reg.code_lt c
  have f1 := Reg.code_lt t
  refine (decode_wW (Guard.code_lt g) ?_ ?_ ?_ ?_ ?_ ?_ ?_).trans ?_ <;>
    first | omega | simp [decode2, one, da]
theorem go (g : Guard) (a : Reg) : Statement (.go g a) := by
  rintro w hw ⟨⟩
  have f0 := Reg.code_lt a
  refine (decode_wW (Guard.code_lt g) ?_ ?_ ?_ ?_ ?_ ?_ ?_).trans ?_ <;>
    first | omega | simp [decode2, one, da]
theorem tail (g : Guard) : Statement (.tail g) := by
  intro w hw h
  simp only [encode, wW, word, Option.some.injEq] at h
  subst h
  refine (decode_wW (Guard.code_lt g) ?_ ?_ ?_ ?_ ?_ ?_ ?_).trans ?_ <;>
    first | omega | simp [decode2, one, da]
theorem endThread (g : Guard) : Statement (.endThread g) := by
  intro w hw h
  simp only [encode, wW, word, Option.some.injEq] at h
  subst h
  refine (decode_wW (Guard.code_lt g) ?_ ?_ ?_ ?_ ?_ ?_ ?_).trans ?_ <;>
    first | omega | simp [decode2, one, da]
theorem ld (g : Guard) (z : Size) (d : Reg) (a : Reg) (o : BitVec 10) : Statement (.ld g z d a o) := by
  rintro w hw ⟨⟩
  have f0 := Size.code_lt z
  have f1 := Reg.code_lt d
  have f2 := Reg.code_lt a
  have f3 := o.isLt
  refine (decode_ld (Guard.code_lt g) ?_ ?_ ?_ ?_).trans ?_ <;>
    first | omega | simp [fmtL]
theorem lds (g : Guard) (z : Size) (d : Reg) (a : Reg) (o : BitVec 10) : Statement (.lds g z d a o) := by
  rintro w hw ⟨⟩
  have f0 := Size.code_lt z
  have f1 := Reg.code_lt d
  have f2 := Reg.code_lt a
  have f3 := o.isLt
  have g0 : (z.code != 3) = true := by cases z <;> first | decide | cases hw
  refine (decode_lds (Guard.code_lt g) ?_ ?_ ?_ ?_).trans ?_ <;>
    first | omega | simp [fmtL, g0]
theorem st (g : Guard) (z : Size) (d : Reg) (a : Reg) (o : BitVec 10) : Statement (.st g z d a o) := by
  rintro w hw ⟨⟩
  have f0 := Size.code_lt z
  have f1 := Reg.code_lt d
  have f2 := Reg.code_lt a
  have f3 := o.isLt
  refine (decode_st (Guard.code_lt g) ?_ ?_ ?_ ?_).trans ?_ <;>
    first | omega | simp [fmtL]
theorem gld (g : Guard) (z : Size) (d : Reg) (a : Reg) (q : Option Scope) (o : BitVec 6) : Statement (.gld g z d a q o) := by
  rintro w hw ⟨⟩
  have f0 := Size.code_lt z
  have f1 := Reg.code_lt d
  have f2 := Reg.code_lt a
  have f3 := ordBit_lt q
  have f4 := ordScope_lt q
  have f5 := o.isLt
  have e0 := retReg_code d (by simpa [WellFormed] using hw)
  refine (decode_gld (Guard.code_lt g) ?_ ?_ ?_ ?_ ?_ ?_).trans ?_ <;>
    first | omega | simp [e0]
theorem gst (g : Guard) (z : Size) (d : Reg) (a : Reg) (q : Option Scope) (o : BitVec 6) : Statement (.gst g z d a q o) := by
  rintro w hw ⟨⟩
  have f0 := Size.code_lt z
  have f1 := Reg.code_lt d
  have f2 := Reg.code_lt a
  have f3 := ordBit_lt q
  have f4 := ordScope_lt q
  have f5 := o.isLt
  refine (decode_gst (Guard.code_lt g) ?_ ?_ ?_ ?_ ?_ ?_).trans ?_ <;>
    first | omega | simp []
theorem tlk (g : Guard) (d : Reg) (a : Reg) : Statement (.tlk g d a) := by
  rintro w hw ⟨⟩
  have f0 := Reg.code_lt d
  have f1 := Reg.code_lt a
  refine (decode_wM (Guard.code_lt g) ?_ ?_ ?_ ?_ ?_).trans ?_ <;>
    first | omega | simp [decode3, dab, da, one]
theorem tins (g : Guard) (a : Reg) (b : Reg) : Statement (.tins g a b) := by
  rintro w hw ⟨⟩
  have f0 := Reg.code_lt a
  have f1 := Reg.code_lt b
  refine (decode_wM (Guard.code_lt g) ?_ ?_ ?_ ?_ ?_).trans ?_ <;>
    first | omega | simp [decode3, dab, da, one]
theorem tinv (g : Guard) (a : Reg) : Statement (.tinv g a) := by
  rintro w hw ⟨⟩
  have f0 := Reg.code_lt a
  refine (decode_wM (Guard.code_lt g) ?_ ?_ ?_ ?_ ?_).trans ?_ <;>
    first | omega | simp [decode3, dab, da, one]
theorem tinvAll (g : Guard) : Statement (.tinvAll g) := by
  intro w hw h
  simp only [encode, wM, word, Option.some.injEq] at h
  subst h
  refine (decode_wM (Guard.code_lt g) ?_ ?_ ?_ ?_ ?_).trans ?_ <;>
    first | omega | simp [decode3, dab, da, one]
theorem fence (g : Guard) (k : Scope) : Statement (.fence g k) := by
  rintro w hw ⟨⟩
  have f0 := Scope.code_lt k
  refine (decode_wM (Guard.code_lt g) ?_ ?_ ?_ ?_ ?_).trans ?_ <;>
    first | omega | simp [decode3, dab, da, one]
theorem fenceRel (g : Guard) (k : Scope) : Statement (.fenceRel g k) := by
  rintro w hw ⟨⟩
  have f0 := Scope.code_lt k
  refine (decode_wM (Guard.code_lt g) ?_ ?_ ?_ ?_ ?_).trans ?_ <;>
    first | omega | simp [decode3, dab, da, one]
theorem fenceAcq (g : Guard) (k : Scope) : Statement (.fenceAcq g k) := by
  rintro w hw ⟨⟩
  have f0 := Scope.code_lt k
  refine (decode_wM (Guard.code_lt g) ?_ ?_ ?_ ?_ ?_).trans ?_ <;>
    first | omega | simp [decode3, dab, da, one]
theorem cas (g : Guard) (d : Reg) (a : Reg) (b : Reg) (z : Bool) : Statement (.cas g d a b z) := by
  rintro w hw ⟨⟩
  have f0 := Reg.code_lt d
  have f1 := Reg.code_lt a
  have f2 := Reg.code_lt b
  have f3 := toNat_lt_two z
  have e0 : z.toNat / 2 = 0 := by omega
  refine (decode_wM (Guard.code_lt g) ?_ ?_ ?_ ?_ ?_).trans ?_ <;>
    first | omega | simp [decode3, dab, da, one, e0]
theorem qwait (g : Guard) (d : Reg) (q : BitVec 3) : Statement (.qwait g d q) := by
  rintro w hw ⟨⟩
  have f0 := Reg.code_lt d
  have f1 := q.isLt
  refine (decode_wM (Guard.code_lt g) ?_ ?_ ?_ ?_ ?_).trans ?_ <;>
    first | omega | simp [decode3, dab, da, one]
theorem qroom (g : Guard) (d : Reg) (q : BitVec 3) : Statement (.qroom g d q) := by
  rintro w hw ⟨⟩
  have f0 := Reg.code_lt d
  have f1 := q.isLt
  refine (decode_wM (Guard.code_lt g) ?_ ?_ ?_ ?_ ?_).trans ?_ <;>
    first | omega | simp [decode3, dab, da, one]
theorem qadvP (g : Guard) (q : BitVec 3) : Statement (.qadvP g q) := by
  rintro w hw ⟨⟩
  have f0 := q.isLt
  refine (decode_wM (Guard.code_lt g) ?_ ?_ ?_ ?_ ?_).trans ?_ <;>
    first | omega | simp [decode3, dab, da, one]
theorem qadvC (g : Guard) (q : BitVec 3) : Statement (.qadvC g q) := by
  rintro w hw ⟨⟩
  have f0 := q.isLt
  refine (decode_wM (Guard.code_lt g) ?_ ?_ ?_ ?_ ?_).trans ?_ <;>
    first | omega | simp [decode3, dab, da, one]
theorem qset (g : Guard) (a : Reg) (q : BitVec 3) : Statement (.qset g a q) := by
  rintro w hw ⟨⟩
  have f0 := Reg.code_lt a
  have f1 := q.isLt
  refine (decode_wM (Guard.code_lt g) ?_ ?_ ?_ ?_ ?_).trans ?_ <;>
    first | omega | simp [decode3, dab, da, one]
theorem qpos (g : Guard) (d : Reg) (q : BitVec 3) : Statement (.qpos g d q) := by
  rintro w hw ⟨⟩
  have f0 := Reg.code_lt d
  have f1 := q.isLt
  refine (decode_wM (Guard.code_lt g) ?_ ?_ ?_ ?_ ?_).trans ?_ <;>
    first | omega | simp [decode3, dab, da, one]
theorem amoAdd (g : Guard) (d : Reg) (a : Reg) (b : Reg) (z : Bool) : Statement (.amoAdd g d a b z) := by
  rintro w hw ⟨⟩
  have f0 := Reg.code_lt d
  have f1 := Reg.code_lt a
  have f2 := Reg.code_lt b
  have f3 := toNat_lt_two z
  have e0 : z.toNat / 2 = 0 := by omega
  refine (decode_wM (Guard.code_lt g) ?_ ?_ ?_ ?_ ?_).trans ?_ <;>
    first | omega | simp [decode3, dab, da, one, e0]
theorem amoAnd (g : Guard) (d : Reg) (a : Reg) (b : Reg) (z : Bool) : Statement (.amoAnd g d a b z) := by
  rintro w hw ⟨⟩
  have f0 := Reg.code_lt d
  have f1 := Reg.code_lt a
  have f2 := Reg.code_lt b
  have f3 := toNat_lt_two z
  have e0 : z.toNat / 2 = 0 := by omega
  refine (decode_wM (Guard.code_lt g) ?_ ?_ ?_ ?_ ?_).trans ?_ <;>
    first | omega | simp [decode3, dab, da, one, e0]
theorem amoOr (g : Guard) (d : Reg) (a : Reg) (b : Reg) (z : Bool) : Statement (.amoOr g d a b z) := by
  rintro w hw ⟨⟩
  have f0 := Reg.code_lt d
  have f1 := Reg.code_lt a
  have f2 := Reg.code_lt b
  have f3 := toNat_lt_two z
  have e0 : z.toNat / 2 = 0 := by omega
  refine (decode_wM (Guard.code_lt g) ?_ ?_ ?_ ?_ ?_).trans ?_ <;>
    first | omega | simp [decode3, dab, da, one, e0]
theorem amoXor (g : Guard) (d : Reg) (a : Reg) (b : Reg) (z : Bool) : Statement (.amoXor g d a b z) := by
  rintro w hw ⟨⟩
  have f0 := Reg.code_lt d
  have f1 := Reg.code_lt a
  have f2 := Reg.code_lt b
  have f3 := toNat_lt_two z
  have e0 : z.toNat / 2 = 0 := by omega
  refine (decode_wM (Guard.code_lt g) ?_ ?_ ?_ ?_ ?_).trans ?_ <;>
    first | omega | simp [decode3, dab, da, one, e0]
theorem amoMin (g : Guard) (d : Reg) (a : Reg) (b : Reg) (z : Bool) : Statement (.amoMin g d a b z) := by
  rintro w hw ⟨⟩
  have f0 := Reg.code_lt d
  have f1 := Reg.code_lt a
  have f2 := Reg.code_lt b
  have f3 := toNat_lt_two z
  have e0 : z.toNat / 2 = 0 := by omega
  refine (decode_wM (Guard.code_lt g) ?_ ?_ ?_ ?_ ?_).trans ?_ <;>
    first | omega | simp [decode3, dab, da, one, e0]
theorem amoMax (g : Guard) (d : Reg) (a : Reg) (b : Reg) (z : Bool) : Statement (.amoMax g d a b z) := by
  rintro w hw ⟨⟩
  have f0 := Reg.code_lt d
  have f1 := Reg.code_lt a
  have f2 := Reg.code_lt b
  have f3 := toNat_lt_two z
  have e0 : z.toNat / 2 = 0 := by omega
  refine (decode_wM (Guard.code_lt g) ?_ ?_ ?_ ?_ ?_).trans ?_ <;>
    first | omega | simp [decode3, dab, da, one, e0]
theorem amoMinu (g : Guard) (d : Reg) (a : Reg) (b : Reg) (z : Bool) : Statement (.amoMinu g d a b z) := by
  rintro w hw ⟨⟩
  have f0 := Reg.code_lt d
  have f1 := Reg.code_lt a
  have f2 := Reg.code_lt b
  have f3 := toNat_lt_two z
  have e0 : z.toNat / 2 = 0 := by omega
  refine (decode_wM (Guard.code_lt g) ?_ ?_ ?_ ?_ ?_).trans ?_ <;>
    first | omega | simp [decode3, dab, da, one, e0]
theorem amoMaxu (g : Guard) (d : Reg) (a : Reg) (b : Reg) (z : Bool) : Statement (.amoMaxu g d a b z) := by
  rintro w hw ⟨⟩
  have f0 := Reg.code_lt d
  have f1 := Reg.code_lt a
  have f2 := Reg.code_lt b
  have f3 := toNat_lt_two z
  have e0 : z.toNat / 2 = 0 := by omega
  refine (decode_wM (Guard.code_lt g) ?_ ?_ ?_ ?_ ?_).trans ?_ <;>
    first | omega | simp [decode3, dab, da, one, e0]
theorem amoSwap (g : Guard) (d : Reg) (a : Reg) (b : Reg) (z : Bool) : Statement (.amoSwap g d a b z) := by
  rintro w hw ⟨⟩
  have f0 := Reg.code_lt d
  have f1 := Reg.code_lt a
  have f2 := Reg.code_lt b
  have f3 := toNat_lt_two z
  have e0 : z.toNat / 2 = 0 := by omega
  refine (decode_wM (Guard.code_lt g) ?_ ?_ ?_ ?_ ?_).trans ?_ <;>
    first | omega | simp [decode3, dab, da, one, e0]
theorem vfmaF32 (g : Guard) (w : BitVec 2) (sd : Bool) (sa : Bool) (sb : Bool) (d : BitVec 5) (a : BitVec 5) (b : BitVec 5) : Statement (.vfmaF32 g w sd sa sb d a b) := by
  rintro x hw ⟨⟩
  have f0 := w.isLt
  have f1 := toNat_lt_two sd
  have f2 := toNat_lt_two sa
  have f3 := toNat_lt_two sb
  have f4 := d.isLt
  have f5 := a.isLt
  have f6 := b.isLt
  have e0 : (sd.toNat * 4 + sa.toNat * 2 + sb.toNat) / 4 = sd.toNat := by omega
  have e1 : (sd.toNat * 4 + sa.toNat * 2 + sb.toNat) / 2 % 2 = sa.toNat := by omega
  have e2 : (sd.toNat * 4 + sa.toNat * 2 + sb.toNat) % 2 = sb.toNat := by omega
  refine (decode_wV3 (Guard.code_lt g) ?_ ?_ ?_ ?_ ?_ ?_).trans ?_ <;>
    first | omega | simp [decodeV3, v3, e0, e1, e2]
theorem vfmaBf16 (g : Guard) (w : BitVec 2) (sd : Bool) (sa : Bool) (sb : Bool) (d : BitVec 5) (a : BitVec 5) (b : BitVec 5) : Statement (.vfmaBf16 g w sd sa sb d a b) := by
  rintro x hw ⟨⟩
  have f0 := w.isLt
  have f1 := toNat_lt_two sd
  have f2 := toNat_lt_two sa
  have f3 := toNat_lt_two sb
  have f4 := d.isLt
  have f5 := a.isLt
  have f6 := b.isLt
  have e0 : (sd.toNat * 4 + sa.toNat * 2 + sb.toNat) / 4 = sd.toNat := by omega
  have e1 : (sd.toNat * 4 + sa.toNat * 2 + sb.toNat) / 2 % 2 = sa.toNat := by omega
  have e2 : (sd.toNat * 4 + sa.toNat * 2 + sb.toNat) % 2 = sb.toNat := by omega
  refine (decode_wV3 (Guard.code_lt g) ?_ ?_ ?_ ?_ ?_ ?_).trans ?_ <;>
    first | omega | simp [decodeV3, v3, e0, e1, e2]
theorem vaddF32 (g : Guard) (w : BitVec 2) (sd : Bool) (sa : Bool) (sb : Bool) (d : BitVec 5) (a : BitVec 5) (b : BitVec 5) : Statement (.vaddF32 g w sd sa sb d a b) := by
  rintro x hw ⟨⟩
  have f0 := w.isLt
  have f1 := toNat_lt_two sd
  have f2 := toNat_lt_two sa
  have f3 := toNat_lt_two sb
  have f4 := d.isLt
  have f5 := a.isLt
  have f6 := b.isLt
  have e0 : (sd.toNat * 4 + sa.toNat * 2 + sb.toNat) / 4 = sd.toNat := by omega
  have e1 : (sd.toNat * 4 + sa.toNat * 2 + sb.toNat) / 2 % 2 = sa.toNat := by omega
  have e2 : (sd.toNat * 4 + sa.toNat * 2 + sb.toNat) % 2 = sb.toNat := by omega
  refine (decode_wV3 (Guard.code_lt g) ?_ ?_ ?_ ?_ ?_ ?_).trans ?_ <;>
    first | omega | simp [decodeV3, v3, e0, e1, e2]
theorem vsubF32 (g : Guard) (w : BitVec 2) (sd : Bool) (sa : Bool) (sb : Bool) (d : BitVec 5) (a : BitVec 5) (b : BitVec 5) : Statement (.vsubF32 g w sd sa sb d a b) := by
  rintro x hw ⟨⟩
  have f0 := w.isLt
  have f1 := toNat_lt_two sd
  have f2 := toNat_lt_two sa
  have f3 := toNat_lt_two sb
  have f4 := d.isLt
  have f5 := a.isLt
  have f6 := b.isLt
  have e0 : (sd.toNat * 4 + sa.toNat * 2 + sb.toNat) / 4 = sd.toNat := by omega
  have e1 : (sd.toNat * 4 + sa.toNat * 2 + sb.toNat) / 2 % 2 = sa.toNat := by omega
  have e2 : (sd.toNat * 4 + sa.toNat * 2 + sb.toNat) % 2 = sb.toNat := by omega
  refine (decode_wV3 (Guard.code_lt g) ?_ ?_ ?_ ?_ ?_ ?_).trans ?_ <;>
    first | omega | simp [decodeV3, v3, e0, e1, e2]
theorem vmulF32 (g : Guard) (w : BitVec 2) (sd : Bool) (sa : Bool) (sb : Bool) (d : BitVec 5) (a : BitVec 5) (b : BitVec 5) : Statement (.vmulF32 g w sd sa sb d a b) := by
  rintro x hw ⟨⟩
  have f0 := w.isLt
  have f1 := toNat_lt_two sd
  have f2 := toNat_lt_two sa
  have f3 := toNat_lt_two sb
  have f4 := d.isLt
  have f5 := a.isLt
  have f6 := b.isLt
  have e0 : (sd.toNat * 4 + sa.toNat * 2 + sb.toNat) / 4 = sd.toNat := by omega
  have e1 : (sd.toNat * 4 + sa.toNat * 2 + sb.toNat) / 2 % 2 = sa.toNat := by omega
  have e2 : (sd.toNat * 4 + sa.toNat * 2 + sb.toNat) % 2 = sb.toNat := by omega
  refine (decode_wV3 (Guard.code_lt g) ?_ ?_ ?_ ?_ ?_ ?_).trans ?_ <;>
    first | omega | simp [decodeV3, v3, e0, e1, e2]
theorem vmaxF32 (g : Guard) (w : BitVec 2) (sd : Bool) (sa : Bool) (sb : Bool) (d : BitVec 5) (a : BitVec 5) (b : BitVec 5) : Statement (.vmaxF32 g w sd sa sb d a b) := by
  rintro x hw ⟨⟩
  have f0 := w.isLt
  have f1 := toNat_lt_two sd
  have f2 := toNat_lt_two sa
  have f3 := toNat_lt_two sb
  have f4 := d.isLt
  have f5 := a.isLt
  have f6 := b.isLt
  have e0 : (sd.toNat * 4 + sa.toNat * 2 + sb.toNat) / 4 = sd.toNat := by omega
  have e1 : (sd.toNat * 4 + sa.toNat * 2 + sb.toNat) / 2 % 2 = sa.toNat := by omega
  have e2 : (sd.toNat * 4 + sa.toNat * 2 + sb.toNat) % 2 = sb.toNat := by omega
  refine (decode_wV3 (Guard.code_lt g) ?_ ?_ ?_ ?_ ?_ ?_).trans ?_ <;>
    first | omega | simp [decodeV3, v3, e0, e1, e2]
theorem vminF32 (g : Guard) (w : BitVec 2) (sd : Bool) (sa : Bool) (sb : Bool) (d : BitVec 5) (a : BitVec 5) (b : BitVec 5) : Statement (.vminF32 g w sd sa sb d a b) := by
  rintro x hw ⟨⟩
  have f0 := w.isLt
  have f1 := toNat_lt_two sd
  have f2 := toNat_lt_two sa
  have f3 := toNat_lt_two sb
  have f4 := d.isLt
  have f5 := a.isLt
  have f6 := b.isLt
  have e0 : (sd.toNat * 4 + sa.toNat * 2 + sb.toNat) / 4 = sd.toNat := by omega
  have e1 : (sd.toNat * 4 + sa.toNat * 2 + sb.toNat) / 2 % 2 = sa.toNat := by omega
  have e2 : (sd.toNat * 4 + sa.toNat * 2 + sb.toNat) % 2 = sb.toNat := by omega
  refine (decode_wV3 (Guard.code_lt g) ?_ ?_ ?_ ?_ ?_ ?_).trans ?_ <;>
    first | omega | simp [decodeV3, v3, e0, e1, e2]
theorem vaddI32 (g : Guard) (w : BitVec 2) (sd : Bool) (sa : Bool) (sb : Bool) (d : BitVec 5) (a : BitVec 5) (b : BitVec 5) : Statement (.vaddI32 g w sd sa sb d a b) := by
  rintro x hw ⟨⟩
  have f0 := w.isLt
  have f1 := toNat_lt_two sd
  have f2 := toNat_lt_two sa
  have f3 := toNat_lt_two sb
  have f4 := d.isLt
  have f5 := a.isLt
  have f6 := b.isLt
  have e0 : (sd.toNat * 4 + sa.toNat * 2 + sb.toNat) / 4 = sd.toNat := by omega
  have e1 : (sd.toNat * 4 + sa.toNat * 2 + sb.toNat) / 2 % 2 = sa.toNat := by omega
  have e2 : (sd.toNat * 4 + sa.toNat * 2 + sb.toNat) % 2 = sb.toNat := by omega
  refine (decode_wV3 (Guard.code_lt g) ?_ ?_ ?_ ?_ ?_ ?_).trans ?_ <;>
    first | omega | simp [decodeV3, v3, e0, e1, e2]
theorem vsubI32 (g : Guard) (w : BitVec 2) (sd : Bool) (sa : Bool) (sb : Bool) (d : BitVec 5) (a : BitVec 5) (b : BitVec 5) : Statement (.vsubI32 g w sd sa sb d a b) := by
  rintro x hw ⟨⟩
  have f0 := w.isLt
  have f1 := toNat_lt_two sd
  have f2 := toNat_lt_two sa
  have f3 := toNat_lt_two sb
  have f4 := d.isLt
  have f5 := a.isLt
  have f6 := b.isLt
  have e0 : (sd.toNat * 4 + sa.toNat * 2 + sb.toNat) / 4 = sd.toNat := by omega
  have e1 : (sd.toNat * 4 + sa.toNat * 2 + sb.toNat) / 2 % 2 = sa.toNat := by omega
  have e2 : (sd.toNat * 4 + sa.toNat * 2 + sb.toNat) % 2 = sb.toNat := by omega
  refine (decode_wV3 (Guard.code_lt g) ?_ ?_ ?_ ?_ ?_ ?_).trans ?_ <;>
    first | omega | simp [decodeV3, v3, e0, e1, e2]
theorem vmulI32 (g : Guard) (w : BitVec 2) (sd : Bool) (sa : Bool) (sb : Bool) (d : BitVec 5) (a : BitVec 5) (b : BitVec 5) : Statement (.vmulI32 g w sd sa sb d a b) := by
  rintro x hw ⟨⟩
  have f0 := w.isLt
  have f1 := toNat_lt_two sd
  have f2 := toNat_lt_two sa
  have f3 := toNat_lt_two sb
  have f4 := d.isLt
  have f5 := a.isLt
  have f6 := b.isLt
  have e0 : (sd.toNat * 4 + sa.toNat * 2 + sb.toNat) / 4 = sd.toNat := by omega
  have e1 : (sd.toNat * 4 + sa.toNat * 2 + sb.toNat) / 2 % 2 = sa.toNat := by omega
  have e2 : (sd.toNat * 4 + sa.toNat * 2 + sb.toNat) % 2 = sb.toNat := by omega
  refine (decode_wV3 (Guard.code_lt g) ?_ ?_ ?_ ?_ ?_ ?_).trans ?_ <;>
    first | omega | simp [decodeV3, v3, e0, e1, e2]
theorem vdotF0 (g : Guard) (w : BitVec 2) (sd : Bool) (sa : Bool) (sb : Bool) (d : BitVec 5) (a : BitVec 5) (b : BitVec 5) : Statement (.vdotF0 g w sd sa sb d a b) := by
  rintro x hw ⟨⟩
  have f0 := w.isLt
  have f1 := toNat_lt_two sd
  have f2 := toNat_lt_two sa
  have f3 := toNat_lt_two sb
  have f4 := d.isLt
  have f5 := a.isLt
  have f6 := b.isLt
  have e0 : (sd.toNat * 4 + sa.toNat * 2 + sb.toNat) / 4 = sd.toNat := by omega
  have e1 : (sd.toNat * 4 + sa.toNat * 2 + sb.toNat) / 2 % 2 = sa.toNat := by omega
  have e2 : (sd.toNat * 4 + sa.toNat * 2 + sb.toNat) % 2 = sb.toNat := by omega
  refine (decode_wV3 (Guard.code_lt g) ?_ ?_ ?_ ?_ ?_ ?_).trans ?_ <;>
    first | omega | simp [decodeV3, v3, e0, e1, e2]
theorem vdotF1 (g : Guard) (w : BitVec 2) (sd : Bool) (sa : Bool) (sb : Bool) (d : BitVec 5) (a : BitVec 5) (b : BitVec 5) : Statement (.vdotF1 g w sd sa sb d a b) := by
  rintro x hw ⟨⟩
  have f0 := w.isLt
  have f1 := toNat_lt_two sd
  have f2 := toNat_lt_two sa
  have f3 := toNat_lt_two sb
  have f4 := d.isLt
  have f5 := a.isLt
  have f6 := b.isLt
  have e0 : (sd.toNat * 4 + sa.toNat * 2 + sb.toNat) / 4 = sd.toNat := by omega
  have e1 : (sd.toNat * 4 + sa.toNat * 2 + sb.toNat) / 2 % 2 = sa.toNat := by omega
  have e2 : (sd.toNat * 4 + sa.toNat * 2 + sb.toNat) % 2 = sb.toNat := by omega
  refine (decode_wV3 (Guard.code_lt g) ?_ ?_ ?_ ?_ ?_ ?_).trans ?_ <;>
    first | omega | simp [decodeV3, v3, e0, e1, e2]
theorem vdotF2 (g : Guard) (w : BitVec 2) (sd : Bool) (sa : Bool) (sb : Bool) (d : BitVec 5) (a : BitVec 5) (b : BitVec 5) : Statement (.vdotF2 g w sd sa sb d a b) := by
  rintro x hw ⟨⟩
  have f0 := w.isLt
  have f1 := toNat_lt_two sd
  have f2 := toNat_lt_two sa
  have f3 := toNat_lt_two sb
  have f4 := d.isLt
  have f5 := a.isLt
  have f6 := b.isLt
  have e0 : (sd.toNat * 4 + sa.toNat * 2 + sb.toNat) / 4 = sd.toNat := by omega
  have e1 : (sd.toNat * 4 + sa.toNat * 2 + sb.toNat) / 2 % 2 = sa.toNat := by omega
  have e2 : (sd.toNat * 4 + sa.toNat * 2 + sb.toNat) % 2 = sb.toNat := by omega
  refine (decode_wV3 (Guard.code_lt g) ?_ ?_ ?_ ?_ ?_ ?_).trans ?_ <;>
    first | omega | simp [decodeV3, v3, e0, e1, e2]
theorem vdotF3 (g : Guard) (w : BitVec 2) (sd : Bool) (sa : Bool) (sb : Bool) (d : BitVec 5) (a : BitVec 5) (b : BitVec 5) : Statement (.vdotF3 g w sd sa sb d a b) := by
  rintro x hw ⟨⟩
  have f0 := w.isLt
  have f1 := toNat_lt_two sd
  have f2 := toNat_lt_two sa
  have f3 := toNat_lt_two sb
  have f4 := d.isLt
  have f5 := a.isLt
  have f6 := b.isLt
  have e0 : (sd.toNat * 4 + sa.toNat * 2 + sb.toNat) / 4 = sd.toNat := by omega
  have e1 : (sd.toNat * 4 + sa.toNat * 2 + sb.toNat) / 2 % 2 = sa.toNat := by omega
  have e2 : (sd.toNat * 4 + sa.toNat * 2 + sb.toNat) % 2 = sb.toNat := by omega
  refine (decode_wV3 (Guard.code_lt g) ?_ ?_ ?_ ?_ ?_ ?_).trans ?_ <;>
    first | omega | simp [decodeV3, v3, e0, e1, e2]
theorem vmaxI32 (g : Guard) (w : BitVec 2) (sd : Bool) (sa : Bool) (sb : Bool) (d : BitVec 5) (a : BitVec 5) (b : BitVec 5) : Statement (.vmaxI32 g w sd sa sb d a b) := by
  rintro x hw ⟨⟩
  have f0 := w.isLt
  have f1 := toNat_lt_two sd
  have f2 := toNat_lt_two sa
  have f3 := toNat_lt_two sb
  have f4 := d.isLt
  have f5 := a.isLt
  have f6 := b.isLt
  have e0 : (sd.toNat * 4 + sa.toNat * 2 + sb.toNat) / 4 = sd.toNat := by omega
  have e1 : (sd.toNat * 4 + sa.toNat * 2 + sb.toNat) / 2 % 2 = sa.toNat := by omega
  have e2 : (sd.toNat * 4 + sa.toNat * 2 + sb.toNat) % 2 = sb.toNat := by omega
  refine (decode_wV3 (Guard.code_lt g) ?_ ?_ ?_ ?_ ?_ ?_).trans ?_ <;>
    first | omega | simp [decodeV3, v3, e0, e1, e2]
theorem vminI32 (g : Guard) (w : BitVec 2) (sd : Bool) (sa : Bool) (sb : Bool) (d : BitVec 5) (a : BitVec 5) (b : BitVec 5) : Statement (.vminI32 g w sd sa sb d a b) := by
  rintro x hw ⟨⟩
  have f0 := w.isLt
  have f1 := toNat_lt_two sd
  have f2 := toNat_lt_two sa
  have f3 := toNat_lt_two sb
  have f4 := d.isLt
  have f5 := a.isLt
  have f6 := b.isLt
  have e0 : (sd.toNat * 4 + sa.toNat * 2 + sb.toNat) / 4 = sd.toNat := by omega
  have e1 : (sd.toNat * 4 + sa.toNat * 2 + sb.toNat) / 2 % 2 = sa.toNat := by omega
  have e2 : (sd.toNat * 4 + sa.toNat * 2 + sb.toNat) % 2 = sb.toNat := by omega
  refine (decode_wV3 (Guard.code_lt g) ?_ ?_ ?_ ?_ ?_ ?_).trans ?_ <;>
    first | omega | simp [decodeV3, v3, e0, e1, e2]
theorem rep (g : Guard) (n : BitVec 4) (a : Reg) (x : BitVec 5) : Statement (.rep g n a x) := by
  rintro w hw ⟨⟩
  have f0 := n.isLt
  have f1 := Reg.code_lt a
  have f2 := x.isLt
  have e0 : n.toNat / 16 = 0 := by omega
  refine (decode_wV2 (Guard.code_lt g) ?_ ?_ ?_ ?_ ?_ ?_).trans ?_ <;>
    first | omega | simp [decodeV2, v2, vs, vcmp, e0]
theorem vand (g : Guard) (w : BitVec 2) (sd : Bool) (sa : Bool) (d : BitVec 5) (a : BitVec 5) (x : BitVec 5) : Statement (.vand g w sd sa d a x) := by
  rintro x hw ⟨⟩
  have f0 := w.isLt
  have f1 := toNat_lt_two sd
  have f2 := toNat_lt_two sa
  have f3 := d.isLt
  have f4 := a.isLt
  have f5 := x.isLt
  have e0 : (sd.toNat * 2 + sa.toNat) / 2 = sd.toNat := by omega
  have e1 : (sd.toNat * 2 + sa.toNat) % 2 = sa.toNat := by omega
  refine (decode_wV2 (Guard.code_lt g) ?_ ?_ ?_ ?_ ?_ ?_).trans ?_ <;>
    first | omega | simp [decodeV2, v2, vs, vcmp, e0, e1]
theorem vor (g : Guard) (w : BitVec 2) (sd : Bool) (sa : Bool) (d : BitVec 5) (a : BitVec 5) (x : BitVec 5) : Statement (.vor g w sd sa d a x) := by
  rintro x hw ⟨⟩
  have f0 := w.isLt
  have f1 := toNat_lt_two sd
  have f2 := toNat_lt_two sa
  have f3 := d.isLt
  have f4 := a.isLt
  have f5 := x.isLt
  have e0 : (sd.toNat * 2 + sa.toNat) / 2 = sd.toNat := by omega
  have e1 : (sd.toNat * 2 + sa.toNat) % 2 = sa.toNat := by omega
  refine (decode_wV2 (Guard.code_lt g) ?_ ?_ ?_ ?_ ?_ ?_).trans ?_ <;>
    first | omega | simp [decodeV2, v2, vs, vcmp, e0, e1]
theorem vxor (g : Guard) (w : BitVec 2) (sd : Bool) (sa : Bool) (d : BitVec 5) (a : BitVec 5) (x : BitVec 5) : Statement (.vxor g w sd sa d a x) := by
  rintro x hw ⟨⟩
  have f0 := w.isLt
  have f1 := toNat_lt_two sd
  have f2 := toNat_lt_two sa
  have f3 := d.isLt
  have f4 := a.isLt
  have f5 := x.isLt
  have e0 : (sd.toNat * 2 + sa.toNat) / 2 = sd.toNat := by omega
  have e1 : (sd.toNat * 2 + sa.toNat) % 2 = sa.toNat := by omega
  refine (decode_wV2 (Guard.code_lt g) ?_ ?_ ?_ ?_ ?_ ?_).trans ?_ <;>
    first | omega | simp [decodeV2, v2, vs, vcmp, e0, e1]
theorem vandn (g : Guard) (w : BitVec 2) (sd : Bool) (sa : Bool) (d : BitVec 5) (a : BitVec 5) (x : BitVec 5) : Statement (.vandn g w sd sa d a x) := by
  rintro x hw ⟨⟩
  have f0 := w.isLt
  have f1 := toNat_lt_two sd
  have f2 := toNat_lt_two sa
  have f3 := d.isLt
  have f4 := a.isLt
  have f5 := x.isLt
  have e0 : (sd.toNat * 2 + sa.toNat) / 2 = sd.toNat := by omega
  have e1 : (sd.toNat * 2 + sa.toNat) % 2 = sa.toNat := by omega
  refine (decode_wV2 (Guard.code_lt g) ?_ ?_ ?_ ?_ ?_ ?_).trans ?_ <;>
    first | omega | simp [decodeV2, v2, vs, vcmp, e0, e1]
theorem vshlI32 (g : Guard) (w : BitVec 2) (sd : Bool) (sa : Bool) (d : BitVec 5) (a : BitVec 5) (x : BitVec 5) : Statement (.vshlI32 g w sd sa d a x) := by
  rintro x hw ⟨⟩
  have f0 := w.isLt
  have f1 := toNat_lt_two sd
  have f2 := toNat_lt_two sa
  have f3 := d.isLt
  have f4 := a.isLt
  have f5 := x.isLt
  have e0 : (sd.toNat * 2 + sa.toNat) / 2 = sd.toNat := by omega
  have e1 : (sd.toNat * 2 + sa.toNat) % 2 = sa.toNat := by omega
  refine (decode_wV2 (Guard.code_lt g) ?_ ?_ ?_ ?_ ?_ ?_).trans ?_ <;>
    first | omega | simp [decodeV2, v2, vs, vcmp, e0, e1]
theorem vshrI32 (g : Guard) (w : BitVec 2) (sd : Bool) (sa : Bool) (d : BitVec 5) (a : BitVec 5) (x : BitVec 5) : Statement (.vshrI32 g w sd sa d a x) := by
  rintro x hw ⟨⟩
  have f0 := w.isLt
  have f1 := toNat_lt_two sd
  have f2 := toNat_lt_two sa
  have f3 := d.isLt
  have f4 := a.isLt
  have f5 := x.isLt
  have e0 : (sd.toNat * 2 + sa.toNat) / 2 = sd.toNat := by omega
  have e1 : (sd.toNat * 2 + sa.toNat) % 2 = sa.toNat := by omega
  refine (decode_wV2 (Guard.code_lt g) ?_ ?_ ?_ ?_ ?_ ?_).trans ?_ <;>
    first | omega | simp [decodeV2, v2, vs, vcmp, e0, e1]
theorem vsarI32 (g : Guard) (w : BitVec 2) (sd : Bool) (sa : Bool) (d : BitVec 5) (a : BitVec 5) (x : BitVec 5) : Statement (.vsarI32 g w sd sa d a x) := by
  rintro x hw ⟨⟩
  have f0 := w.isLt
  have f1 := toNat_lt_two sd
  have f2 := toNat_lt_two sa
  have f3 := d.isLt
  have f4 := a.isLt
  have f5 := x.isLt
  have e0 : (sd.toNat * 2 + sa.toNat) / 2 = sd.toNat := by omega
  have e1 : (sd.toNat * 2 + sa.toNat) % 2 = sa.toNat := by omega
  refine (decode_wV2 (Guard.code_lt g) ?_ ?_ ?_ ?_ ?_ ?_).trans ?_ <;>
    first | omega | simp [decodeV2, v2, vs, vcmp, e0, e1]
theorem vcmpEq (g : Guard) (w : BitVec 2) (sa : Bool) (t : CmpType) (k : BitVec 3) (a : BitVec 5) (x : BitVec 5) : Statement (.vcmpEq g w sa t k a x) := by
  rintro x hw ⟨⟩
  have f0 := w.isLt
  have f1 := toNat_lt_two sa
  have f2 := CmpType.code_lt t
  have f3 := k.isLt
  have f4 := a.isLt
  have f5 := x.isLt
  have e0 : (false.toNat * 2 + sa.toNat) / 2 = false.toNat := by simp only [Bool.toNat_false] <;> omega
  have e1 : (false.toNat * 2 + sa.toNat) % 2 = sa.toNat := by simp only [Bool.toNat_false] <;> omega
  have ff : false.toNat = 0 := rfl
  have e2 : sa.toNat / 2 = 0 := by omega
  have e3 : sa.toNat % 2 = sa.toNat := by omega
  have e4 : (t.code * 8 + k.toNat) / 8 = t.code := by omega
  have e5 : BitVec.ofNat 3 (t.code * 8 + k.toNat) = k := BitVec.eq_of_toNat_eq (by simp only [BitVec.toNat_ofNat]; omega)
  refine (decode_wV2 (Guard.code_lt g) ?_ ?_ ?_ ?_ ?_ ?_).trans ?_ <;>
    first | omega | simp [decodeV2, v2, vs, vcmp, e0, e1, e2, e3, e4, e5]
theorem vcmpLt (g : Guard) (w : BitVec 2) (sa : Bool) (t : CmpType) (k : BitVec 3) (a : BitVec 5) (x : BitVec 5) : Statement (.vcmpLt g w sa t k a x) := by
  rintro x hw ⟨⟩
  have f0 := w.isLt
  have f1 := toNat_lt_two sa
  have f2 := CmpType.code_lt t
  have f3 := k.isLt
  have f4 := a.isLt
  have f5 := x.isLt
  have e0 : (false.toNat * 2 + sa.toNat) / 2 = false.toNat := by simp only [Bool.toNat_false] <;> omega
  have e1 : (false.toNat * 2 + sa.toNat) % 2 = sa.toNat := by simp only [Bool.toNat_false] <;> omega
  have ff : false.toNat = 0 := rfl
  have e2 : sa.toNat / 2 = 0 := by omega
  have e3 : sa.toNat % 2 = sa.toNat := by omega
  have e4 : (t.code * 8 + k.toNat) / 8 = t.code := by omega
  have e5 : BitVec.ofNat 3 (t.code * 8 + k.toNat) = k := BitVec.eq_of_toNat_eq (by simp only [BitVec.toNat_ofNat]; omega)
  refine (decode_wV2 (Guard.code_lt g) ?_ ?_ ?_ ?_ ?_ ?_).trans ?_ <;>
    first | omega | simp [decodeV2, v2, vs, vcmp, e0, e1, e2, e3, e4, e5]
theorem vcmpLe (g : Guard) (w : BitVec 2) (sa : Bool) (t : CmpType) (k : BitVec 3) (a : BitVec 5) (x : BitVec 5) : Statement (.vcmpLe g w sa t k a x) := by
  rintro x hw ⟨⟩
  have f0 := w.isLt
  have f1 := toNat_lt_two sa
  have f2 := CmpType.code_lt t
  have f3 := k.isLt
  have f4 := a.isLt
  have f5 := x.isLt
  have e0 : (false.toNat * 2 + sa.toNat) / 2 = false.toNat := by simp only [Bool.toNat_false] <;> omega
  have e1 : (false.toNat * 2 + sa.toNat) % 2 = sa.toNat := by simp only [Bool.toNat_false] <;> omega
  have ff : false.toNat = 0 := rfl
  have e2 : sa.toNat / 2 = 0 := by omega
  have e3 : sa.toNat % 2 = sa.toNat := by omega
  have e4 : (t.code * 8 + k.toNat) / 8 = t.code := by omega
  have e5 : BitVec.ofNat 3 (t.code * 8 + k.toNat) = k := BitVec.eq_of_toNat_eq (by simp only [BitVec.toNat_ofNat]; omega)
  refine (decode_wV2 (Guard.code_lt g) ?_ ?_ ?_ ?_ ?_ ?_).trans ?_ <;>
    first | omega | simp [decodeV2, v2, vs, vcmp, e0, e1, e2, e3, e4, e5]
theorem vsel (g : Guard) (w : BitVec 2) (sd : Bool) (sa : Bool) (d : BitVec 5) (a : BitVec 5) (k : BitVec 3) : Statement (.vsel g w sd sa d a k) := by
  rintro x hw ⟨⟩
  have f0 := w.isLt
  have f1 := toNat_lt_two sd
  have f2 := toNat_lt_two sa
  have f3 := d.isLt
  have f4 := a.isLt
  have f5 := k.isLt
  have e0 : (sd.toNat * 2 + sa.toNat) / 2 = sd.toNat := by omega
  have e1 : (sd.toNat * 2 + sa.toNat) % 2 = sa.toNat := by omega
  refine (decode_wV2 (Guard.code_lt g) ?_ ?_ ?_ ?_ ?_ ?_).trans ?_ <;>
    first | omega | simp [decodeV2, v2, vs, vcmp, e0, e1]
theorem vcvt (g : Guard) (w : BitVec 2) (sd : Bool) (sa : Bool) (d : BitVec 5) (a : BitVec 5) (k : CvtKind) (m : Mode) : Statement (.vcvt g w sd sa d a k m) := by
  rintro x hw ⟨⟩
  have f0 := w.isLt
  have f1 := toNat_lt_two sd
  have f2 := toNat_lt_two sa
  have f3 := d.isLt
  have f4 := a.isLt
  have f5 := CvtKind.code_lt k
  have f6 := Mode.code_lt m
  have e0 : (sd.toNat * 2 + sa.toNat) / 2 = sd.toNat := by omega
  have e1 : (sd.toNat * 2 + sa.toNat) % 2 = sa.toNat := by omega
  have e2 : (k.code * 4 + m.code) / 4 = k.code := by omega
  have e3 : (k.code * 4 + m.code) % 4 = m.code := by omega
  refine (decode_wV2 (Guard.code_lt g) ?_ ?_ ?_ ?_ ?_ ?_).trans ?_ <;>
    first | omega | simp [decodeV2, v2, vs, vcmp, e0, e1, e2, e3]
theorem vcvtOl (g : Guard) (w : BitVec 2) (sd : Bool) (sa : Bool) (d : BitVec 5) (a : BitVec 5) (k : CvtKind) (m : Mode) : Statement (.vcvtOl g w sd sa d a k m) := by
  rintro x hw ⟨⟩
  have f0 := w.isLt
  have f1 := toNat_lt_two sd
  have f2 := toNat_lt_two sa
  have f3 := d.isLt
  have f4 := a.isLt
  have f5 := CvtKind.code_lt k
  have f6 := Mode.code_lt m
  have e0 : (sd.toNat * 2 + sa.toNat) / 2 = sd.toNat := by omega
  have e1 : (sd.toNat * 2 + sa.toNat) % 2 = sa.toNat := by omega
  have e2 : (k.code * 4 + m.code) / 4 = k.code := by omega
  have e3 : (k.code * 4 + m.code) % 4 = m.code := by omega
  refine (decode_wV2 (Guard.code_lt g) ?_ ?_ ?_ ?_ ?_ ?_).trans ?_ <;>
    first | omega | simp [decodeV2, v2, vs, vcmp, e0, e1, e2, e3]
theorem vwid (g : Guard) (w : BitVec 2) (sd : Bool) (sa : Bool) (d : BitVec 5) (a : BitVec 5) (c : BitVec 2) (f : WidFmt) : Statement (.vwid g w sd sa d a c f) := by
  rintro x hw ⟨⟩
  have f0 := w.isLt
  have f1 := toNat_lt_two sd
  have f2 := toNat_lt_two sa
  have f3 := d.isLt
  have f4 := a.isLt
  have f5 := c.isLt
  have f6 := WidFmt.code_lt f
  have e0 : (sd.toNat * 2 + sa.toNat) / 2 = sd.toNat := by omega
  have e1 : (sd.toNat * 2 + sa.toNat) % 2 = sa.toNat := by omega
  have e2 : (c.toNat * 8 + f.code) / 8 = c.toNat := by omega
  have e3 : (c.toNat * 8 + f.code) % 8 = f.code := by omega
  have g0 : (c.toNat == 0 || f.code == 6) = true := by
    simp only [WellFormed, Bool.or_eq_true, beq_iff_eq] at hw ⊢
    exact hw.imp (fun h => by rw [h]; rfl) (fun h => by rw [h]; rfl)
  refine (decode_wV2 (Guard.code_lt g) ?_ ?_ ?_ ?_ ?_ ?_).trans ?_ <;>
    first | omega | simp [decodeV2, v2, vs, vcmp, e0, e1, e2, e3, g0]
theorem vred (g : Guard) (w : BitVec 2) (sd : Bool) (sa : Bool) (d : BitVec 5) (a : BitVec 5) (k : VRed) : Statement (.vred g w sd sa d a k) := by
  rintro x hw ⟨⟩
  have f0 := w.isLt
  have f1 := toNat_lt_two sd
  have f2 := toNat_lt_two sa
  have f3 := d.isLt
  have f4 := a.isLt
  have f5 := VRed.code_lt k
  have e0 : (sd.toNat * 2 + sa.toNat) / 2 = sd.toNat := by omega
  have e1 : (sd.toNat * 2 + sa.toNat) % 2 = sa.toNat := by omega
  refine (decode_wV2 (Guard.code_lt g) ?_ ?_ ?_ ?_ ?_ ?_).trans ?_ <;>
    first | omega | simp [decodeV2, v2, vs, vcmp, e0, e1]
theorem vperm (g : Guard) (w : BitVec 2) (sd : Bool) (sa : Bool) (d : BitVec 5) (a : BitVec 5) (x : BitVec 5) : Statement (.vperm g w sd sa d a x) := by
  rintro x hw ⟨⟩
  have f0 := w.isLt
  have f1 := toNat_lt_two sd
  have f2 := toNat_lt_two sa
  have f3 := d.isLt
  have f4 := a.isLt
  have f5 := x.isLt
  have e0 : (sd.toNat * 2 + sa.toNat) / 2 = sd.toNat := by omega
  have e1 : (sd.toNat * 2 + sa.toNat) % 2 = sa.toNat := by omega
  refine (decode_wV2 (Guard.code_lt g) ?_ ?_ ?_ ?_ ?_ ?_).trans ?_ <;>
    first | omega | simp [decodeV2, v2, vs, vcmp, e0, e1]
theorem vbcst (g : Guard) (w : BitVec 2) (sd : Bool) (d : BitVec 5) (a : Reg) (z : Size) : Statement (.vbcst g w sd d a z) := by
  rintro x hw ⟨⟩
  have f0 := w.isLt
  have f1 := toNat_lt_two sd
  have f2 := d.isLt
  have f3 := Reg.code_lt a
  have f4 := Size.code_lt z
  have e0 : (sd.toNat * 2 + false.toNat) / 2 = sd.toNat := by simp only [Bool.toNat_false] <;> omega
  have e1 : (sd.toNat * 2 + false.toNat) % 2 = false.toNat := by simp only [Bool.toNat_false] <;> omega
  have ff : false.toNat = 0 := rfl
  refine (decode_wV2 (Guard.code_lt g) ?_ ?_ ?_ ?_ ?_ ?_).trans ?_ <;>
    first | omega | simp [decodeV2, v2, vs, vcmp, e0, e1]
theorem vext (g : Guard) (w : BitVec 2) (sa : Bool) (d : Reg) (a : BitVec 5) (l : BitVec 4) : Statement (.vext g w sa d a l) := by
  rintro x hw ⟨⟩
  have f0 := w.isLt
  have f1 := toNat_lt_two sa
  have f2 := Reg.code_lt d
  have f3 := a.isLt
  have f4 := l.isLt
  have e0 : (false.toNat * 2 + sa.toNat) / 2 = false.toNat := by simp only [Bool.toNat_false] <;> omega
  have e1 : (false.toNat * 2 + sa.toNat) % 2 = sa.toNat := by simp only [Bool.toNat_false] <;> omega
  have ff : false.toNat = 0 := rfl
  have e2 : sa.toNat / 2 = 0 := by omega
  have e3 : sa.toNat % 2 = sa.toNat := by omega
  have e4 : l.toNat / 16 = 0 := by omega
  refine (decode_wV2 (Guard.code_lt g) ?_ ?_ ?_ ?_ ?_ ?_).trans ?_ <;>
    first | omega | simp [decodeV2, v2, vs, vcmp, e0, e1, e2, e3, e4]
theorem vlane (g : Guard) (w : BitVec 2) (sd : Bool) (d : BitVec 5) : Statement (.vlane g w sd d) := by
  rintro x hw ⟨⟩
  have f0 := w.isLt
  have f1 := toNat_lt_two sd
  have f2 := d.isLt
  have e0 : (sd.toNat * 2 + false.toNat) / 2 = sd.toNat := by simp only [Bool.toNat_false] <;> omega
  have e1 : (sd.toNat * 2 + false.toNat) % 2 = false.toNat := by simp only [Bool.toNat_false] <;> omega
  have ff : false.toNat = 0 := rfl
  refine (decode_wV2 (Guard.code_lt g) ?_ ?_ ?_ ?_ ?_ ?_).trans ?_ <;>
    first | omega | simp [decodeV2, v2, vs, vcmp, e0, e1]
theorem vexp2F32 (g : Guard) (w : BitVec 2) (sd : Bool) (sa : Bool) (d : BitVec 5) (a : BitVec 5) : Statement (.vexp2F32 g w sd sa d a) := by
  rintro x hw ⟨⟩
  have f0 := w.isLt
  have f1 := toNat_lt_two sd
  have f2 := toNat_lt_two sa
  have f3 := d.isLt
  have f4 := a.isLt
  have e0 : (sd.toNat * 2 + sa.toNat) / 2 = sd.toNat := by omega
  have e1 : (sd.toNat * 2 + sa.toNat) % 2 = sa.toNat := by omega
  refine (decode_wV2 (Guard.code_lt g) ?_ ?_ ?_ ?_ ?_ ?_).trans ?_ <;>
    first | omega | simp [decodeV2, v2, vs, vcmp, e0, e1]
theorem vrcpF32 (g : Guard) (w : BitVec 2) (sd : Bool) (sa : Bool) (d : BitVec 5) (a : BitVec 5) : Statement (.vrcpF32 g w sd sa d a) := by
  rintro x hw ⟨⟩
  have f0 := w.isLt
  have f1 := toNat_lt_two sd
  have f2 := toNat_lt_two sa
  have f3 := d.isLt
  have f4 := a.isLt
  have e0 : (sd.toNat * 2 + sa.toNat) / 2 = sd.toNat := by omega
  have e1 : (sd.toNat * 2 + sa.toNat) % 2 = sa.toNat := by omega
  refine (decode_wV2 (Guard.code_lt g) ?_ ?_ ?_ ?_ ?_ ?_).trans ?_ <;>
    first | omega | simp [decodeV2, v2, vs, vcmp, e0, e1]
theorem vrsqF32 (g : Guard) (w : BitVec 2) (sd : Bool) (sa : Bool) (d : BitVec 5) (a : BitVec 5) : Statement (.vrsqF32 g w sd sa d a) := by
  rintro x hw ⟨⟩
  have f0 := w.isLt
  have f1 := toNat_lt_two sd
  have f2 := toNat_lt_two sa
  have f3 := d.isLt
  have f4 := a.isLt
  have e0 : (sd.toNat * 2 + sa.toNat) / 2 = sd.toNat := by omega
  have e1 : (sd.toNat * 2 + sa.toNat) % 2 = sa.toNat := by omega
  refine (decode_wV2 (Guard.code_lt g) ?_ ?_ ?_ ?_ ?_ ?_).trans ?_ <;>
    first | omega | simp [decodeV2, v2, vs, vcmp, e0, e1]
theorem vld (g : Guard) (w : BitVec 2) (sd : Bool) (d : BitVec 5) (a : Reg) (f : BitVec 4) : Statement (.vld g w sd d a f) := by
  rintro x hw ⟨⟩
  have f0 := w.isLt
  have f1 := toNat_lt_two sd
  have f2 := d.isLt
  have f3 := Reg.code_lt a
  have f4 := f.isLt
  have e0 : (sd.toNat * 2 + false.toNat) / 2 = sd.toNat := by simp only [Bool.toNat_false] <;> omega
  have e1 : (sd.toNat * 2 + false.toNat) % 2 = false.toNat := by simp only [Bool.toNat_false] <;> omega
  have ff : false.toNat = 0 := rfl
  have e2 : f.toNat / 16 = 0 := by omega
  refine (decode_wV2 (Guard.code_lt g) ?_ ?_ ?_ ?_ ?_ ?_).trans ?_ <;>
    first | omega | simp [decodeV2, v2, vs, vcmp, e0, e1, e2]
theorem vldG (g : Guard) (w : BitVec 2) (sd : Bool) (d : BitVec 5) (a : Reg) (f : BitVec 4) : Statement (.vldG g w sd d a f) := by
  rintro x hw ⟨⟩
  have f0 := w.isLt
  have f1 := toNat_lt_two sd
  have f2 := d.isLt
  have f3 := Reg.code_lt a
  have f4 := f.isLt
  have e0 : (sd.toNat * 2 + false.toNat) / 2 = sd.toNat := by simp only [Bool.toNat_false] <;> omega
  have e1 : (sd.toNat * 2 + false.toNat) % 2 = false.toNat := by simp only [Bool.toNat_false] <;> omega
  have ff : false.toNat = 0 := rfl
  have e2 : (16 + f.toNat) / 16 = 1 := by omega
  have e3 : BitVec.ofNat 4 (16 + f.toNat) = f := BitVec.eq_of_toNat_eq (by simp only [BitVec.toNat_ofNat]; omega)
  refine (decode_wV2 (Guard.code_lt g) ?_ ?_ ?_ ?_ ?_ ?_).trans ?_ <;>
    first | omega | simp [decodeV2, v2, vs, vcmp, e0, e1, e2, e3]
theorem vst (g : Guard) (w : BitVec 2) (sd : Bool) (d : BitVec 5) (a : Reg) (f : BitVec 4) : Statement (.vst g w sd d a f) := by
  rintro x hw ⟨⟩
  have f0 := w.isLt
  have f1 := toNat_lt_two sd
  have f2 := d.isLt
  have f3 := Reg.code_lt a
  have f4 := f.isLt
  have e0 : (sd.toNat * 2 + false.toNat) / 2 = sd.toNat := by simp only [Bool.toNat_false] <;> omega
  have e1 : (sd.toNat * 2 + false.toNat) % 2 = false.toNat := by simp only [Bool.toNat_false] <;> omega
  have ff : false.toNat = 0 := rfl
  have e2 : f.toNat / 16 = 0 := by omega
  refine (decode_wV2 (Guard.code_lt g) ?_ ?_ ?_ ?_ ?_ ?_).trans ?_ <;>
    first | omega | simp [decodeV2, v2, vs, vcmp, e0, e1, e2]
theorem vstG (g : Guard) (w : BitVec 2) (sd : Bool) (d : BitVec 5) (a : Reg) (f : BitVec 4) : Statement (.vstG g w sd d a f) := by
  rintro x hw ⟨⟩
  have f0 := w.isLt
  have f1 := toNat_lt_two sd
  have f2 := d.isLt
  have f3 := Reg.code_lt a
  have f4 := f.isLt
  have e0 : (sd.toNat * 2 + false.toNat) / 2 = sd.toNat := by simp only [Bool.toNat_false] <;> omega
  have e1 : (sd.toNat * 2 + false.toNat) % 2 = false.toNat := by simp only [Bool.toNat_false] <;> omega
  have ff : false.toNat = 0 := rfl
  have e2 : (16 + f.toNat) / 16 = 1 := by omega
  have e3 : BitVec.ofNat 4 (16 + f.toNat) = f := BitVec.eq_of_toNat_eq (by simp only [BitVec.toNat_ofNat]; omega)
  refine (decode_wV2 (Guard.code_lt g) ?_ ?_ ?_ ?_ ?_ ?_).trans ?_ <;>
    first | omega | simp [decodeV2, v2, vs, vcmp, e0, e1, e2, e3]
theorem vgather (g : Guard) (w : BitVec 2) (sd : Bool) (d : BitVec 5) (a : Reg) (x : BitVec 5) : Statement (.vgather g w sd d a x) := by
  rintro x hw ⟨⟩
  have f0 := w.isLt
  have f1 := toNat_lt_two sd
  have f2 := d.isLt
  have f3 := Reg.code_lt a
  have f4 := x.isLt
  have e0 : (sd.toNat * 2 + false.toNat) / 2 = sd.toNat := by simp only [Bool.toNat_false] <;> omega
  have e1 : (sd.toNat * 2 + false.toNat) % 2 = false.toNat := by simp only [Bool.toNat_false] <;> omega
  have ff : false.toNat = 0 := rfl
  refine (decode_wV2 (Guard.code_lt g) ?_ ?_ ?_ ?_ ?_ ?_).trans ?_ <;>
    first | omega | simp [decodeV2, v2, vs, vcmp, e0, e1]
theorem vscatter (g : Guard) (w : BitVec 2) (sd : Bool) (d : BitVec 5) (a : Reg) (x : BitVec 5) : Statement (.vscatter g w sd d a x) := by
  rintro x hw ⟨⟩
  have f0 := w.isLt
  have f1 := toNat_lt_two sd
  have f2 := d.isLt
  have f3 := Reg.code_lt a
  have f4 := x.isLt
  have e0 : (sd.toNat * 2 + false.toNat) / 2 = sd.toNat := by simp only [Bool.toNat_false] <;> omega
  have e1 : (sd.toNat * 2 + false.toNat) % 2 = false.toNat := by simp only [Bool.toNat_false] <;> omega
  have ff : false.toNat = 0 := rfl
  refine (decode_wV2 (Guard.code_lt g) ?_ ?_ ?_ ?_ ?_ ?_).trans ?_ <;>
    first | omega | simp [decodeV2, v2, vs, vcmp, e0, e1]
theorem vamo (g : Guard) (w : BitVec 2) (sd : Bool) (d : BitVec 5) (a : Reg) (k : VAmo) : Statement (.vamo g w sd d a k) := by
  rintro x hw ⟨⟩
  have f0 := w.isLt
  have f1 := toNat_lt_two sd
  have f2 := d.isLt
  have f3 := Reg.code_lt a
  have f4 := VAmo.code_lt k
  have e0 : (sd.toNat * 2 + false.toNat) / 2 = sd.toNat := by simp only [Bool.toNat_false] <;> omega
  have e1 : (sd.toNat * 2 + false.toNat) % 2 = false.toNat := by simp only [Bool.toNat_false] <;> omega
  have ff : false.toNat = 0 := rfl
  have e2 : k.code / 16 = 0 := by omega
  have e3 : k.code / 8 % 2 = 0 := by omega
  have e4 : k.code % 8 = k.code := by omega
  refine (decode_wV2 (Guard.code_lt g) ?_ ?_ ?_ ?_ ?_ ?_).trans ?_ <;>
    first | omega | simp [decodeV2, v2, vs, vcmp, e0, e1, e2, e3, e4]
theorem vamoG (g : Guard) (w : BitVec 2) (sd : Bool) (d : BitVec 5) (a : Reg) (k : VAmo) : Statement (.vamoG g w sd d a k) := by
  rintro x hw ⟨⟩
  have f0 := w.isLt
  have f1 := toNat_lt_two sd
  have f2 := d.isLt
  have f3 := Reg.code_lt a
  have f4 := VAmo.code_lt k
  have e0 : (sd.toNat * 2 + false.toNat) / 2 = sd.toNat := by simp only [Bool.toNat_false] <;> omega
  have e1 : (sd.toNat * 2 + false.toNat) % 2 = false.toNat := by simp only [Bool.toNat_false] <;> omega
  have ff : false.toNat = 0 := rfl
  have e2 : (16 + k.code) / 16 = 1 := by omega
  have e3 : (16 + k.code) / 8 % 2 = 0 := by omega
  have e4 : (16 + k.code) % 8 = k.code := by omega
  refine (decode_wV2 (Guard.code_lt g) ?_ ?_ ?_ ?_ ?_ ?_).trans ?_ <;>
    first | omega | simp [decodeV2, v2, vs, vcmp, e0, e1, e2, e3, e4]
theorem put (g : Guard) (d : Reg) (a : Reg) (b : Reg) (q : Option Scope) (z : Size) : Statement (.put g d a b q z) := by
  rintro w hw ⟨⟩
  have f0 := Reg.code_lt d
  have f1 := Reg.code_lt a
  have f2 := Reg.code_lt b
  have f3 := ordBit_lt q
  have f4 := ordScope_lt q
  have f5 := Size.code_lt z
  have e0 : (z.code * 2 + ordBit q) / 2 = z.code := by omega
  have e1 : (z.code * 2 + ordBit q) % 2 = ordBit q := by omega
  refine (decode_w5 (Guard.code_lt g) ?_ ?_ ?_ ?_ ?_ ?_).trans ?_ <;>
    first | omega | simp [decode5, dab, da, e0, e1]
theorem putv (g : Guard) (d : Reg) (a : Reg) (b : BitVec 5) (q : Option Scope) : Statement (.putv g d a b q) := by
  rintro w hw ⟨⟩
  have f0 := Reg.code_lt d
  have f1 := Reg.code_lt a
  have f2 := b.isLt
  have f3 := ordBit_lt q
  have f4 := ordScope_lt q
  have e0 : (3 * 2 + ordBit q) / 2 = 3 := by omega
  have e1 : (3 * 2 + ordBit q) % 2 = ordBit q := by omega
  have e2 : (6 + ordBit q) / 2 = 3 := by omega
  have e3 : (6 + ordBit q) % 2 = ordBit q := by omega
  refine (decode_w5 (Guard.code_lt g) ?_ ?_ ?_ ?_ ?_ ?_).trans ?_ <;>
    first | omega | simp [decode5, dab, da, e0, e1, e2, e3]
theorem get (g : Guard) (d : Reg) (a : Reg) (q : Option Scope) (z : Size) : Statement (.get g d a q z) := by
  rintro w hw ⟨⟩
  have f0 := Reg.code_lt d
  have f1 := Reg.code_lt a
  have f2 := ordBit_lt q
  have f3 := ordScope_lt q
  have f4 := Size.code_lt z
  have e0 := retReg_code d (by simpa [WellFormed] using hw)
  have e1 : (z.code * 2 + ordBit q) / 2 = z.code := by omega
  have e2 : (z.code * 2 + ordBit q) % 2 = ordBit q := by omega
  refine (decode_w5 (Guard.code_lt g) ?_ ?_ ?_ ?_ ?_ ?_).trans ?_ <;>
    first | omega | simp [decode5, dab, da, e0, e1, e2]
theorem amsg (g : Guard) (d : Reg) (a : Reg) (b : Reg) : Statement (.amsg g d a b) := by
  rintro w hw ⟨⟩
  have f0 := Reg.code_lt d
  have f1 := Reg.code_lt a
  have f2 := Reg.code_lt b
  refine (decode_w5 (Guard.code_lt g) ?_ ?_ ?_ ?_ ?_ ?_).trans ?_ <;>
    first | omega | simp [decode5, dab, da]
theorem red (g : Guard) (a : Reg) (b : Reg) (k : Amo) : Statement (.red g a b k) := by
  rintro w hw ⟨⟩
  have f0 := Reg.code_lt a
  have f1 := Reg.code_lt b
  have f2 := Amo.redCode_lt k (by rintro rfl; cases hw)
  have e0 := Amo.ofRedCode_code k (by rintro rfl; cases hw)
  refine (decode_w5 (Guard.code_lt g) ?_ ?_ ?_ ?_ ?_ ?_).trans ?_ <;>
    first | omega | simp [decode5, dab, da, e0]
theorem rll (g : Guard) (d : Reg) (a : Reg) (q : Option Scope) (z : Bool) : Statement (.rll g d a q z) := by
  rintro w hw ⟨⟩
  have f0 := Reg.code_lt d
  have f1 := Reg.code_lt a
  have f2 := ordBit_lt q
  have f3 := ordScope_lt q
  have f4 := toNat_lt_two z
  have e0 := retReg_code d (by simpa [WellFormed] using hw)
  have e1 : (4 + z.toNat * 2 + ordBit q) / 4 = 1 := by omega
  have e2 : (4 + z.toNat * 2 + ordBit q) % 2 = ordBit q := by omega
  have e3 : (4 + z.toNat * 2 + ordBit q) / 2 % 2 = z.toNat := by omega
  refine (decode_w5 (Guard.code_lt g) ?_ ?_ ?_ ?_ ?_ ?_).trans ?_ <;>
    first | omega | simp [decode5, dab, da, e0, e1, e2, e3]
theorem rsc (g : Guard) (d : Reg) (a : Reg) (b : Reg) (q : Option Scope) (z : Bool) : Statement (.rsc g d a b q z) := by
  rintro w hw ⟨⟩
  have f0 := Reg.code_lt d
  have f1 := Reg.code_lt a
  have f2 := Reg.code_lt b
  have f3 := ordBit_lt q
  have f4 := ordScope_lt q
  have f5 := toNat_lt_two z
  have e0 := retReg_code d (by simpa [WellFormed] using hw)
  have e1 : (4 + z.toNat * 2 + ordBit q) / 4 = 1 := by omega
  have e2 : (4 + z.toNat * 2 + ordBit q) % 2 = ordBit q := by omega
  have e3 : (4 + z.toNat * 2 + ordBit q) / 2 % 2 = z.toNat := by omega
  refine (decode_w5 (Guard.code_lt g) ?_ ?_ ?_ ?_ ?_ ?_).trans ?_ <;>
    first | omega | simp [decode5, dab, da, e0, e1, e2, e3]
theorem postMx (g : Guard) (a : BitVec 5) : Statement (.postMx g a) := by
  rintro w hw ⟨⟩
  have f0 := a.isLt
  refine (decode_w5 (Guard.code_lt g) ?_ ?_ ?_ ?_ ?_ ?_).trans ?_ <;>
    first | omega | simp [decode5, dab, da]
theorem postCp (g : Guard) (a : BitVec 5) : Statement (.postCp g a) := by
  rintro w hw ⟨⟩
  have f0 := a.isLt
  refine (decode_w5 (Guard.code_lt g) ?_ ?_ ?_ ?_ ?_ ?_).trans ?_ <;>
    first | omega | simp [decode5, dab, da]
theorem fwd (g : Guard) (d : Dir) (a : Dir) : Statement (.fwd g d a) := by
  rintro w hw ⟨⟩
  have f0 := Dir.code_lt d
  have f1 := Dir.code_lt a
  refine (decode_w5 (Guard.code_lt g) ?_ ?_ ?_ ?_ ?_ ?_).trans ?_ <;>
    first | omega | simp [decode5, dab, da]
theorem corr (g : Guard) (a : Reg) (b : Reg) : Statement (.corr g a b) := by
  rintro w hw ⟨⟩
  have f0 := Reg.code_lt a
  have f1 := Reg.code_lt b
  refine (decode_w5 (Guard.code_lt g) ?_ ?_ ?_ ?_ ?_ ?_).trans ?_ <;>
    first | omega | simp [decode5, dab, da]
theorem mgetLink (g : Guard) (d : Reg) (a : Reg) (b : Reg) (p : BitVec 3) : Statement (.mgetLink g d a b p) := by
  rintro w hw ⟨⟩
  have f0 := Reg.code_lt d
  have f1 := Reg.code_lt a
  have f2 := Reg.code_lt b
  have f3 := p.isLt
  have e0 := predDest_toNat p (by simpa [WellFormed] using hw)
  refine (decode_w6 (Guard.code_lt g) ?_ ?_ ?_ ?_ ?_ ?_).trans ?_ <;>
    first | omega | simp [decode6, dabp, abp, da, dab, e0]
theorem mgetTwin (g : Guard) (d : Reg) (a : Reg) (b : Reg) (p : BitVec 3) : Statement (.mgetTwin g d a b p) := by
  rintro w hw ⟨⟩
  have f0 := Reg.code_lt d
  have f1 := Reg.code_lt a
  have f2 := Reg.code_lt b
  have f3 := p.isLt
  have e0 := predDest_toNat p (by simpa [WellFormed] using hw)
  refine (decode_w6 (Guard.code_lt g) ?_ ?_ ?_ ?_ ?_ ?_).trans ?_ <;>
    first | omega | simp [decode6, dabp, abp, da, dab, e0]
theorem mgetOrigin (g : Guard) (d : Reg) (a : Reg) (b : Reg) (p : BitVec 3) : Statement (.mgetOrigin g d a b p) := by
  rintro w hw ⟨⟩
  have f0 := Reg.code_lt d
  have f1 := Reg.code_lt a
  have f2 := Reg.code_lt b
  have f3 := p.isLt
  have e0 := predDest_toNat p (by simpa [WellFormed] using hw)
  refine (decode_w6 (Guard.code_lt g) ?_ ?_ ?_ ?_ ?_ ?_).trans ?_ <;>
    first | omega | simp [decode6, dabp, abp, da, dab, e0]
theorem mgetEdge (g : Guard) (d : Reg) (a : Reg) (b : Reg) (p : BitVec 3) : Statement (.mgetEdge g d a b p) := by
  rintro w hw ⟨⟩
  have f0 := Reg.code_lt d
  have f1 := Reg.code_lt a
  have f2 := Reg.code_lt b
  have f3 := p.isLt
  have e0 := predDest_toNat p (by simpa [WellFormed] using hw)
  refine (decode_w6 (Guard.code_lt g) ?_ ?_ ?_ ?_ ?_ ?_).trans ?_ <;>
    first | omega | simp [decode6, dabp, abp, da, dab, e0]
theorem mgetFace (g : Guard) (d : Reg) (a : Reg) (b : Reg) (p : BitVec 3) : Statement (.mgetFace g d a b p) := by
  rintro w hw ⟨⟩
  have f0 := Reg.code_lt d
  have f1 := Reg.code_lt a
  have f2 := Reg.code_lt b
  have f3 := p.isLt
  have e0 := predDest_toNat p (by simpa [WellFormed] using hw)
  refine (decode_w6 (Guard.code_lt g) ?_ ?_ ?_ ?_ ?_ ?_).trans ?_ <;>
    first | omega | simp [decode6, dabp, abp, da, dab, e0]
theorem mnext (g : Guard) (d : Reg) (a : Reg) (b : Reg) (p : BitVec 3) : Statement (.mnext g d a b p) := by
  rintro w hw ⟨⟩
  have f0 := Reg.code_lt d
  have f1 := Reg.code_lt a
  have f2 := Reg.code_lt b
  have f3 := p.isLt
  have e0 := predDest_toNat p (by simpa [WellFormed] using hw)
  refine (decode_w6 (Guard.code_lt g) ?_ ?_ ?_ ?_ ?_ ?_).trans ?_ <;>
    first | omega | simp [decode6, dabp, abp, da, dab, e0]
theorem mfldLow (g : Guard) (d : Reg) (a : Reg) (b : Reg) (p : BitVec 3) (j : BitVec 2) : Statement (.mfldLow g d a b p j) := by
  rintro w hw ⟨⟩
  have f0 := Reg.code_lt d
  have f1 := Reg.code_lt a
  have f2 := Reg.code_lt b
  have f3 := p.isLt
  have f4 := j.isLt
  have e0 := predDest_toNat p (by simpa [WellFormed] using hw)
  refine (decode_w6 (Guard.code_lt g) ?_ ?_ ?_ ?_ ?_ ?_).trans ?_ <;>
    first | omega | simp [decode6, dabp, abp, da, dab, e0]
theorem mfldHigh (g : Guard) (d : Reg) (a : Reg) (b : Reg) (p : BitVec 3) (j : BitVec 2) : Statement (.mfldHigh g d a b p j) := by
  rintro w hw ⟨⟩
  have f0 := Reg.code_lt d
  have f1 := Reg.code_lt a
  have f2 := Reg.code_lt b
  have f3 := p.isLt
  have f4 := j.isLt
  have e0 := predDest_toNat p (by simpa [WellFormed] using hw)
  refine (decode_w6 (Guard.code_lt g) ?_ ?_ ?_ ?_ ?_ ?_).trans ?_ <;>
    first | omega | simp [decode6, dabp, abp, da, dab, e0]
theorem mfstLow (g : Guard) (s : Reg) (a : Reg) (b : Reg) (p : BitVec 3) (j : BitVec 2) : Statement (.mfstLow g s a b p j) := by
  rintro w hw ⟨⟩
  have f0 := Reg.code_lt s
  have f1 := Reg.code_lt a
  have f2 := Reg.code_lt b
  have f3 := p.isLt
  have f4 := j.isLt
  have e0 := predDest_toNat p (by simpa [WellFormed] using hw)
  refine (decode_w6 (Guard.code_lt g) ?_ ?_ ?_ ?_ ?_ ?_).trans ?_ <;>
    first | omega | simp [decode6, dabp, abp, da, dab, e0]
theorem mfstHigh (g : Guard) (s : Reg) (a : Reg) (b : Reg) (p : BitVec 3) (j : BitVec 2) : Statement (.mfstHigh g s a b p j) := by
  rintro w hw ⟨⟩
  have f0 := Reg.code_lt s
  have f1 := Reg.code_lt a
  have f2 := Reg.code_lt b
  have f3 := p.isLt
  have f4 := j.isLt
  have e0 := predDest_toNat p (by simpa [WellFormed] using hw)
  refine (decode_w6 (Guard.code_lt g) ?_ ?_ ?_ ?_ ?_ ?_).trans ?_ <;>
    first | omega | simp [decode6, dabp, abp, da, dab, e0]
theorem mval (g : Guard) (a : Reg) (b : Reg) (p : BitVec 3) : Statement (.mval g a b p) := by
  rintro w hw ⟨⟩
  have f0 := Reg.code_lt a
  have f1 := Reg.code_lt b
  have f2 := p.isLt
  have e0 := predDest_toNat p (by simpa [WellFormed] using hw)
  refine (decode_w6 (Guard.code_lt g) ?_ ?_ ?_ ?_ ?_ ?_).trans ?_ <;>
    first | omega | simp [decode6, dabp, abp, da, dab, e0]
theorem mclaim (g : Guard) (a : Reg) (b : Reg) (p : BitVec 3) : Statement (.mclaim g a b p) := by
  rintro w hw ⟨⟩
  have f0 := Reg.code_lt a
  have f1 := Reg.code_lt b
  have f2 := p.isLt
  have e0 := predDest_toNat p (by simpa [WellFormed] using hw)
  refine (decode_w6 (Guard.code_lt g) ?_ ?_ ?_ ?_ ?_ ?_).trans ?_ <;>
    first | omega | simp [decode6, dabp, abp, da, dab, e0]
theorem mrel (g : Guard) (a : Reg) (b : Reg) (p : BitVec 3) : Statement (.mrel g a b p) := by
  rintro w hw ⟨⟩
  have f0 := Reg.code_lt a
  have f1 := Reg.code_lt b
  have f2 := p.isLt
  have e0 := predDest_toNat p (by simpa [WellFormed] using hw)
  refine (decode_w6 (Guard.code_lt g) ?_ ?_ ?_ ?_ ?_ ?_).trans ?_ <;>
    first | omega | simp [decode6, dabp, abp, da, dab, e0]
theorem msplit (g : Guard) (d : Reg) (a : Reg) (b : Reg) (p : BitVec 3) : Statement (.msplit g d a b p) := by
  rintro w hw ⟨⟩
  have f0 := Reg.code_lt d
  have f1 := Reg.code_lt a
  have f2 := Reg.code_lt b
  have f3 := p.isLt
  have e0 := predDest_toNat p (by simpa [WellFormed] using hw)
  refine (decode_w6 (Guard.code_lt g) ?_ ?_ ?_ ?_ ?_ ?_).trans ?_ <;>
    first | omega | simp [decode6, dabp, abp, da, dab, e0]
theorem mcoll (g : Guard) (d : Reg) (a : Reg) (b : Reg) (p : BitVec 3) : Statement (.mcoll g d a b p) := by
  rintro w hw ⟨⟩
  have f0 := Reg.code_lt d
  have f1 := Reg.code_lt a
  have f2 := Reg.code_lt b
  have f3 := p.isLt
  have e0 := predDest_toNat p (by simpa [WellFormed] using hw)
  refine (decode_w6 (Guard.code_lt g) ?_ ?_ ?_ ?_ ?_ ?_).trans ?_ <;>
    first | omega | simp [decode6, dabp, abp, da, dab, e0]
theorem mflip (g : Guard) (d : Reg) (a : Reg) (b : Reg) (p : BitVec 3) : Statement (.mflip g d a b p) := by
  rintro w hw ⟨⟩
  have f0 := Reg.code_lt d
  have f1 := Reg.code_lt a
  have f2 := Reg.code_lt b
  have f3 := p.isLt
  have e0 := predDest_toNat p (by simpa [WellFormed] using hw)
  refine (decode_w6 (Guard.code_lt g) ?_ ?_ ?_ ?_ ?_ ?_).trans ?_ <;>
    first | omega | simp [decode6, dabp, abp, da, dab, e0]
theorem mref (g : Guard) (d : Reg) (a : Reg) (b : Reg) (p : BitVec 3) : Statement (.mref g d a b p) := by
  rintro w hw ⟨⟩
  have f0 := Reg.code_lt d
  have f1 := Reg.code_lt a
  have f2 := Reg.code_lt b
  have f3 := p.isLt
  have e0 := predDest_toNat p (by simpa [WellFormed] using hw)
  refine (decode_w6 (Guard.code_lt g) ?_ ?_ ?_ ?_ ?_ ?_).trans ?_ <;>
    first | omega | simp [decode6, dabp, abp, da, dab, e0]
theorem mround (g : Guard) (d : Reg) (a : Reg) : Statement (.mround g d a) := by
  rintro w hw ⟨⟩
  have f0 := Reg.code_lt d
  have f1 := Reg.code_lt a
  refine (decode_w6 (Guard.code_lt g) ?_ ?_ ?_ ?_ ?_ ?_).trans ?_ <;>
    first | omega | simp [decode6, dabp, abp, da, dab]
theorem verpub (g : Guard) (d : Reg) (a : Reg) : Statement (.verpub g d a) := by
  rintro w hw ⟨⟩
  have f0 := Reg.code_lt d
  have f1 := Reg.code_lt a
  refine (decode_w6 (Guard.code_lt g) ?_ ?_ ?_ ?_ ?_ ?_).trans ?_ <;>
    first | omega | simp [decode6, dabp, abp, da, dab]
theorem verpubO (g : Guard) (d : Reg) (a : Reg) : Statement (.verpubO g d a) := by
  rintro w hw ⟨⟩
  have f0 := Reg.code_lt d
  have f1 := Reg.code_lt a
  refine (decode_w6 (Guard.code_lt g) ?_ ?_ ?_ ?_ ?_ ?_).trans ?_ <;>
    first | omega | simp [decode6, dabp, abp, da, dab]
theorem verpubFin (g : Guard) (d : Reg) (a : Reg) : Statement (.verpubFin g d a) := by
  rintro w hw ⟨⟩
  have f0 := Reg.code_lt d
  have f1 := Reg.code_lt a
  refine (decode_w6 (Guard.code_lt g) ?_ ?_ ?_ ?_ ?_ ?_).trans ?_ <;>
    first | omega | simp [decode6, dabp, abp, da, dab]
theorem verstop (g : Guard) (d : Reg) (a : Reg) : Statement (.verstop g d a) := by
  rintro w hw ⟨⟩
  have f0 := Reg.code_lt d
  have f1 := Reg.code_lt a
  refine (decode_w6 (Guard.code_lt g) ?_ ?_ ?_ ?_ ?_ ?_).trans ?_ <;>
    first | omega | simp [decode6, dabp, abp, da, dab]
theorem verwait (g : Guard) (d : Reg) (a : Reg) (b : Reg) : Statement (.verwait g d a b) := by
  rintro w hw ⟨⟩
  have f0 := Reg.code_lt d
  have f1 := Reg.code_lt a
  have f2 := Reg.code_lt b
  refine (decode_w6 (Guard.code_lt g) ?_ ?_ ?_ ?_ ?_ ?_).trans ?_ <;>
    first | omega | simp [decode6, dabp, abp, da, dab]
theorem verchk (g : Guard) (a : Reg) (b : Reg) (p : BitVec 3) : Statement (.verchk g a b p) := by
  rintro w hw ⟨⟩
  have f0 := Reg.code_lt a
  have f1 := Reg.code_lt b
  have f2 := p.isLt
  have e0 := predDest_toNat p (by simpa [WellFormed] using hw)
  refine (decode_w6 (Guard.code_lt g) ?_ ?_ ?_ ?_ ?_ ?_).trans ?_ <;>
    first | omega | simp [decode6, dabp, abp, da, dab, e0]
theorem verchkD (g : Guard) (a : Reg) (b : Reg) (p : BitVec 3) : Statement (.verchkD g a b p) := by
  rintro w hw ⟨⟩
  have f0 := Reg.code_lt a
  have f1 := Reg.code_lt b
  have f2 := p.isLt
  have e0 := predDest_toNat p (by simpa [WellFormed] using hw)
  refine (decode_w6 (Guard.code_lt g) ?_ ?_ ?_ ?_ ?_ ?_).trans ?_ <;>
    first | omega | simp [decode6, dabp, abp, da, dab, e0]
theorem versettle (g : Guard) (a : Reg) (p : BitVec 3) : Statement (.versettle g a p) := by
  rintro w hw ⟨⟩
  have f0 := Reg.code_lt a
  have f1 := p.isLt
  have e0 := predDest_toNat p (by simpa [WellFormed] using hw)
  refine (decode_w6 (Guard.code_lt g) ?_ ?_ ?_ ?_ ?_ ?_).trans ?_ <;>
    first | omega | simp [decode6, dabp, abp, da, dab, e0]
theorem versettleT (g : Guard) (a : Reg) (p : BitVec 3) : Statement (.versettleT g a p) := by
  rintro w hw ⟨⟩
  have f0 := Reg.code_lt a
  have f1 := p.isLt
  have e0 := predDest_toNat p (by simpa [WellFormed] using hw)
  refine (decode_w6 (Guard.code_lt g) ?_ ?_ ?_ ?_ ?_ ?_).trans ?_ <;>
    first | omega | simp [decode6, dabp, abp, da, dab, e0]
theorem gosadd (g : Guard) (a : Reg) (b : Reg) : Statement (.gosadd g a b) := by
  rintro w hw ⟨⟩
  have f0 := Reg.code_lt a
  have f1 := Reg.code_lt b
  refine (decode_w6 (Guard.code_lt g) ?_ ?_ ?_ ?_ ?_ ?_).trans ?_ <;>
    first | omega | simp [decode6, dabp, abp, da, dab]
theorem gosest (g : Guard) (d : Reg) (a : Reg) (p : BitVec 3) : Statement (.gosest g d a p) := by
  rintro w hw ⟨⟩
  have f0 := Reg.code_lt d
  have f1 := Reg.code_lt a
  have f2 := p.isLt
  have e0 := predDest_toNat p (by simpa [WellFormed] using hw)
  refine (decode_w6 (Guard.code_lt g) ?_ ?_ ?_ ?_ ?_ ?_).trans ?_ <;>
    first | omega | simp [decode6, dabp, abp, da, dab, e0]
theorem gosspr (g : Guard) (d : Reg) (a : Reg) : Statement (.gosspr g d a) := by
  rintro w hw ⟨⟩
  have f0 := Reg.code_lt d
  have f1 := Reg.code_lt a
  refine (decode_w6 (Guard.code_lt g) ?_ ?_ ?_ ?_ ?_ ?_).trans ?_ <;>
    first | omega | simp [decode6, dabp, abp, da, dab]
theorem gosset (g : Guard) (d : Reg) (a : Reg) (b : Reg) : Statement (.gosset g d a b) := by
  rintro w hw ⟨⟩
  have f0 := Reg.code_lt d
  have f1 := Reg.code_lt a
  have f2 := Reg.code_lt b
  refine (decode_w6 (Guard.code_lt g) ?_ ?_ ?_ ?_ ?_ ?_).trans ?_ <;>
    first | omega | simp [decode6, dabp, abp, da, dab]
theorem bar (g : Guard) (d : Reg) (a : Reg) : Statement (.bar g d a) := by
  rintro w hw ⟨⟩
  have f0 := Reg.code_lt d
  have f1 := Reg.code_lt a
  refine (decode_w6 (Guard.code_lt g) ?_ ?_ ?_ ?_ ?_ ?_).trans ?_ <;>
    first | omega | simp [decode6, dabp, abp, da, dab]
theorem barv (g : Guard) (d : Reg) (a : Reg) (b : Reg) : Statement (.barv g d a b) := by
  rintro w hw ⟨⟩
  have f0 := Reg.code_lt d
  have f1 := Reg.code_lt a
  have f2 := Reg.code_lt b
  refine (decode_w6 (Guard.code_lt g) ?_ ?_ ?_ ?_ ?_ ?_).trans ?_ <;>
    first | omega | simp [decode6, dabp, abp, da, dab]
theorem bwait (g : Guard) (a : Reg) (b : Reg) (p : BitVec 3) : Statement (.bwait g a b p) := by
  rintro w hw ⟨⟩
  have f0 := Reg.code_lt a
  have f1 := Reg.code_lt b
  have f2 := p.isLt
  have e0 := predDest_toNat p (by simpa [WellFormed] using hw)
  refine (decode_w6 (Guard.code_lt g) ?_ ?_ ?_ ?_ ?_ ?_).trans ?_ <;>
    first | omega | simp [decode6, dabp, abp, da, dab, e0]
theorem chsend (g : Guard) (a : Reg) (b : Reg) (p : BitVec 3) : Statement (.chsend g a b p) := by
  rintro w hw ⟨⟩
  have f0 := Reg.code_lt a
  have f1 := Reg.code_lt b
  have f2 := p.isLt
  have e0 := predDest_toNat p (by simpa [WellFormed] using hw)
  refine (decode_w6 (Guard.code_lt g) ?_ ?_ ?_ ?_ ?_ ?_).trans ?_ <;>
    first | omega | simp [decode6, dabp, abp, da, dab, e0]
theorem chrecv (g : Guard) (d : Reg) (a : Reg) (p : BitVec 3) : Statement (.chrecv g d a p) := by
  rintro w hw ⟨⟩
  have f0 := Reg.code_lt d
  have f1 := Reg.code_lt a
  have f2 := p.isLt
  have e0 := predDest_toNat p (by simpa [WellFormed] using hw)
  refine (decode_w6 (Guard.code_lt g) ?_ ?_ ?_ ?_ ?_ ?_).trans ?_ <;>
    first | omega | simp [decode6, dabp, abp, da, dab, e0]
theorem hqput (g : Guard) (d : Reg) (a : Reg) (b : Reg) : Statement (.hqput g d a b) := by
  rintro w hw ⟨⟩
  have f0 := Reg.code_lt d
  have f1 := Reg.code_lt a
  have f2 := Reg.code_lt b
  refine (decode_w6 (Guard.code_lt g) ?_ ?_ ?_ ?_ ?_ ?_).trans ?_ <;>
    first | omega | simp [decode6, dabp, abp, da, dab]
theorem hqpeek (g : Guard) (d : Reg) (a : Reg) (b : Reg) : Statement (.hqpeek g d a b) := by
  rintro w hw ⟨⟩
  have f0 := Reg.code_lt d
  have f1 := Reg.code_lt a
  have f2 := Reg.code_lt b
  refine (decode_w6 (Guard.code_lt g) ?_ ?_ ?_ ?_ ?_ ?_).trans ?_ <;>
    first | omega | simp [decode6, dabp, abp, da, dab]
theorem hqrel (g : Guard) (d : Reg) (a : Reg) (b : Reg) : Statement (.hqrel g d a b) := by
  rintro w hw ⟨⟩
  have f0 := Reg.code_lt d
  have f1 := Reg.code_lt a
  have f2 := Reg.code_lt b
  refine (decode_w6 (Guard.code_lt g) ?_ ?_ ?_ ?_ ?_ ?_).trans ?_ <;>
    first | omega | simp [decode6, dabp, abp, da, dab]
theorem hqveto (g : Guard) (d : Reg) (a : Reg) (b : Reg) : Statement (.hqveto g d a b) := by
  rintro w hw ⟨⟩
  have f0 := Reg.code_lt d
  have f1 := Reg.code_lt a
  have f2 := Reg.code_lt b
  refine (decode_w6 (Guard.code_lt g) ?_ ?_ ?_ ?_ ?_ ?_).trans ?_ <;>
    first | omega | simp [decode6, dabp, abp, da, dab]
theorem trap (g : Guard) (i : BitVec 11) : Statement (.trap g i) := by
  rintro w hw ⟨⟩
  have f0 := i.isLt
  refine (decode_w7 (Guard.code_lt g) ?_ ?_ ?_ ?_).trans ?_ <;>
    first | omega | simp [decode7, one, da]
theorem rfe (g : Guard) : Statement (.rfe g) := by
  intro w hw h
  simp only [encode, w7, word, Option.some.injEq] at h
  subst h
  refine (decode_w7 (Guard.code_lt g) ?_ ?_ ?_ ?_).trans ?_ <;>
    first | omega | simp [decode7, one, da]
theorem getc (g : Guard) (d : Reg) (s : BitVec 10) : Statement (.getc g d s) := by
  rintro w hw ⟨⟩
  have f0 := Reg.code_lt d
  have f1 := s.isLt
  have e0 := selector_toNat s (by simpa [WellFormed] using hw)
  have e1 : s.toNat / 1024 = 0 := by omega
  refine (decode_w7 (Guard.code_lt g) ?_ ?_ ?_ ?_).trans ?_ <;>
    first | omega | simp [decode7, one, da, e0, e1]
theorem setc (g : Guard) (a : Reg) (s : BitVec 10) : Statement (.setc g a s) := by
  rintro w hw ⟨⟩
  have f0 := Reg.code_lt a
  have f1 := s.isLt
  have e0 := selector_toNat s (by simpa [WellFormed] using hw)
  have e1 : s.toNat / 1024 = 0 := by omega
  refine (decode_w7 (Guard.code_lt g) ?_ ?_ ?_ ?_).trans ?_ <;>
    first | omega | simp [decode7, one, da, e0, e1]
theorem sleep (g : Guard) (a : Reg) : Statement (.sleep g a) := by
  rintro w hw ⟨⟩
  have f0 := Reg.code_lt a
  refine (decode_w7 (Guard.code_lt g) ?_ ?_ ?_ ?_).trans ?_ <;>
    first | omega | simp [decode7, one, da]
theorem xinv (g : Guard) (a : Reg) (b : Reg) : Statement (.xinv g a b) := by
  rintro w hw ⟨⟩
  have f0 := Reg.code_lt a
  have f1 := Reg.code_lt b
  refine (decode_w7 (Guard.code_lt g) ?_ ?_ ?_ ?_).trans ?_ <;>
    first | omega | simp [decode7, one, da]
theorem brkpt (g : Guard) : Statement (.brkpt g) := by
  intro w hw h
  simp only [encode, w7, word, Option.some.injEq] at h
  subst h
  refine (decode_w7 (Guard.code_lt g) ?_ ?_ ?_ ?_).trans ?_ <;>
    first | omega | simp [decode7, one, da]
theorem halt (g : Guard) : Statement (.halt g) := by
  intro w hw h
  simp only [encode, w7, word, Option.some.injEq] at h
  subst h
  refine (decode_w7 (Guard.code_lt g) ?_ ?_ ?_ ?_).trans ?_ <;>
    first | omega | simp [decode7, one, da]
theorem olog (g : Guard) (d : Reg) (a : Reg) : Statement (.olog g d a) := by
  rintro w hw ⟨⟩
  have f0 := Reg.code_lt d
  have f1 := Reg.code_lt a
  refine (decode_w7 (Guard.code_lt g) ?_ ?_ ?_ ?_).trans ?_ <;>
    first | omega | simp [decode7, one, da]
theorem probe (g : Guard) (d : Reg) (a : Reg) : Statement (.probe g d a) := by
  rintro w hw ⟨⟩
  have f0 := Reg.code_lt d
  have f1 := Reg.code_lt a
  refine (decode_w7 (Guard.code_lt g) ?_ ?_ ?_ ?_).trans ?_ <;>
    first | omega | simp [decode7, one, da]
theorem windowWrite (g : Guard) (a : Reg) (n : BitVec 2) : Statement (.windowWrite g a n) := fun _ _ h => by cases h
theorem tgcfgWrite (g : Guard) (a : Reg) : Statement (.tgcfgWrite g a) := fun _ _ h => by cases h
theorem tvbaseWrite (g : Guard) (a : Reg) : Statement (.tvbaseWrite g a) := fun _ _ h => by cases h
theorem swWrite (g : Guard) (a : Reg) : Statement (.swWrite g a) := fun _ _ h => by cases h
theorem errorRegisterClear (g : Guard) (a : Reg) (e : Engine) : Statement (.errorRegisterClear g a e) := fun _ _ h => by cases h
theorem slpcfgWrite (g : Guard) (a : Reg) : Statement (.slpcfgWrite g a) := fun _ _ h => by cases h
theorem preqPreempt (q : Asker) (core : Nat) (frame : Nat) : Statement (.preqPreempt q core frame) := fun _ _ h => by cases h
theorem preqResumeReissue (q : Asker) (core : Nat) (frame : Nat) : Statement (.preqResumeReissue q core frame) := fun _ _ h => by cases h
theorem preqResumeSkip (q : Asker) (core : Nat) (frame : Nat) : Statement (.preqResumeSkip q core frame) := fun _ _ h => by cases h
theorem preqDiscard (q : Asker) (core : Nat) (frame : Nat) : Statement (.preqDiscard q core frame) := fun _ _ h => by cases h
theorem framePark (core : Nat) (frame : Nat) : Statement (.framePark core frame) := fun _ _ h => by cases h
theorem fatalTrapReport (core : Nat) (frame : Nat) : Statement (.fatalTrapReport core frame) := fun _ _ h => by cases h
theorem engineErrorDelivery (core : Nat) (frame : Nat) : Statement (.engineErrorDelivery core frame) := fun _ _ h => by cases h
theorem frameReady (core : Nat) (frame : Nat) : Statement (.frameReady core frame) := fun _ _ h => by cases h
theorem framePromotion (core : Nat) (frame : Nat) : Statement (.framePromotion core frame) := fun _ _ h => by cases h
theorem divideComplete (core : Nat) : Statement (.divideComplete core) := fun _ _ h => by cases h
theorem sequencerReissue (core : Nat) : Statement (.sequencerReissue core) := fun _ _ h => by cases h
theorem taskPop (core : Nat) (launch : Nat) : Statement (.taskPop core launch) := fun _ _ h => by cases h
theorem handlerStart (core : Nat) : Statement (.handlerStart core) := fun _ _ h => by cases h
theorem migrateArrival (n : Nat) : Statement (.migrateArrival n) := fun _ _ h => by cases h
theorem stealRequest (core : Nat) (launch : Nat) : Statement (.stealRequest core launch) := fun _ _ h => by cases h
theorem stealService (n : Nat) : Statement (.stealService n) := fun _ _ h => by cases h
theorem stealReply (n : Nat) : Statement (.stealReply n) := fun _ _ h => by cases h
theorem stealBackoffExpiry (core : Nat) : Statement (.stealBackoffExpiry core) := fun _ _ h => by cases h
theorem deferredTaskPush (core : Nat) (entry : Nat) : Statement (.deferredTaskPush core entry) := fun _ _ h => by cases h
theorem remoteTaskPush (n : Nat) : Statement (.remoteTaskPush n) := fun _ _ h => by cases h
theorem joinCountdown (n : Nat) : Statement (.joinCountdown n) := fun _ _ h => by cases h
theorem retirementDrainComplete (core : Nat) (frame : Nat) : Statement (.retirementDrainComplete core frame) := fun _ _ h => by cases h
theorem trackerDrainComplete (core : Nat) (t : Nat) : Statement (.trackerDrainComplete core t) := fun _ _ h => by cases h
theorem putArrival (n : Nat) : Statement (.putArrival n) := fun _ _ h => by cases h
theorem getArrival (n : Nat) : Statement (.getArrival n) := fun _ _ h => by cases h
theorem reply (n : Nat) : Statement (.reply n) := fun _ _ h => by cases h
theorem ack (n : Nat) : Statement (.ack n) := fun _ _ h => by cases h
theorem nack (n : Nat) : Statement (.nack n) := fun _ _ h => by cases h
theorem activeArrival (n : Nat) : Statement (.activeArrival n) := fun _ _ h => by cases h
theorem reduceArrival (n : Nat) : Statement (.reduceArrival n) := fun _ _ h => by cases h
theorem reserveArrival (n : Nat) : Statement (.reserveArrival n) := fun _ _ h => by cases h
theorem conditionalStoreArrival (n : Nat) : Statement (.conditionalStoreArrival n) := fun _ _ h => by cases h
theorem objectRequest (n : Nat) : Statement (.objectRequest n) := fun _ _ h => by cases h
theorem objectReply (n : Nat) : Statement (.objectReply n) := fun _ _ h => by cases h
theorem notice (n : Nat) : Statement (.notice n) := fun _ _ h => by cases h
theorem waiterWithdrawal (n : Nat) : Statement (.waiterWithdrawal n) := fun _ _ h => by cases h
theorem meshClaim (e : Nat) : Statement (.meshClaim e) := fun _ _ h => by cases h
theorem mxSetf (core : Nat) : Statement (.mxSetf core) := fun _ _ h => by cases h
theorem mxLda (core : Nat) : Statement (.mxLda core) := fun _ _ h => by cases h
theorem mxLdb (core : Nat) : Statement (.mxLdb core) := fun _ _ h => by cases h
theorem mxMac (core : Nat) : Statement (.mxMac core) := fun _ _ h => by cases h
theorem mxPass (core : Nat) : Statement (.mxPass core) := fun _ _ h => by cases h
theorem mxZero (core : Nat) : Statement (.mxZero core) := fun _ _ h => by cases h
theorem mxDrain (core : Nat) : Statement (.mxDrain core) := fun _ _ h => by cases h
theorem mxMark (core : Nat) : Statement (.mxMark core) := fun _ _ h => by cases h
theorem cpCopy2d (core : Nat) : Statement (.cpCopy2d core) := fun _ _ h => by cases h
theorem cpGather (core : Nat) : Statement (.cpGather core) := fun _ _ h => by cases h
theorem cpScatter (core : Nat) : Statement (.cpScatter core) := fun _ _ h => by cases h
theorem cpFill (core : Nat) : Statement (.cpFill core) := fun _ _ h => by cases h
theorem cpMark (core : Nat) : Statement (.cpMark core) := fun _ _ h => by cases h
theorem commandCompletion (core : Nat) (e : Engine) : Statement (.commandCompletion core e) := fun _ _ h => by cases h
theorem engineWaitTimeout (core : Nat) (e : Engine) : Statement (.engineWaitTimeout core e) := fun _ _ h => by cases h
theorem orderLogWatchdog (core : Nat) (frame : Nat) : Statement (.orderLogWatchdog core frame) := fun _ _ h => by cases h
theorem translationWalk (die : Nat) : Statement (.translationWalk die) := fun _ _ h => by cases h
theorem pageMovedRetry (core : Nat) (id : Nat) : Statement (.pageMovedRetry core id) := fun _ _ h => by cases h
theorem pageSeal : Statement .pageSeal := fun _ _ h => by cases h
theorem pageCopyComplete : Statement .pageCopyComplete := fun _ _ h => by cases h
theorem pageReleased : Statement .pageReleased := fun _ _ h => by cases h
theorem queueEnable (q : Nat) (v : Word) : Statement (.queueEnable q v) := fun _ _ h => by cases h
theorem queueDisable (q : Nat) (v : Word) : Statement (.queueDisable q v) := fun _ _ h => by cases h
theorem queueDoorbell (q : Nat) (v : Word) : Statement (.queueDoorbell q v) := fun _ _ h => by cases h
theorem queueResume (q : Nat) (v : Word) : Statement (.queueResume q v) := fun _ _ h => by cases h
theorem queueFlush (q : Nat) (v : Word) : Statement (.queueFlush q v) := fun _ _ h => by cases h
theorem launch (q : Nat) : Statement (.launch q) := fun _ _ h => by cases h
theorem create (q : Nat) : Statement (.create q) := fun _ _ h => by cases h
theorem activate (q : Nat) : Statement (.activate q) := fun _ _ h => by cases h
theorem close (q : Nat) : Statement (.close q) := fun _ _ h => by cases h
theorem kill (q : Nat) : Statement (.kill q) := fun _ _ h => by cases h
theorem map (q : Nat) : Statement (.map q) := fun _ _ h => by cases h
theorem unmap (q : Nat) : Statement (.unmap q) := fun _ _ h => by cases h
theorem migrate (q : Nat) : Statement (.migrate q) := fun _ _ h => by cases h
theorem park (q : Nat) : Statement (.park q) := fun _ _ h => by cases h
theorem restore (q : Nat) : Statement (.restore q) := fun _ _ h => by cases h
theorem grant (q : Nat) : Statement (.grant q) := fun _ _ h => by cases h
theorem accept (q : Nat) : Statement (.accept q) := fun _ _ h => by cases h
theorem revoke (q : Nat) : Statement (.revoke q) := fun _ _ h => by cases h
theorem createHoldingQueue (q : Nat) : Statement (.createHoldingQueue q) := fun _ _ h => by cases h
theorem launchPlacement (l : Nat) : Statement (.launchPlacement l) := fun _ _ h => by cases h
theorem launchCompletion (l : Nat) : Statement (.launchCompletion l) := fun _ _ h => by cases h
theorem contextDrained (c : Nat) : Statement (.contextDrained c) := fun _ _ h => by cases h
theorem killComplete (c : Nat) : Statement (.killComplete c) := fun _ _ h => by cases h
theorem contextCleanup (c : Nat) : Statement (.contextCleanup c) := fun _ _ h => by cases h
theorem hqStream (h : Nat) : Statement (.hqStream h) := fun _ _ h => by cases h
theorem pqackWrite (h : Nat) (v : Word) : Statement (.pqackWrite h v) := fun _ _ h => by cases h
theorem gossipRound (r : Nat) : Statement (.gossipRound r) := fun _ _ h => by cases h
theorem gossipDrainComplete (r : Nat) : Statement (.gossipDrainComplete r) := fun _ _ h => by cases h
theorem gossipMass (n : Nat) : Statement (.gossipMass n) := fun _ _ h => by cases h
theorem gossipCommit (n : Nat) : Statement (.gossipCommit n) := fun _ _ h => by cases h
theorem gossipWithdrawal (n : Nat) : Statement (.gossipWithdrawal n) := fun _ _ h => by cases h
theorem gossipMassTimeout (i : Nat) : Statement (.gossipMassTimeout i) := fun _ _ h => by cases h
theorem offpackageSend (n : Nat) : Statement (.offpackageSend n) := fun _ _ h => by cases h
theorem postmarkArrival (port : Nat) (m : Msg) : Statement (.postmarkArrival port m) := fun _ _ h => by cases h
theorem deliveryAck (m : Msg) : Statement (.deliveryAck m) := fun _ _ h => by cases h
theorem retentionResend (i : Nat) : Statement (.retentionResend i) := fun _ _ h => by cases h
theorem requestTimeout (core : Nat) (id : Nat) : Statement (.requestTimeout core id) := fun _ _ h => by cases h
theorem noRouteReturn (n : Nat) : Statement (.noRouteReturn n) := fun _ _ h => by cases h
theorem nonrequestDrop (n : Nat) : Statement (.nonrequestDrop n) := fun _ _ h => by cases h
theorem creditReturn (port : Nat) (cls : Nat) (flits : Nat) : Statement (.creditReturn port cls flits) := fun _ _ h => by cases h
theorem linkReplay (port : Nat) : Statement (.linkReplay port) := fun _ _ h => by cases h
theorem linkTrainingStart (port : Nat) : Statement (.linkTrainingStart port) := fun _ _ h => by cases h
theorem linkTrained (port : Nat) (lanes : Nat) (rate : Nat) : Statement (.linkTrained port lanes rate) := fun _ _ h => by cases h
theorem linkTrainingTimeout (port : Nat) : Statement (.linkTrainingTimeout port) := fun _ _ h => by cases h
theorem linkFault (port : Nat) : Statement (.linkFault port) := fun _ _ h => by cases h
theorem linkDisable (port : Nat) : Statement (.linkDisable port) := fun _ _ h => by cases h
theorem linkRelease (port : Nat) : Statement (.linkRelease port) := fun _ _ h => by cases h
theorem linkRetrain (port : Nat) : Statement (.linkRetrain port) := fun _ _ h => by cases h
theorem registerWrite (off : Nat) (v : Word) : Statement (.registerWrite off v) := fun _ _ h => by cases h
theorem sleepExpiry (core : Nat) (frame : Nat) : Statement (.sleepExpiry core frame) := fun _ _ h => by cases h
theorem coreSleep (core : Nat) : Statement (.coreSleep core) := fun _ _ h => by cases h
theorem coreWake (core : Nat) : Statement (.coreWake core) := fun _ _ h => by cases h
theorem eccError (at_ : Granule) (corrected : Bool) : Statement (.eccError at_ corrected) := fun _ _ h => by cases h
theorem selfTestComplete (blk : Block) (r : TestEnd) : Statement (.selfTestComplete blk r) := fun _ _ h => by cases h
theorem thermalWarning (die : Nat) (temp : BitVec 16) : Statement (.thermalWarning die temp) := fun _ _ h => by cases h
theorem thermalStop (die : Nat) (temp : BitVec 16) : Statement (.thermalStop die temp) := fun _ _ h => by cases h
theorem packageStart (hang : Option Nat) (bad : List Nat) : Statement (.packageStart hang bad) := fun _ _ h => by cases h
theorem journalReset : Statement .journalReset := fun _ _ h => by cases h
theorem attestReport (v : Word) : Statement (.attestReport v) := fun _ _ h => by cases h
theorem attestExtend (v : Word) : Statement (.attestExtend v) := fun _ _ h => by cases h
theorem attestComplete : Statement .attestComplete := fun _ _ h => by cases h
theorem illegalInstruction (w : BitVec 32) : Statement (.illegalInstruction w) := fun _ _ h => by cases h
theorem vectorResultWrite (core : Nat) : Statement (.vectorResultWrite core) := fun _ _ h => by cases h
theorem unassignedEngineCommand (core : Nat) (e : Engine) : Statement (.unassignedEngineCommand core e) := fun _ _ h => by cases h
theorem malformedRecord (q : Nat) : Statement (.malformedRecord q) := fun _ _ h => by cases h

end Sys2Proof.Laws.RoundTrip
end

