-- ==== Sys2Proof/Machine/HostRead.lean ====
section
/-! DEFINITION. What the host reads in BAR 0 (R414). A read changes nothing, so it is no step of the machine. -/

namespace Sys2Proof.Machine

/-- Port states as `lkst` numbers them (R207). -/
def portCode : PortSt → Nat
  | .down => 0
  | .training => 1
  | .up => 2
  | .degraded => 3
  | .quarantined => 4
/-- `lkst` (R207). -/
def Port.status (x : Port) : Word :=
  BitVec.ofNat 64 (x.replay * 2 ^ 32 + x.trains % 256 * 2 ^ 24 + x.lanes % 16 * 2 ^ 16 + x.rate % 16 * 2 ^ 8 + portCode x.st)
/-- `lkctl`: its write-only bits read as 0 (R207). -/
def Port.control (x : Port) : Word := if x.dis then 4 else 0
/-- Queue states as `cqcfg` numbers them (R95). -/
def queueCode : QSt → Nat
  | .disabled => 0
  | .running => 1
  | .error => 2
  | .stopped => 3
/-- `cqcfg`: en reads 1 unless the queue is disabled (R95). -/
def HostQueue.config (q : HostQueue) : Word :=
  BitVec.ofNat 64 (q.lsize % 32 * 2 ^ 8 + queueCode q.st * 2 ^ 4 + (if q.st = .disabled then 0 else 1))
/-- A register of a queue's page (R94). -/
def HostQueue.register (q : HostQueue) (off : Nat) : Word :=
  match off with
  | 0x00 => q.base
  | 0x08 => q.cpl
  | 0x10 => q.config
  | 0x18 => BitVec.ofNat 64 q.tail
  | 0x20 => BitVec.ofNat 64 q.head
  | 0x28 => q.err
  | _ => 0
/-- `devst` (R422). -/
def Chip.devst (c : Chip) : Word :=
  BitVec.ofNat 64 (c.starts % 2 ^ 16 * 2 ^ 32 + c.devStep % 256 * 2 ^ 16 + c.devState % 8)
/-- The doubleword at a position of a byte list, zero beyond its end. -/
def doubleword (b : List Byte) (i : Nat) : Word := BitVec.ofNat 64 (field b i 8)
/-- The security block, by the offset in its region (R417, R418, R420). `atctl` reads as zero. -/
def State.securityRead (s : State) (off : Nat) : Word :=
  if off = 0x8 then BitVec.ofNat 64 s.chip.atst
  else if 0x100 ≤ off ∧ off < 0x130 then doubleword (toLe 48 s.chip.nonce.toNat) (off - 0x100)
  else if 0x200 ≤ off ∧ off < 0x260 then doubleword (toBe 96 Config.publicKey.toNat) (off - 0x200)
  else if off = 0x3F8 then Config.certLength
  else if 0x400 ≤ off ∧ off < 0x1000 then doubleword ((List.range 8).map fun i => Config.certByte (off - 0x400 + i)) 0
  else if 0x1000 ≤ off ∧ off < 0x1250 then doubleword s.chip.report (off - 0x1000)
  else if 0x1400 ≤ off ∧ off < 0x1580 then
    doubleword (s.mr.toList.flatMap fun m => toLe 48 m.toNat) (off - 0x1400)
  else 0
/-- The doubleword that the host reads at an offset of BAR 0, a multiple of 8 (R414, R415); an unlisted offset reads as zero. -/
def State.barRead (s : State) (off : Nat) : Word :=
  let c := s.chip
  if off = 0x0 then c.devst
  else if off = 0x10 then c.hlhead.setWidth 64
  else if 0x10000 ≤ off ∧ off < 0x12000 then s.securityRead (off - 0x10000)
  else if 0x20000 ≤ off ∧ off < 0x20900 then
    let m := c.monitor ((off - 0x20000) / 0x100)
    match off % 0x100 with
    | 0x00 => m.tmon
    | 0x08 => m.vmon
    | 0x10 => m.pmon
    | _ => 0
  else if 0x30000 ≤ off ∧ off < 0x32000 then
    doubleword (toLe 32 (tget 0 c.health ((off - 0x30000) / 32)).toNat) (off % 32)
  else if 0x40000 ≤ off ∧ off < 0x41000 then
    doubleword ((List.range 8).map fun i => tget 0 c.journal (off - 0x40000 + i)) 0
  else if 0x1000000 ≤ off ∧ off < 0x1800000 then
    doubleword (toLe 128 (tget 0 c.ring ((off - 0x1000000) / 128)).toNat) (off % 128)
  else if 0x1800000 ≤ off ∧ off < 0x2000000 then
    doubleword (toLe 128 (tget 0 c.signatures ((off - 0x1800000) / 128)).toNat) (off % 128)
  else if 0x2000000 ≤ off ∧ off < 0x2010000 then
    let x := c.portAt (off / 0x1000 % 16)
    match off % 0x1000 with
    | 0x0 => x.status
    | 0x8 => x.control
    | _ => 0
  else if off = 0x2010000 then c.fabcfg
  else if 0x2020000 ≤ off ∧ off < 0x2022000 then rd64 c.exports (off - 0x2020000)
  else if 0x4000000 ≤ off ∧ off < 0x8000000 then
    let q := (off - 0x4000000) / 0x1000
    if c.hasQueue q then (c.queueAt q).register (off % 0x1000) else 0
  else if 0x8000000 ≤ off ∧ off < 0x8400000 then
    match tfind c.hqs ((off - 0x8000000) / 0x1000) with
    | some h => if off % 0x1000 = 0 then h.pqack else 0
    | none => 0
  else 0

end Sys2Proof.Machine
end

