-- ==== Sys2Proof/Safety.lean ====
section
/-! DEFINITION. The terms that claims use: what a safe run is, what an instruction needs before it can run (its guard, its
registers, its links), the value a register field gives and the package after it is read or written. -/

namespace Sys2Proof.Machine

/-! ## Runs -/

/-- k steps from a state all answer a next state. -/
def SafeFor (s : State) : Nat → Prop
  | 0 => True
  | k + 1 => ∃ t, step s = .next t ∧ SafeFor t k
/-- A state from which no run ends. -/
def Safe (s : State) : Prop := ∀ k, SafeFor s k

/-! ## The issuing frame -/

/-- The issuing frame (R17). -/
def Chip.me (c : Chip) : Frame := c.frameAt c.core c.frame
/-- The issuing core. -/
def Chip.here (c : Chip) : Core := c.coreAt c.core
/-- The package with an instruction's word noted, as the issue of the instruction leaves it (R154). -/
def Chip.issuing (c : Chip) (i : Instr) : Chip := { c with word := causeWord i }
/-- The issuing frame goes on to its next instruction (R157). -/
def Chip.goOn (c : Chip) : Chip := c.modFrame c.core c.frame Frame.advance

/-- Nothing stands before the instruction's own effect: no repetition is captured (R269), and the guard holds (R261). -/
def Chip.clear (c : Chip) (g : Guard) : Bool := !c.capturing && guardHolds g c.me.sw

/-! ## Register fields -/

/-- A register field that neither awaits a reply, the divider or the vector unit, nor is shared with the sequencer, nor has
a refusal to report (R61, R326, R369). -/
def Chip.settled (c : Chip) : Reg → Bool
  | .g n => !c.here.pendingReg c.frame n.toNat && !c.here.shared scalarsOf c.frame n.toNat
      && c.me.refusals.all fun x => x.reg != some n.toNat
  | .zr => true
  | r => !c.here.pendingReg c.frame r.code && !c.here.shared scalarsOf c.frame r.code
/-- A register field that is not poisoned (R61). -/
def Chip.sound (c : Chip) : Reg → Bool
  | .g n => c.me.poisoned.all fun p => p.1 != n.toNat
  | _ => true
/-- The first n words of an incoming link were pushed in earlier cycles (R15). -/
def Chip.linkWords (c : Chip) (d : Dir) (n : Nat) : Bool :=
  decide (n ≤ (c.here.links[dirIx d]).length) && ((c.here.links[dirIx d]).take n).all fun w => decide (w.2 < c.now)
/-- The fields of an instruction can be read and written at once (R61, R259, R369). -/
def Chip.usable (c : Chip) (src dst : List Reg) : Bool :=
  (src ++ dst).all c.settled && src.all c.sound
  && [Dir.east, .west, .north, .south].all fun d =>
    c.linkWords d (src.count (.link d)) && decide (dst.count (.link d) ≤ c.pushRoom c.core d)

/-- G(f): the value that a register field gives (R259). -/
def Chip.val (c : Chip) : Reg → Word
  | .g n => c.me.g[n.toFin]
  | .zr => 0
  | .link d => ((c.here.links[dirIx d]).head?.map Prod.fst).getD 0
  | .mb => match c.here.postbox with
    | [] => 0
    | m :: _ => headerOf m c.here.postbox.length
  | .cy => BitVec.ofNat 64 (c.now - c.started)
  | .id => c.idWord
/-- The package after a register field is read: a link's oldest word is popped (R15). -/
def Chip.popped (c : Chip) : Reg → Chip
  | .link d => c.modCore c.core fun k => { k with
      links := k.links.set (dirIx d) (k.links[dirIx d]).tail
      pops := k.pops.set (dirIx d) (c.now :: (k.pops[dirIx d]).filter (· == c.now)) }
  | _ => c
/-- SetG(f, v): the package after a register field is written (R259): a link carries the word to the neighbour, and zr, mb,
cy and id discard it. -/
def Chip.given (c : Chip) (r : Reg) (v : Word) : Chip :=
  match r with
  | .g n => c.modFrame c.core c.frame fun f => f.setReg n v
  | .link d => c.modCore (neighbour c.core d) fun k =>
      { k with links := k.links.set (dirIx (opposite d)) (k.links[dirIx (opposite d)] ++ [(v, c.now)]) }
  | _ => c
/-- The package after a register field is written with data that may be poisoned (R61): a poisoned register keeps the address
that the data came from. -/
def Chip.givenData (c : Chip) (r : Reg) (v : Word) (bad : Bool) (addr : Word) : Chip :=
  match r with
  | .g n => let d := c.given r v
    if bad then d.modFrame d.core d.frame fun f => { f with poisoned := f.poisoned ++ [(n.toNat, addr)] } else d
  | _ => c.given r v
/-- The package after a list of fields is read in order. -/
def Chip.poppedAll (c : Chip) : List Reg → Chip
  | [] => c
  | r :: l => (c.popped r).poppedAll l
/-- The package with predicate n of the issuing frame written (R260). -/
def Chip.flagged (c : Chip) (n : BitVec 3) (b : Bool) : Chip :=
  c.modFrame c.core c.frame fun f => { f with sw := withPred f.sw n b }

/-! ## What holds an instruction back -/

/-- The sequencer does not run for the issuing frame (R326, R367). -/
def Chip.atRest (c : Chip) : Bool := !c.here.sequencing c.frame
/-- The issuing frame has no refusal to report (R369). -/
def Chip.unrefused (c : Chip) : Bool := c.me.refusals.isEmpty
/-- An access may go ahead: the sequencer is at rest, no acquire of the thread is outstanding and none was refused
(R71, R367, R371). -/
def Chip.mayAccess (c : Chip) : Bool :=
  c.atRest && !(c.here.reqs.any fun p => p.2.owner == .frame c.frame && p.2.acq) && c.me.refusals.all fun x => !x.acq
/-- A release at a scope holds at once (R70, R369). -/
def Chip.releasable (c : Chip) (s : Scope) : Bool := c.unrefused && c.released c.core c.frame s
/-- The release that an ordered instruction carries holds at once. -/
def Chip.orderedBy (c : Chip) (q : Option Scope) : Bool := match q with | none => true | some s => c.releasable s
/-- No message of the issuing thread to its own core, which meets n bytes there in a bank, is still to be performed (R68). -/
def Chip.inTurn (c : Chip) (a n : Nat) : Bool := !c.ahead c.core c.frame a n
/-- The n bytes of the issuing core's scratchpad hold no poisoned granule (R453). -/
def Chip.padSound (c : Chip) (a n : Nat) : Bool := !c.poisonAt (.core c.core) a n
/-- The doubleword of the issuing core's scratchpad at an offset. -/
def Chip.pad64 (c : Chip) (a : Nat) : Word := rd64 c.here.pad a
/-- Vector register v has no result or reply on its way, no refusal to report and no poison (R326, R341). -/
def Chip.vectorIdle (c : Chip) (v : Nat) : Bool :=
  !(c.here.reqs.any fun p => match p.2.want with | .vpart x _ => x == v | _ => false)
  && !(c.here.vec.writes.any fun w => match w.dest with | .v n _ _ | .low n _ _ => n == v | _ => false)
  && c.me.refusals.all (fun x => x.vreg != some v) && c.here.vec.poisoned.all fun p => p.1 != v

end Sys2Proof.Machine
end

