-- ==== Sys2Proof/Certificates/Slice0/Obligations.lean ====
section
/-! DEFINITION. The statements about the model, for the provers. A helper stands in `Sys2Proof.Claims`; each obligation names
the rules it formalises in its docstring, and OBLIGATIONS.json lists it. -/

open Sys2Proof Sys2Proof.Machine

/-! ## Class 000 and 001 -/

namespace Sys2Proof.Claims

/-- The instruction i takes a trap: its whole effect is the entry (R152 to R156), the words of its links left in place. -/
def Traps (s : State) (i : Instr) (word : BitVec 32) (cause detail : Nat) (eaddr : Word) : Prop :=
  exec i s = .next (s.withChip ((({ s.chip with word := word } : Chip).linksOf s.chip s.chip.core).takeTrap s.chip.core
    s.chip.frame word false cause detail eaddr))

/-- A register operation with two sources (R290): both are read in order, the destination is written, the frame goes on. -/
def Binary (k : Guard → Reg → Reg → Reg → Instr) (f : Word → Word → Word) : Prop :=
  ∀ (s : State) (g : Guard) (d a b : Reg), s.chip.clear g = true → s.chip.usable [a, b] [d] = true →
    let c := s.chip.issuing (k g d a b)
    exec (k g d a b) s
      = .next (s.withChip (((c.poppedAll [a, b]).given d (f (c.val a) ((c.popped a).val b))).goOn))

/-- A register operation with one source. -/
def Unary (k : Guard → Reg → Reg → Instr) (f : Word → Word) : Prop :=
  ∀ (s : State) (g : Guard) (d a : Reg), s.chip.clear g = true → s.chip.usable [a] [d] = true →
    let c := s.chip.issuing (k g d a)
    exec (k g d a) s = .next (s.withChip (((c.popped a).given d (f (c.val a))).goOn))

/-- Whether condition n of a compare holds (R303). -/
def compares (n : Nat) (x y : Word) : Bool :=
  match n with
  | 0 => decide (x = y) | 1 => decide (x ≠ y)
  | 2 => decide (x.toInt < y.toInt) | 3 => decide (x.toInt ≤ y.toInt)
  | 4 => decide (y.toInt < x.toInt) | 5 => decide (y.toInt ≤ x.toInt)
  | 6 => decide (x.toNat < y.toNat) | 7 => decide (y.toNat ≤ x.toNat)
  | 8 => decide (x.toNat ≤ y.toNat) | _ => decide (y.toNat < x.toNat)
/-- A predicate operation: the predicate is written, the frame goes on (R305). -/
def Predicates (k : Guard → BitVec 3 → BitVec 3 → BitVec 3 → Instr) (f : Bool → Bool → Bool) : Prop :=
  ∀ (s : State) (g : Guard) (p a b : BitVec 3), s.chip.clear g = true →
    let c := s.chip.issuing (k g p a b)
    exec (k g p a b) s
      = .next (s.withChip ((c.flagged p (f (predOf c.me.sw a) (predOf c.me.sw b))).goOn))

/-- A divide with a nonzero divisor starts the divider, 24 cycles from issue; with a zero divisor it traps (R291, R294). -/
def Divides (k : Guard → Reg → Reg → Reg → Instr) (f : Word → Word → Word) : Prop :=
  ∀ (s : State) (g : Guard) (d a b : Reg), s.chip.clear g = true → s.chip.usable [a, b] [d] = true →
    s.chip.here.divide = none →
    let c := s.chip.issuing (k g d a b)
    ((c.popped a).val b ≠ 0 → exec (k g d a b) s = .next (s.withChip (((c.poppedAll [a, b]).modCore c.core fun h =>
      { h with divide := some ⟨c.frame, c.me.thread, d, f (c.val a) ((c.popped a).val b), c.now + 24⟩ }).goOn)))
    ∧ ((c.popped a).val b = 0 → exec (k g d a b) s = .next (s.withChip
        (((c.poppedAll [a, b]).linksOf s.chip c.core).takeTrap c.core c.frame (causeWord (k g d a b)) false 0x0D 0 0)))

end Sys2Proof.Claims

open Sys2Proof.Claims

/-- R292, R293, R295 to R297, R301: what each two-source instruction of class 000 writes. -/
def Sys2Proof.Claims.TwoSourceResults : Prop :=
  Binary .add (fun x y => BitVec.ofNat 64 (x.toNat + y.toNat))
  ∧ Binary .sub (fun x y => BitVec.ofInt 64 ((x.toNat : Int) - y.toNat))
  ∧ Binary .mul (fun x y => BitVec.ofNat 64 (x.toNat * y.toNat))
  ∧ Binary .mulh (fun x y => BitVec.ofInt 64 (x.toInt * y.toInt / 2 ^ 64))
  ∧ Binary .mulhu (fun x y => BitVec.ofNat 64 (x.toNat * y.toNat / 2 ^ 64))
  ∧ Binary .and (fun x y => x &&& y)
  ∧ Binary .or (fun x y => x ||| y)
  ∧ Binary .xor (fun x y => x ^^^ y)
  ∧ Binary .andn (fun x y => x &&& ~~~y)
  ∧ Binary .shl (fun x y => BitVec.ofNat 64 (x.toNat * 2 ^ (y.toNat % 64)))
  ∧ Binary .shr (fun x y => BitVec.ofNat 64 (x.toNat / 2 ^ (y.toNat % 64)))
  ∧ Binary .sar (fun x y => BitVec.ofInt 64 (x.toInt / 2 ^ (y.toNat % 64)))
  ∧ Binary .rol (fun x y => x.rotateLeft (y.toNat % 64))
  ∧ Binary .ror (fun x y => x.rotateRight (y.toNat % 64))
  ∧ Binary .min (fun x y => if x.toInt < y.toInt then x else y)
  ∧ Binary .max (fun x y => if x.toInt < y.toInt then y else x)
  ∧ Binary .minu (fun x y => if x.toNat < y.toNat then x else y)
  ∧ Binary .maxu (fun x y => if x.toNat < y.toNat then y else x)
  ∧ (∀ m : BitVec 4, Binary (fun g d a b => .lea g d a b m) (fun x y => BitVec.ofNat 64 (x.toNat + y.toNat * 2 ^ m.toNat)))

/-- R300: the bit fields, position from bits 5:0 and width from bits 13:8 of gb, cut at bit 63. -/
def Sys2Proof.Claims.BitFieldResults : Prop :=
  let pos := fun (y : Word) => y.toNat % 64
  let wid := fun (y : Word) => Nat.min (if y.toNat / 256 % 64 = 0 then 64 else y.toNat / 256 % 64) (64 - pos y)
  Binary .bfxu (fun x y => BitVec.ofNat 64 (x.toNat / 2 ^ pos y % 2 ^ wid y))
  ∧ (∀ (s : State) (g : Guard) (d a b : Reg), s.chip.clear g = true → s.chip.usable [a, b] [d] = true →
      let c := s.chip.issuing (.bfx g d a b)
      let x := c.val a
      let y := (c.popped a).val b
      ∃ v : Word, exec (.bfx g d a b) s = .next (s.withChip (((c.poppedAll [a, b]).given d v).goOn))
        ∧ ∀ i : Nat, i < 64 → v.getLsbD i = x.getLsbD (pos y + Nat.min i (wid y - 1)))
  ∧ (∀ (s : State) (g : Guard) (d a b : Reg), s.chip.clear g = true → s.chip.usable [d, a, b] [d] = true →
      let c := s.chip.issuing (.bfi g d a b)
      let x := (c.popped d).val a
      let y := ((c.popped d).popped a).val b
      ∃ v : Word, exec (.bfi g d a b) s = .next (s.withChip (((c.poppedAll [d, a, b]).given d v).goOn))
        ∧ ∀ i : Nat, i < 64 → v.getLsbD i
            = if pos y ≤ i ∧ i < pos y + wid y then x.getLsbD (i - pos y) else (c.val d).getLsbD i)

/-- R292, R295, R296, R298, R299, R302, R304: what the one-source and literal instructions write, and `sel`. -/
def Sys2Proof.Claims.OneSourceResults : Prop :=
  (∀ i : BitVec 11, Unary (fun g d a => .addImm g d a i) (fun x => BitVec.ofNat 64 (x.toNat + i.toNat)))
  ∧ (∀ i : BitVec 11, Unary (fun g d a => .subImm g d a i) (fun x => BitVec.ofInt 64 ((x.toNat : Int) - i.toNat)))
  ∧ (∀ i : BitVec 11, Unary (fun g d a => .andImm g d a i) (fun x => x &&& BitVec.ofNat 64 i.toNat))
  ∧ (∀ i : BitVec 11, Unary (fun g d a => .orImm g d a i) (fun x => x ||| BitVec.ofNat 64 i.toNat))
  ∧ (∀ i : BitVec 11, Unary (fun g d a => .xorImm g d a i) (fun x => x ^^^ BitVec.ofNat 64 i.toNat))
  ∧ (∀ n : BitVec 6, Unary (fun g d a => .shlImm g d a n) (fun x => BitVec.ofNat 64 (x.toNat * 2 ^ n.toNat)))
  ∧ (∀ n : BitVec 6, Unary (fun g d a => .shrImm g d a n) (fun x => BitVec.ofNat 64 (x.toNat / 2 ^ n.toNat)))
  ∧ (∀ n : BitVec 6, Unary (fun g d a => .sarImm g d a n) (fun x => BitVec.ofInt 64 (x.toInt / 2 ^ n.toNat)))
  ∧ Unary .popc (fun x => BitVec.ofNat 64 ((List.range 64).countP fun i => x.getLsbD i))
  ∧ Unary .clz (fun x => BitVec.ofNat 64 (((List.range 64).find? fun i => x.getLsbD (63 - i)).getD 64))
  ∧ Unary .ctz (fun x => BitVec.ofNat 64 (((List.range 64).find? fun i => x.getLsbD i).getD 64))
  ∧ Unary .sext8 (fun x => (x.setWidth 8).signExtend 64)
  ∧ Unary .sext16 (fun x => (x.setWidth 16).signExtend 64)
  ∧ Unary .sext32 (fun x => (x.setWidth 32).signExtend 64)
  ∧ Unary .zext8 (fun x => BitVec.ofNat 64 (x.toNat % 2 ^ 8))
  ∧ Unary .zext16 (fun x => BitVec.ofNat 64 (x.toNat % 2 ^ 16))
  ∧ Unary .zext32 (fun x => BitVec.ofNat 64 (x.toNat % 2 ^ 32))
  ∧ Unary .mov (fun x => x)
  ∧ (∀ (s : State) (g : Guard) (d : Reg) (m : BitVec 2) (i : BitVec 16), s.chip.clear g = true →
      s.chip.usable [] [d] = true →
      exec (.movi g d m i) s = .next (s.withChip
        (((s.chip.issuing (.movi g d m i)).given d (BitVec.ofNat 64 (i.toNat * 2 ^ (16 * m.toNat)))).goOn)))
  ∧ (∀ (s : State) (g : Guard) (d a b : Reg) (neg : Bool) (q : BitVec 3), s.chip.clear g = true →
      s.chip.usable [a, b] [d] = true →
      let c := s.chip.issuing (.sel g d a b neg q)
      exec (.sel g d a b neg q) s = .next (s.withChip (((c.poppedAll [a, b]).given d
        (if predOf c.me.sw q = neg then (c.popped a).val b else c.val a)).goOn)))

/-- R303, R305: the predicate that a compare or a predicate operation writes. -/
def Sys2Proof.Claims.PredicateResults : Prop :=
  (∀ (s : State) (g : Guard) (p : BitVec 3) (a b : Reg) (q : Cond), s.chip.clear g = true →
    s.chip.usable [a, b] [] = true →
    let c := s.chip.issuing (.cmp g p a b q)
    exec (.cmp g p a b q) s = .next (s.withChip
      (((c.poppedAll [a, b]).flagged p (compares q.code (c.val a) ((c.popped a).val b))).goOn)))
  ∧ (∀ (s : State) (g : Guard) (p q : BitVec 3) (a : Reg) (i : BitVec 12), s.chip.clear g = true →
    s.chip.usable [a] [] = true →
    let c := s.chip.issuing (.cmpImm g p q a i)
    exec (.cmpImm g p q a i) s = .next (s.withChip
      (((c.popped a).flagged p (compares q.toNat (c.val a) (BitVec.ofInt 64 i.toInt))).goOn)))
  ∧ Predicates .pand (fun x y => x && y) ∧ Predicates .por (fun x y => x || y)
  ∧ Predicates .pxor (fun x y => x != y) ∧ Predicates .pandn (fun x y => x && !y)

/-- R292, R295, R296, R298 to R300, R302 to R305: the bit fields, the one-source and literal instructions, `sel`, and the
predicates that compares and predicate operations write. -/
def Obligations.FieldLiteralAndFlagResults : Prop :=
  Sys2Proof.Claims.BitFieldResults ∧ Sys2Proof.Claims.OneSourceResults ∧ Sys2Proof.Claims.PredicateResults

/-- R291, R294: a divide starts the divider with its result, or raises 0x0D on a zero divisor. -/
def Sys2Proof.Claims.DivideStartsOrTraps : Prop :=
  Divides .div (fun x y => BitVec.ofInt 64 (x.toInt.tdiv y.toInt))
  ∧ Divides .rem (fun x y => BitVec.ofInt 64 (x.toInt - y.toInt * x.toInt.tdiv y.toInt))
  ∧ Divides .divu (fun x y => BitVec.ofNat 64 (x.toNat / y.toNat))
  ∧ Divides .remu (fun x y => BitVec.ofNat 64 (x.toNat % y.toNat))

/-- R290 to R297, R301: what each two-source instruction of class 000 writes, and what a divide does. -/
def Obligations.ScalarResults : Prop :=
  Sys2Proof.Claims.TwoSourceResults ∧ Sys2Proof.Claims.DivideStartsOrTraps

/-! ## Class 010 -/

namespace Sys2Proof.Claims

/-- The triple that a branch leaves (R267): from (pc, N, NN) with the annul field, whether it is taken, and the target. -/
def branchTriple (f : Frame) (an : BitVec 2) (taken : Bool) (t : Word) : Word × Word × Word :=
  match taken, an.toNat with
  | true, 2 => (t, t + 4, t + 8)
  | true, _ => (f.npc, f.nnpc, t)
  | false, 1 => (f.nnpc + 4, f.nnpc + 8, f.nnpc + 12)
  | false, _ => (f.npc, f.nnpc, f.nnpc + 4)
/-- A state whose issuing frame has the given triple and is otherwise the frame given; the model's list of slots is its own
(log 7). -/
def Moved (c : Chip) (f : Frame) (tr : Word × Word × Word) : Prop :=
  c.me = { f with pc := tr.1, npc := tr.2.1, nnpc := tr.2.2, slots := c.me.slots }

/-- A doubleword of the issuing core's scratchpad that an instruction can read: no poison, and no earlier message of the thread
stands before it (R68, R453). -/
def WordReady (c : Chip) (a : Nat) : Prop := c.padSound a 8 = true ∧ c.inTurn a 8 = true
/-- The join reference j is none, or names a block of this core whose words can be read (R132, R133, R311). -/
def JoinOk (c : Chip) (j : Word) : Prop :=
  j ≠ 0 → tst j 63 = true ∧ bits j 62 18 = 0 ∧ bits j 17 0 % 32 = 0 ∧ bits j 17 0 + 32 ≤ Config.dataEnd
    ∧ WordReady c (bits j 17 0) ∧ WordReady c (bits j 17 0 + 24)
/-- What a spawn needs of its image beyond its operands (R311, R136), and of the deque of its core, which makes one operation in a
cycle (R134). -/
def MaySpawn (c : Chip) (e j : Word) : Prop :=
  e.toNat % 4 = 0 ∧ bits e 63 57 = 0
  ∧ JoinOk c j ∧ c.releasable .pkg = true
  ∧ (c.placeCore c.core c.me.launch (mixName (bits c.me.tname 29 0) (bits c.me.tname 45 30)) = c.core →
      c.here.dequeFull = false ∧ c.dequeFree c.core = true)

/-- The task that a spawn makes (R136): the image, the join reference, and the word with class, sib and name. -/
def spawned (c : Chip) (e x j : Word) : Task :=
  let o := bits j 17 0
  let sib := if j = 0 then 0 else (c.pad64 (o + 24)).toNat % 2 ^ 16
  ⟨e, x, if j = 0 then 0 else BitVec.ofNat 64 (2 ^ 63 + c.pkg * 2 ^ 34 + c.core * 2 ^ 19 + o),
   BitVec.ofNat 64 (c.me.pri * 2 ^ 62 + sib * 2 ^ 46 + mixName (bits c.me.tname 29 0) (bits c.me.tname 45 30)),
   c.me.owner, c.me.ctx, c.supOf c.me.owner⟩

/-- The effect of a spawn from package c on package d (R136, R142, R149): the task is pushed here or on its way to its core,
the join block is counted up and the spawn counter of `tname` goes up by one. -/
def Spawns (c d : Chip) (e x j : Word) : Prop :=
  let target := c.placeCore c.core c.me.launch (mixName (bits c.me.tname 29 0) (bits c.me.tname 45 30))
  (target = c.core → d.here.deque.head? = some (spawned c e x j))
  ∧ (target ≠ c.core → ∃ m ∈ d.net, m.body = .taskPush (spawned c e x j) ∧ m.dest = ⟨c.pkg, .core target⟩)
  ∧ d.me.tname = putBits c.me.tname 45 30 (bits c.me.tname 45 30 + 1)
  ∧ (j ≠ 0 → c.here.pad.wf = true →
      d.pad64 (bits j 17 0) = c.pad64 (bits j 17 0) + 1 ∧ d.pad64 (bits j 17 0 + 24) = c.pad64 (bits j 17 0 + 24) + 1)

/-- The operands of `wtab` and `join` are in range (R312). -/
def MayBind (gc ga : Word) : Prop :=
  gc.toNat % 8 = 0 ∧ gc.toNat + 8 ≤ Config.dataEnd ∧ ga.toNat % 32 = 0 ∧ ga.toNat + 32 ≤ Config.dataEnd
/-- Entry i of package d's core is bound to counter gc, threshold gt and record ga with the given kind and condition
(R138, R139), unless the counter met the threshold at the bind itself (R140). -/
def Bound (d : Chip) (i : Fin 32) (ge : Bool) (kind : Nat) (gc gt ga : Word) : Prop :=
  let v := d.pad64 gc.toNat
  ((if ge then gt.toInt ≤ v.toInt else v = gt) ∧ (d.here.wtab[i]).bound = false) ∨
  ((d.here.wtab[i]).bound = true ∧ (d.here.wtab[i]).threshold = gt ∧ (d.here.wtab[i]).ctr = gc.toNat
    ∧ bits (d.here.wtab[i]).ctl 49 32 = ga.toNat ∧ bits (d.here.wtab[i]).ctl 62 62 = ge.toNat
    ∧ bits (d.here.wtab[i]).ctl 61 61 = kind)

end Sys2Proof.Claims

/-- R267, R307, R308: the triple that each branch leaves, and the link register of a taken call. The list of delay slots
beside the triple is the model's own (log 7). -/
def Sys2Proof.Claims.BranchMoves : Prop :=
  (∀ (s : State) (g : Guard) (an : BitVec 2) (i : BitVec 19), an ≠ 3 → s.chip.capturing = false →
    let f := s.chip.me
    let taken := guardHolds g f.sw
    let t := f.pc + BitVec.ofInt 64 (4 * i.toInt)
    (taken = true → bits t 63 57 = 0) →
    (∃ u, exec (.br g an i) s = .next u ∧ Moved u.chip f (branchTriple f an taken t))
    ∧ ((taken = true → s.chip.usable [] [.g 15] = true) → ∃ u, exec (.call g an i) s = .next u
        ∧ Moved u.chip (if taken then f.setReg 15 (f.nnpc + 4) else f) (branchTriple f an taken t)))
  ∧ (∀ (s : State) (g : Guard) (an : BitVec 2) (a : Reg), an ≠ 3 → s.chip.capturing = false →
    let f := s.chip.me
    let taken := guardHolds g f.sw
    (taken = true → s.chip.usable [a] [] = true ∧ (s.chip.val a).toNat % 4 = 0 ∧ bits (s.chip.val a) 63 57 = 0) →
    (∃ u, exec (.jr g an a) s = .next u ∧ Moved u.chip f (branchTriple f an taken (s.chip.val a)))
    ∧ (a = .g 15 → ∃ u, exec (.ret g an) s = .next u ∧ Moved u.chip f (branchTriple f an taken (s.chip.val a))))

/-- R307, R308: a taken branch to a bad target traps at the branch with the target in `eaddr`: 0x03 first, then 0x06. -/
def Sys2Proof.Claims.BranchTargetTraps : Prop :=
  (∀ (s : State) (g : Guard) (an : BitVec 2) (i : BitVec 19), s.chip.clear g = true →
    let t := s.chip.me.pc + BitVec.ofInt 64 (4 * i.toInt)
    bits t 63 57 ≠ 0 → ∀ k ∈ [Instr.br g an i, .call g an i],
    exec k s = .next (s.withChip (((s.chip.issuing k).linksOf s.chip s.chip.core).takeTrap s.chip.core s.chip.frame
      (causeWord k) false 0x06 0 t)))
  ∧ (∀ (s : State) (g : Guard) (an : BitVec 2) (a : Reg), s.chip.clear g = true → s.chip.usable [a] [] = true →
    let t := s.chip.val a
    let k := Instr.jr g an a
    t.toNat % 4 ≠ 0 ∨ bits t 63 57 ≠ 0 →
    exec k s = .next (s.withChip ((((s.chip.issuing k).popped a).linksOf s.chip s.chip.core).takeTrap s.chip.core
      s.chip.frame (causeWord k) false (if t.toNat % 4 ≠ 0 then 0x03 else 0x06) 0 t)))

/-- R267, R307, R308: where each branch goes, and where its target traps. The list of delay slots beside the triple is the
model's own (log 7). -/
def Obligations.BranchResults : Prop :=
  Sys2Proof.Claims.BranchMoves ∧ Sys2Proof.Claims.BranchTargetTraps

/-- R136, R310, R311: `spawn` and `fork` push their task and count their join block up. -/
def Obligations.SpawnAndForkComplete : Prop :=
  (∀ (s : State) (g : Guard) (a : Reg), s.chip.clear g = true → s.chip.me.inSlot = false → s.chip.atRest = true →
    s.chip.usable [a] [] = true →
    let c := s.chip.issuing (.spawn g a)
    let ga := (c.val a).toNat
    ga % 8 = 0 → ga + 24 ≤ Config.dataEnd → (∀ i < 3, WordReady c (ga + 8 * i)) →
    let e := c.pad64 ga
    let j := c.pad64 (ga + 16)
    MaySpawn c e j →
    ∃ t, exec (.spawn g a) s = .next t ∧ Spawns c t.chip e (c.pad64 (ga + 8)) j
      ∧ t.chip.me.pc = c.me.npc ∧ t.chip.me.npc = c.me.nnpc ∧ t.chip.me.nnpc = c.me.nnpc + 4)
  ∧ (∀ (s : State) (g : Guard) (r : Reg) (i : BitVec 16), s.chip.clear g = true → s.chip.me.inSlot = false →
    s.chip.atRest = true → s.chip.usable [.g 0, r] [] = true →
    let c := s.chip.issuing (.fork g r i)
    let j := c.val r
    let e := c.me.nnpc + 4
    MaySpawn c e j →
    ∃ t, exec (.fork g r i) s = .next t ∧ Spawns c t.chip e (c.val (.g 0)) j
      ∧ t.chip.me.pc = c.me.npc ∧ t.chip.me.npc = c.me.nnpc ∧ t.chip.me.nnpc = c.me.pc + BitVec.ofInt 64 (4 * i.toInt))

/-- R139, R312, R313: `wtab` binds the lowest free entry and returns its number; `join` binds and retires its thread. -/
def Sys2Proof.Claims.WtabAndJoinBind : Prop :=
  (∀ (s : State) (g : Guard) (k : Bool) (d a b x : Reg), s.chip.clear g = true → s.chip.atRest = true →
    s.chip.usable [a, b, x] [d] = true →
    let c := s.chip.issuing (.wtab g k d a b x)
    let gc := c.val a
    let gt := (c.popped a).val b
    let ga := ((c.popped a).popped b).val x
    MayBind gc ga → WordReady c ga.toNat → WordReady c (ga.toNat + 16) →
    let e := c.pad64 ga.toNat
    let j := c.pad64 (ga.toNat + 16)
    e.toNat % 4 = 0 → bits e 63 57 = 0 →
    JoinOk c j →
    ∀ n : Fin 32, c.here.freeEntry = some n →
    ∃ t, exec (.wtab g k d a b x) s = .next t ∧ Bound t.chip n k 0 gc gt ga
      ∧ (∀ r, d = .g r → t.chip.me.g[r.toFin] = BitVec.ofNat 64 n.val) ∧ t.chip.me.pc = c.me.npc)
  ∧ (∀ (s : State) (g : Guard) (k : Bool) (a b x : Reg), s.chip.clear g = true → s.chip.me.inSlot = false →
    s.chip.atRest = true → s.chip.usable [a, b, x] [] = true →
    let c := s.chip.issuing (.join g k a b x)
    let gc := c.val a
    let gt := (c.popped a).val b
    let ga := ((c.popped a).popped b).val x
    MayBind gc ga → WordReady c ga.toNat →
    (c.pad64 ga.toNat).toNat % 4 = 0 → bits (c.pad64 ga.toNat) 63 57 = 0 →
    ∀ n : Fin 32, c.here.freeEntry = some n →
    ∃ t, exec (.join g k a b x) s = .next t ∧ Bound t.chip n k 1 gc gt ga
      ∧ t.chip.me.st = .retiring true (causeWord (.join g k a b x)))

/-- R139, R314: `wclr` frees a bound entry and answers 1, or answers 0 for a free one. -/
def Sys2Proof.Claims.WclrCompletes : Prop :=
  ∀ (s : State) (g : Guard) (d a : Reg), s.chip.clear g = true → s.chip.atRest = true → s.chip.usable [a] [d] = true →
    let c := s.chip.issuing (.wclr g d a)
    ∀ n : Fin 32, (c.val a).toNat = n.val →
    let e := c.here.wtab[n]
    (e.bound = true → tst e.ctl 61 = false ∨ c.me.sup = true) →
    ∃ t, exec (.wclr g d a) s = .next t ∧ t.chip.me.pc = c.me.npc
      ∧ (∀ r, d = .g r → t.chip.me.g[r.toFin] = if e.bound then 1 else 0)
      ∧ (e.bound = true → (t.chip.here.wtab[n]).bound = false)
      ∧ (e.bound = false → t.chip.here.wtab = c.here.wtab)

/-- R139, R312 to R314: `wtab` and `join` bind an entry, and `wclr` frees one. -/
def Obligations.BindsComplete : Prop :=
  Sys2Proof.Claims.WtabAndJoinBind ∧ Sys2Proof.Claims.WclrCompletes

/-- R141, R145, R315 to R318: `wait` on a counter that has come, `yield`, `go`, `tail` and `end`. -/
def Obligations.ThreadStepsComplete : Prop :=
  (∀ (s : State) (g : Guard), s.chip.clear g = true → s.chip.me.inSlot = false →
    exec (.yield g) s = .next (s.withChip (s.chip.issuing (.yield g)).goOn))
  ∧ (∀ (s : State) (g : Guard) (a b : Reg), s.chip.clear g = true → s.chip.mayAccess = true →
    s.chip.usable [a, b] [] = true →
    let c := s.chip.issuing (.wait g a b)
    let gc := (c.val a).toNat
    gc % 8 = 0 → gc + 8 ≤ Config.dataEnd → WordReady c gc →
    ((c.popped a).val b).toInt ≤ (c.pad64 gc).toInt →
    exec (.wait g a b) s = .next (s.withChip (c.poppedAll [a, b]).goOn))
  ∧ (∀ (s : State) (g : Guard) (a : Reg), s.chip.clear g = true → s.chip.me.inTrap = false → s.chip.me.inSlot = false →
    s.chip.atRest = true → s.chip.usable [a] [] = true →
    let c := s.chip.issuing (.go g a)
    let v := c.val a
    bits v 63 15 = 0 →
    (v.toNat = c.core → exec (.go g a) s = .next (s.withChip (c.popped a).goOn))
    ∧ (v.toNat ≠ c.core → c.here.vec.owner ≠ some c.frame → c.here.mowner ≠ some c.frame → c.unrefused = true →
        c.drained c.core (.frame c.frame) c.me.thread = true →
        ∃ t, exec (.go g a) s = .next t ∧ t.chip.me.st = .stalled (.answer c.nextReq)
          ∧ ∃ m ∈ t.chip.net, m.id = c.nextReq ∧ m.dest = ⟨c.pkg, .core v.toNat⟩ ∧ ∃ im, m.body = .migrate im
            ∧ im.g = c.me.g ∧ im.pc = c.me.npc ∧ im.npc = c.me.nnpc ∧ im.nnpc = c.me.nnpc + 4 ∧ im.sw = c.me.sw
            ∧ im.tname = c.me.tname ∧ im.tjoin = c.me.tjoin))
  ∧ (∀ (s : State) (g : Guard), s.chip.clear g = true → s.chip.me.inSlot = false → s.chip.atRest = true →
    (∃ t, exec (.endThread g) s = .next t ∧ t.chip.me.st = .retiring false (causeWord (.endThread g)))
    ∧ (s.chip.unrefused = true → ∃ t, exec (.tail g) s = .next t ∧
        if (List.range 8).any fun n => !thas s.chip.here.trackers n then
          t.chip.me.st = .free ∧ ∃ n < 8, thas s.chip.here.trackers n = false ∧
            ∃ e, tfind t.chip.here.trackers n = some e ∧ e.tjoin = s.chip.me.tjoin ∧ e.thread = s.chip.me.thread
        else t.chip.me.st = .retiring false (causeWord (.tail g))))

/-! ## Class 011 on the core itself -/

namespace Sys2Proof.Claims

/-- The operands of a local access are in range (R370), and no earlier message of the thread stands before it (R68). -/
def LocalOk (c : Chip) (o n : Nat) : Prop :=
  o % n = 0 ∧ o + n ≤ 0x30000 ∧ (0x2C000 ≤ o → c.me.sup = true) ∧ c.inTurn o n = true

/-- A local load: the n bytes at base plus scaled offset, extended (R370). Below 0x2_C000 they are the data banks,
little-endian. -/
def Loads (k : Guard → Size → Reg → Reg → BitVec 10 → Instr) (ext : Nat → Nat → Word) (sizes : List Size) : Prop :=
  ∀ (s : State) (g : Guard) (z : Size) (d a : Reg) (off : BitVec 10), z ∈ sizes → s.chip.clear g = true →
    s.chip.mayAccess = true → s.chip.usable [a] [d] = true →
    let c := (s.chip.issuing (k g z d a off)).popped a
    let n := sizeBytes z
    let o := ((s.chip.val a).toNat + off.toNat * n) % 2 ^ 64
    LocalOk s.chip o n →
    exec (k g z d a off) s = .next (s.withChip ((c.givenData d (ext n (c.localRead o n).1) (c.localRead o n).2
      (BitVec.ofNat 64 o)).goOn))
    ∧ (o < 0x2C000 → (c.localRead o n).1 = leNat (rdBytes s.chip.here.pad o n))
    ∧ (∀ f i : Nat, f < 96 → (hi : i < 16) → n = 8 → o = 0x2C000 + 160 * f + 8 * i →
        (c.localRead o n).1 = ((s.chip.here.frameAt f).g[i]).toNat)

/-- A local atomic: the word at the offset becomes the combination of it and gb, and gd receives the old word (R374). -/
def LocalAtomic (k : Guard → Reg → Reg → Reg → Bool → Instr) (f : (n : Nat) → BitVec n → BitVec n → BitVec n) : Prop :=
  ∀ (s : State) (g : Guard) (d a b : Reg) (z : Bool), s.chip.clear g = true → s.chip.mayAccess = true →
    s.chip.usable [a, b] [d] = true →
    let c := (s.chip.issuing (k g d a b z)).poppedAll [a, b]
    let n := if z then 8 else 4
    let o := (s.chip.val a).toNat
    let y := ((s.chip.popped a).val b).toNat
    o % n = 0 → o + n ≤ Config.dataEnd → s.chip.inTurn o n = true →
    let w := leNat (rdBytes s.chip.here.pad o n)
    let r := (f (8 * n) (BitVec.ofNat (8 * n) w) (BitVec.ofNat (8 * n) y)).toNat
    exec (k g d a b z) s = .next (s.withChip (((c.modCore c.core fun h => h.padWrite o (toLe n r) .update).givenData d
      (BitVec.ofNat 64 w) (!s.chip.padSound o n) (s.chip.val a)).goOn))

/-- The handle that an instruction names is enabled and not another context's (R105, R375). -/
def HandleOk (c : Chip) (q : BitVec 3) : Prop :=
  let h := c.here.handles[q.toFin]
  tst h.cfg 63 = true ∧ (h.owner = none ∨ h.owner = some c.me.ctx)
/-- Slots of a handle (R105). -/
def slotsOf (h : Handle) : Nat := bits h.cfg 47 40 + 1
/-- Offset of the slot of a handle at a position (R105). -/
def slotAt (h : Handle) (pos : BitVec 16) : Nat :=
  bits h.cfg 11 0 * 64 + pos.toNat % slotsOf h * ((bits h.cfg 31 24 + 1) * 64)
/-- Filled slots of a handle (R105). -/
def filled (h : Handle) : Nat := (h.pi - h.ci).toNat
/-- The frame is not ready, and the instruction has changed nothing: it issues again (R106, R127). -/
def Waits (s t : State) (w : Wait) : Prop :=
  t.chip.me = { s.chip.me with st := .stalled w } ∧ t.chip.here.handles = s.chip.here.handles
/-- A handle as an instruction sees it: as it stood when the cycle began, before an advance of the same cycle (R107). -/
def begun (c : Chip) (q : BitVec 3) : Handle :=
  if c.here.handlesAt = some c.now then c.here.handlesOld[q.toFin] else c.here.handles[q.toFin]

end Sys2Proof.Claims

/-- R19, R370: `ld` and `lds`. -/
def Sys2Proof.Claims.LocalLoadResults : Prop :=
  Loads .ld (fun n v => BitVec.ofNat 64 (v % 2 ^ (8 * n))) [.b8, .b16, .b32, .b64]
  ∧ Loads .lds (fun n v => BitVec.ofInt 64 (BitVec.ofNat (8 * n) v).toInt) [.b8, .b16, .b32]

/-- R19, R370: `st` writes exactly its bytes; a supervisor frame's store to the frame store writes the register that stands
there. -/
def Sys2Proof.Claims.LocalStoreResults : Prop :=
  ∀ (s : State) (g : Guard) (z : Size) (d a : Reg) (off : BitVec 10), s.chip.clear g = true →
    s.chip.mayAccess = true → s.chip.usable [d, a] [] = true →
    let n := sizeBytes z
    let v := s.chip.val d
    let o := (((s.chip.popped d).val a).toNat + off.toNat * n) % 2 ^ 64
    LocalOk s.chip o n → (∀ r, ownRegister s.chip.frame o = some r → s.chip.settled (.g r) = true) →
    ∃ t, exec (.st g z d a off) s = .next t
      ∧ (o < 0x2C000 → s.chip.here.pad.wf = true →
          t.chip.me.pc = s.chip.me.npc ∧ t.chip.me.npc = s.chip.me.nnpc ∧ t.chip.me.nnpc = s.chip.me.nnpc + 4
          ∧ rdBytes t.chip.here.pad o n = toLe n v.toNat
          ∧ ∀ b : Nat, b < o ∨ o + n ≤ b → rdByte t.chip.here.pad b = rdByte s.chip.here.pad b)
      ∧ (0x2C000 ≤ o → t.chip.here.pad = s.chip.here.pad)
      ∧ (∀ f i : Nat, f < 96 → (hi : i < 16) → n = 8 → o = 0x2C000 + 160 * f + 8 * i →
          (t.chip.here.frameAt f).g[i] = v)

/-- R19, R370: local loads, and local stores with the bytes that they leave. -/
def Obligations.LocalAccesses : Prop :=
  Sys2Proof.Claims.LocalLoadResults ∧ Sys2Proof.Claims.LocalStoreResults

/-- R374: the local atomics and `cas`. -/
def Obligations.LocalAtomicResults : Prop :=
  LocalAtomic .amoAdd (fun _ w y => w + y) ∧ LocalAtomic .amoAnd (fun _ w y => w &&& y)
  ∧ LocalAtomic .amoOr (fun _ w y => w ||| y) ∧ LocalAtomic .amoXor (fun _ w y => w ^^^ y)
  ∧ LocalAtomic .amoMin (fun _ w y => if y.toInt < w.toInt then y else w)
  ∧ LocalAtomic .amoMax (fun _ w y => if w.toInt < y.toInt then y else w)
  ∧ LocalAtomic .amoMinu (fun _ w y => if y.toNat < w.toNat then y else w)
  ∧ LocalAtomic .amoMaxu (fun _ w y => if w.toNat < y.toNat then y else w)
  ∧ LocalAtomic .amoSwap (fun _ _ y => y)
  ∧ ∀ (s : State) (g : Guard) (d a b : Reg) (z : Bool), s.chip.clear g = true → s.chip.mayAccess = true →
      s.chip.usable [d, a, b] [d] = true →
      let c := (s.chip.issuing (.cas g d a b z)).poppedAll [d, a, b]
      let n := if z then 8 else 4
      let o := ((s.chip.popped d).val a).toNat
      let y := (((s.chip.popped d).popped a).val b).toNat
      o % n = 0 → o + n ≤ Config.dataEnd → s.chip.inTurn o n = true →
      let w := leNat (rdBytes s.chip.here.pad o n)
      exec (.cas g d a b z) s = .next (s.withChip (((if w = (s.chip.val d).toNat % 2 ^ (8 * n) then
          c.modCore c.core fun h => h.padWrite o (toLe n y) .update else c.modCore c.core fun h => h.padLook o n).givenData d (BitVec.ofNat 64 w)
          (!s.chip.padSound o n) ((s.chip.popped d).val a)).goOn))

/-- R63, R64, R373: a look-up answers the slot that holds the line for this context, or all ones; an insert puts the line in
its slot and nowhere else; the invalidations remove this context's entries. -/
def Sys2Proof.Claims.TagTableResults : Prop :=
  let line := fun (c : Chip) (x : Word) => x.toNat / 2 ^ (8 + 2 * bits c.here.tgcfg 19 18)
  let mine := fun (c : Chip) (x : Word) (p : Nat × Tag) => p.2.ctx = c.me.ctx ∧ p.2.line = line c x
  (∀ (s : State) (g : Guard) (d a : Reg), s.chip.clear g = true → s.chip.mayAccess = true →
    s.chip.usable [a] [d] = true →
    let c := s.chip.issuing (.tlk g d a)
    ∃ v : Word, exec (.tlk g d a) s = .next (s.withChip (((c.popped a).given d v).goOn))
      ∧ ((∃ p ∈ c.here.tags, mine c (c.val a) p ∧ p.1 < 2 ^ 63) → bits c.here.tgcfg 8 0 ≠ 0 →
          ∃ p ∈ c.here.tags, mine c (c.val a) p ∧ v = BitVec.ofNat 64 p.1)
      ∧ ((∀ p ∈ c.here.tags, ¬ mine c (c.val a) p) → v = BitVec.allOnes 64))
  ∧ (∀ (s : State) (g : Guard) (a b : Reg), s.chip.clear g = true → s.chip.mayAccess = true →
    s.chip.usable [a, b] [] = true →
    let c := s.chip.issuing (.tins g a b)
    let x := c.val a
    let y := ((c.popped a).val b).toNat
    y ≤ 255 → y < bits c.here.tgcfg 8 0 → y / 4 = line c x % 64 →
    ∃ t, exec (.tins g a b) s = .next t ∧ t.chip.me.pc = c.me.npc ∧ tfind t.chip.here.tags y = some ⟨line c x, c.me.ctx⟩
      ∧ ∀ p ∈ t.chip.here.tags, mine c x p → p.1 = y)
  ∧ (∀ (s : State) (g : Guard) (a : Reg), s.chip.clear g = true → s.chip.mayAccess = true → s.chip.usable [a] [] = true →
    let c := s.chip.issuing (.tinv g a)
    ∃ t, exec (.tinv g a) s = .next t ∧ t.chip.me.pc = c.me.npc
      ∧ ∀ p, p ∈ t.chip.here.tags ↔ p ∈ c.here.tags ∧ ¬ mine c (c.val a) p)
  ∧ (∀ (s : State) (g : Guard), s.chip.clear g = true → s.chip.mayAccess = true →
    ∃ t, exec (.tinvAll g) s = .next t ∧ t.chip.me.pc = s.chip.me.npc
      ∧ ∀ p, p ∈ t.chip.here.tags ↔ p ∈ s.chip.here.tags ∧ p.2.ctx ≠ s.chip.me.ctx)

/-- R105 to R107, R375: the circular-buffer handles. An advance is seen from the next cycle on. That `eaddr` is 0 where an
advance overflows its ring is the model's choice (log 50). -/
def Sys2Proof.Claims.HandleResults : Prop :=
  (∀ (s : State) (g : Guard) (d : Reg) (q : BitVec 3), s.chip.clear g = true → s.chip.mayAccess = true →
    s.chip.usable [] [d] = true → HandleOk s.chip q →
    let c := s.chip.issuing (.qwait g d q)
    let c' := s.chip.issuing (.qroom g d q)
    let c'' := s.chip.issuing (.qpos g d q)
    let h := begun s.chip q
    (filled h ≠ 0 →
      exec (.qwait g d q) s = .next (s.withChip ((c.given d (BitVec.ofNat 64 (slotAt h h.ci))).goOn)))
    ∧ (filled h ≠ slotsOf h →
      exec (.qroom g d q) s = .next (s.withChip ((c'.given d (BitVec.ofNat 64 (slotAt h h.pi))).goOn)))
    ∧ (filled h = 0 → ∃ t, exec (.qwait g d q) s = .next t ∧ Waits s t (.filled q.toNat))
    ∧ (filled h = slotsOf h → ∃ t, exec (.qroom g d q) s = .next t ∧ Waits s t (.room q.toNat))
    ∧ exec (.qpos g d q) s = .next (s.withChip ((c''.given d
        (BitVec.ofNat 64 ((slotsOf h - 1) * 2 ^ 32 + h.ci.toNat * 2 ^ 16 + h.pi.toNat))).goOn)))
  ∧ (∀ (s : State) (g : Guard) (q : BitVec 3), s.chip.clear g = true → s.chip.mayAccess = true → HandleOk s.chip q →
    s.chip.releasable .core = true →
    let h := s.chip.here.handles[q.toFin]
    (filled h ≠ slotsOf h → ∃ t, exec (.qadvP g q) s = .next t ∧ t.chip.me.pc = s.chip.me.npc
      ∧ t.chip.here.handles[q.toFin] = { h with pi := h.pi + 1 } ∧ ∀ r, begun t.chip r = begun s.chip r)
    ∧ (filled h ≠ 0 → ∃ t, exec (.qadvC g q) s = .next t ∧ t.chip.me.pc = s.chip.me.npc
      ∧ t.chip.here.handles[q.toFin] = { h with ci := h.ci + 1 } ∧ ∀ r, begun t.chip r = begun s.chip r))
  ∧ (∀ (s : State) (g : Guard) (q : BitVec 3), s.chip.clear g = true → s.chip.mayAccess = true → HandleOk s.chip q →
    let h := s.chip.here.handles[q.toFin]
    (filled h = slotsOf h → Traps s (.qadvP g q) (causeWord (.qadvP g q)) 0x0E 0x51 0)
    ∧ (filled h = 0 → Traps s (.qadvC g q) (causeWord (.qadvC g q)) 0x0E 0x51 0)
    ∧ (s.chip.unrefused = true → s.chip.releasable .core = false →
        (filled h ≠ slotsOf h → ∃ t, exec (.qadvP g q) s = .next t ∧ Waits s t (.release .core))
        ∧ (filled h ≠ 0 → ∃ t, exec (.qadvC g q) s = .next t ∧ Waits s t (.release .core))))
  ∧ (∀ (s : State) (g : Guard) (a : Reg) (q : BitVec 3), s.chip.clear g = true → s.chip.mayAccess = true →
    s.chip.usable [a] [] = true →
    let w := s.chip.val a
    (s.chip.here.handles[q.toFin].owner = none ∨ s.chip.here.handles[q.toFin].owner = some s.chip.me.ctx) →
    (∀ m ∈ s.chip.here.mxq ++ s.chip.here.cpq, m.names q.toNat = false) →
    (tst w 63 = true → bits w 62 48 = 0 ∧ bits w 39 32 = 0 ∧ bits w 23 12 = 0
      ∧ bits w 11 0 * 64 + (bits w 47 40 + 1) * ((bits w 31 24 + 1) * 64) ≤ Config.dataEnd) →
    ∃ t, exec (.qset g a q) s = .next t ∧ t.chip.me.pc = s.chip.me.npc
      ∧ t.chip.here.handles[q.toFin] = if tst w 63 then ⟨w, some s.chip.me.ctx, 0, 0⟩ else ⟨0, none, 0, 0⟩)

/-- R63, R64, R105, R106, R373, R375: the tag table and the circular-buffer handles. That `eaddr` is 0 where `qadv` traps is
the model's choice (log 50). -/
def Obligations.TagsAndHandles : Prop :=
  Sys2Proof.Claims.TagTableResults ∧ Sys2Proof.Claims.HandleResults

/-! ## Global accesses and messages as their core sends them -/

namespace Sys2Proof.Claims

/-- The message of a request that the issuing frame sends (R57, R199). -/
def request (c : Chip) (dest : Place) (addr : Nat) (va : Word) (scope : Option Scope) (sib : Option Nat) (body : Body) : Msg :=
  ⟨c.nextReq, c.frankOf c.core c.frame, dest, addr, va, scope, c.me.pri, sib, 0, 0, body, none, false⟩

/-- The request m of the issuing frame is on its way in package d, and recorded under a number with what its answer will do, and,
where it returns, with the lowest reply slot that was free (R61, R199, R368). -/
def SentAs (c d : Chip) (id : Nat) (want : Want) (acq : Bool) (word : BitVec 32) (m : Msg) : Prop :=
  (m.dest.pkg = c.pkg → m ∈ d.net) ∧ (m.dest.pkg ≠ c.pkg → ⟨m, c.now⟩ ∈ d.out)
  ∧ tfind d.here.reqs id = some ⟨.frame c.frame, want, m, acq, word, c.now, none, if want = .posted then 64 else c.here.nextSlot⟩
/-- The same under the package's next request number. -/
def Sent (c d : Chip) (want : Want) (acq : Bool) (word : BitVec 32) (m : Msg) : Prop := SentAs c d c.nextReq want acq word m

/-- No request of the frame to the page of an address waits to be issued again, or stands before another home of the page
(R191). -/
def Settled (c : Chip) (va : Word) (dest : Place) (addr : Nat) : Prop :=
  tst va 63 = true ∨ c.behind va dest addr = false
/-- Nothing has been sent or requested. -/
def Unsent (s t : State) : Prop :=
  t.chip.net = s.chip.net ∧ t.chip.out = s.chip.out ∧ t.chip.here.reqs = s.chip.here.reqs
/-- A reply slot is free (R61). -/
def SlotFree (c : Chip) : Prop := c.here.slotsUsed < 64
/-- A write-tracker entry is free (R368). -/
def TrackerFree (c : Chip) : Prop := c.here.trackerUsed < 128

/-- A target word of a message that passes the checks of R376, and where it lies. -/
def TargetAt (c : Chip) (w : Word) (n : Nat) (need : Need) (dest : Place) (addr : Nat) : Prop :=
  w.toNat % n = 0 ∧
  ((tst w 63 = true ∧ bits w 62 46 = 0 ∧ tst w 18 = false ∧ bits w 17 0 + n ≤ Config.dataEnd
      ∧ dest = ⟨bits w 45 34, .core (bits w 33 19)⟩ ∧ addr = bits w 17 0)
   ∨ (tst w 63 = false ∧ ∃ p, c.lookup w need false = .ok p ∧ dest = c.placeOf p ∧ addr = p.pa))
/-- The counter that a put names (R378): none for zr, else an offset of a doubleword, with a reference for target. -/
def CounterOf (d : Reg) (v w : Word) (ctr : Option Nat) : Prop :=
  (d = .zr ∧ ctr = none) ∨
  (d ≠ .zr ∧ tst w 63 = true ∧ bits v 63 18 = 0 ∧ v.toNat % 8 = 0 ∧ v.toNat + 8 ≤ Config.dataEnd ∧ ctr = some v.toNat)
/-- The thread does not migrate on access (R146). -/
def NoMigration (c : Chip) : Prop := tst c.me.sw 17 = false
/-- A choice of the thread needs no record of the order log, or finds room for one, and in a replay the next record is its own
(R151, R454). -/
def LogRoom (c : Chip) (kind : Nat) : Prop :=
  c.modeOf c.me.launch = 0 ∨ ∀ l, c.me.launch = some l →
    (c.modeOf c.me.launch = 1 → c.logFull c.core l = false) ∧ c.logNext c.core l kind c.frame = some true

end Sys2Proof.Claims

/-- R371: `gld` sends a read and leaves its register pending; `gst` sends a posted write. -/
def Sys2Proof.Claims.GlobalAccessesComplete : Prop :=
  (∀ (s : State) (g : Guard) (z : Size) (d a : Reg) (q : Option Scope) (off : BitVec 6) (p : Phys), d.isLink = false →
    s.chip.clear g = true → s.chip.mayAccess = true → s.chip.usable [a] [d] = true → SlotFree s.chip →
    let n := sizeBytes z
    let va := s.chip.val a + BitVec.ofNat 64 (off.toNat * n)
    va.toNat % n = 0 → s.chip.lookup va .r false = .ok p → Settled s.chip va (s.chip.placeOf p) p.pa →
    ∃ t, exec (.gld g z d a q off) s = .next t ∧ t.chip.me.pc = s.chip.me.npc
      ∧ Sent s.chip t.chip (.load d n) q.isSome (causeWord (.gld g z d a q off))
          (request s.chip (s.chip.placeOf p) p.pa va q none (.get n)))
  ∧ (∀ (s : State) (g : Guard) (z : Size) (d a : Reg) (q : Option Scope) (off : BitVec 6) (p : Phys),
    s.chip.clear g = true → s.chip.mayAccess = true → s.chip.usable [d, a] [] = true → TrackerFree s.chip →
    s.chip.orderedBy q = true →
    let n := sizeBytes z
    let va := (s.chip.popped d).val a + BitVec.ofNat 64 (off.toNat * n)
    va.toNat % n = 0 → s.chip.lookup va .w false = .ok p → Settled s.chip va (s.chip.placeOf p) p.pa →
    ∃ t, exec (.gst g z d a q off) s = .next t ∧ t.chip.me.pc = s.chip.me.npc
      ∧ Sent s.chip t.chip .posted false (causeWord (.gst g z d a q off))
          (request s.chip (s.chip.placeOf p) p.pa va q none (.put (toLe n (s.chip.val d).toNat) none)))

/-- R53, R371: a global load or store that is not aligned raises 0x03, and one beyond the virtual addresses 0x06, both with the
address in `eaddr`; nothing is sent. -/
def Sys2Proof.Claims.GlobalAccessTraps : Prop :=
  let traps := fun (s : State) (i : Instr) (c : Chip) (n : Nat) (va : Word) =>
    (va.toNat % n ≠ 0 → exec i s = .next (s.withChip ((c.linksOf s.chip s.chip.core).takeTrap s.chip.core s.chip.frame
      (causeWord i) false 0x03 0 va)))
    ∧ (va.toNat % n = 0 → bits va 63 57 ≠ 0 → ∃ t, exec i s = .next t ∧ Unsent s t
        ∧ (s.chip.me.inTrap = false → ∀ h, s.chip.handlerOf s.chip.core s.chip.me.ctx 0x06 = some h →
            t.chip.me.pc = h ∧ bits t.chip.me.ecause 7 0 = 0x06 ∧ t.chip.me.eaddr = va))
  ∀ (s : State) (g : Guard) (z : Size) (d a : Reg) (q : Option Scope) (off : BitVec 6),
    s.chip.clear g = true → s.chip.mayAccess = true →
    let n := sizeBytes z
    (d.isLink = false → s.chip.usable [a] [d] = true →
      let i := Instr.gld g z d a q off
      traps s i ((s.chip.issuing i).popped a) n (s.chip.val a + BitVec.ofNat 64 (off.toNat * n)))
    ∧ (s.chip.usable [d, a] [] = true →
      let i := Instr.gst g z d a q off
      traps s i ((s.chip.issuing i).poppedAll [d, a]) n ((s.chip.popped d).val a + BitVec.ofNat 64 (off.toNat * n)))

/-- R73, R372: the fences complete once what they wait for has. -/
def Sys2Proof.Claims.FencesComplete : Prop :=
  ∀ (s : State) (g : Guard) (k : Scope), s.chip.clear g = true → s.chip.atRest = true →
    (s.chip.releasable k = true →
      exec (.fence g k) s = .next (s.withChip (s.chip.issuing (.fence g k)).goOn)
      ∧ exec (.fenceRel g k) s = .next (s.withChip (s.chip.issuing (.fenceRel g k)).goOn))
    ∧ (s.chip.unrefused = true → s.chip.openIn s.chip.core (.frame s.chip.frame) k Req.isRead = false →
      exec (.fenceAcq g k) s = .next (s.withChip (s.chip.issuing (.fenceAcq g k)).goOn))

/-- R73, R182, R371, R372: global loads and stores send their requests, or trap; the fences complete. -/
def Obligations.GlobalAccesses : Prop :=
  Sys2Proof.Claims.GlobalAccessesComplete ∧ Sys2Proof.Claims.GlobalAccessTraps ∧ Sys2Proof.Claims.FencesComplete

/-- R376, R378, R379: `put`, `putv` and `get` send their requests; with `sw.mig` set and the target on this core, `put` and `get`
act in place (R146). -/
def Sys2Proof.Claims.PutAndGetComplete : Prop :=
  (∀ (s : State) (g : Guard) (d a b : Reg) (q : Option Scope) (z : Size) (dest : Place) (addr : Nat) (ctr : Option Nat),
    s.chip.clear g = true → s.chip.mayAccess = true → s.chip.usable [d, a, b] [] = true → TrackerFree s.chip →
    s.chip.orderedBy q = true →
    let n := sizeBytes z
    let w := (s.chip.popped d).val a
    let v := ((s.chip.popped d).popped a).val b
    TargetAt s.chip w n .w dest addr → CounterOf d (s.chip.val d) w ctr → Settled s.chip w dest addr →
    (NoMigration s.chip → ∃ t, exec (.put g d a b q z) s = .next t ∧ t.chip.me.pc = s.chip.me.npc
      ∧ Sent s.chip t.chip .posted false (causeWord (.put g d a b q z))
          (request s.chip dest addr w q none (.put (toLe n v.toNat) ctr)))
    ∧ (∀ o, s.chip.migratesTo (.ref (bits w 45 34) (bits w 33 19) o) = some s.chip.core → tst w 63 = true →
        s.chip.here.pad.wf = true → s.chip.inTurn (bits w 17 0) n = true → (∀ x, ctr = some x → s.chip.inTurn x 8 = true) →
        ∃ t, exec (.put g d a b q z) s = .next t ∧ t.chip.me.pc = s.chip.me.npc ∧ t.chip.here.reqs = s.chip.here.reqs
          ∧ (ctr = none → rdBytes t.chip.here.pad (bits w 17 0) n = toLe n v.toNat)
          ∧ (∀ x, ctr = some x → x + 8 ≤ bits w 17 0 ∨ bits w 17 0 + n ≤ x →
              rdBytes t.chip.here.pad (bits w 17 0) n = toLe n v.toNat
              ∧ (s.chip.padSound x 8 = true → t.chip.pad64 x = s.chip.pad64 x + 1))))
  ∧ (∀ (s : State) (g : Guard) (d a : Reg) (b : BitVec 5) (q : Option Scope) (dest : Place) (addr : Nat) (ctr : Option Nat),
    s.chip.clear g = true → s.chip.mayAccess = true → s.chip.usable [d, a] [] = true → TrackerFree s.chip →
    s.chip.orderedBy q = true → s.chip.here.vec.owner = some s.chip.frame → s.chip.vectorIdle b.toNat = true →
    let w := (s.chip.popped d).val a
    TargetAt s.chip w 64 .w dest addr → CounterOf d (s.chip.val d) w ctr → Settled s.chip w dest addr →
    ∃ t, exec (.putv g d a b q) s = .next t ∧ t.chip.me.pc = s.chip.me.npc
      ∧ Sent s.chip t.chip .posted false (causeWord (.putv g d a b q))
          (request s.chip dest addr w q none (.put (toLe 64 (s.chip.here.vec.v[b.toFin]).toNat) ctr)))
  ∧ (∀ (s : State) (g : Guard) (d a : Reg) (q : Option Scope) (z : Size) (dest : Place) (addr : Nat), d.isLink = false →
    s.chip.clear g = true → s.chip.mayAccess = true → s.chip.usable [a] [d] = true → SlotFree s.chip →
    let n := sizeBytes z
    let w := s.chip.val a
    TargetAt s.chip w n .r dest addr → Settled s.chip w dest addr →
    (NoMigration s.chip → ∃ t, exec (.get g d a q z) s = .next t ∧ t.chip.me.pc = s.chip.me.npc
      ∧ Sent s.chip t.chip (.load d n) q.isSome (causeWord (.get g d a q z)) (request s.chip dest addr w q none (.get n)))
    ∧ (∀ o, s.chip.migratesTo (.ref (bits w 45 34) (bits w 33 19) o) = some s.chip.core → tst w 63 = true →
        s.chip.inTurn (bits w 17 0) n = true →
        ∃ t, exec (.get g d a q z) s = .next t ∧ t.chip.me.pc = s.chip.me.npc
          ∧ ∀ r, d = .g r → t.chip.me.g[r.toFin] = BitVec.ofNat 64 (leNat (rdBytes s.chip.here.pad (bits w 17 0) n))))

/-- R380: `amsg` sends the handler address, the argument and the payload to the core that its descriptor names. -/
def Sys2Proof.Claims.ActiveMessageSent : Prop :=
  ∀ (s : State) (g : Guard) (d a b : Reg), s.chip.clear g = true → s.chip.mayAccess = true →
    s.chip.usable [d, a, b] [] = true → TrackerFree s.chip →
    let gp := s.chip.val d
    let ga := ((s.chip.popped d).val a).toNat
    let arg := ((s.chip.popped d).popped a).val b
    let off := bits gp 17 0
    let len := bits gp 39 32
    ga % 16 = 0 → ga + 16 ≤ Config.dataEnd → WordReady s.chip ga → WordReady s.chip (ga + 8) →
    let w := s.chip.pad64 ga
    let h := s.chip.pad64 (ga + 8)
    tst w 63 = true → bits w 62 46 = 0 → tst w 18 = false → bits w 17 0 % 8 = 0 → bits w 17 0 + len ≤ Config.dataEnd →
    h.toNat % 4 = 0 → bits h 63 57 = 0 → bits gp 31 18 = 0 → bits gp 63 40 = 0 → len ≤ 224 → len % 8 = 0 →
    off + len ≤ Config.dataEnd → s.chip.padSound off len = true → s.chip.inTurn off len = true →
    ∃ t, exec (.amsg g d a b) s = .next t ∧ t.chip.me.pc = s.chip.me.npc
      ∧ Sent s.chip t.chip .posted false (causeWord (.amsg g d a b))
          (request s.chip ⟨bits w 45 34, .core (bits w 33 19)⟩ (bits w 17 0) w none none
            (.active h arg (rdBytes s.chip.here.pad off len)))

/-- R150, R377, R381, R382: `red`, `rll` and `rsc`, and the `rsc` that finds no record of its frame. -/
def Sys2Proof.Claims.ReductionsAndReservationsComplete : Prop :=
  (∀ (s : State) (g : Guard) (a b : Reg) (k : Amo) (dest : Place) (addr : Nat), s.chip.clear g = true →
    s.chip.mayAccess = true → s.chip.usable [a, b] [] = true → TrackerFree s.chip →
    let w := s.chip.val a
    let f := s.chip.me
    TargetAt s.chip w 8 .w dest addr → dest.home ≠ .host → Settled s.chip w dest addr →
    ∃ t, exec (.red g a b k) s = .next t ∧ t.chip.me.pc = s.chip.me.npc
      ∧ Sent s.chip t.chip .posted false (causeWord (.red g a b k)) (request s.chip dest addr w none
          (if tst w 63 = true ∧ tst f.tjoin 63 = true ∧ w = f.tjoin + 8 ∧ s.chip.modeOf f.launch ≠ 0 then
            some (bits f.tname 61 46) else none) (.reduce k ((s.chip.popped a).val b))))
  ∧ (∀ (s : State) (g : Guard) (d a : Reg) (q : Option Scope) (z : Bool) (dest : Place) (addr : Nat), d.isLink = false →
    s.chip.clear g = true → s.chip.mayAccess = true → s.chip.usable [a] [d] = true → SlotFree s.chip →
    let n := if z then 8 else 4
    let w := s.chip.val a
    TargetAt s.chip w n .w dest addr → dest.home ≠ .host → Settled s.chip w dest addr →
    ∃ t, exec (.rll g d a q z) s = .next t ∧ t.chip.me.pc = s.chip.me.npc ∧ t.chip.me.resv = some (w, n)
      ∧ Sent s.chip t.chip (.load d n) q.isSome (causeWord (.rll g d a q z))
          (request s.chip dest addr w q none (.reserve n)))
  ∧ (∀ (s : State) (g : Guard) (d a b : Reg) (q : Option Scope) (z : Bool) (dest : Place) (addr : Nat), d.isLink = false →
    s.chip.clear g = true → s.chip.mayAccess = true → s.chip.usable [a, b] [d] = true → SlotFree s.chip →
    let n := if z then 8 else 4
    let w := s.chip.val a
    let v := (s.chip.popped a).val b
    TargetAt s.chip w n .w dest addr → dest.home ≠ .host → Settled s.chip w dest addr → LogRoom s.chip 2 →
    (s.chip.me.resv ≠ some (w, n) → ∃ t, exec (.rsc g d a b q z) s = .next t ∧ t.chip.me.pc = s.chip.me.npc
      ∧ t.chip.me.resv = none ∧ (∀ p ∈ t.chip.here.reqs, p ∈ s.chip.here.reqs ∨ ∃ l, p.2.owner = .log l)
      ∧ ∀ r, d = .g r → t.chip.me.g[r.toFin] = 0)
    ∧ (s.chip.me.resv = some (w, n) → s.chip.orderedBy q = true → ∃ t, exec (.rsc g d a b q z) s = .next t
      ∧ t.chip.me.pc = s.chip.me.npc ∧ t.chip.me.resv = none ∧ ∃ r e id,
        SentAs s.chip t.chip id (.stored d r) false (causeWord (.rsc g d a b q z))
          { request s.chip dest addr w q none (.condStore n v e) with id := id }
        ∧ (s.chip.modeOf s.chip.me.launch ≠ 2 → e = none)))

/-- R150, R377, R380 to R382: `amsg`, `red`, `rll` and `rsc`. -/
def Obligations.MessagesAndReductionsSent : Prop :=
  Sys2Proof.Claims.ActiveMessageSent ∧ Sys2Proof.Claims.ReductionsAndReservationsComplete

/-- R384: `fwd` moves one word from a link in to a link out in one cycle. -/
def Sys2Proof.Claims.ForwardMovesOneWord : Prop :=
  ∀ (s : State) (g : Guard) (d a : Dir), s.chip.clear g = true → s.chip.mayAccess = true →
    s.chip.usable [.link a] [.link d] = true →
    let c := s.chip.issuing (.fwd g d a)
    exec (.fwd g d a) s = .next (s.withChip (((c.popped (.link a)).given (.link d) (c.val (.link a))).goOn))

/-- R376, R378, R379, R384: `put`, `putv`, `get` and `fwd`. An access under sw.mig to its own core is performed in place (log
49), without a window (log 69). -/
def Obligations.PutGetAndForward : Prop :=
  Sys2Proof.Claims.PutAndGetComplete ∧ Sys2Proof.Claims.ForwardMovesOneWord

/-! ## Messages at their homes, and answers at their cores -/

namespace Sys2Proof.Claims

/-- The answer to a message is on its way in package d (R200, R369). -/
def Answered (c d : Chip) (m : Msg) (body : Body) : Prop :=
  ∃ r : Msg, r.id = m.id ∧ r.dest = ⟨m.frank.pkg, .core m.frank.core⟩ ∧ r.body = body
    ∧ (m.frank.pkg = c.pkg → r ∈ d.net) ∧ (m.frank.pkg ≠ c.pkg → ⟨r, c.now⟩ ∈ d.out)

/-- The memory of a home is in canonical form. -/
def HomeWf (c : Chip) (h : Home) : Prop :=
  match h with
  | .core k => (c.coreAt k).pad.wf = true
  | .hbm _ _ => c.hbm.wf = true
  | .host => c.host.wf = true
  | .spine => False

/-- Every byte of the package's memories is the same in both. -/
def SameMemory (c d : Chip) : Prop :=
  d.hbm = c.hbm ∧ d.host = c.host ∧ d.far = c.far ∧ ∀ k, (d.coreAt k).pad = (c.coreAt k).pad

/-- What a reduction makes of a doubleword (R381). -/
def combine (k : Amo) (w v : Word) : Word :=
  match k with
  | .add => w + v | .and => w &&& v | .or => w ||| v | .xor => w ^^^ v
  | .min => if v.toInt < w.toInt then v else w
  | .max => if w.toInt < v.toInt then v else w
  | .minu => if v.toNat < w.toNat then v else w
  | .maxu => if w.toNat < v.toNat then v else w
  | .swap => v

/-- A register of a frame that received a word (R61). -/
def Received (d : Chip) (core f : Nat) (r : Reg) (v : Word) : Prop := ∀ n, r = .g n → (d.frameAt core f).g[n.toFin] = v

end Sys2Proof.Claims

/-- R26, R60, R369, R378: a put at its home, and one that the home refuses. -/
def Sys2Proof.Claims.PutArrives : Prop :=
  ∀ (s : State) (n : Nat) (m : Msg) (data : List Byte) (ctr : Option Nat), s.chip.arriving n = some m →
    m.body = .put data ctr →
    (∀ x, s.chip.admits m data.length 61 1 = .ok x → ∃ t, exec (.putArrival n) s = .next t
      ∧ Answered s.chip t.chip m (.ack 0)
      ∧ (ctr = none → HomeWf s.chip m.dest.home → t.chip.readHome m.dest.home m.addr data.length = data)
      ∧ (∀ o k, ctr = some o → m.dest.home = .core k → (s.chip.coreAt k).pad.wf = true →
          o + 8 ≤ m.addr ∨ m.addr + data.length ≤ o →
          rdBytes (t.chip.coreAt k).pad m.addr data.length = data
          ∧ ((s.chip.coreAt k).padBad o 8 = false →
              rd64 (t.chip.coreAt k).pad o = rd64 (s.chip.coreAt k).pad o + 1)))
    ∧ (∀ st, s.chip.admits m data.length 61 1 = .error st → ∃ t, exec (.putArrival n) s = .next t
      ∧ Answered s.chip t.chip m (.nack st) ∧ SameMemory s.chip t.chip)

/-- R379, R382, R383: a read, a reservation and a conditional store at their homes. -/
def Sys2Proof.Claims.ReadsAndReservationsArrive : Prop :=
  (∀ (s : State) (n k : Nat) (m : Msg) (x : Nat), s.chip.arriving n = some m →
    (m.dest.home = .host → s.chip.hostFails m.addr k = false) →
    let v := Body.reply (s.chip.readHome m.dest.home m.addr k) (s.chip.poisonAt m.dest.home m.addr k)
    (m.body = .get k → s.chip.admits m k 62 0 = .ok x →
      ∃ t, exec (.getArrival n) s = .next t ∧ Answered s.chip t.chip m v ∧ SameMemory s.chip t.chip)
    ∧ (m.body = .reserve k → s.chip.admits m k 59 2 = .ok x →
      ∃ t, exec (.reserveArrival n) s = .next t ∧ Answered s.chip t.chip m v ∧ SameMemory s.chip t.chip
        ∧ (m.dest.home ≠ .host → m.dest.home ≠ .spine → (s.chip.resvAt m.dest.home).length < resvRoom m.dest.home →
            t.chip.reserved m k = true)))
  ∧ (∀ (s : State) (n k : Nat) (m : Msg) (v : Word) (x : Nat), s.chip.arriving n = some m →
    m.body = .condStore k v none → s.chip.admits m k 59 2 = .ok x →
    ∃ t, exec (.conditionalStoreArrival n) s = .next t ∧
      if s.chip.reserved m k then
        Answered s.chip t.chip m (.ack 0)
          ∧ (HomeWf s.chip m.dest.home → t.chip.readHome m.dest.home m.addr k = toLe k v.toNat)
      else Answered s.chip t.chip m (.ack 1) ∧ SameMemory s.chip t.chip)

/-- R26, R60, R369, R378, R379, R382, R383: puts, reads, reservations and conditional stores at their homes. -/
def Obligations.AccessesArrive : Prop :=
  Sys2Proof.Claims.PutArrives ∧ Sys2Proof.Claims.ReadsAndReservationsArrive

/-- R22, R147, R380, R381: an active message and a reduction enter the postbox; a reduction in HBM is performed there. -/
def Sys2Proof.Claims.PostboxArrivals : Prop :=
  (∀ (s : State) (n core ctx : Nat) (m : Msg) (h arg : Word) (data : List Byte), s.chip.arriving n = some m →
    m.dest.home = .core core → m.body = .active h arg data → m.lctx = none → (s.chip.coreAt core).postboxUsed < 32 →
    s.chip.admits m (spans m).length 58 4 = .ok ctx → s.chip.ctxOpen ctx = true →
    ∃ t, exec (.activeArrival n) s = .next t ∧ Answered s.chip t.chip m (.ack 0)
      ∧ (t.chip.coreAt core).postbox = (s.chip.coreAt core).postbox ++ [{ m with lctx := some ctx, waits := true }]
      ∧ ((s.chip.coreAt core).pad.wf = true → rdBytes (t.chip.coreAt core).pad m.addr data.length = data))
  ∧ (∀ (s : State) (n ctx : Nat) (m : Msg) (k : Amo) (v : Word), s.chip.arriving n = some m → m.body = .reduce k v →
    s.chip.admits m 8 60 2 = .ok ctx → s.chip.poisonAt m.dest.home m.addr 8 = false →
    (∀ st ch, m.dest.home = .hbm st ch → ∃ t, exec (.reduceArrival n) s = .next t ∧ Answered s.chip t.chip m (.ack 0)
      ∧ (s.chip.hbm.wf = true → rd64 t.chip.hbm m.addr = combine k (rd64 s.chip.hbm m.addr) v))
    ∧ (∀ core, m.dest.home = .core core → s.chip.ctxOpen ctx = true → (s.chip.coreAt core).postboxUsed < 32 →
      ∃ t, exec (.reduceArrival n) s = .next t
        ∧ (t.chip.coreAt core).postbox = (s.chip.coreAt core).postbox ++ [{ m with lctx := some ctx }]))

/-- R147, R265: the frame that a handler starts in: its registers, triple, class, privilege and context. The layout of the
franking in g1 is the model's (log 18). -/
def Sys2Proof.Claims.HandlerStartsInItsFrame : Prop :=
  ∀ (s : State) (core f : Nat) (m : Msg) (rest : List Msg) (h arg : Word) (data : List Byte),
    (s.chip.coreAt core).postbox = m :: rest → m.body = .active h arg data →
    s.chip.dormant core (m.lctx.getD m.frank.ctx) = some f →
    ∃ t, exec (.handlerStart core) s = .next t ∧ (t.chip.coreAt core).postbox = rest
      ∧ let fr := t.chip.frameAt core f
        fr.pc = h ∧ fr.npc = h + 4 ∧ fr.nnpc = h + 8 ∧ fr.st = .ready ∧ fr.ctx = m.lctx.getD m.frank.ctx
        ∧ fr.g[0] = arg ∧ fr.g[2] = BitVec.ofNat 64 m.addr ∧ fr.g[3] = BitVec.ofNat 64 data.length
        ∧ fr.g[1] = BitVec.ofNat 64
            (m.frank.sup.toNat * 2 ^ 37 + m.frank.ctx * 2 ^ 27 + m.frank.core * 2 ^ 12 + m.frank.pkg)
        ∧ (∀ i : Fin 16, 4 ≤ i.val → fr.g[i] = 0) ∧ fr.tname = 0 ∧ fr.tjoin = 0
        ∧ fr.sup = (m.frank.sup && fr.ctx == 0) ∧ (m.pri < 4 → fr.pri = m.pri) ∧ fr.launch = none

/-- R22, R147, R380, R381: what enters the postbox, and the frame that its handler starts in. The layout of the franking word
in g1 follows log 18. -/
def Obligations.ArrivalsStartHandlers : Prop :=
  Sys2Proof.Claims.PostboxArrivals ∧ Sys2Proof.Claims.HandlerStartsInItsFrame

/-- R22, R127, R142, R145, R149: a migrating thread, a pushed task and a count-down at their cores. That an accepted thread
starts in a free frame at once is the model's choice (log 65). -/
def Obligations.ThreadsAndTasksArrive : Prop :=
  (∀ (s : State) (n core f : Nat) (m : Msg) (im : Image), s.chip.arriving n = some m → m.dest.home = .core core →
    m.body = .migrate im → (s.chip.coreAt core).reserves im.launch = true → s.chip.ctxOpen im.ctx = true →
    (s.chip.coreAt core).postboxUsed < 32 →
    let free := (s.chip.coreAt core).lowest s.chip.now fun x => x.reservedFor == im.launch
    ∃ t, exec (.migrateArrival n) s = .next t ∧ Answered s.chip t.chip m (.ack 0)
      ∧ (free = none → (t.chip.coreAt core).postbox = (s.chip.coreAt core).postbox ++ [m])
      ∧ (free = some f → let fr := t.chip.frameAt core f
        fr.g = im.g ∧ fr.pc = im.pc ∧ fr.npc = im.npc ∧ fr.nnpc = im.nnpc ∧ fr.sw = im.sw ∧ fr.tname = im.tname
        ∧ fr.tjoin = im.tjoin ∧ fr.ctx = im.ctx ∧ fr.launch = im.launch ∧ fr.st = .ready))
  ∧ (∀ (s : State) (n core : Nat) (m : Msg) (k : Task), s.chip.arriving n = some m → m.dest.home = .core core →
    m.body = .taskPush k → (s.chip.coreAt core).dequeFull = false → s.chip.dequeFree core = true →
    ∃ t, exec (.remoteTaskPush n) s = .next t ∧ (t.chip.coreAt core).deque = k :: (s.chip.coreAt core).deque)
  ∧ (∀ (s : State) (n core : Nat) (m : Msg), s.chip.arriving n = some m → m.dest.home = .core core →
    m.body = .countDown → m.sib = none → (s.chip.coreAt core).held = [] → (s.chip.coreAt core).pad.wf = true →
    (s.chip.coreAt core).padBad m.addr 8 = false → (s.chip.coreAt core).padBad (m.addr + 16) 8 = false →
    ∃ t, exec (.joinCountdown n) s = .next t
      ∧ rd64 (t.chip.coreAt core).pad m.addr = rd64 (s.chip.coreAt core).pad m.addr - 1
      ∧ rd64 (t.chip.coreAt core).pad (m.addr + 16) = rd64 (s.chip.coreAt core).pad (m.addr + 16) + 1)

/-- R61, R369, R387: a reply, an acknowledgement and an object's answer write what the request names and end it. -/
def Obligations.AnswersLand : Prop :=
  (∀ (s : State) (n core f k : Nat) (m : Msg) (r : Req) (d : Reg) (data : List Byte) (bad : Bool),
    s.chip.arriving n = some m → m.dest.home = .core core → m.body = .reply data bad →
    tfind (s.chip.coreAt core).reqs m.id = some r → r.owner = .frame f → r.want = .load d k →
    ∃ t, exec (.reply n) s = .next t ∧ Received t.chip core f d (BitVec.ofNat 64 (leNat data))
      ∧ (t.chip.coreAt core).reqs = tdel (s.chip.coreAt core).reqs m.id
      ∧ (bad = true → ∀ x, d = .g x → ∃ p ∈ (t.chip.frameAt core f).poisoned, p = (x.toNat, r.msg.va)))
  ∧ (∀ (s : State) (n core f st : Nat) (m : Msg) (r : Req), s.chip.arriving n = some m → m.dest.home = .core core →
    m.body = .ack st → tfind (s.chip.coreAt core).reqs m.id = some r → r.owner = .frame f →
    (r.want = .posted → ∃ t, exec (.ack n) s = .next t
      ∧ (t.chip.coreAt core).reqs = tdel (s.chip.coreAt core).reqs m.id ∧ t.chip.frameAt core f = s.chip.frameAt core f)
    ∧ (∀ d, r.want = .stored d none → ∃ t, exec (.ack n) s = .next t
      ∧ (t.chip.coreAt core).reqs = tdel (s.chip.coreAt core).reqs m.id
      ∧ Received t.chip core f d (if st = 0 then 1 else 0)))
  ∧ (∀ (s : State) (n core f : Nat) (m : Msg) (r : Req) (v : Word) (b : Bool) (gd : Option Reg) (pd : Option (BitVec 3)),
    s.chip.arriving n = some m → m.dest.home = .core core → m.body = .objReply (.ok v b) →
    tfind (s.chip.coreAt core).reqs m.id = some r → r.owner = .frame f → r.want = .object gd pd none →
    s.chip.canLand core gd = true →
    ∃ t, exec (.objectReply n) s = .next t ∧ (∀ d, gd = some d → Received t.chip core f d v)
      ∧ let fr := t.chip.frameAt core f
        fr.st = .ready ∧ fr.pc = (s.chip.frameAt core f).npc ∧ fr.npc = (s.chip.frameAt core f).nnpc
        ∧ (∀ q : BitVec 3, pd = some q → predOf fr.sw q = (b || q == 0)))

namespace Sys2Proof.Claims

/-- The request id of frame f ends with a refusal of a status in a package: a nack at its core brings it, or the time of an
off-package request is over, which counts as 7 (R205, R369); d is the package as the step finds it, the nack taken. -/
def RefusedAs (c d : Chip) (i : Instr) (core id st : Nat) (r : Req) : Prop :=
  (∃ n m, i = .nack n ∧ d = c.taken n ∧ c.arriving n = some m ∧ m.dest.home = .core core ∧ m.body = .nack st ∧ m.id = id ∧ st ≠ 2)
  ∨ (i = .requestTimeout core id ∧ d = c ∧ st = 7 ∧ r.msg.dest.pkg ≠ c.pkg
    ∧ (let tmo := if bits c.fabcfg 15 0 = 0 then 1000 else bits c.fabcfg 15 0
       r.sent + tmo * 10 * 1250 ≤ c.now))
/-- The cause and the detail that a status stands for (R205, R369). -/
def CauseOf (st cause detail : Nat) : Prop :=
  (st = 1 ∨ st = 3 → cause = 0x05) ∧ (st = 4 → cause = 0x0E ∧ detail = 0x52) ∧ (st = 5 → cause = 0x0E ∧ detail = 0x40)
  ∧ (st = 6 → cause = 0x06) ∧ (st = 7 → cause = 0x0E ∧ detail = 0x41) ∧ (st = 8 → cause = 0x07)

end Sys2Proof.Claims

/-- R191, R205, R369: what a nack and a timeout do. A refused posted write, and a refused read whose data its home did not lose, is
kept for its thread with its cause; a read of lost data writes and poisons its register; a refused object instruction traps at
once; a request that met a moved page is asked again. -/
def Sys2Proof.Claims.RefusalsAreKept : Prop :=
  (∀ (s : State) (i : Instr) (core f id st : Nat) (r : Req) (d : Chip), let c := s.chip
    tfind (c.coreAt core).reqs id = some r → tfind (d.coreAt core).reqs id = some r → r.owner = .frame f →
    RefusedAs c d i core id st r →
    ∃ t, exec i s = .next t
      ∧ (r.want = .posted ∨ (∃ a z, r.want = .load a z ∧ st ≠ 4) → (t.chip.coreAt core).reqs = tdel (d.coreAt core).reqs id
        ∧ ∃ cause detail, CauseOf st cause detail
          ∧ (t.chip.frameAt core f).refusals = (d.frameAt core f).refusals
            ++ [⟨r.acq, cause, detail, refusedAddr r.msg st, r.want.reg, none⟩])
      ∧ (∀ n z, r.want = .load (.g n) z → st = 4 → (t.chip.coreAt core).reqs = tdel (d.coreAt core).reqs id
        ∧ (n.toNat, r.msg.va) ∈ (t.chip.frameAt core f).poisoned
        ∧ (t.chip.frameAt core f).refusals = (d.frameAt core f).refusals)
      ∧ (∀ gd pd, r.want = .object gd pd none → ∃ cause detail, CauseOf st cause detail
        ∧ t.chip = (d.close core id).takeTrap core f r.word false cause detail (refusedAddr r.msg st)))
  ∧ (∀ (s : State) (n core f : Nat) (m : Msg) (r : Req), s.chip.arriving n = some m → m.dest.home = .core core → m.body = .nack 2 →
    tfind ((s.chip.taken n).coreAt core).reqs m.id = some r → r.owner = .frame f →
    ∃ t, exec (.nack n) s = .next t ∧ tfind (t.chip.coreAt core).reqs m.id = some { r with retry := some s.chip.now })

/-- R177, R236: a notice raises its counter to the version and never lowers it; a withdrawal takes its waiter away. -/
def Sys2Proof.Claims.NoticesAndWithdrawals : Prop :=
  (∀ (s : State) (n core ctr v : Nat) (m : Msg), s.chip.arriving n = some m → m.dest.home = .core core →
    m.body = .notice ctr v → (s.chip.coreAt core).pad.wf = true → (s.chip.coreAt core).padBad ctr 8 = false →
    ∃ t, exec (.notice n) s = .next t ∧
      let old := rd64 (s.chip.coreAt core).pad ctr
      let new := rd64 (t.chip.coreAt core).pad ctr
      old.toInt ≤ new.toInt ∧ (BitVec.ofNat 64 v).toInt ≤ new.toInt ∧ (new = old ∨ new = BitVec.ofNat 64 v))
  ∧ (∀ (s : State) (n : Nat) (m w : Msg), s.chip.arriving n = some m → m.body = .withdraw →
    ((s.chip.waitersAt m.dest.home).find? fun x => x.id == m.id && x.frank.core == m.frank.core
      && x.frank.pkg == m.frank.pkg) = some w →
    ∃ t, exec (.waiterWithdrawal n) s = .next t ∧ Answered s.chip t.chip w (.objReply .withdrawn)
      ∧ t.chip.waitersAt m.dest.home = (s.chip.waitersAt m.dest.home).erase w
      ∧ ((s.chip.waitersAt m.dest.home).Nodup → w ∉ t.chip.waitersAt m.dest.home))

/-- R59, R177, R205, R236, R369: refusals kept for their thread, notices and withdrawals. -/
def Obligations.RefusalsNoticesAndWithdrawals : Prop :=
  Sys2Proof.Claims.RefusalsAreKept ∧ Sys2Proof.Claims.NoticesAndWithdrawals

/-! ## Frames, tasks and steals between instructions -/

/-- R127 to R129, R291, R405, R406: a wait that ends, an ageing frame, the divider, a sleep that ends, and a core that goes
to sleep and wakes. That a frame which awaits pre-emption or an engine error is not picked before that is taken is the
model's choice (log 4). -/
def Obligations.FramesBetweenInstructions : Prop :=
  (∀ (s : State) (core f : Nat) (w : Wait), (s.chip.frameAt core f).st = .stalled w → s.chip.waitOver core f w = true →
    ∃ t, exec (.frameReady core f) s = .next t ∧ (t.chip.frameAt core f).st = .ready
      ∧ (t.chip.frameAt core f).g = (s.chip.frameAt core f).g)
  ∧ (∀ (s : State) (core f : Nat), let fr := s.chip.frameAt core f
    fr.st = .ready → s.chip.underTest core = false → fr.sup = false → fr.promoted < fr.pri →
    1250000 * (fr.promoted + 1) ≤ s.chip.readyCycles core fr →
    ((∀ p ∈ s.chip.testing, p.1 ≠ .signature (sigOf core)) → s.chip.readyCycles core fr = s.chip.now - fr.readySince)
    ∧ ∃ t, exec (.framePromotion core f) s = .next t ∧ (t.chip.frameAt core f).issueClass + 1 = fr.issueClass
      ∧ (t.chip.frameAt core f).pri = fr.pri)
  ∧ (∀ (c : Chip) (core f : Nat), c.pick core = some f →
    let k := c.coreAt core
    let cls := (k.frameAt f).issueClass
    let after := fun (n : Nat) => (n + 95 * (k.rr[cls % 5]'(Nat.mod_lt _ (by decide)) + 1)) % 96
    f < 96 ∧ k.mayIssue f = true ∧ (k.frameAt f).st = .ready
    ∧ (∀ n, n < 96 → k.mayIssue n = true → cls ≤ (k.frameAt n).issueClass
        ∧ ((k.frameAt n).issueClass = cls → after f ≤ after n))
    ∧ (let d := c.begin_ core f
       let fr := d.frameAt core f
       ((d.coreAt core).rr[cls % 5]'(Nat.mod_lt _ (by decide))) = f ∧ fr.promoted = 0 ∧ fr.readySince = d.now
       ∧ fr.issueClass = if fr.sup then 0 else 1 + fr.pri))
  ∧ (∀ (s : State) (core : Nat) (d : Divide), (s.chip.coreAt core).divide = some d → d.due ≤ s.chip.now →
    s.chip.canLand core (some d.dest) = true → (s.chip.frameAt core d.frame).thread = d.thread →
    ∃ t, exec (.divideComplete core) s = .next t ∧ (t.chip.coreAt core).divide = none
      ∧ Received t.chip core d.frame d.dest d.value)
  ∧ (∀ (s : State) (core f till : Nat), (s.chip.frameAt core f).st = .stalled (.sleep till) → till ≤ s.chip.now →
    ∃ t, exec (.sleepExpiry core f) s = .next t ∧ (t.chip.frameAt core f).st = .ready
      ∧ (t.chip.frameAt core f).pc = (s.chip.frameAt core f).npc)
  ∧ (∀ (s : State) (core : Nat), let k := s.chip.coreAt core
    (k.asleep = false → k.wakeAt ≤ s.chip.now → k.mxq = [] → k.cpq = [] → k.postbox = [] → k.held = [] →
      (∀ p ∈ k.frames, p.2.st = .free ∨ p.2.st = .parked ∨ ∃ w, p.2.st = .stalled w) →
      ∃ t, exec (.coreSleep core) s = .next t ∧ (t.chip.coreAt core).asleep = true)
    ∧ (k.asleep = true → (∃ p ∈ k.frames, p.2.st = .ready) ∨ (∃ m ∈ s.chip.net, m.dest = ⟨s.chip.pkg, .core core⟩) →
      ∃ t, exec (.coreWake core) s = .next t ∧ (t.chip.coreAt core).asleep = false
        ∧ (t.chip.coreAt core).wakeAt
            = s.chip.now + (match bits k.slpcfg 1 0 with | 0 => 2 | 1 => 40 | _ => 400)))

/-- R24, R132, R134, R135, R313: a task starts in a free frame with its argument and join reference, whose reserved bits `tjoin`
holds as zero, and a push that waited is made. -/
def Sys2Proof.Claims.TasksStart : Prop :=
  (∀ (s : State) (core l f : Nat) (k : Task), s.chip.arrivalStarts core = false → s.chip.dequeFree core = true →
    ((s.chip.coreAt core).deque.find? fun x => x.launch == some l) = some k →
    ((s.chip.coreAt core).lowest s.chip.now fun x => x.reservedFor == some l) = some f →
    ∃ t, exec (.taskPop core l) s = .next t ∧ (t.chip.coreAt core).deque = (s.chip.coreAt core).deque.erase k
      ∧ let fr := t.chip.frameAt core f
        fr.g[0] = k.arg ∧ fr.g[1] = k.join ∧ (∀ i : Fin 16, 2 ≤ i.val → fr.g[i] = 0) ∧ fr.pc = k.entry
        ∧ fr.npc = k.entry + 4 ∧ fr.nnpc = k.entry + 8 ∧ fr.tname = k.word
        ∧ fr.tjoin = k.join &&& 0x80003FFFFFFBFFFF ∧ fr.ctx = k.ctx
        ∧ fr.sup = k.sup ∧ fr.pri = bits k.word 63 62 ∧ fr.st = .ready)
  ∧ (∀ (s : State) (core : Nat) (i : Fin 32) (k : Task), ((s.chip.coreAt core).wtab[i]).fired = some k →
    (s.chip.coreAt core).dequeFull = false → (s.chip.coreAt core).binderDraining ((s.chip.coreAt core).wtab[i]) = false →
    s.chip.dequeFree core = true →
    ∃ t, exec (.deferredTaskPush core i.val) s = .next t ∧ (t.chip.coreAt core).deque = k :: (s.chip.coreAt core).deque
      ∧ ((t.chip.coreAt core).wtab[i]).isFree = true)

/-- R143, R144: a steal asks the first victim of its order, the victim gives its bottom task of the launch, the thief receives it
or goes on, and a round without a task is followed by 256 cycles. -/
def Sys2Proof.Claims.StealsComplete : Prop :=
  (∀ (s : State) (core l : Nat) (x : Launch) (v : Nat) (rest : List Nat), tfind s.chip.launches l = some x → x.mode = 0 →
    x.placed = true → core ∈ x.cores → s.chip.maySteal core l = true →
    ((s.chip.coreAt core).stealing.find? (·.launch == l)) = none → victimOrder core x.cores = v :: rest →
    ∃ t, exec (.stealRequest core l) s = .next t ∧ t.chip.steals = s.chip.steals ++ [⟨false, core, v, l, none, none⟩])
  ∧ (∀ (s : State) (n : Nat) (m : StealMsg), s.chip.stealAt n false = some m → m.expect = none →
    s.chip.popsNow m.victim = false →
    ∃ t, exec (.stealService n) s = .next t
      ∧ t.chip.steals = s.chip.steals.set n { m with reply := true, task := (s.chip.coreAt m.victim).bottom m.launch })
  ∧ (∀ (s : State) (n : Nat) (m : StealMsg) (q : Steal), s.chip.stealAt n true = some m →
    ((s.chip.coreAt m.thief).stealing.find? (·.launch == m.launch)) = some q → q.log = none →
    (∀ k, m.task = some k → (s.chip.coreAt m.thief).dequeFull = false → ∃ t, exec (.stealReply n) s = .next t
      ∧ (t.chip.coreAt m.thief).deque = k :: (s.chip.coreAt m.thief).deque)
    ∧ (m.task = none → q.victims = [] → ∃ t, exec (.stealReply n) s = .next t
      ∧ ∃ q' ∈ (t.chip.coreAt m.thief).stealing, q'.launch = q.launch ∧ q'.backoff = some (s.chip.now + 256)))
  ∧ (∀ (s : State) (core b : Nat) (q : Steal), (s.chip.coreAt core).stealing = [q] → q.backoff = some b → b ≤ s.chip.now →
    ∃ t, exec (.stealBackoffExpiry core) s = .next t ∧ (t.chip.coreAt core).stealing = [])

/-- R24, R134, R135, R143, R144, R313: tasks start, and idle cores steal them. -/
def Obligations.TasksAndSteals : Prop :=
  Sys2Proof.Claims.TasksStart ∧ Sys2Proof.Claims.StealsComplete

namespace Sys2Proof.Claims

/-- The count-down of a thread of the core from package c to package d (R142): with a join reference to another core of the package
its message is on its way, with the sib of the task word where the launch is ordered; one to the core's own block, where nothing
is held in order (R150), has lowered `count` and raised `merged`; with no reference the core's memory is as it was. -/
def CountsDown (c d : Chip) (core : Nat) (tjoin tname : Word) (launch : Option Nat) : Prop :=
  let ordered := c.modeOf launch ≠ 0
  let o := refOff tjoin
  (tst tjoin 63 = true → refPkg tjoin = c.pkg → refCore tjoin ≠ core → ∃ m ∈ d.net, m.body = .countDown
      ∧ m.dest = ⟨c.pkg, .core (refCore tjoin)⟩ ∧ m.addr = o ∧ m.sib = if ordered then some (bits tname 61 46) else none)
  ∧ (tst tjoin 63 = true → refPkg tjoin = c.pkg → refCore tjoin = core → ¬ ordered → (c.coreAt core).held = [] →
      (c.coreAt core).pad.wf = true → (c.coreAt core).padBad o 8 = false → (c.coreAt core).padBad (o + 16) 8 = false →
      rd64 (d.coreAt core).pad o = rd64 (c.coreAt core).pad o - 1
      ∧ rd64 (d.coreAt core).pad (o + 16) = rd64 (c.coreAt core).pad (o + 16) + 1)
  ∧ (tst tjoin 63 = false → (d.coreAt core).pad = (c.coreAt core).pad)

end Sys2Proof.Claims

/-- R142, R151, R165, R318: a drained thread retires with its count-down, a tail's entry makes it and frees, and a replay that
waits too long takes trap 0x14. That a frame so freed takes another thread a cycle later is the model's reading (log 80). -/
def Obligations.RetirementCompletes : Prop :=
  (∀ (s : State) (core f : Nat) (isJoin : Bool) (w : BitVec 32), let fr := s.chip.frameAt core f
    fr.st = .retiring isJoin w → s.chip.drained core (.frame f) fr.thread = true → fr.engErr = [] → fr.refusals = [] →
    ∃ t, exec (.retirementDrainComplete core f) s = .next t ∧ (t.chip.frameAt core f).st = .free
      ∧ (∀ p, (t.chip.coreAt core).lowest s.chip.now p ≠ some f) ∧ (t.chip.frameAt core f).freeAt = s.chip.now + 2
      ∧ (isJoin = false → CountsDown s.chip t.chip core fr.tjoin fr.tname fr.launch)
      ∧ (isJoin = true → (t.chip.coreAt core).pad = (s.chip.coreAt core).pad))
  ∧ (∀ (s : State) (core n : Nat) (x : Tracker), tfind (s.chip.coreAt core).trackers n = some x →
    s.chip.drained core (.tracker n) x.thread = true →
    ((s.chip.coreAt core).vec.owner = some (tailParty n) → (s.chip.coreAt core).vec.writes = []) →
    ∃ t, exec (.trackerDrainComplete core n) s = .next t
      ∧ (t.chip.coreAt core).trackers = tdel (s.chip.coreAt core).trackers n
      ∧ (x.refused = false → CountsDown s.chip t.chip core x.tjoin x.tname x.launch)
      ∧ (x.refused = true → (t.chip.coreAt core).pad = (s.chip.coreAt core).pad ∧ t.chip.net = s.chip.net))
  ∧ (∀ (s : State) (core f since kind : Nat) (w : BitVec 32), (s.chip.frameAt core f).st = .stalled (.replay since kind w) →
    since + 2 ^ 20 < s.chip.now →
    exec (.orderLogWatchdog core f) s = .next (s.withChip (s.chip.takeTrap core f w false 0x14 0 0)))

/-! ## Class 100 -/

namespace Sys2Proof.Claims

/-- The vector unit is the issuing frame's, or free with nothing saved to read back; nothing is on its way in it, its issue gap
has passed, and the named registers can be used (R161, R322, R325, R326). -/
def VectorReady (c : Chip) (regs : List (BitVec 5)) : Prop :=
  (c.here.vec.owner = some c.frame ∨ (c.here.vec.owner = none ∧ c.here.vec.running = false ∧ c.me.esave = 0))
  ∧ c.atRest = true
  ∧ c.here.vec.writes = [] ∧ c.here.vec.pipeAt ≤ c.now ∧ ∀ v ∈ regs, c.vectorIdle v.toNat = true
/-- The vector state of the issuing core changed. -/
def vecOf (c : Chip) (f : Vec → Vec) : Chip := c.modCore c.core fun k => { k with vec := f k.vec }
/-- The vector unit taken by the issuing frame. -/
def took (c : Chip) : Chip :=
  match c.here.vec.owner with
  | none => vecOf c fun x => { x with owner := some c.frame }
  | some _ => c
/-- Vector register n of the issuing core. -/
def vreg (c : Chip) (n : BitVec 5) : VWord := c.here.vec.v[n.toFin]
/-- Vector register n written. -/
def vset (c : Chip) (n : BitVec 5) (x : VWord) : Chip :=
  vecOf c fun y => { y with v := y.v.set n.toNat x, poisoned := y.poisoned.filter fun p => p.1 != n.toNat }
/-- Mask register n written. -/
def kset (c : Chip) (n : BitVec 3) (m : Word) : Chip := vecOf c fun y => { y with k := y.k.set n.toNat m }
/-- The next vector instruction issues after the gap (R322), and the frame goes on. -/
def vnext (c : Chip) (w : BitVec 2) : Chip := (vecOf c fun y => { y with pipeAt := c.now + 1 + w.toNat }).goOn
/-- Lane i of w bits (R320). -/
def laneB (w i : Nat) (x : VWord) : BitVec w := x.extractLsb' (w * i) w

/-- An instruction that writes one vector register, with what holds of the word it writes. -/
def VWrites (s : State) (i : Instr) (w : BitVec 2) (d : BitVec 5) (is : VWord → Prop) : Prop :=
  ∃ x, exec i s = .next (s.withChip (vnext (vset (took (s.chip.issuing i)) d x) w)) ∧ is x

/-- A V3 operation, lane by lane (R329, R330): f of the lanes of vd, va and vb. -/
def Lanes3 (w : Nat) (k : Guard → BitVec 2 → Bool → Bool → Bool → BitVec 5 → BitVec 5 → BitVec 5 → Instr)
    (f : BitVec w → BitVec w → BitVec w → BitVec w) : Prop :=
  ∀ (s : State) (g : Guard) (gap : BitVec 2) (sd sa sb : Bool) (d a b : BitVec 5), s.chip.clear g = true →
    VectorReady s.chip [d, a, b] →
    VWrites s (k g gap sd sa sb d a b) gap d fun x => ∀ i, i < 512 / w →
      laneB w i x = f (laneB w i (vreg s.chip d)) (laneB w i (vreg s.chip a)) (laneB w i (vreg s.chip b))
/-- An operation on FP32 lanes: the exact result rounded once (R30, R330). -/
def single (f : FVal → FVal → FVal) (_ x y : BitVec 32) : BitVec 32 :=
  BitVec.ofNat 32 (roundNear .fp32 (f (decodeFloat .fp32 x.toNat) (decodeFloat .fp32 y.toNat)))
/-- A fused multiply and add, rounded once (R330). -/
def fusedLanes (w : Nat) (fm : Fmt) (z x y : BitVec w) : BitVec w :=
  BitVec.ofNat w (roundNear fm (fadd (decodeFloat fm z.toNat) (fmul (decodeFloat fm x.toNat) (decodeFloat fm y.toNat))))

/-- A V2 operation on whole registers va and vx (R332, R338). -/
def Whole2 (k : Guard → BitVec 2 → Bool → Bool → BitVec 5 → BitVec 5 → BitVec 5 → Instr) (is : VWord → VWord → VWord → Prop) :
    Prop :=
  ∀ (s : State) (g : Guard) (gap : BitVec 2) (sd sa : Bool) (d a x : BitVec 5), s.chip.clear g = true →
    VectorReady s.chip [d, a, x] → VWrites s (k g gap sd sa d a x) gap d (is (vreg s.chip a) (vreg s.chip x))
/-- A V2 operation on the lanes of va. -/
def Lanes1 (k : Guard → BitVec 2 → Bool → Bool → BitVec 5 → BitVec 5 → Instr) (is : VWord → VWord → Prop) : Prop :=
  ∀ (s : State) (g : Guard) (gap : BitVec 2) (sd sa : Bool) (d a : BitVec 5), s.chip.clear g = true →
    VectorReady s.chip [d, a] → VWrites s (k g gap sd sa d a) gap d (is (vreg s.chip a))
/-- Every 32-bit lane of the result is f of the same lane of va, and the inputs of a table give what it says. -/
def byLane (f : BitVec 32 → BitVec 32) (table : List (BitVec 32 × BitVec 32)) (a x : VWord) : Prop :=
  ∀ i, i < 16 → laneB 32 i x = f (laneB 32 i a) ∧ ∀ p ∈ table, laneB 32 i a = p.1 → laneB 32 i x = p.2

/-- A compare (R333): each bit of the mask says whether the condition holds of its lane. -/
def Compares (k : Guard → BitVec 2 → Bool → CmpType → BitVec 3 → BitVec 5 → BitVec 5 → Instr)
    (ff : Ordering → Bool) (fi : Int → Int → Bool) : Prop :=
  ∀ (s : State) (g : Guard) (gap : BitVec 2) (sa : Bool) (t : CmpType) (n : BitVec 3) (a x : BitVec 5),
    s.chip.clear g = true → VectorReady s.chip [a, x] →
    let p := vreg s.chip a
    let q := vreg s.chip x
    let float := fun (u v : FVal) => !u.isNan && !v.isNan && ff (fcmp u v)
    ∃ m : Word, exec (k g gap sa t n a x) s = .next (s.withChip (vnext (kset (took (s.chip.issuing (k g gap sa t n a x))) n m) gap))
      ∧ ∀ j, j < 64 → m.getLsbD j = match t with
        | .f32 => float (decodeFloat .fp32 (laneB 32 (j / 4) p).toNat) (decodeFloat .fp32 (laneB 32 (j / 4) q).toNat)
        | .i32 => fi (laneB 32 (j / 4) p).toInt (laneB 32 (j / 4) q).toInt
        | .bf16 => float (decodeFloat .bf16 (laneB 16 (j / 2) p).toNat) (decodeFloat .bf16 (laneB 16 (j / 2) q).toNat)

/-- A vector instruction traps 0x0E with a detail, the unit taken, and changes nothing else. That `eaddr` is 0 is the model's
choice (log 50). -/
def VTraps (s : State) (i : Instr) (detail : Nat) : Prop :=
  exec i s = .next (s.withChip (((took (s.chip.issuing i)).linksOf s.chip s.chip.core).takeTrap s.chip.core s.chip.frame
    (causeWord i) false 0x0E detail 0))
/-- The pairs of formats that `vdot` accepts (R331). -/
def DotPair (a b : Option Fmt) : Prop :=
  (a ∈ [some .e4m3, some .e5m2] ∧ b ∈ [some Fmt.e4m3, some .e5m2]) ∨ (a = b ∧ a ∈ [some .bf16, some .int8, some Fmt.cb8])

/-- The products of group g of two vectors of elements (R43). -/
def groupOf (a b : Nat → FVal) (g : Nat) : List FVal := (List.range 16).map fun i => fmul (a (16 * g + i)) (b (16 * g + i))
/-- What `vdot` with context c does (R331): each group is added into its lane of vd, and other lanes keep their value. -/
def Dots (k : Guard → BitVec 2 → Bool → Bool → Bool → BitVec 5 → BitVec 5 → BitVec 5 → Instr) (c : Fin 4) : Prop :=
  ∀ (s : State) (g : Guard) (gap : BitVec 2) (sd sa sb : Bool) (d a b : BitVec 5), s.chip.clear g = true →
    VectorReady s.chip [d, a, b] →
    let ctx := s.chip.here.fctx[c]
    let x := vreg s.chip a
    let y := vreg s.chip b
    let z := vreg s.chip d
    let run := fun (n : Nat) (f : Nat → BitVec 32) => VWrites s (k g gap sd sa sb d a b) gap d fun r =>
      ∀ i, i < 16 → laneB 32 i r = if i < n then f i else laneB 32 i z
    let e8 := fun (f : Fmt) (v : VWord) (i : Nat) => decodeFloat f (laneB 8 i v).toNat
    (∀ fa ∈ [Fmt.e4m3, .e5m2], ∀ fb ∈ [Fmt.e4m3, .e5m2], afmtOf ctx = some fa → bfmtOf ctx = some fb →
      run 4 fun i => groupAdd (laneB 32 i z) (groupOf (e8 fa x) (e8 fb y) i))
    ∧ (afmtOf ctx = some .bf16 → bfmtOf ctx = some .bf16 →
      run 2 fun i => groupAdd (laneB 32 i z) (groupOf (fun j => decodeFloat .bf16 (laneB 16 j x).toNat)
        (fun j => decodeFloat .bf16 (laneB 16 j y).toNat) i))
    ∧ (afmtOf ctx = some .int8 → bfmtOf ctx = some .int8 →
      run 4 fun i => groupAddInt (laneB 32 i z) ((List.range 16).map fun j =>
        (laneB 8 (16 * i + j) x).toInt * (laneB 8 (16 * i + j) y).toInt))
    ∧ (∀ ea eb, afmtOf ctx = some .cb8 → bfmtOf ctx = some .cb8 →
      decodeBlock (ctxTable ctx) (fun i => laneB 8 i x) = some ea → decodeBlock (ctxTable ctx) (fun i => laneB 8 i y) = some eb →
      run 2 fun i => groupAdd (laneB 32 i z) (((List.range 16).filter fun j =>
        decide (16 * i + j < ea.1.length ∧ 16 * i + j < eb.1.length)).map fun j =>
          fmul (ea.1.getD (16 * i + j) .nan) (eb.1.getD (16 * i + j) .nan)))
    ∧ (afmtOf ctx = some .cb8 → bfmtOf ctx = some .cb8 →
      decodeBlock (ctxTable ctx) (fun i => laneB 8 i x) = none ∨ decodeBlock (ctxTable ctx) (fun i => laneB 8 i y) = none →
      VTraps s (k g gap sd sa sb d a b) 0x20)
    ∧ (¬ DotPair (afmtOf ctx) (bfmtOf ctx) → VTraps s (k g gap sd sa sb d a b) 0x21)

/-- Lane i of a conversion's source as a number (R334). -/
def sourceOf (k : CvtKind) (i : Nat) (x : VWord) : FVal :=
  match k with
  | .i32f32 | .i32i8 => ofInt (laneB 32 i x).toInt
  | _ => decodeFloat .fp32 (laneB 32 i x).toNat
/-- The target of a conversion (R334), and its bytes. -/
def targetFmt : CvtKind → Fmt × Nat
  | .f32bf16 => (.bf16, 2) | .f32e4m3 => (.e4m3, 1) | .f32e5m2 => (.e5m2, 1) | .f32i32 => (.int32, 4)
  | .f32i8 | .i32i8 => (.int8, 1) | .i32f32 => (.fp32, 4)
/-- The 16 results of a conversion stand packed from byte 0, and the rest is zero (R334). -/
def Converted (k : CvtKind) (m : Mode) (a x : VWord) : Prop :=
  let w := 8 * (targetFmt k).2
  ∀ i, i < 512 / w → laneB w i x = if i < 16 then BitVec.ofNat w (convTo (targetFmt k).1 m (sourceOf k i a)).code else 0

/-- n bytes of a list in this package's HBM, or in memory loc, that the issuing frame can access at once: translated, in no page
that moves, sound, and met by no earlier access of the thread (R50, R335, R366). -/
def ListAt (c : Chip) (va : Word) (n : Nat) (need : Need) (loc : Nat) (p : Phys) : Prop :=
  c.lookup va need false = .ok p ∧ p.loc = loc ∧ c.physShut p n = false ∧ c.physBad p n = false
  ∧ ∀ r ∈ c.here.reqs, r.2.owner = .frame c.frame → r.2.msg.dest ≠ c.placeOf p
/-- What an overflow conversion of the lanes `overs`, in ascending order, leaves of a list in HBM at h (R49 to R51): with room for
all of them their records and the count, with room for none the loss, and every other byte as it was. -/
def Appended (c d : Chip) (h : Nat) (full : Bool) (overs : List Nat) (a : VWord) : Prop :=
  let n := overs.length
  let cnt := rdLe c.hbm (h + 4) 4
  let other := fun (lo hi : Nat) => ∀ b, b < lo ∨ hi ≤ b → rdByte d.hbm b = rdByte c.hbm b
  if full then rdLe d.hbm (h + 8) 4 = Nat.min 0xFFFFFFFF (rdLe c.hbm (h + 8) 4 + n) ∧ other (h + 8) (h + 12)
  else rdLe d.hbm (h + 4) 4 = cnt + n
    ∧ (∀ q l, overs[q]? = some l → rdLe d.hbm (h + 16 + 8 * (cnt + q)) 4 = (c.me.vobase.toNat + l) % 2 ^ 32
        ∧ rdLe d.hbm (h + 20 + 8 * (cnt + q)) 4 = (laneB 32 l a).toNat)
    ∧ ∀ b, b < h + 4 ∨ (h + 8 ≤ b ∧ b < h + 16 + 8 * cnt) ∨ h + 16 + 8 * (cnt + n) ≤ b → rdByte d.hbm b = rdByte c.hbm b

end Sys2Proof.Claims

/-- R329, R330: the V3 lane operations. -/
def Sys2Proof.Claims.VectorLaneResults : Prop :=
  Lanes3 32 .vfmaF32 (fusedLanes 32 .fp32) ∧ Lanes3 16 .vfmaBf16 (fusedLanes 16 .bf16)
  ∧ Lanes3 32 .vaddF32 (single fadd) ∧ Lanes3 32 .vsubF32 (single fun x y => fadd x (fneg y))
  ∧ Lanes3 32 .vmulF32 (single fmul) ∧ Lanes3 32 .vmaxF32 (single fmax) ∧ Lanes3 32 .vminF32 (single fmin)
  ∧ Lanes3 32 .vaddI32 (fun _ x y => x + y) ∧ Lanes3 32 .vsubI32 (fun _ x y => x - y)
  ∧ Lanes3 32 .vmulI32 (fun _ x y => x * y)
  ∧ Lanes3 32 .vmaxI32 (fun _ x y => if x.toInt < y.toInt then y else x)
  ∧ Lanes3 32 .vminI32 (fun _ x y => if y.toInt < x.toInt then y else x)

/-- R337 to R339: shifts, bitwise operations, permutation, broadcast, extraction, reductions and the approximations. -/
def Sys2Proof.Claims.VectorWholeResults : Prop :=
  Whole2 .vand (fun p q x => x = p &&& q) ∧ Whole2 .vor (fun p q x => x = p ||| q) ∧ Whole2 .vxor (fun p q x => x = p ^^^ q)
  ∧ Whole2 .vandn (fun p q x => x = p &&& ~~~q)
  ∧ Whole2 .vperm (fun p q x => ∀ j, j < 64 → laneB 8 j x
      = if tst (laneB 8 j q) 7 then 0 else laneB 8 ((laneB 8 j q).toNat % 64) p)
  ∧ (∀ n : BitVec 5, Lanes1 (fun g w sd sa d a => .vshlI32 g w sd sa d a n) (byLane (fun x => x <<< n.toNat) []))
  ∧ (∀ n : BitVec 5, Lanes1 (fun g w sd sa d a => .vshrI32 g w sd sa d a n) (byLane (fun x => x >>> n.toNat) []))
  ∧ (∀ n : BitVec 5, Lanes1 (fun g w sd sa d a => .vsarI32 g w sd sa d a n) (byLane (fun x => x.sshiftRight n.toNat) []))
  ∧ Lanes1 .vexp2F32 (byLane (fun x => BitVec.ofNat 32 (approxExp2 (decodeFloat .fp32 x.toNat)))
      [(0, 0x3F800000), (0x80000000, 0x3F800000), (0x7F800000, 0x7F800000), (0xFF800000, 0)])
  ∧ Lanes1 .vrcpF32 (byLane (fun x => BitVec.ofNat 32 (approxRcp (decodeFloat .fp32 x.toNat)))
      [(0, 0x7F800000), (0x80000000, 0xFF800000), (0x7F800000, 0), (0xFF800000, 0x80000000)])
  ∧ Lanes1 .vrsqF32 (byLane (fun x => BitVec.ofNat 32 (approxRsq (decodeFloat .fp32 x.toNat)))
      [(0, 0x7F800000), (0x80000000, 0xFF800000), (0x7F800000, 0)])
  ∧ (∀ k : VRed, Lanes1 (fun g w sd sa d a => .vred g w sd sa d a k) fun a x =>
      (∀ i, 0 < i → i < 16 → laneB 32 i x = 0)
      ∧ laneB 32 0 x = (let fold := fun (f : BitVec 32 → BitVec 32 → BitVec 32) =>
          (List.range 15).foldl (fun t i => f t (laneB 32 (i + 1) a)) (laneB 32 0 a)
        match k with
        | .addF => groupAdd 0 ((List.range 16).map fun i => decodeFloat .fp32 (laneB 32 i a).toNat)
        | .maxF => fold (single fmax 0) | .minF => fold (single fmin 0) | .addI => fold (· + ·)
        | .maxI => fold fun u v => if u.toInt < v.toInt then v else u
        | .minI => fold fun u v => if v.toInt < u.toInt then v else u
        | .and => fold (· &&& ·) | .or => fold (· ||| ·)))
  ∧ (∀ (s : State) (g : Guard) (gap : BitVec 2) (sd : Bool) (d : BitVec 5), s.chip.clear g = true → VectorReady s.chip [d] →
      VWrites s (.vlane g gap sd d) gap d fun x => ∀ i, i < 16 → laneB 32 i x = BitVec.ofNat 32 i)
  ∧ (∀ (s : State) (g : Guard) (gap : BitVec 2) (sd : Bool) (d : BitVec 5) (a : Reg) (z : Size), s.chip.clear g = true →
      VectorReady s.chip [d] → s.chip.usable [a] [] = true →
      let i := Instr.vbcst g gap sd d a z
      ∃ x, exec i s = .next (s.withChip (vnext (vset ((took (s.chip.issuing i)).popped a) d x) gap))
        ∧ ∀ j, j < 64 / sizeBytes z → laneB (8 * sizeBytes z) j x = BitVec.ofNat (8 * sizeBytes z) (s.chip.val a).toNat)
  ∧ (∀ (s : State) (g : Guard) (gap : BitVec 2) (sa : Bool) (d : Reg) (a : BitVec 5) (l : BitVec 4), s.chip.clear g = true →
      VectorReady s.chip [a] → s.chip.usable [] [d] = true →
      let i := Instr.vext g gap sa d a l
      exec i s = .next (s.withChip (vnext ((took (s.chip.issuing i)).given d
        ((laneB 32 l.toNat (vreg s.chip a)).setWidth 64)) gap)))

/-- R329, R330, R337 to R339: what vector instructions on lanes and on whole registers write. The cut of exp2 arguments
follows log 24. -/
def Obligations.VectorLanes : Prop :=
  Sys2Proof.Claims.VectorLaneResults ∧ Sys2Proof.Claims.VectorWholeResults

/-- R331 to R336: dot products, compares, selection, conversions and widenings. `eaddr` 0 of the trap on an unset context is
the model's choice (log 50). -/
def Obligations.VectorFormatResults : Prop :=
  Dots .vdotF0 0 ∧ Dots .vdotF1 1 ∧ Dots .vdotF2 2 ∧ Dots .vdotF3 3
  ∧ Compares .vcmpEq (· == .eq) (fun u v => decide (u = v)) ∧ Compares .vcmpLt (· == .lt) (fun u v => decide (u < v))
  ∧ Compares .vcmpLe (· != .gt) (fun u v => decide (u ≤ v))
  ∧ (∀ n : BitVec 3, ∀ (s : State) (g : Guard) (gap : BitVec 2) (sd sa : Bool) (d a : BitVec 5), s.chip.clear g = true →
      VectorReady s.chip [d, a] → VWrites s (.vsel g gap sd sa d a n) gap d fun x => ∀ j, j < 64 →
        laneB 8 j x = laneB 8 j (if tst s.chip.here.vec.k[n.toFin] j then vreg s.chip a else vreg s.chip d))
  ∧ (∀ (k : CvtKind) (m : Mode), Lanes1 (fun g w sd sa d a => .vcvt g w sd sa d a k m) (Converted k m))
  ∧ (∀ (s : State) (g : Guard) (gap : BitVec 2) (sd sa : Bool) (d a : BitVec 5) (k : CvtKind) (m : Mode),
      s.chip.clear g = true → s.chip.mayAccess = true → VectorReady s.chip [d, a] →
      (s.chip.me.volist = 0 ∨
        ∀ i, i < 16 → (convTo (targetFmt k).1 m (sourceOf k i (vreg s.chip a))).overflows = false) →
      let i := Instr.vcvtOl g gap sd sa d a k m
      ∃ x, exec i s = .next (s.withChip (vnext (vset ((took (s.chip.issuing i)).modFrame s.chip.core s.chip.frame fun f =>
          { f with vobase := BitVec.ofNat 64 ((f.vobase.toNat + 16) % 2 ^ 32), far := [] }) d x) gap))
        ∧ Converted k m (vreg s.chip a) x)
  ∧ (∀ (s : State) (g : Guard) (gap : BitVec 2) (sd sa : Bool) (d a : BitVec 5) (k : CvtKind) (m : Mode),
      s.chip.clear g = true → s.chip.mayAccess = true → VectorReady s.chip [d, a] → s.chip.me.far = [] → s.chip.hbm.wf = true →
      let list := s.chip.me.volist
      let conv := fun (i : Nat) => convTo (targetFmt k).1 m (sourceOf k i (vreg s.chip a))
      let overs := (List.range 16).filter fun i => (conv i).overflows
      let i := Instr.vcvtOl g gap sd sa d a k m
      list ≠ 0 → overs ≠ [] →
      (list.toNat % 8 ≠ 0 → exec i s = .next (s.withChip (((took (s.chip.issuing i)).linksOf s.chip s.chip.core).takeTrap
        s.chip.core s.chip.frame (causeWord i) false 0x0E 0x22 list)))
      ∧ (∀ h, list.toNat % 8 = 0 → ListAt s.chip list 8 .w 0 h →
        let cap := rdLe s.chip.hbm h.pa 4
        let cnt := rdLe s.chip.hbm (h.pa + 4) 4
        let w := 8 * (targetFmt k).2
        let done := fun (full : Bool) => ∃ t, exec i s = .next t ∧ t.chip.me.pc = s.chip.me.npc
          ∧ t.chip.me.vobase.toNat = (s.chip.me.vobase.toNat + 16) % 2 ^ 32
          ∧ Appended s.chip t.chip h.pa full overs (vreg s.chip a)
          ∧ ∀ j, j < 512 / w → laneB w j (vreg t.chip d) = if j < 16 then BitVec.ofNat w
              (if (conv j).overflows then (if full then (conv j).bound else 0) else (conv j).code) else 0
        (cnt + overs.length ≤ cap → (∀ q, q < overs.length → ListAt s.chip (list + BitVec.ofNat 64 (16 + 8 * (cnt + q))) 8 .w 0
            { h with pa := h.pa + 16 + 8 * (cnt + q) }) → done false)
        ∧ (cap ≤ cnt → ListAt s.chip (list + 8) 4 .w 0 { h with pa := h.pa + 8 } → done true)))
  ∧ (∀ c : BitVec 2, Lanes1 (fun g w sd sa d a => .vwid g w sd sa d a c .bf16) fun a x => ∀ i, i < 16 →
      laneB 32 i x = if (decodeFloat .bf16 (laneB 16 i a).toNat).isNan then 0x7FC00000 else laneB 16 i a ++ (0 : BitVec 16))
  ∧ (∀ c : BitVec 2, ∀ f ∈ [(WidFmt.e4m3, Fmt.e4m3), (.e5m2, .e5m2)],
      Lanes1 (fun g w sd sa d a => .vwid g w sd sa d a c f.1) fun a x => ∀ i, i < 32 →
        laneB 16 i x = BitVec.ofNat 16 (roundNear .bf16 (decodeFloat f.2 (laneB 8 i a).toNat)))
  ∧ (∀ c : BitVec 2, Lanes1 (fun g w sd sa d a => .vwid g w sd sa d a c .i8) fun a x => ∀ i, i < 16 →
      laneB 32 i x = (laneB 8 i a).signExtend 32)
  ∧ (∀ (s : State) (g : Guard) (gap : BitVec 2) (sd sa : Bool) (d a : BitVec 5) (c : BitVec 2), s.chip.clear g = true →
      VectorReady s.chip [d, a] →
      let block := decodeBlock (ctxTable s.chip.here.fctx[c.toFin]) fun i => laneB 8 i (vreg s.chip a)
      (∀ e, block = some e → VWrites s (.vwid g gap sd sa d a c .cb8) gap d fun x => ∀ i, i < 32 →
        laneB 16 i x = match e.1[i]? with | some v => BitVec.ofNat 16 (roundNear .bf16 v) | none => 0)
      ∧ (block = none → VTraps s (.vwid g gap sd sa d a c .cb8) 0x20))

/-! ## Class 100: memory, repetition and the sequencer -/

namespace Sys2Proof.Claims

/-- The elements of a vector access to the scratchpad lie in the data banks, each aligned to 4 bytes (R340), and no earlier message
of the thread stands before one (R68). -/
def elementsOk (c : Chip) (at_ : Nat → Word) : Prop :=
  ∀ i, i < 16 → (at_ i).toNat % 4 = 0 ∧ (at_ i).toNat < Config.dataEnd ∧ c.inTurn (at_ i).toNat 4 = true
/-- Element i of an access at a base: its address (R340). -/
def elementAt (o : Word) (i : Nat) : Word := o + BitVec.ofNat 64 (4 * i)
/-- A vector memory instruction completed (R159): `sw.vidx` is 0 and the frame has gone on. -/
def Completed (s t : State) : Prop :=
  t.chip.me.pc = s.chip.me.npc ∧ t.chip.me.npc = s.chip.me.nnpc ∧ t.chip.me.nnpc = s.chip.me.nnpc + 4 ∧ t.chip.me.vidx = 0
  ∧ t.chip.me.g = s.chip.me.g
/-- The scratchpad after the elements from `sw.vidx` up are stored, in ascending order (R159, R342). -/
def stored (s : State) (at_ : Nat → Word) (v : Memory → Nat → BitVec 32) : Memory :=
  ((List.range 16).drop s.chip.me.vidx).foldl (fun m i => wrBytes m (at_ i).toNat (toLe 4 (v m i).toNat)) s.chip.here.pad
/-- One step of an atomic reduction on a word (R343). -/
def reduceWord (k : VAmo) (w v : BitVec 32) : BitVec 32 :=
  match k with
  | .addI => w + v
  | .minI => if v.toInt < w.toInt then v else w
  | .maxI => if w.toInt < v.toInt then v else w
  | .and => w &&& v | .or => w ||| v | .xor => w ^^^ v
  | .addF => single fadd 0 w v
/-- Every element's page is cached and allows the access, and no earlier request to it waits to be issued again. -/
def ElementsCached (c : Chip) (o : Word) (need : Need) (p : Nat → Phys) : Prop :=
  ∀ i, i < 16 → (elementAt o i).toNat % 4 = 0 ∧ c.lookup (elementAt o i) need false = .ok (p i)
    ∧ Settled c (elementAt o i) (c.placeOf (p i)) (p i).pa

end Sys2Proof.Claims

/-- R340 to R343: vector loads and stores of the scratchpad, and atomics there. -/
def Sys2Proof.Claims.VectorScratchpadAccesses : Prop :=
  (∀ (s : State) (g : Guard) (gap : BitVec 2) (sd : Bool) (d : BitVec 5) (a : Reg), s.chip.clear g = true →
    s.chip.mayAccess = true → s.chip.usable [a] [] = true → VectorReady s.chip [d] →
    (∀ f : BitVec 4,
      let at_ := elementAt (s.chip.val a + BitVec.ofNat 64 (64 * f.toNat))
      elementsOk s.chip at_ →
      ((∀ i, i < 16 → s.chip.padSound (at_ i).toNat 4 = true) → ∃ t, exec (.vld g gap sd d a f) s = .next t ∧ Completed s t
        ∧ t.chip.here.pad = s.chip.here.pad ∧ ∀ i, i < 16 →
          laneB 32 i (vreg t.chip d) = BitVec.ofNat 32 (rdLe s.chip.here.pad (at_ i).toNat 4))
      ∧ ∃ t, exec (.vst g gap sd d a f) s = .next t ∧ Completed s t
        ∧ t.chip.here.pad = stored s at_ fun _ i => laneB 32 i (vreg s.chip d))
    ∧ (∀ k : VAmo, let at_ := elementAt (s.chip.val a)
      elementsOk s.chip at_ → ∃ t, exec (.vamo g gap sd d a k) s = .next t ∧ Completed s t
        ∧ t.chip.here.pad = stored s at_ fun m i =>
            reduceWord k (BitVec.ofNat 32 (rdLe m (at_ i).toNat 4)) (laneB 32 i (vreg s.chip d)))
    ∧ (∀ x : BitVec 5, VectorReady s.chip [d, x] →
      let at_ := fun i => s.chip.val a + (laneB 32 i (vreg s.chip x)).setWidth 64
      elementsOk s.chip at_ →
      ((∀ i, i < 16 → s.chip.padSound (at_ i).toNat 4 = true) → ∃ t, exec (.vgather g gap sd d a x) s = .next t ∧ Completed s t
        ∧ t.chip.here.pad = s.chip.here.pad ∧ ∀ i, i < 16 →
          laneB 32 i (vreg t.chip d) = BitVec.ofNat 32 (rdLe s.chip.here.pad (at_ i).toNat 4))
      ∧ ∃ t, exec (.vscatter g gap sd d a x) s = .next t ∧ Completed s t
        ∧ t.chip.here.pad = stored s at_ fun _ i => laneB 32 i (vreg s.chip d)))

/-- R80, R341, R343: vector accesses of global memory send their requests, one a part or one an element. -/
def Sys2Proof.Claims.VectorGlobalAccesses : Prop :=
  ∀ (s : State) (g : Guard) (gap : BitVec 2) (sd : Bool) (d : BitVec 5) (a : Reg) (p : Nat → Phys), s.chip.clear g = true →
    s.chip.mayAccess = true → s.chip.usable [a] [] = true → VectorReady s.chip [d] →
    (∀ f : BitVec 4, let o := s.chip.val a + BitVec.ofNat 64 (64 * f.toNat)
      (ElementsCached s.chip o .r p → s.chip.here.slotsUsed + 16 ≤ 64 →
        ∃ t, exec (.vldG g gap sd d a f) s = .next t ∧ Completed s t ∧ ∀ i, i < 16 →
          ∃ r ∈ t.chip.here.reqs, ∃ j n, r.2.owner = .frame s.chip.frame ∧ r.2.want = .vpart d.toNat (4 * j)
            ∧ r.2.msg.body = .get (4 * n) ∧ j ≤ i ∧ i < j + n ∧ r.2.msg.addr + 4 * (i - j) = (p i).pa
            ∧ r.2.msg.dest = s.chip.placeOf (p i))
      ∧ (ElementsCached s.chip o .w p → s.chip.here.trackerUsed + 16 ≤ 128 →
        ∃ t, exec (.vstG g gap sd d a f) s = .next t ∧ Completed s t ∧ ∀ i, s.chip.me.vidx ≤ i → i < 16 →
          ∃ r ∈ t.chip.here.reqs, ∃ j b, r.2.owner = .frame s.chip.frame ∧ r.2.want = .posted
            ∧ r.2.msg.body = .put b none ∧ j ≤ i ∧ r.2.msg.addr + 4 * (i - j) = (p i).pa
            ∧ r.2.msg.dest = s.chip.placeOf (p i)
            ∧ (b.drop (4 * (i - j))).take 4 = toLe 4 (laneB 32 i (vreg s.chip d)).toNat))
    ∧ (∀ k : VAmo, ElementsCached s.chip (s.chip.val a) .w p → s.chip.here.trackerUsed + 16 ≤ 128 →
      ∃ t, exec (.vamoG g gap sd d a k) s = .next t ∧ Completed s t ∧ ∀ i, s.chip.me.vidx ≤ i → i < 16 →
        ∃ r ∈ t.chip.here.reqs, r.2.owner = .frame s.chip.frame ∧ r.2.want = .posted
          ∧ r.2.msg.body = .vreduce k (laneB 32 i (vreg s.chip d)) ∧ r.2.msg.addr = (p i).pa
          ∧ r.2.msg.dest = s.chip.placeOf (p i))

/-- R80, R340 to R343: vector accesses of the scratchpad and of global memory. -/
def Obligations.VectorAccesses : Prop :=
  Sys2Proof.Claims.VectorScratchpadAccesses ∧ Sys2Proof.Claims.VectorGlobalAccesses

/-- R269, R270, R324, R327: `rep` opens a capture, an instruction issued in a capture enters the buffer and nothing else, the
sequencer reissues the buffer with stagger, and its results land after their latency. -/
def Obligations.RepetitionAndSequencer : Prop :=
  (∀ (s : State) (g : Guard) (n : BitVec 4) (a : Reg) (x : BitVec 5), s.chip.clear g = true → VectorReady s.chip [] →
    s.chip.usable [a] [] = true →
    ∃ t, exec (.rep g n a x) s = .next t ∧ t.chip.me.pc = s.chip.me.npc
      ∧ let v := t.chip.here.vec
        v.capturing = n.toNat + 1 ∧ v.words = [] ∧ v.stride = x.toNat ∧ v.remaining = bits (s.chip.val a) 31 0)
  ∧ (∀ (s : State) (g : Guard) (gap : BitVec 2) (sd sa sb : Bool) (d a b : BitVec 5), let v := s.chip.here.vec
    let i := Instr.vaddI32 g gap sd sa sb d a b
    v.owner = some s.chip.frame → v.stopped = false → 0 < v.capturing →
    ∃ t, exec i s = .next t ∧ t.chip.me.pc = s.chip.me.npc ∧ t.chip.here.vec.v = v.v
      ∧ t.chip.here.vec.capturing = v.capturing - 1
      ∧ (1 < v.capturing → t.chip.here.vec.words = v.words ++ [causeWord i])
      ∧ (v.capturing = 1 → v.remaining ≠ 0 → t.chip.here.vec.words = v.words ++ [causeWord i]
          ∧ t.chip.here.vec.running = true ∧ t.chip.here.vec.iteration = 0 ∧ t.chip.here.vec.position = 0)
      ∧ (v.capturing = 1 → v.remaining = 0 → t.chip.here.vec.words = [] ∧ t.chip.here.vec.running = v.running))
  ∧ (∀ (s : State) (core f : Nat) (g : Guard) (gap : BitVec 2) (sd sa sb : Bool) (d a b : BitVec 5),
    let k := s.chip.coreAt core
    let i := Instr.vaddI32 g gap sd sa sb d a b
    let reg := fun (stag : Bool) (n : BitVec 5) => (if stag then n.toNat + k.vec.stride * k.vec.iteration else n.toNat) % 32
    k.vec.owner = some f → k.vec.words[k.vec.position]? = some (causeWord i) → k.mayReissue f s.chip.now = true →
    s.chip.underTest core = false → decode (causeWord i) = some i →
    (guardHolds g (k.frameAt f).sw = true → (∀ n, k.pendingVec n = false) → (k.frameAt f).refusals = [] →
      k.vec.poisoned = [] →
      ∃ t x, exec (.sequencerReissue core) s = .next t
        ∧ ⟨s.chip.now + 1, f, .v (reg sd d) x none⟩ ∈ (t.chip.coreAt core).vec.writes
        ∧ (∀ n p q, n < 16 → k.vec.v[reg sa a]? = some p → k.vec.v[reg sb b]? = some q →
            laneB 32 n x = laneB 32 n p + laneB 32 n q)
        ∧ (t.chip.coreAt core).vec.v = k.vec.v)
    ∧ (guardHolds g (k.frameAt f).sw = false → k.vec.position + 1 < k.vec.count →
      ∃ t, exec (.sequencerReissue core) s = .next t ∧ (t.chip.coreAt core).vec.writes = k.vec.writes
        ∧ (t.chip.coreAt core).vec.position = k.vec.position + 1
        ∧ (t.chip.coreAt core).vec.nextAt = s.chip.now + 1 + gap.toNat)
    ∧ (guardHolds g (k.frameAt f).sw = false → k.vec.count ≤ k.vec.position + 1 →
      ∃ t, exec (.sequencerReissue core) s = .next t ∧ (t.chip.coreAt core).vec.position = 0
        ∧ (t.chip.coreAt core).vec.remaining = k.vec.remaining - 1
        ∧ (k.vec.remaining = 1 → (t.chip.coreAt core).vec.running = false)))
  ∧ (∀ (s : State) (core : Nat) (w : VWrite), (s.chip.coreAt core).vec.writes = [w] → w.due < s.chip.now →
    (∀ (n : Fin 32) x bad, w.dest = .v n.val x bad → ∃ t, exec (.vectorResultWrite core) s = .next t
      ∧ (t.chip.coreAt core).vec.v[n] = x ∧ (t.chip.coreAt core).vec.writes = [])
    ∧ (∀ (n : Fin 32) l x, l ≤ 16 → w.dest = .low n.val l x → ∃ t, exec (.vectorResultWrite core) s = .next t
      ∧ (t.chip.coreAt core).vec.writes = [] ∧ ∀ i, i < 16 → laneB 32 i (t.chip.coreAt core).vec.v[n]
          = if i < l then laneB 32 i x else laneB 32 i (s.chip.coreAt core).vec.v[n])
    ∧ (∀ (n : Fin 8) x, w.dest = .k n.val x → ∃ t, exec (.vectorResultWrite core) s = .next t
      ∧ (t.chip.coreAt core).vec.k[n] = x ∧ (t.chip.coreAt core).vec.writes = [])
    ∧ (∀ (n : BitVec 4) x, w.dest = .g (.g n) x → ∃ t, exec (.vectorResultWrite core) s = .next t
      ∧ (t.chip.frameAt core w.frame).g[n.toFin] = x ∧ (t.chip.coreAt core).vec.writes = []))

/-! ## Class 111 -/

namespace Sys2Proof.Claims

/-- The control registers that any frame may read (R403), and what they read as. -/
def openControls (c : Chip) : List (Nat × Word) :=
  let k := c.here
  let f := c.me
  let x := c.ctxAt f.ctx
  [(0x000, putBits (putBits f.sw 16 16 (if k.vec.owner = some c.frame then 1 else 0)) 15 15
      (if k.mowner = some c.frame then 1 else 0)),
   (0x001, f.tname), (0x002, f.tjoin), (0x010, f.epc), (0x011, f.enpc), (0x012, f.ennpc), (0x013, f.esw), (0x014, f.ecause),
   (0x015, f.eaddr), (0x016, f.esave), (0x020, f.volist), (0x021, f.vobase), (0x030, k.win[0]), (0x031, k.win[1]),
   (0x032, k.win[2]), (0x033, k.win[3]), (0x034, k.tgcfg),
   (0x035, BitVec.ofNat 64 (k.cpq.length * 256 + k.mxq.length)), (0x036, k.mxerr), (0x037, k.cperr),
   (0x040, BitVec.ofNat 64 (x.rtcount * 16 + x.maxpri * 4 + x.flags % 2 * 2 + if x.st = .draining then 1 else 0)),
   (0x041, x.tvbase), (0x060, k.slpcfg)]
/-- The control registers of supervisor frames (R403). -/
def closedControls (c : Chip) : List (Nat × Word) :=
  let k := c.here
  let m := c.monitor (dieOf c.core)
  [(0x050, 0), (0x051, k.pstat), (0x052, k.paddr), (0x070, m.tmon), (0x071, m.vmon), (0x072, m.pmon)]

/-- A value that a control register takes from the issuing frame (R59, R63, R93, R154, R264, R352, R403, R406). -/
def Allowed (c : Chip) (sel : Nat) (v : Word) : Prop :=
  let f := c.me
  match sel with
  | 0x000 | 0x020 | 0x021 | 0x036 | 0x037 => True
  | 0x010 | 0x011 | 0x012 | 0x013 | 0x015 => f.inTrap = true
  | 0x030 | 0x031 | 0x032 | 0x033 =>
    (tst v 63 = true → bits v 11 0 ≤ bits v 27 16) ∧ bits v 27 16 < 0xB00 ∧ bits v 46 44 < 5
    ∧ (f.sup = true ∨ v = 0 ∨ (tst v 47 = false ∧ bits v 57 48 = f.ctx))
  | 0x034 =>
    bits v 19 18 ≠ 3 ∧ bits v 8 0 ≤ 256 ∧ bits v 17 12 * 4096 + bits v 8 0 * 2 ^ (8 + 2 * bits v 19 18) ≤ Config.dataEnd
    ∧ (f.sup = true ∨ ∀ p ∈ c.here.tags, p.2.ctx = f.ctx)
  | 0x041 => f.sup = true ∧ v.toNat % 256 = 0 ∧ bits v 63 57 = 0
  | 0x052 => f.sup = true
  | 0x060 => f.sup = true ∧ bits v 1 0 ≠ 3
  | _ => False
/-- The package after an allowed write of a control register. The windows as they stood before the cycle of a write stay beside the
new ones, since the arrivals of that cycle are checked against them (R404). -/
def written (c : Chip) (sel : Nat) (v : Word) : Chip :=
  let frame := fun u => c.modFrame c.core c.frame u
  let core := fun u => c.modCore c.core u
  let window := fun (n : Fin 4) => core fun k => { k with
    winOld := if k.winAt = c.now then k.winOld else k.win, winAt := c.now, win := k.win.set n (putBits (putBits v 43 28 0) 15 12 0) }
  match sel with
  | 0x000 => frame fun f =>
    let sw := if (c.ctxAt c.me.ctx).maxpri ≤ bits v 31 30 then putBits f.sw 31 30 (bits v 31 30) else f.sw
    { f with sw := putBits (putBits sw 17 17 (bits v 17 17)) 7 1 (bits v 7 1) }
  | 0x010 => frame fun f => { f with epc := v }
  | 0x011 => frame fun f => { f with enpc := v }
  | 0x012 => frame fun f => { f with ennpc := v }
  | 0x013 => frame fun f =>
    let w := putBits (putBits (putBits v 63 32 0) 23 20 0) 14 8 0
    { f with esw := if f.sup then w else putBits w 19 19 (bits f.esw 19 19) }
  | 0x015 => frame fun f => { f with eaddr := v }
  | 0x020 => frame fun f => { f with volist := putBits (putBits v 63 57 0) 2 0 0 }
  | 0x021 => frame fun f => { f with vobase := putBits v 63 32 0 }
  | 0x030 => window 0
  | 0x031 => window 1
  | 0x032 => window 2
  | 0x033 => window 3
  | 0x034 => core fun k => { k with tgcfg := putBits (putBits v 63 20 0) 11 9 0, tags := [] }
  | 0x036 => if tst v 63 then c else core fun k => { k with mxerr := putBits k.mxerr 63 63 0 }
  | 0x037 => if tst v 63 then c else core fun k => { k with cperr := putBits k.cperr 63 63 0 }
  | 0x041 => c.modCtx c.me.ctx fun x => { x with tvbase := v }
  | 0x052 => core fun k => { k with paddr := v }
  | _ => core fun k => { k with slpcfg := BitVec.ofNat 64 (bits v 1 0) }

end Sys2Proof.Claims

/-- R158, R400 to R402, R408, R289: `trap`, `brkpt`, an unassigned word, and the return from a trap. -/
def Obligations.TrapsAndReturns : Prop :=
  (∀ (s : State) (g : Guard) (i : BitVec 11), s.chip.clear g = true → s.chip.atRest = true →
    Traps s (.trap g i) (causeWord (.trap g i)) 0x11 (i.toNat % 256) (i.setWidth 64))
  ∧ (∀ (s : State) (g : Guard), s.chip.clear g = true → s.chip.atRest = true →
    Traps s (.brkpt g) (causeWord (.brkpt g)) 0x10 0 0)
  ∧ (∀ (s : State) (w : BitVec 32), s.chip.capturing = false → Traps s (.illegalInstruction w) w 0x01 0 0)
  ∧ (∀ (s : State) (g : Guard), s.chip.clear g = true → s.chip.atRest = true → s.chip.me.inTrap = false →
    Traps s (.rfe g) (causeWord (.rfe g)) 0x01 0 0)
  ∧ (∀ (s : State) (g : Guard), s.chip.clear g = true → s.chip.atRest = true → s.chip.me.inTrap = true →
    s.chip.me.inSlot = true → Traps s (.rfe g) (causeWord (.rfe g)) 0x02 0 0)
  ∧ (∀ (s : State) (g : Guard), s.chip.clear g = true → s.chip.atRest = false →
    ∃ t, exec (.rfe g) s = .next t ∧ t.chip.me = { s.chip.me with st := .stalled .sequencer })
  ∧ (∀ (s : State) (g : Guard), s.chip.clear g = true → s.chip.me.inTrap = true → s.chip.me.inSlot = false →
    s.chip.atRest = true →
    ∃ t, exec (.rfe g) s = .next t ∧ t.chip.me.pc = s.chip.me.epc ∧ t.chip.me.npc = s.chip.me.enpc
      ∧ t.chip.me.nnpc = s.chip.me.ennpc ∧ t.chip.me.g = s.chip.me.g
      ∧ (∀ n, n < 64 → n ≠ 0 → n ≠ 15 → n ≠ 16 → tst t.chip.me.sw n = tst s.chip.me.esw n) ∧ tst t.chip.me.sw 0 = true)

/-- R403, R404: what `getc` reads, and its refusals. -/
def Sys2Proof.Claims.ControlReads : Prop :=
  ∀ (s : State) (g : Guard) (d : Reg) (sel : BitVec 10), s.chip.clear g = true → s.chip.atRest = true →
    s.chip.usable [] [d] = true →
    let i := Instr.getc g d sel
    let gives := fun (v : Word) => exec i s = .next (s.withChip ((s.chip.issuing i).given d v).goOn)
    (∀ v, (sel.toNat, v) ∈ openControls s.chip → gives v)
    ∧ (∀ v, (sel.toNat, v) ∈ closedControls s.chip →
        (s.chip.me.sup = true → gives v) ∧ (s.chip.me.sup = false → Traps s i (causeWord i) 0x07 0 0))
    ∧ ((∀ v, (sel.toNat, v) ∉ openControls s.chip ∧ (sel.toNat, v) ∉ closedControls s.chip) →
        Traps s i (causeWord i) 0x01 0 0)

/-- R59, R63, R93, R154, R264, R352, R403, R406: what a write of a control register leaves, by `setc` and by the writes that have
a row of their own. -/
def Sys2Proof.Claims.ControlWrites : Prop :=
  ∀ (s : State) (g : Guard) (a : Reg), s.chip.clear g = true → s.chip.atRest = true → s.chip.usable [a] [] = true →
    let v := s.chip.val a
    let sets := fun (i : Instr) (sel : Nat) =>
      exec i s = .next (s.withChip (written ((s.chip.issuing i).popped a) sel v).goOn)
    (∀ sel : BitVec 10, Allowed s.chip sel.toNat v → sets (.setc g a sel) sel.toNat)
    ∧ (∀ n : BitVec 2, Allowed s.chip (0x030 + n.toNat) v → sets (.windowWrite g a n) (0x030 + n.toNat))
    ∧ (Allowed s.chip 0x034 v → sets (.tgcfgWrite g a) 0x034)
    ∧ (Allowed s.chip 0x041 v → sets (.tvbaseWrite g a) 0x041)
    ∧ sets (.swWrite g a) 0x000
    ∧ sets (.errorRegisterClear g a .mx) 0x036 ∧ sets (.errorRegisterClear g a .cp) 0x037
    ∧ (Allowed s.chip 0x060 v → sets (.slpcfgWrite g a) 0x060)
    ∧ (s.chip.me.sup = true → bits v 63 61 ∈ [1, 2, 3, 4] → bits v 38 32 < 96 →
        quireOf (bits v 14 0) = quireOf s.chip.core →
        ∃ t, exec (.setc g a 0x050) s = .next t
          ∧ t.chip.me.st = .stalled (.request (bits v 63 61) (bits v 14 0) (bits v 38 32)))

/-- R59, R63, R93, R154, R264, R352, R403, R404, R406: what control registers read as, and what a write of one leaves. The
masks of esw and the ignored bits of preq are the model's choice (log 13), and so is what a window that is not enabled must
satisfy (log 30). -/
def Obligations.ControlRegisters : Prop :=
  Sys2Proof.Claims.ControlReads ∧ Sys2Proof.Claims.ControlWrites

/-- R188, R189, R405, R407, R409: `sleep`, `halt` and `xinv`, which waits for what was sent before it to an address that a removed
entry translates (log 46); `eaddr` 0 where they trap is the model's choice (log 50). -/
def Sys2Proof.Claims.SleepHaltAndInvalidation : Prop :=
  (∀ (s : State) (g : Guard) (a : Reg), s.chip.clear g = true → s.chip.atRest = true → s.chip.usable [a] [] = true →
    let n := (s.chip.val a).toNat % 2 ^ 32
    let c := (s.chip.issuing (.sleep g a)).popped a
    exec (.sleep g a) s = .next (s.withChip (if n = 0 then c.goOn
      else c.modFrame c.core c.frame fun f => { f with st := .stalled (.sleep (c.now + n)) })))
  ∧ (∀ (s : State) (g : Guard), s.chip.clear g = true → s.chip.atRest = true → s.chip.me.sup = true →
    ∃ t, exec (.halt g) s = .next t ∧ t.chip.me = { s.chip.me.advance with st := .parked }
      ∧ t.chip.reports = s.chip.reports ++ [.halt s.chip.core s.chip.frame])
  ∧ (∀ (s : State) (g : Guard), s.chip.clear g = true → s.chip.atRest = true → s.chip.me.sup = false →
    Traps s (.halt g) (causeWord (.halt g)) 0x07 0 0
    ∧ ∀ a b, s.chip.usable [a, b] [] = true → let i := Instr.xinv g a b
      exec i s = .next (s.withChip ((((s.chip.issuing i).poppedAll [a, b]).linksOf s.chip s.chip.core).takeTrap s.chip.core
        s.chip.frame (causeWord i) false 0x07 0 0)))
  ∧ (∀ (c : Chip) (core f since ctx lo size : Nat), c.waitOver core f (.drain since ctx lo size) = true ↔
    ∀ k ∈ c.cores, ∀ r ∈ k.2.reqs, ¬ (r.1 < since ∧ r.2.msg.frank.ctx = ctx ∧ r.2.retry = none ∧ tst r.2.msg.va 63 = false
      ∧ lo ≤ r.2.msg.va.toNat ∧ r.2.msg.va.toNat < lo + size))
  ∧ (∀ (s : State) (g : Guard) (a b : Reg), s.chip.clear g = true → s.chip.atRest = true → s.chip.usable [a, b] [] = true →
    s.chip.me.sup = true →
    let va := (s.chip.val a).toNat
    let gt := (s.chip.popped a).val b
    let size := match bits gt 1 0 with | 0 => 2 ^ 16 | 1 => 2 ^ 21 | _ => 2 ^ 30
    bits gt 62 58 = 0 → bits gt 47 2 = 0 → bits gt 1 0 ≠ 3 → (s.chip.me.ctx = 0 ∨ bits gt 57 48 = s.chip.me.ctx) →
    (tst gt 63 = true ∨ va % size = 0) →
    let first := if tst gt 63 then 0 else va
    let last := if tst gt 63 then 2 ^ 64 else va + size
    let gone := fun (e : Tlb) =>
      e.ctx = bits gt 57 48 ∧ e.page * pageBytes e.size < last ∧ first < (e.page + 1) * pageBytes e.size
    ∃ t, exec (.xinv g a b) s = .next t
      ∧ (∀ sig e, e ∈ tget [] t.chip.tlb sig ↔ e ∈ tget [] s.chip.tlb sig ∧ ¬ gone e)
      ∧ ∃ lo hi, t.chip.me.st = .stalled (.drain s.chip.nextReq (bits gt 57 48) lo (hi - lo)) ∧ lo ≤ first ∧ last ≤ hi
        ∧ (∀ p ∈ s.chip.tlb, ∀ e ∈ p.2, gone e → lo ≤ e.page * pageBytes e.size ∧ (e.page + 1) * pageBytes e.size ≤ hi)
        ∧ (lo = first ∨ ∃ p ∈ s.chip.tlb, ∃ e ∈ p.2, gone e ∧ lo = e.page * pageBytes e.size)
        ∧ (hi = last ∨ ∃ p ∈ s.chip.tlb, ∃ e ∈ p.2, gone e ∧ hi = (e.page + 1) * pageBytes e.size))

/-- R410, R411: `olog` in the three modes, and `probe`. -/
def Sys2Proof.Claims.LogRecordsAndProbe : Prop :=
  (∀ (s : State) (g : Guard) (d a : Reg), s.chip.clear g = true → s.chip.atRest = true → s.chip.usable [a] [d] = true →
    let c := (s.chip.issuing (.olog g d a)).popped a
    let v := s.chip.val a
    (s.chip.modeOf s.chip.me.launch = 0 → exec (.olog g d a) s = .next (s.withChip (c.given d v).goOn))
    ∧ (∀ l x p, s.chip.me.launch = some l → s.chip.modeOf (some l) = 1 → tfind s.chip.launches l = some x →
        s.chip.logFull s.chip.core l = false →
        s.chip.slicePhys s.chip.core x (s.chip.here.taken l) .w = some p → p.loc = 0 → s.chip.hbm.wf = true →
        s.chip.cached (sigOf s.chip.core) x.ctx (((x.slice s.chip.core).1 + 16 * s.chip.here.taken l) % 2 ^ 64) ≠ none →
        ∃ t, exec (.olog g d a) s = .next t ∧ t.chip.me.pc = s.chip.me.npc
          ∧ (∀ r, d = .g r → t.chip.me.g[r.toFin] = v) ∧ t.chip.here.taken l = s.chip.here.taken l + 1
          ∧ rd64 t.chip.hbm (p.pa + 8) = v)
    ∧ (∀ l w, s.chip.me.launch = some l → s.chip.modeOf (some l) = 2 →
        s.chip.logNext s.chip.core l 5 s.chip.frame = some true →
        s.chip.logOutcome s.chip.core l (s.chip.here.taken l) = some w →
        ∃ t, exec (.olog g d a) s = .next t ∧ t.chip.me.pc = s.chip.me.npc
          ∧ (∀ r, d = .g r → t.chip.me.g[r.toFin] = w) ∧ t.chip.here.taken l = s.chip.here.taken l + 1))
  ∧ (∀ (s : State) (g : Guard) (d a : Reg), s.chip.clear g = true → s.chip.atRest = true → s.chip.usable [a] [d] = true →
    let c := (s.chip.issuing (.probe g d a)).popped a
    let va := s.chip.val a
    (bits va 63 57 ≠ 0 → exec (.probe g d a) s = .next (s.withChip (c.given d 0).goOn))
    ∧ (∀ leaf size, bits va 63 57 = 0 → s.chip.cached (sigOf s.chip.core) s.chip.me.ctx va.toNat = some (leaf, size) →
        exec (.probe g d a) s = .next (s.withChip (c.given d
          (let x := putBits leaf 13 12 size; if s.chip.me.sup then x else putBits x 63 16 0)).goOn)))

/-- R188, R405, R407, R409 to R411: `sleep`, `halt`, `xinv`, `olog` and `probe`. Which requests `xinv` waits for follows log
46, and `eaddr` 0 of a trap log 50. -/
def Obligations.SystemInstructions : Prop :=
  Sys2Proof.Claims.SleepHaltAndInvalidation ∧ Sys2Proof.Claims.LogRecordsAndProbe

/-! ## The engines -/

namespace Sys2Proof.Claims

/-- What a post needs (R345): earlier accesses of the thread done, its vector register ready, the unit its own or free, room.
-/
def MayPost (c : Chip) (e : Engine) (a : BitVec 5) : Prop :=
  (c.here.vec.owner = some c.frame ∨ (c.here.vec.owner = none ∧ c.here.vec.running = false ∧ c.me.esave = 0))
  ∧ c.unrefused = true
  ∧ c.openIn c.core (.frame c.frame) .pkg (fun _ => true) = false ∧ c.vectorIdle a.toNat = true
  ∧ (c.here.queue e).length < 16 ∧ (e = .mx → c.here.mowner = none ∨ c.here.mowner = some c.frame)
/-- The command that a post appends (R345). -/
def posted (c : Chip) (a : BitVec 5) (i : Instr) : Cmd :=
  ⟨vreg c a, c.frame, c.me.thread, c.me.ctx, c.me.sup, c.me.owner, causeWord i, c.now, false, c.nextReq, [], none, [], 0,
    none⟩

/-- The next command of an engine of a core is m, first in its queue and not yet run, which has read and written nothing. -/
def Fresh (k : Core) (e : Engine) (op : Nat) (m : Cmd) : Prop :=
  (k.queue e).head? = some m ∧ m.ran = false ∧ m.seen = [] ∧ m.wrote = 0 ∧ m.byte 0 = op ∧ headerBad m = false
/-- The same of a command that no answer of another package has come for. -/
def Next (k : Core) (e : Engine) (op : Nat) (m : Cmd) : Prop := Fresh k e op m ∧ m.far = none
/-- The head command of an engine has run (R348). -/
def Ran (k : Core) (e : Engine) (m : Cmd) : Prop := (k.queue e).head? = some { m with ran := true, far := none }
/-- Handle q of a core. -/
def handleAt (k : Core) (q : Nat) : Handle := k.handles[q % 8]'(Nat.mod_lt _ (by decide))
/-- Handle q of a core as a command finds it: as it stood when the cycle began, but for an advance of the step itself (R107).
-/
def handleFound (k : Core) (now q : Nat) : Handle :=
  if k.handlesAt = some now ∧ q % 8 ∉ k.advanced then k.handlesOld[q % 8]'(Nat.mod_lt _ (by decide)) else handleAt k q
/-- A scratchpad operand of a command (R347, R107): an offset as the record gives it, or the slot of an enabled handle of the
command's context, n bytes or more, filled for a source and not full for a destination. -/
def Operand (k : Core) (now : Nat) (m : Cmd) (b : Nat) (dst : Bool) (enc : Nat → Nat) (given n o : Nat) : Prop :=
  let h := handleFound k now b
  (b < 8 ∧ given = enc o) ∨
  (128 ≤ b ∧ b < 136 ∧ given = 0 ∧ h.en = true ∧ h.owner = some m.ctx ∧ n ≤ h.slotBytes
    ∧ if dst then h.filled ≠ h.slots ∧ o = h.producer else h.filled ≠ 0 ∧ o = h.consumer)
/-- The slots that a command took are given on (R107). -/
def GivenOn (k d : Core) (m : Cmd) (src dst : Bool) : Prop :=
  (src = true → 128 ≤ m.byte 8 → (handleAt d (m.byte 8)).ci = (handleAt k (m.byte 8)).ci + 1)
  ∧ (dst = true → 128 ≤ m.byte 9 → (handleAt d (m.byte 9)).pi = (handleAt k (m.byte 9)).pi + 1)
/-- n bytes of a core's scratchpad can be read: they lie in the data banks and hold no poison. -/
def Readable (c : Chip) (core o n : Nat) : Prop := o + n ≤ Config.dataEnd ∧ c.poisonAt (.core core) o n = false
/-- A location word of a scratchpad offset (R346). -/
def padLoc (o : Nat) : Nat := 2 ^ 63 + o

/-- The products of one result in one chunk: absent where either element is (R357). -/
def productsOf (a b : Nat → Option FVal) : List FVal :=
  (List.range 16).filterMap fun i => (a i).bind fun x => (b i).map (fmul x)
/-- A group added into an accumulator word (R43, R46). -/
def addInto (isInt : Bool) (w : BitVec 32) (ps : List FVal) : BitVec 32 :=
  if isInt then groupAddInt w (ps.map toInt) else groupAdd w ps
/-- Element of B that 16 bytes of a row give for a column (R356, R357). -/
def elemOf (f : Fmt) (row : List Byte) (n : Nat) : Option FVal :=
  if f = .bf16 then (if n < 8 then some (decodeElem .bf16 (field row (2 * n) 2)) else none)
  else some (decodeElem f (field row n 1))

end Sys2Proof.Claims

/-- R102, R103, R345: a post appends the command that its vector register holds, and takes the units it uses. What a post
waits for follows log 25. -/
def Obligations.PostsComplete : Prop :=
  ∀ (s : State) (g : Guard) (a : BitVec 5), s.chip.clear g = true → s.chip.mayAccess = true →
    (MayPost s.chip .mx a → ∃ t, exec (.postMx g a) s = .next t ∧ t.chip.me.pc = s.chip.me.npc
      ∧ t.chip.here.mxq = s.chip.here.mxq ++ [posted s.chip a (.postMx g a)] ∧ t.chip.here.cpq = s.chip.here.cpq
      ∧ t.chip.here.vec.owner = some s.chip.frame ∧ t.chip.here.mowner = some s.chip.frame)
    ∧ (MayPost s.chip .cp a → ∃ t, exec (.postCp g a) s = .next t ∧ t.chip.me.pc = s.chip.me.npc
      ∧ t.chip.here.cpq = s.chip.here.cpq ++ [posted s.chip a (.postCp g a)] ∧ t.chip.here.mxq = s.chip.here.mxq
      ∧ t.chip.here.vec.owner = some s.chip.frame ∧ t.chip.here.mowner = s.chip.here.mowner)

/-- R348, R350, R351: a command's end counts its mailbox up; a bad record or a wait too long fails the command, and the
failure becomes trap 0x0E of the thread that posted it. When an engine error reaches its frame follows log 51. -/
def Obligations.EngineCommandsEnd : Prop :=
  (∀ (s : State) (core : Nat) (e : Engine) (m : Cmd) (rest : List Cmd), (s.chip.coreAt core).queue e = m :: rest →
    m.ran = true → (∀ p ∈ (s.chip.coreAt core).reqs, p.2.owner ≠ .engine e) →
    ∃ t, exec (.commandCompletion core e) s = .next t ∧ ((t.chip.coreAt core).queue e).length = rest.length
      ∧ (m.byte 1 % 2 = 1 → (s.chip.coreAt core).pad.wf = true → (s.chip.coreAt core).padBad (m.field 4 4) 8 = false →
          rd64 (t.chip.coreAt core).pad (m.field 4 4) = rd64 (s.chip.coreAt core).pad (m.field 4 4) + 1)
      ∧ (m.byte 1 % 2 = 0 → (t.chip.coreAt core).pad = (s.chip.coreAt core).pad))
  ∧ (∀ (s : State) (core : Nat) (e : Engine) (m : Cmd) (rest : List Cmd), (s.chip.coreAt core).queue e = m :: rest →
    m.ran = false → m.frame < 96 → rest.length < 16 → (s.chip.frameAt core m.frame).thread = m.thread → (s.chip.frameAt core m.frame).st ≠ .free →
    let failed := fun (i : Instr) (detail : Nat) => ∃ t, exec i s = .next t ∧ (t.chip.coreAt core).queue e = []
      ∧ (t.chip.frameAt core m.frame).engErr = (s.chip.frameAt core m.frame).engErr ++ [(m.word, detail, 0)]
      ∧ (let w := match e with | .mx => (t.chip.coreAt core).mxerr | .cp => (t.chip.coreAt core).cperr
         tst w 63 = true ∧ bits w 55 48 = detail ∧ bits w 47 40 = m.byte 0)
    (assigned e (m.byte 0) = false → failed (.unassignedEngineCommand core e) 0x30)
    ∧ (e = .mx → m.byte 0 = 0x43 → m.byte 20 % 2 = 0 → (s.chip.coreAt core).latch = none → m.since + 2 ^ 20 < s.chip.now →
        failed (.engineWaitTimeout core e) 0x3B))
  ∧ (∀ (s : State) (core f d : Nat) (w : BitVec 32) (a : Word) (rest : List (BitVec 32 × Nat × Word)),
    (s.chip.frameAt core f).engErr = (w, d, a) :: rest → (s.chip.frameAt core f).st.undone = true →
    (s.chip.frameAt core f).trapping = none → FarAns.done ∉ (s.chip.frameAt core f).far →
    exec (.engineErrorDelivery core f) s = .next (s.withChip
      ((s.chip.modFrame core f fun x => { x with engErr := rest }).takeTrap core f w false 0x0E d a)))

/-- R354 to R360: what each matrix command writes. -/
def Sys2Proof.Claims.MatrixCommandResults : Prop :=
  (∀ (s : State) (core o : Nat) (m : Cmd), let k := s.chip.coreAt core
    Next k .mx 0x47 m → Operand k s.chip.now m (m.byte 8) false id (m.field 16 4) 64 o → m.field 16 4 % 64 = 0 →
    m.zero 9 16 = true → m.byte 20 < 4 → m.zero 21 64 = true → Readable s.chip core o 64 →
    let x : VWord := BitVec.ofNat 512 (leNat (rdBytes k.pad o 64))
    ctxValid x = true →
    ∃ t, exec (.mxSetf core) s = .next t ∧ Ran (t.chip.coreAt core) .mx m ∧ GivenOn k (t.chip.coreAt core) m true false
      ∧ (t.chip.coreAt core).context (m.byte 20) = x)
  ∧ (∀ (s : State) (core o klen rows : Nat) (m : Cmd) (fm : Fmt), let k := s.chip.coreAt core
    let stride := m.field 20 4
    Next k .mx 0x41 m → m.field 24 2 = klen → m.byte 26 = rows → m.field 16 4 % 8 = 0 → stride % 8 = 0 →
    1 ≤ klen → klen ≤ 256 → 1 ≤ rows → rows ≤ 16 → m.byte 27 < 4 → m.zero 9 16 = true → m.zero 28 64 = true →
    ctxValid (k.context (m.byte 27)) = true → afmtOf (k.context (m.byte 27)) = some fm →
    let done := fun (el : Nat → Nat → Option FVal) =>
      ∃ t, exec (.mxLda core) s = .next t ∧ Ran (t.chip.coreAt core) .mx m ∧ GivenOn k (t.chip.coreAt core) m true false
        ∧ ∀ r x, x < 256 → tfind (t.chip.coreAt core).abuf (256 * r + x) = if r < rows ∧ x < klen then el r x else none
    (fm ≠ .cb8 → Operand k s.chip.now m (m.byte 8) false id (m.field 16 4) ((rows - 1) * stride + klen * fm.bytes) o →
      (∀ r, r < rows → Readable s.chip core (o + r * stride) (klen * fm.bytes)) →
      done fun r x => some (decodeElem fm (leNat (rdBytes k.pad (o + r * stride + x * fm.bytes) fm.bytes))))
    ∧ (fm = .cb8 → m.byte 8 < 8 → o = m.field 16 4 → klen ≤ 32 → ∀ blocks : Nat → List FVal × Nat,
      (∀ r, r < rows → Readable s.chip core (o + r * stride) (19 + (rdByte k.pad (o + r * stride + 2)).toNat % 64)
        ∧ o + r * stride + 19 ≤ Config.dataEnd
        ∧ decodeBlock (ctxTable (k.context (m.byte 27))) (fun i => rdByte k.pad (o + r * stride + i)) = some (blocks r)) →
      done fun r x => if x < 32 then (blocks r).1[x]? else none))
  ∧ (∀ (s : State) (core o : Nat) (m : Cmd), let k := s.chip.coreAt core
    let stride := m.field 20 4
    Next k .mx 0x42 m → Operand k s.chip.now m (m.byte 8) false id (m.field 16 4) (15 * stride + 16) o → m.field 16 4 % 16 = 0 →
    stride % 16 = 0 → 16 ≤ stride → m.zero 9 16 = true → m.zero 24 64 = true → k.latch = none →
    (s.chip.coreAt (core / 16 * 16 + (core % 16 + 15) % 16)).passReady = none →
    (∀ r, r < 16 → Readable s.chip core (o + r * stride) 16) →
    ∃ t, exec (.mxLdb core) s = .next t ∧ Ran (t.chip.coreAt core) .mx m ∧ GivenOn k (t.chip.coreAt core) m true false
      ∧ ∃ b, (t.chip.coreAt core).latch = some b ∧ ∀ r, r < 16 → (b.drop (16 * r)).take 16 = rdBytes k.pad (o + r * stride) 16)
  ∧ (∀ (s : State) (core : Nat) (m : Cmd), let k := s.chip.coreAt core
    Next k .mx 0x45 m → m.zero 8 16 = true → m.byte 16 < 32 → m.zero 17 64 = true →
    ∃ t, exec (.mxZero core) s = .next t ∧ Ran (t.chip.coreAt core) .mx m
      ∧ (∀ a r n, a < 4 → r < 16 → n < 16 → (t.chip.coreAt core).accAt a r n
          = if m.byte 16 / 2 ^ a % 2 = 1 then 0 else k.accAt a r n)
      ∧ (t.chip.coreAt core).latch = if m.byte 16 / 16 = 1 then none else k.latch)
  ∧ (∀ (s : State) (core o : Nat) (m : Cmd) (fm : Fmt), let k := s.chip.coreAt core
    let ctx := k.context (m.byte 17)
    let stride := m.field 24 4
    Next k .mx 0x46 m → m.byte 8 = 0 → m.zero 10 16 = true → m.byte 16 < 4 → m.byte 17 < 4 → m.byte 18 < 2 → m.byte 19 = 0 →
    m.field 32 8 = 0 → m.zero 40 64 = true → ctxValid ctx = true → ofmtOf ctx = some fm → m.field 20 4 % fm.bytes = 0 →
    stride % fm.bytes = 0 → 16 * fm.bytes ≤ stride → Operand k s.chip.now m (m.byte 9) true id (m.field 20 4) (15 * stride + 16 * fm.bytes) o →
    o + 15 * stride + 16 * fm.bytes ≤ Config.dataEnd → k.pad.wf = true →
    ∃ t, exec (.mxDrain core) s = .next t ∧ Ran (t.chip.coreAt core) .mx m ∧ GivenOn k (t.chip.coreAt core) m false true
      ∧ ∀ r n, r < 16 → n < 16 →
        (let w := k.accAt (m.byte 16) r n
         rdBytes (t.chip.coreAt core).pad (o + r * stride + n * fm.bytes) fm.bytes = toLe fm.bytes
          (if fm = .fp32 ∨ fm = .int32 then w.toNat
           else (convTo fm (ctxMode ctx) (if afmtOf ctx = some .int8 then ofInt w.toInt
             else decodeFloat .fp32 w.toNat)).code))
        ∧ (t.chip.coreAt core).accAt (m.byte 16) r n = if m.byte 18 = 1 then 0 else k.accAt (m.byte 16) r n)
  ∧ (∀ (s : State) (core : Nat) (m : Cmd), Next (s.chip.coreAt core) .mx 0x48 m → m.zero 8 64 = true →
    ∃ t, exec (.mxMark core) s = .next t ∧ Ran (t.chip.coreAt core) .mx m
      ∧ (t.chip.coreAt core).pad = (s.chip.coreAt core).pad ∧ (t.chip.coreAt core).acc = (s.chip.coreAt core).acc)

/-- R357, R362: a multiply adds each chunk's products into the accumulator, and a pass hands a latch on round the ring. -/
def Sys2Proof.Claims.MatrixMultiplyAndPass : Prop :=
  (∀ (s : State) (core : Nat) (m : Cmd) (fm : Fmt) (B : Nat → Nat → Option FVal), let k := s.chip.coreAt core
    let ctx := k.context (m.byte 17)
    let a := m.byte 16
    let kn := m.byte 19
    let stride := m.field 28 4
    let nh := m.byte 20 / 2
    let c0 := if fm = .bf16 then 8 * nh else 0
    let ncol := if fm = .bf16 then 8 else 16
    Next k .mx 0x43 m → m.zero 9 16 = true → a < 4 → m.byte 17 < 4 → m.byte 18 % 16 = 0 → 1 ≤ kn → kn ≤ 16 →
    m.byte 18 + 16 * kn ≤ 256 → m.byte 20 < 4 → (nh = 1 → fm = .bf16) → m.zero 21 24 = true → m.zero 32 64 = true →
    ctxValid ctx = true → bfmtOf ctx = some fm → fmtCode (afmtOf ctx) = k.afmt →
    ((m.byte 20 % 2 = 0 ∧ m.byte 8 = 0 ∧ m.field 24 4 = 0 ∧ stride = 0 ∧ kn = 1 ∧ fm ≠ .cb8
        ∧ ∃ b, k.latch = some b ∧ ∀ r n, r < 16 → n < 16 → B r n = elemOf fm ((b.drop (16 * r)).take 16) n)
     ∨ (m.byte 20 % 2 = 1 ∧ m.field 24 4 % 16 = 0 ∧ stride % 16 = 0 ∧ fm ≠ .cb8 ∧ ∃ o,
        Operand k s.chip.now m (m.byte 8) false id (m.field 24 4) ((16 * kn - 1) * stride + 16) o
        ∧ ∀ r, r < 16 * kn → Readable s.chip core (o + r * stride) 16 ∧ ∀ n, n < 16 →
            B r n = elemOf fm (rdBytes k.pad (o + r * stride) 16) n)
     ∨ (m.byte 20 % 2 = 1 ∧ m.field 24 4 % 16 = 0 ∧ stride % 16 = 0 ∧ fm = .cb8 ∧ m.byte 8 < 8 ∧ kn ≤ 2
        ∧ ∃ blocks : Nat → List FVal × Nat, ∀ n, n < 16 →
          let o := m.field 24 4 + n * stride
          Readable s.chip core o (19 + (rdByte k.pad (o + 2)).toNat % 64) ∧ o + 19 ≤ Config.dataEnd
          ∧ decodeBlock (ctxTable ctx) (fun i => rdByte k.pad (o + i)) = some (blocks n)
          ∧ ∀ r, r < 16 * kn → B r n = if r < 32 then (blocks n).1[r]? else none)) →
    ∃ t, exec (.mxMac core) s = .next t ∧ Ran (t.chip.coreAt core) .mx m ∧ ∀ r n, r < 16 → n < 16 →
      (t.chip.coreAt core).accAt a r n = if c0 ≤ n ∧ n < c0 + ncol then
        (List.range kn).foldl (fun w j => addInto (fm == .int8) w (productsOf
          (fun i => tfind k.abuf (256 * r + m.byte 18 + 16 * j + i)) fun i => B (16 * j + i) (n - c0))) (k.accAt a r n)
      else k.accAt a r n)
  ∧ (∀ (s : State) (core : Nat) (m : Cmd) (b : List Byte), let next := core / 16 * 16 + (core % 16 + 1) % 16
    Next (s.chip.coreAt core) .mx 0x44 m → m.zero 8 64 = true → (s.chip.coreAt core).latch = some b →
    (s.chip.coreAt next).latch = none → (∀ j, j / 16 = core / 16 → j ≠ core → (s.chip.coreAt j).mxq = []) →
    ∃ t, exec (.mxPass core) s = .next t ∧ Ran (t.chip.coreAt core) .mx m ∧ (t.chip.coreAt next).latch = some b
      ∧ (t.chip.coreAt core).latch = none)
  ∧ (∀ (s : State) (core : Nat), let next := fun j => j / 16 * 16 + (j % 16 + 1) % 16
    (∀ j, j / 16 = core / 16 → ∃ m, Next (s.chip.coreAt j) .mx 0x44 m ∧ m.zero 8 64 = true
      ∧ (s.chip.coreAt j).latch.isSome = true) →
    ∃ t, exec (.mxPass core) s = .next t ∧ ∀ j, j / 16 = core / 16 →
      (t.chip.coreAt (next j)).latch = (s.chip.coreAt j).latch)

/-- R354 to R360, R362: what each matrix command writes. That each runs whole in one step is the model's choice (log 4). -/
def Obligations.MatrixCommands : Prop :=
  Sys2Proof.Claims.MatrixCommandResults ∧ Sys2Proof.Claims.MatrixMultiplyAndPass

namespace Sys2Proof.Claims

/-- A virtual range that a command of a core may access at once, in one page (R346): a walk has brought its leaf, or the
signature's cache holds it (R186), and the page stands open. -/
def VirtualRange (c : Chip) (core : Nat) (m : Cmd) (a n : Nat) (need : Need) (p : Phys) : Prop :=
  a < 2 ^ 57 ∧ (2 ^ 56 ≤ a → m.sup = true) ∧ a % 2 ^ 16 + n ≤ 2 ^ 16 ∧ m.fault ≠ some (a / 2 ^ 16) ∧ c.physShut p n = false
  ∧ (need = .w → p.loc < 2 → (c.placeOf p).pkg = c.pkg → c.inRegion p.pa n = false)
  ∧ ∃ leaf size, (((m.leaves.find? fun l => l.1 == a / 2 ^ 16).map Prod.snd).orElse fun _ => c.cached (sigOf core) m.ctx a)
      = some (leaf, size) ∧ leafRights leaf need false = true ∧ p = ⟨leaf, size, leafAddr leaf size a⟩
/-- The same in this package's HBM, or in host memory, whose bytes are sound. -/
def HomeRange (c : Chip) (core : Nat) (m : Cmd) (a n : Nat) (need : Need) (host : Bool) (p : Phys) : Prop :=
  VirtualRange c core m a n need p ∧ p.loc = (if host then 2 else 0) ∧ c.physBad p n = false
/-- This package's HBM, or host memory. -/
def memoryOf (c : Chip) (host : Bool) : Memory := if host then c.host else c.hbm
/-- n bytes of another package that one message takes: a power of two up to 64, aligned to itself (R365). -/
def OnePiece (p : Phys) (n : Nat) : Prop := p.loc = 1 ∧ n ∈ [1, 2, 4, 8, 16, 32, 64] ∧ p.pa % n = 0
/-- Rows of a copy in order (R364). -/
def rowsMoved (pad : Memory) (src dst ss ds : Int) (width rows : Nat) : Memory :=
  (List.range rows).foldl (fun m (r : Nat) => wrBytes m (dst + r * ds).toNat (rdBytes m (src + r * ss).toNat width)) pad
/-- Elements of a gather or a scatter in order (R364). -/
def elemsMoved (pad : Memory) (gather : Bool) (src dst idx esz count : Nat) : Memory :=
  (List.range count).foldl (fun m i =>
    let x := rdLe m (idx + 4 * i) 4
    wrBytes m (dst + (if gather then i else x) * esz) (rdBytes m (src + (if gather then x else i) * esz) esz)) pad

end Sys2Proof.Claims

/-- R363 to R365: what each copy command moves, from and to the scratchpad, HBM, host memory and other packages. -/
def Sys2Proof.Claims.CopyCommandResults : Prop :=
  (∀ (s : State) (core : Nat) (m : Cmd), let k := s.chip.coreAt core
    let (width, rows, ss, ds) := (m.field 32 4, m.field 36 4, m.signed 40, m.signed 44)
    Next k .cp 0x81 m → m.zero 10 16 = true → m.zero 48 64 = true → 1 ≤ width → width ≤ 2 ^ 24 → 1 ≤ rows → rows ≤ 65536 →
    (∀ src dst : Nat, Operand k s.chip.now m (m.byte 8) false padLoc (m.field 16 8) (max 0 (ss * (rows - 1)) + width).toNat src →
      Operand k s.chip.now m (m.byte 9) true padLoc (m.field 24 8) (max 0 (ds * (rows - 1)) + width).toNat dst →
      (128 ≤ m.byte 8 → 0 ≤ ss) → (128 ≤ m.byte 9 → 0 ≤ ds) →
      (∀ r : Nat, r < rows → 0 ≤ src + r * ss ∧ Readable s.chip core (src + r * ss).toNat width
        ∧ 0 ≤ dst + r * ds ∧ dst + r * ds + width ≤ Config.dataEnd) →
      ∃ t, exec (.cpCopy2d core) s = .next t ∧ Ran (t.chip.coreAt core) .cp m ∧ GivenOn k (t.chip.coreAt core) m true true
        ∧ (t.chip.coreAt core).pad = rowsMoved k.pad src dst ss ds width rows)
    ∧ (∀ (host : Bool) (o : Nat) (p : Nat → Phys), m.byte 8 < 8 → m.byte 9 < 8 → m.field 24 8 = padLoc o →
      (∀ r : Nat, r < rows → 0 ≤ m.field 16 8 + r * ss ∧ 0 ≤ o + r * ds ∧ o + r * ds + width ≤ Config.dataEnd
        ∧ HomeRange s.chip core m (m.field 16 8 + r * ss).toNat width .r host (p r)) →
      ∃ t, exec (.cpCopy2d core) s = .next t ∧ Ran (t.chip.coreAt core) .cp m ∧ (t.chip.coreAt core).pad
        = (List.range rows).foldl (fun (x : Memory) (r : Nat) =>
            wrBytes x (o + r * ds).toNat (rdBytes (memoryOf s.chip host) (p r).pa width)) k.pad)
    ∧ (∀ (host : Bool) (o : Nat) (p : Nat → Phys), m.byte 8 < 8 → m.byte 9 < 8 → m.field 16 8 = padLoc o →
      (∀ r : Nat, r < rows → 0 ≤ m.field 24 8 + r * ds ∧ 0 ≤ o + r * ss ∧ Readable s.chip core (o + r * ss).toNat width
        ∧ HomeRange s.chip core m (m.field 24 8 + r * ds).toNat width .w host (p r)) →
      ∃ t, exec (.cpCopy2d core) s = .next t ∧ Ran (t.chip.coreAt core) .cp m ∧ memoryOf t.chip host
        = (List.range rows).foldl (fun (x : Memory) (r : Nat) =>
            wrBytes x (p r).pa (rdBytes k.pad (o + r * ss).toNat width)) (memoryOf s.chip host))
    ∧ (∀ (o : Nat) (p : Phys), rows = 1 → m.byte 8 < 8 → m.byte 9 < 8 → m.field 16 8 = padLoc o → Readable s.chip core o width →
      OnePiece p width → VirtualRange s.chip core m (m.field 24 8) width .w p →
      ∃ t, exec (.cpCopy2d core) s = .next t ∧ Ran (t.chip.coreAt core) .cp m ∧ ∃ r ∈ (t.chip.coreAt core).reqs,
        r.2.owner = .engine .cp ∧ r.2.want = .piece m.tag false ∧ r.2.msg.body = .piece (rdBytes k.pad o width)
        ∧ r.2.msg.dest = s.chip.placeOf p ∧ r.2.msg.addr = p.pa))
  ∧ (∀ (s : State) (core o : Nat) (p : Phys) (m : Cmd), let k := s.chip.coreAt core
    let width := m.field 32 4
    Fresh k .cp 0x81 m → m.zero 10 16 = true → m.zero 48 64 = true → m.field 36 4 = 1 → m.byte 8 < 8 → m.byte 9 < 8 →
    m.field 24 8 = padLoc o → o + width ≤ Config.dataEnd → OnePiece p width →
    VirtualRange s.chip core m (m.field 16 8) width .r p →
    (m.far = none → (∀ r ∈ k.reqs, r.2.want ≠ .piece m.tag true) →
      ∃ t, exec (.cpCopy2d core) s = .next t ∧ ((t.chip.coreAt core).queue .cp).head? = some m
        ∧ (t.chip.coreAt core).pad = k.pad ∧ ∃ r ∈ (t.chip.coreAt core).reqs, r.2.owner = .engine .cp
          ∧ r.2.want = .piece m.tag true ∧ r.2.msg.body = .get width ∧ r.2.msg.dest = s.chip.placeOf p ∧ r.2.msg.addr = p.pa)
    ∧ (∀ b, m.far = some (.data b false) → b.length = width →
      ∃ t, exec (.cpCopy2d core) s = .next t ∧ Ran (t.chip.coreAt core) .cp m ∧ (t.chip.coreAt core).pad = wrBytes k.pad o b)
    ∧ (∀ st, m.far = some (.refused st) → ∃ t, exec (.cpCopy2d core) s = .next t ∧ (t.chip.coreAt core).queue .cp = []
      ∧ (t.chip.coreAt core).pad = k.pad ∧ tst (t.chip.coreAt core).cperr 63 = true
      ∧ bits (t.chip.coreAt core).cperr 55 48
        = match st with | 3 => 0x3D | 5 | 7 => 0x3E | 6 => 0x37 | 8 => 0x38 | _ => 0x39))
  ∧ (∀ (s : State) (core src dst idx : Nat) (m : Cmd), let k := s.chip.coreAt core
    let (count, esz) := (m.field 40 4, m.field 44 4)
    m.zero 10 16 = true → m.zero 48 64 = true → m.byte 8 < 8 → m.byte 9 < 8 → m.field 16 8 = padLoc src →
    m.field 24 8 = padLoc dst → m.field 32 8 = padLoc idx → idx % 4 = 0 → 1 ≤ count → count ≤ 65536 → 1 ≤ esz → esz ≤ 256 →
    idx + 4 * count ≤ Config.dataEnd → (∀ p ∈ k.padPoison, False) →
    (Next k .cp 0x82 m → dst + count * esz ≤ Config.dataEnd →
      (idx + 4 * count ≤ dst ∨ dst + count * esz ≤ idx) →
      (∀ i, i < count → src + (rdLe k.pad (idx + 4 * i) 4 + 1) * esz ≤ Config.dataEnd) →
      ∃ t, exec (.cpGather core) s = .next t ∧ Ran (t.chip.coreAt core) .cp m
        ∧ (t.chip.coreAt core).pad = elemsMoved k.pad true src dst idx esz count)
    ∧ (Next k .cp 0x83 m → src + count * esz ≤ Config.dataEnd →
      (∀ i, i < count → let d := dst + rdLe k.pad (idx + 4 * i) 4 * esz
        d + esz ≤ Config.dataEnd ∧ (d + esz ≤ idx ∨ idx + 4 * count ≤ d)) →
      ∃ t, exec (.cpScatter core) s = .next t ∧ Ran (t.chip.coreAt core) .cp m
        ∧ (t.chip.coreAt core).pad = elemsMoved k.pad false src dst idx esz count))
  ∧ (∀ (s : State) (core o : Nat) (m : Cmd), let k := s.chip.coreAt core
    let len := m.field 24 4
    Next k .cp 0x84 m → m.byte 8 = 0 → m.zero 10 16 = true → 1 ≤ len → m.zero 28 32 = true → m.zero 40 64 = true →
    Operand k s.chip.now m (m.byte 9) true padLoc (m.field 16 8) len o → o + len ≤ Config.dataEnd → k.pad.wf = true →
    ∃ t, exec (.cpFill core) s = .next t ∧ Ran (t.chip.coreAt core) .cp m ∧ GivenOn k (t.chip.coreAt core) m false true
      ∧ ∀ a, rdByte (t.chip.coreAt core).pad a = if o ≤ a ∧ a < o + len
          then BitVec.ofNat 8 (m.field 32 8 / 256 ^ ((a - o) % 8)) else rdByte k.pad a)
  ∧ (∀ (s : State) (core : Nat) (m : Cmd), Next (s.chip.coreAt core) .cp 0x85 m → m.zero 8 64 = true →
    ∃ t, exec (.cpMark core) s = .next t ∧ Ran (t.chip.coreAt core) .cp m
      ∧ (t.chip.coreAt core).pad = (s.chip.coreAt core).pad)

/-- R366: `corr` writes each recorded value over its element of the tile, from a list in scratchpad or in this package's HBM.
-/
def Sys2Proof.Claims.CorrectionsApply : Prop :=
  (∀ (s : State) (g : Guard) (a b : Reg), s.chip.clear g = true → s.chip.mayAccess = true → s.chip.usable [a, b] [] = true →
    let ga := (s.chip.val a).toNat
    let gl := ((s.chip.popped a).val b).toNat
    let list := gl - 2 ^ 63
    let pad := s.chip.here.pad
    let n := min (rdLe pad list 4) (rdLe pad (list + 4) 4)
    let idx := fun j => rdLe pad (list + 16 + 8 * j) 4
    ga % 4 = 0 → 2 ^ 63 ≤ gl → list < 2 ^ 18 → list % 8 = 0 → list + 16 + 8 * n ≤ Config.dataEnd →
    s.chip.padSound list 8 = true → s.chip.padSound (list + 16) (8 * n) = true → s.chip.inTurn list 8 = true →
    (∀ j, j < n → ga + 4 * idx j + 4 ≤ Config.dataEnd
      ∧ s.chip.inTurn (list + 16 + 8 * j) 8 = true ∧ s.chip.inTurn (ga + 4 * idx j) 4 = true
      ∧ (ga + 4 * idx j + 4 ≤ list ∨ list + 16 + 8 * n ≤ ga + 4 * idx j)) →
    ∃ t, exec (.corr g a b) s = .next t ∧ t.chip.me.pc = s.chip.me.npc
      ∧ t.chip.here.pad = (List.range n).foldl (fun m j =>
          wrBytes m (ga + 4 * idx j) (rdBytes pad (list + 16 + 8 * j + 4) 4)) pad)
  ∧ (∀ (s : State) (g : Guard) (a b : Reg) (h : Phys), s.chip.clear g = true → s.chip.mayAccess = true →
    s.chip.usable [a, b] [] = true → s.chip.me.far = [] →
    let ga := (s.chip.val a).toNat
    let list := (s.chip.popped a).val b
    let n := min (rdLe s.chip.hbm h.pa 4) (rdLe s.chip.hbm (h.pa + 4) 4)
    let idx := fun j => rdLe s.chip.hbm (h.pa + 16 + 8 * j) 4
    ga % 4 = 0 → list.toNat % 8 = 0 → list.toNat < 2 ^ 57 → list.toNat + 16 + 8 * n ≤ 2 ^ 57 →
    ListAt s.chip list 8 .r 0 h →
    (∀ j, j < n → ListAt s.chip (list + BitVec.ofNat 64 (16 + 8 * j)) 8 .r 0 { h with pa := h.pa + 16 + 8 * j }
      ∧ ga + 4 * idx j + 4 ≤ Config.dataEnd ∧ s.chip.inTurn (ga + 4 * idx j) 4 = true) →
    ∃ t, exec (.corr g a b) s = .next t ∧ t.chip.me.pc = s.chip.me.npc
      ∧ t.chip.here.pad = (List.range n).foldl (fun m j =>
          wrBytes m (ga + 4 * idx j) (rdBytes s.chip.hbm (h.pa + 16 + 8 * j + 4) 4)) s.chip.here.pad)

/-- R363, R364, R366: what each copy command moves, and what `corr` writes. That each command runs whole in one step is the
model's choice (log 4), and other packages' memory is as log 8 has it. -/
def Obligations.CopiesAndCorrections : Prop :=
  Sys2Proof.Claims.CopyCommandResults ∧ Sys2Proof.Claims.CorrectionsApply

/-! ## Class 110 -/

namespace Sys2Proof.Claims

/-- The operand ga of an object instruction (R388): a scratchpad reference with room for n bytes, or a virtual address that the
frame may read and that is no host memory; and where the object lies. -/
def ObjectAt (c : Chip) (ga : Word) (n al : Nat) (ref : Bool) (dest : Place) (addr : Nat) : Prop :=
  if tst ga 63 && ref then
    bits ga 62 46 = 0 ∧ tst ga 18 = false ∧ bits ga 17 0 % al = 0 ∧ bits ga 17 0 + n ≤ Config.dataEnd
    ∧ dest = ⟨bits ga 45 34, .core (bits ga 33 19)⟩ ∧ addr = bits ga 17 0
  else ga.toNat % al = 0 ∧ ∃ p, c.lookup ga .r true = .ok p ∧ p.loc ≠ 2 ∧ dest = c.placeOf p ∧ addr = p.pa
/-- What the instruction orders holds at once (R172, R225, R237, R239, R110). -/
def OrderDone (c : Chip) (o : Order) (k : Scope) : Prop :=
  match o with
  | .free => True
  | .release => c.releasable k = true
  | .reads => c.unrefused = true ∧ c.openIn c.core (.frame c.frame) k Req.isRead = false
/-- The request of an object instruction is on its way under a number, and the frame stalls for the answer (R387, R388). -/
def AsksAs (s : State) (i : Instr) (id : Nat) (op : ObjOp) (gd : Option Reg) (pd : Option (BitVec 3)) (log : Option (Nat × Nat))
    (dest : Place) (addr : Nat) (ga x y : Word) : Prop :=
  let c := s.chip
  ∃ t, exec i s = .next t ∧ t.chip.me.st = .stalled (.answer id) ∧ t.chip.me.pc = c.me.pc
    ∧ SentAs c t.chip id (.object gd pd log) false (causeWord i)
      ⟨id, { c.frankOf c.core c.frame with launch := c.me.launch }, dest, addr, ga, none, c.me.pri, none, 0, 0,
        .object op x y, none, false⟩
/-- The same under the package's next request number. -/
def Asks (s : State) (i : Instr) (op : ObjOp) (gd : Option Reg) (pd : Option (BitVec 3)) (log : Option (Nat × Nat))
    (dest : Place) (addr : Nat) (ga x y : Word) : Prop := AsksAs s i s.chip.nextReq op gd pd log dest addr ga x y
/-- An object instruction with its operands read. -/
def ObjectForm (s : State) (i : Instr) (op : ObjOp) (gd : Option Reg) (pd : Option (BitVec 3)) (o : Order) (ga x y : Word)
    (n al : Nat) (ref : Bool) : Prop :=
  ∀ dest addr, ObjectAt s.chip ga n al ref dest addr → OrderDone s.chip o (s.chip.objectScope op dest addr) →
    Settled s.chip ga dest addr → Asks s i op gd pd none dest addr ga x y

/-- An instruction `gd, [ga]` (R386). -/
def GetForm (k : Guard → Reg → Reg → Instr) (op : ObjOp) (o : Order) (n al : Nat) (ref : Bool) : Prop :=
  ∀ (s : State) (g : Guard) (d a : Reg), s.chip.clear g = true → s.chip.mayAccess = true → s.chip.usable [a] [d] = true →
    ObjectForm s (k g d a) op (some d) none o (s.chip.val a) 0 0 n al ref
/-- An instruction `gd, gs, [ga]`. -/
def GiveForm (k : Guard → Reg → Reg → Reg → Instr) (op : ObjOp) (o : Order) (n al : Nat) (ref : Bool) : Prop :=
  ∀ (s : State) (g : Guard) (d a b : Reg), s.chip.clear g = true → s.chip.mayAccess = true → s.chip.usable [a, b] [d] = true →
    ObjectForm s (k g d a b) op (some d) none o (s.chip.val a) ((s.chip.popped a).val b) 0 n al ref
/-- An instruction `pd, gs, [ga]`. -/
def TestForm (k : Guard → Reg → Reg → BitVec 3 → Instr) (op : ObjOp) (o : Order) (n al : Nat) (ref : Bool) : Prop :=
  ∀ (s : State) (g : Guard) (a b : Reg) (p : BitVec 3), s.chip.clear g = true → s.chip.mayAccess = true →
    s.chip.usable [a, b] [] = true →
    ObjectForm s (k g a b p) op none (some p) o (s.chip.val a) ((s.chip.popped a).val b) 0 n al ref
/-- A read of a mesh by handle. -/
def MeshForm (k : Guard → Reg → Reg → Reg → BitVec 3 → Instr) (op : ObjOp) : Prop :=
  ∀ (s : State) (g : Guard) (d a b : Reg) (p : BitVec 3), s.chip.clear g = true → s.chip.mayAccess = true →
    s.chip.usable [a, b] [d] = true →
    ObjectForm s (k g d a b p) op (some d) (some p) .free (s.chip.val a) ((s.chip.popped a).val b) 0 256 64 false
/-- A store of a mesh field (R391): gs stands in d. -/
def FieldForm (k : Guard → Reg → Reg → Reg → BitVec 3 → Instr) (j : Nat) : Prop :=
  ∀ (s : State) (g : Guard) (d a b : Reg) (p : BitVec 3), s.chip.clear g = true → s.chip.mayAccess = true →
    s.chip.usable [d, a, b] [] = true →
    let c := s.chip.popped d
    ObjectForm s (k g d a b p) (.mfst j) none (some p) .release (c.val a) ((c.popped a).val b) (s.chip.val d) 256 64 false
/-- An edit of a mesh (R393): t is gd on entry where the edit reads it. Nothing is recorded of a deferred edit, and an immediate
one in modes 1 and 2 takes its record (R225, R454). -/
def EditForm (k : Guard → Reg → Reg → Reg → BitVec 3 → Instr) (e : Edit) (reads : Bool) : Prop :=
  ∀ (s : State) (g : Guard) (d a b : Reg) (p : BitVec 3), s.chip.clear g = true → s.chip.mayAccess = true →
    s.chip.usable ((if reads then [d] else []) ++ [a, b]) [d] = true →
    let c := if reads then s.chip.popped d else s.chip
    let t := if reads then s.chip.val d else 0
    let ga := c.val a
    ∀ dest addr, ObjectAt s.chip ga 256 64 false dest addr →
      s.chip.releasable (if dest.pkg = s.chip.pkg then .pkg else .sys) = true → Settled s.chip ga dest addr →
      let deferred := dest.pkg = s.chip.pkg ∧ tst (s.chip.read64 dest.home addr) 24 = true
      (deferred ∨ s.chip.modeOf s.chip.me.launch = 0 →
        Asks s (k g d a b p) (.edit e none) (some d) (some p) none dest addr ga ((c.popped a).val b) t)
      ∧ (LogRoom s.chip 3 → ∃ log want id,
          AsksAs s (k g d a b p) id (.edit e want) (some d) (some p) log dest addr ga ((c.popped a).val b) t)

end Sys2Proof.Claims

/-- R386 to R394: the mesh instructions ask the mesh's home. -/
def Sys2Proof.Claims.MeshInstructionsAsk : Prop :=
  MeshForm .mgetLink (.mget .link) ∧ MeshForm .mgetTwin (.mget .twin) ∧ MeshForm .mgetOrigin (.mget .origin)
  ∧ MeshForm .mgetEdge (.mget .edge) ∧ MeshForm .mgetFace (.mget .face) ∧ MeshForm .mnext (.mget .next)
  ∧ (∀ j : BitVec 2, MeshForm (fun g d a b p => .mfldLow g d a b p j) (.mfld j.toNat)
      ∧ MeshForm (fun g d a b p => .mfldHigh g d a b p j) (.mfld (4 + j.toNat))
      ∧ FieldForm (fun g d a b p => .mfstLow g d a b p j) j.toNat
      ∧ FieldForm (fun g d a b p => .mfstHigh g d a b p j) (4 + j.toNat))
  ∧ TestForm .mval .mval .free 256 64 false ∧ TestForm .mclaim .mclaim .free 256 64 false
  ∧ TestForm .mrel .mrel .free 256 64 false
  ∧ EditForm .msplit .split true ∧ EditForm .mcoll .collapse true ∧ EditForm .mflip .flip false ∧ EditForm .mref .refine false
  ∧ GetForm .mround .mround .release 256 64 false

/-- R172, R175, R237 to R242, R251, R395 to R398: the instructions of the other objects ask the object's home. That gosset
reads its image at issue is the model's reading (log 15). -/
def Sys2Proof.Claims.ObjectInstructionsAsk : Prop :=
  GetForm .verpub .verpub .release 64 64 true ∧ GetForm .verpubO .verpubO .free 64 64 true
  ∧ GetForm .verpubFin .verpubFin .release 64 64 true ∧ GetForm .verstop .verstop .release 64 64 true
  ∧ GiveForm .verwait .verwait .free 64 64 true ∧ TestForm .verchk .verchk .reads 64 64 true
  ∧ TestForm .verchkD .verchkD .release 64 64 true
  ∧ (∀ (s : State) (g : Guard) (a : Reg) (p : BitVec 3), s.chip.clear g = true → s.chip.mayAccess = true →
      s.chip.usable [a] [] = true →
      ObjectForm s (.versettle g a p) .versettle none (some p) .free (s.chip.val a) 0 0 8 8 true
      ∧ ObjectForm s (.versettleT g a p) .versettleT none (some p) .free (s.chip.val a) 0 0 8 8 true)
  ∧ (∀ (s : State) (g : Guard) (a b : Reg), s.chip.clear g = true → s.chip.mayAccess = true → s.chip.usable [a, b] [] = true →
      ObjectForm s (.gosadd g a b) .gosadd none none .free (s.chip.val a) ((s.chip.popped a).val b) 0 8 8 false)
  ∧ (∀ (s : State) (g : Guard) (d a : Reg) (p : BitVec 3), s.chip.clear g = true → s.chip.mayAccess = true →
      s.chip.usable [a] [d] = true →
      ObjectForm s (.gosest g d a p) .gosest (some d) (some p) .free (s.chip.val a) 0 0 8 8 false
      ∧ ObjectForm s (.chrecv g d a p) .chrecv (some d) (some p) .free (s.chip.val a) 0 0 64 64 true)
  ∧ GetForm .gosspr .gosspr .free 8 8 false
  ∧ (∀ (s : State) (g : Guard) (d a b : Reg), s.chip.clear g = true → s.chip.mayAccess = true →
      s.chip.usable [a, b] [d] = true →
      let gs := (s.chip.popped a).val b
      let o := bits gs 17 0
      (bits gs 63 61 = 1 ∧ o % 8 = 0 ∧ o + 64 ≤ Config.dataEnd → s.chip.inTurn o 64 = true →
        ObjectForm s (.gosset g d a b)
          (.gosset (some (if s.chip.padSound o 64 then rdBytes s.chip.here.pad o 64 else []))) (some d) none .free (s.chip.val a) gs
          0 8 8 false)
      ∧ (bits gs 63 61 ≠ 1 ∨ o % 8 ≠ 0 ∨ Config.dataEnd < o + 64 →
        ObjectForm s (.gosset g d a b) (.gosset none) (some d) none .free (s.chip.val a) gs 0 8 8 false))
  ∧ GetForm .bar .bar .release 64 64 true ∧ GiveForm .barv .barv .release 64 64 true
  ∧ TestForm .bwait .bwait .free 64 64 true ∧ TestForm .chsend .chsend .release 64 64 true
  ∧ GiveForm .hqput .hqput .release 64 64 false ∧ GiveForm .hqpeek .hqpeek .free 64 64 false
  ∧ GiveForm .hqrel .hqrel .release 64 64 false ∧ GiveForm .hqveto .hqveto .release 64 64 false

/-- R172, R175, R237 to R242, R251, R386 to R398: the object instructions ask the object's home. That gosset reads its image
at issue is the model's reading (log 15). -/
def Obligations.ObjectInstructionsAsk : Prop :=
  Sys2Proof.Claims.MeshInstructionsAsk ∧ Sys2Proof.Claims.ObjectInstructionsAsk

/-! ## Objects at their homes -/

namespace Sys2Proof.Claims

/-- The memory that a home of shared objects holds them in. -/
def memAt (c : Chip) (h : Home) : Memory := match h with | .core k => (c.coreAt k).pad | _ => c.hbm
/-- An object request of no launch that its home admits, in a scratchpad by a window and in HBM by a rights entry (R89, R168), where
no other instruction waits; the object holds no poison. `kind` and `right` are those of R88. -/
def AtHome (s : State) (n ctx size kind right : Nat) (m : Msg) (op : ObjOp) (x : Word) : Prop :=
  let c := s.chip
  let h := m.dest.home
  c.arriving n = some m ∧ m.body = .object op x 0 ∧ m.frank.launch = none ∧ c.waitersAt h = [] ∧ HomeWf c h
  ∧ c.poisonAt h m.addr size = false
  ∧ match h with
    | .core _ => c.admitObject m size [62, 61] = .ok ctx ∧ m.addr + size ≤ Config.dataEnd
    | .hbm _ _ => c.admitObject m 64 [62, 61] = .ok ctx ∧ ∃ e, c.entryCheck m ctx kind right = .ok e
    | _ => False
/-- An object request comes to its end with an answer (R387). -/
def EndsAs (s : State) (n : Nat) (m : Msg) (a : ObjAns) (is : State → Prop) : Prop :=
  ∃ t, exec (.objectRequest n) s = .next t ∧ Answered s.chip t.chip m (.objReply a) ∧ is t
/-- One that completes. -/
def Ends (s : State) (n : Nat) (m : Msg) (gd : Word) (pd : Bool) (is : State → Prop) : Prop := EndsAs s n m (.ok gd pd) is
/-- One that waits at its home: the object stays as it is (R176). -/
def StaysWaiting (s : State) (n : Nat) (m : Msg) : Prop :=
  let h := m.dest.home
  ∃ t, exec (.objectRequest n) s = .next t ∧ t.chip.waitersAt h = [m] ∧ memAt t.chip h = memAt s.chip h
    ∧ t.chip.net = s.chip.net.eraseIdx n ∧ t.chip.out = s.chip.out
/-- A channel's slot lies at a place of the header's memory, beside the header, and holds no poison (R174). -/
def SlotAt (c : Chip) (m : Msg) (ctx i sa : Nat) : Prop :=
  ∃ sh, c.slotPlace m ctx i = .ok (sh, sa) ∧ (match m.dest.home with | .core _ => sh = m.dest.home | _ => sh = hbmHome sa)
    ∧ c.poisonAt sh sa 8 = false ∧ (sa + 8 ≤ m.addr ∨ m.addr + 64 ≤ sa)

end Sys2Proof.Claims

/-- R170 to R175, R179: a barrier's arrival, the last arrival of a generation, which lets a waiting `bwait` through, and a channel's
send and receive, in a scratchpad or in HBM. -/
def Sys2Proof.Claims.BarriersAndChannels : Prop :=
  (∀ (s : State) (n ctx : Nat) (m : Msg) (x : Word) (v : Bool),
    AtHome s n ctx 64 4 2 m (if v then .barv else .bar) x →
    let h := m.dest.home
    let a := m.addr
    let old := memAt s.chip h
    let arrived := (rdLe old (a + 12) 4 + 1) % 2 ^ 32
    (s.chip.headerBroken h a = true → Ends s n m (BitVec.allOnes 64) false fun t => memAt t.chip h = old)
    ∧ (s.chip.badBarrier m = false → s.chip.headerBroken h a = false →
      (arrived ≠ rdLe old (a + 8) 4 → Ends s n m (rd64 old a) false fun t =>
        let new := memAt t.chip h
        rdLe new (a + 12) 4 = arrived ∧ rd64 new a = rd64 old a ∧ (v = false → rd64 new (a + 24) = rd64 old (a + 24))
        ∧ (v = true → bits (rd64 old (a + 16)) 6 4 = 0 → rd64 new (a + 24) = rd64 old (a + 24) + x))
      ∧ (arrived = rdLe old (a + 8) 4 → Ends s n m (rd64 old a) false fun t =>
        let new := memAt t.chip h
        rdLe new (a + 12) 4 = 0 ∧ rd64 new a = rd64 old a + 1
        ∧ t.chip.headerBroken h a = decide ((rd64 old a).toNat = 2 ^ 63 - 2)
        ∧ (v = false → rd64 new (a + 32) = rd64 old (a + 24))
        ∧ (bits (rd64 old (a + 16)) 6 4 = 0 → rd64 new (a + 24) = 0
            ∧ (v = true → rd64 new (a + 32) = rd64 old (a + 24) + x)))))
  ∧ (∀ (s : State) (n ctx : Nat) (m : Msg) (x : Word), AtHome s n ctx 64 4 1 m .bwait x →
    let h := m.dest.home
    let g := rd64 (memAt s.chip h) m.addr
    (s.chip.headerBroken h m.addr = true → Ends s n m 0 false fun t => memAt t.chip h = memAt s.chip h)
    ∧ (s.chip.badBarrier m = false → s.chip.headerBroken h m.addr = false →
      (x.slt g = true → Ends s n m 0 true fun t => memAt t.chip h = memAt s.chip h)
      ∧ (x.slt g = false → StaysWaiting s n m)))
  ∧ (∀ (s : State) (n core ctx : Nat) (m w : Msg) (x : Word), let c := s.chip
    let old := (c.coreAt core).pad
    c.arriving n = some m → m.dest.home = .core core → m.body = .object .bar 0 0 → m.frank.launch = none →
    c.admitObject m 64 [62, 61] = .ok ctx → m.addr + 64 ≤ Config.dataEnd → old.wf = true →
    c.poisonAt (.core core) m.addr 64 = false → c.badBarrier m = false → c.headerBroken (.core core) m.addr = false →
    (c.coreAt core).waiters = [w] → w.dest = m.dest → w.addr = m.addr → w.body = .object .bwait x 0 →
    (rdLe old (m.addr + 12) 4 + 1) % 2 ^ 32 = rdLe old (m.addr + 8) 4 → (rd64 old m.addr).toNat < 2 ^ 63 - 2 →
    x.slt (rd64 old m.addr + 1) = true →
    Ends s n m (rd64 old m.addr) false fun t =>
      Answered c t.chip w (.objReply (.ok 0 true)) ∧ (t.chip.coreAt core).waiters = [])
  ∧ (∀ (s : State) (n ctx : Nat) (m : Msg) (x : Word), let a := m.addr
    let h := m.dest.home
    let c := s.chip
    let old := memAt c h
    let cap := rdLe old (a + 24) 4
    let tl := rd64 old a
    let hd := rd64 old (a + 8)
    (AtHome s n ctx (64 + 8 * cap) 5 16 m .chsend x →
      (c.headerBroken h a = true → Ends s n m 0 false fun t => memAt t.chip h = old)
      ∧ (c.badChannel m = false → c.headerBroken h a = false →
        ((tl - hd).toNat = cap → StaysWaiting s n m)
        ∧ ((tl - hd).toNat ≠ cap → ∀ sa, SlotAt c m ctx (tl.toNat % cap) sa → Ends s n m 0 true fun t =>
          rd64 (memAt t.chip h) sa = x ∧ rd64 (memAt t.chip h) a = tl + 1 ∧ rd64 (memAt t.chip h) (a + 8) = hd)))
    ∧ (AtHome s n ctx (64 + 8 * cap) 5 1 m .chrecv x →
      (c.headerBroken h a = true → Ends s n m 0 false fun t => memAt t.chip h = old)
      ∧ (c.badChannel m = false → c.headerBroken h a = false →
        (tl = hd → StaysWaiting s n m)
        ∧ (tl ≠ hd → ∀ sa, SlotAt c m ctx (hd.toNat % cap) sa → Ends s n m (rd64 old sa) true fun t =>
          rd64 (memAt t.chip h) (a + 8) = hd + 1 ∧ rd64 (memAt t.chip h) a = tl))))

namespace Sys2Proof.Claims

/-- Slot j of a tile's header: its doublewords 0 and 1 (R235). -/
def tileSlot (mem : Memory) (a j : Nat) : Word × Word := (rd64 mem (a + 16 + 16 * j), rd64 mem (a + 24 + 16 * j))
/-- A slot in use. -/
def SlotUsed (w : Word) : Prop := tst w 63 = true
/-- Its consumer finishes and runs (R237). -/
def SlotHolds (w : Word) : Prop := tst w 63 = true ∧ tst w 62 = true ∧ tst w 61 = true
/-- The slot in use of lowest number that names a consumer (R238, R239). -/
def FirstSlot (mem : Memory) (a j : Nat) (who : Nat × Nat × Nat) : Prop :=
  j < 3 ∧ SlotUsed (tileSlot mem a j).1 ∧ slotConsumer (tileSlot mem a j).1 = who
  ∧ ∀ i, i < j → ¬(SlotUsed (tileSlot mem a i).1 ∧ slotConsumer (tileSlot mem a i).1 = who)
/-- Every consumer has finished a version (R241). -/
def AllSettled (mem : Memory) (a v : Nat) : Prop :=
  ∀ j, j < 3 → SlotUsed (tileSlot mem a j).1 → tst (tileSlot mem a j).1 61 = false ∧ tst (tileSlot mem a j).1 60 = false
    ∧ bits (tileSlot mem a j).2 31 0 = v
/-- A notice of a version is on its way to a slot's consumer in this package (R236). -/
def Noticed (c d : Chip) (w : Word) (v : Nat) : Prop :=
  bits w 45 34 = c.pkg → ∃ q ∈ d.net, q.body = .notice (bits w 17 0) v ∧ q.dest = ⟨c.pkg, .core (bits w 33 19)⟩
/-- A tile at its home: whole, not broken, and without a settle word (R234). -/
def TileOpen (c : Chip) (m : Msg) (ctx : Nat) : Prop :=
  c.tileBroken m.dest.home m.addr = false ∧ (∀ w, c.tileOwner m.dest.home m.addr = some w → c.brokenFor w ctx = false)
  ∧ c.badTile m = false ∧ rd64 (memAt c m.dest.home) (m.addr + 8) = 0

end Sys2Proof.Claims

/-- R236 to R242: publishing, opening and stopping a tile, subscribing to it, and checking it, at its home in a scratchpad or in HBM;
the settling of a final tile; and the tests of a settle word. -/
def Sys2Proof.Claims.TilesAtHome : Prop :=
  (∀ (s : State) (n ctx : Nat) (m : Msg) (x : Word),
    let c := s.chip
    let h := m.dest.home
    let a := m.addr
    let old := memAt c h
    let v := rdLe old a 4
    let state := rdByte old (a + 4)
    let final := tst state 1
    let slot := tileSlot old a
    let made := fun (op : ObjOp) => ∃ right, AtHome s n ctx 64 2 right m op x
      ∧ right = (match op with | .verwait => 4 | .verchk | .verchkD => 5 | _ => 2)
    TileOpen c m ctx →
    (∀ op ∈ [ObjOp.verpub, .verpubO, .verpubFin, .verstop], made op → final = true →
      Ends s n m (BitVec.ofNat 64 (2 ^ 63 + (tst state 2).toNat * 2 ^ 62 + v)) false fun t => rdLe (memAt t.chip h) a 4 = v)
    ∧ (∀ op ∈ [ObjOp.verpub, .verpubFin], made op → final = false → v + 1 < 0xFFFFFFFF →
      Ends s n m (BitVec.ofNat 64 (v + 1)) false fun t =>
        let st := rdByte (memAt t.chip h) (a + 4)
        rdLe (memAt t.chip h) a 4 = v + 1 ∧ tst st 0 = false ∧ tst st 1 = decide (op = .verpubFin)
        ∧ ∀ j, j < 3 → SlotUsed (slot j).1 →
            (SlotHolds (slot j).1 → tst (tileSlot (memAt t.chip h) a j).1 60 = true)
            ∧ (¬SlotHolds (slot j).1 → Noticed c t.chip (slot j).1 (v + 1)))
    ∧ (made .verpubO → final = false → (∃ j, j < 3 ∧ SlotHolds (slot j).1) → StaysWaiting s n m)
    ∧ (made .verpubO → final = false → (∀ j, j < 3 → ¬SlotHolds (slot j).1) → Ends s n m (BitVec.ofNat 64 v) false fun t =>
      tst (rdByte (memAt t.chip h) (a + 4)) 0 = true ∧ rdLe (memAt t.chip h) a 4 = v)
    ∧ (made .verstop → final = false → Ends s n m (BitVec.ofNat 64 v) false fun t =>
      let st := rdByte (memAt t.chip h) (a + 4)
      tst st 0 = false ∧ tst st 1 = true ∧ tst st 2 = true ∧ rdLe (memAt t.chip h) a 4 = v
      ∧ (tst state 3 = false → (tst st 3 = true ↔ AllSettled old a v)))
    ∧ (made .verwait → let ctr := bits x 17 0
      let who := (m.frank.pkg, m.frank.core, ctr)
      (ctr % 8 ≠ 0 ∨ Config.dataEnd ≤ ctr → EndsAs s n m (.trap 4 0 (BitVec.ofNat 64 ctr)) fun t => memAt t.chip h = old ∨ final = true)
      ∧ (ctr % 8 = 0 → ctr < Config.dataEnd → bits x 61 18 = 0 → tst x 63 = false →
        (tst state 3 = true → Ends s n m (BitVec.ofNat 64 (2 ^ 62 + v)) false fun _ => True)
        ∧ (tst state 3 = false →
          (∀ j, FirstSlot old a j who → Ends s n m (BitVec.ofNat 64 v) false fun t =>
            tst (tileSlot (memAt t.chip h) a j).1 62 = tst x 62 ∧ (0 < v → Noticed c t.chip (slot j).1 v))
          ∧ (∀ j, j < 3 → (∀ i, i < 3 → slotConsumer (slot i).1 = who → ¬SlotUsed (slot i).1) → ¬SlotUsed (slot j).1 →
            (∀ i, i < j → SlotUsed (slot i).1) → m.frank.pkg < 2 ^ 12 → m.frank.core < 2 ^ 15 →
            Ends s n m (BitVec.ofNat 64 v) false fun t =>
              let w := (tileSlot (memAt t.chip h) a j).1
              SlotUsed w ∧ tst w 62 = tst x 62 ∧ tst w 61 = false ∧ slotConsumer w = who ∧ (tileSlot (memAt t.chip h) a j).2 = 0
              ∧ (0 < v → Noticed c t.chip w v))
          ∧ ((∀ i, i < 3 → SlotUsed (slot i).1 ∧ slotConsumer (slot i).1 ≠ who) →
            Ends s n m (BitVec.ofNat 64 (2 ^ 63 + v)) false fun _ => True))))
    ∧ (bits x 63 50 = 0 → ∀ j, FirstSlot old a j (m.frank.pkg, m.frank.core, bits x 49 32) →
      (made .verchk →
        let yes := v = bits x 31 0 ∧ tst state 0 = false
        Ends s n m 0 (decide yes) fun t =>
          tst (tileSlot (memAt t.chip h) a j).1 61 = decide yes
          ∧ (yes → bits (tileSlot (memAt t.chip h) a j).2 63 32 = v) ∧ rdLe (memAt t.chip h) a 4 = v)
      ∧ (made .verchkD → Ends s n m 0 (decide (v = bits x 31 0 ∧ final = true)) fun t =>
          let w := tileSlot (memAt t.chip h) a j
          bits w.2 31 0 = bits x 31 0 ∧ tst w.1 61 = false ∧ tst w.1 60 = false
          ∧ (tst (slot j).1 60 = true → Noticed c t.chip (slot j).1 v)))
    ∧ (∀ op ∈ [ObjOp.verchk, .verchkD], made op → bits x 63 50 = 0 →
      (∀ j, j < 3 → ¬(SlotUsed (slot j).1 ∧ slotConsumer (slot j).1 = (m.frank.pkg, m.frank.core, bits x 49 32))) →
      EndsAs s n m (.trap 7 0 m.va) fun _ => True))
  ∧ (∀ (s : State) (n core ctx : Nat) (m : Msg), let c := s.chip
    let old := (c.coreAt core).pad
    let w := rd64 old (m.addr + 8)
    AtHome s n ctx 64 2 2 m .verstop 0 → m.dest = ⟨c.pkg, .core core⟩ → c.tileBroken (.core core) m.addr = false →
    (∀ o, c.tileOwner (.core core) m.addr = some o → c.brokenFor o ctx = false) → c.badTile m = false →
    tst (rdByte old (m.addr + 4)) 1 = false → tst (rdByte old (m.addr + 4)) 3 = false →
    AllSettled old m.addr (rdLe old m.addr 4) → tst w 63 = true → refPkg w = c.pkg → refCore w = core →
    refOff w + 8 ≤ Config.dataEnd → c.poisonAt (.core core) (refOff w) 8 = false →
    refOff w + 8 ≤ m.addr ∨ m.addr + 64 ≤ refOff w →
    Ends s n m (BitVec.ofNat 64 (rdLe old m.addr 4)) false fun t =>
      rd64 (t.chip.coreAt core).pad (refOff w) = rd64 old (refOff w) - 1
      ∧ tst (rdByte (t.chip.coreAt core).pad (m.addr + 4)) 3 = true)
  ∧ (∀ (s : State) (n ctx : Nat) (m : Msg) (wait : Bool), let c := s.chip
    let h := m.dest.home
    let v := c.read64 h m.addr
    c.arriving n = some m → m.body = .object (if wait then .versettle else .versettleT) 0 0 → c.waitersAt h = [] →
    c.admitObject m 8 [62] = .ok ctx → c.poisonAt h m.addr 8 = false → (∃ k, h = .core k) ∨ (∃ st ch, h = .hbm st ch) →
    (v = 0 → Ends s n m 0 true fun t => SameMemory c t.chip)
    ∧ (v.slt 0 = true → Ends s n m 0 false fun t => SameMemory c t.chip)
    ∧ ((0 : Word).slt v = true →
      (wait = false → Ends s n m 0 false fun t => SameMemory c t.chip) ∧ (wait = true → StaysWaiting s n m)))

/-- R170 to R175, R179, R236 to R242: barriers, channels and versioned tiles at their homes. -/
def Obligations.BarriersChannelsAndTiles : Prop :=
  Sys2Proof.Claims.BarriersAndChannels ∧ Sys2Proof.Claims.TilesAtHome

/-- R109 to R111: the holding queue's instructions at the spine, its stream to the host, and the host's acknowledgement. -/
def Obligations.HoldingQueues : Prop :=
  (∀ (s : State) (n ctx : Nat) (m : Msg) (op : ObjOp) (x : Word) (e : Rights) (q : HoldQueue), let h := m.addr / 2 ^ 16
    let k := bits x 31 0
    s.chip.arriving n = some m → m.dest.home = .spine → m.body = .object op x 0 → s.chip.admitObject m 64 [] = .ok ctx →
    s.chip.entryCheck m ctx 6 (holdRight op x) = .ok e → tfind s.chip.hqs h = some q → q.broken = false →
    s.chip.brokenFor q.owner ctx = false →
    (op = .hqput → q.vt = false → q.nx - 1 - q.sn ≠ q.cap → q.nx ≠ 0xFFFFFFFF → Ends s n m (BitVec.ofNat 64 q.nx) false fun t =>
      ∃ r, tfind t.chip.hqs h = some r ∧ r.nx = q.nx + 1 ∧ tfind r.tokens q.nx = some (x.setWidth 32) ∧ r.rt = q.rt)
    ∧ (op = .hqput → q.vt = false → (q.nx - 1 - q.sn = q.cap ∨ q.nx = 0xFFFFFFFF) →
      Ends s n m 0 false fun t => tfind t.chip.hqs h = some q)
    ∧ (op = .hqput → q.vt = true → EndsAs s n m (.trap 0x13 0 m.va) fun t => tfind t.chip.hqs h = some q)
    ∧ (op = .hqrel → Ends s n m (BitVec.ofNat 64 (Nat.max q.rt (Nat.min k (q.nx - 1)))) false fun t =>
      ∃ r, tfind t.chip.hqs h = some r ∧ r.rt = Nat.max q.rt (Nat.min k (q.nx - 1)) ∧ r.nx = q.nx)
    ∧ (op = .hqveto → q.rt < k → Ends s n m (BitVec.ofNat 64 (Nat.min q.nx k)) false fun t =>
      ∃ r, tfind t.chip.hqs h = some r ∧ r.vt = true ∧ r.nx = Nat.min q.nx k
        ∧ ∀ i, k ≤ i → tfind r.tokens i = none)
    ∧ (op = .hqveto → k ≤ q.rt → Ends s n m 0 false fun t => tfind t.chip.hqs h = some q)
    ∧ (op = .hqpeek → k = 0 → Ends s n m (BitVec.ofNat 64 (q.vt.toNat * 2 ^ 63 + q.nx)) false fun t =>
      tfind t.chip.hqs h = some { q with vt := false })
    ∧ (op = .hqpeek → 0 < k →
      (q.nx ≤ k → Ends s n m (BitVec.ofNat 64 (2 ^ 62)) false fun t => tfind t.chip.hqs h = some q)
      ∧ (k < q.nx → k ≤ q.rt → Ends s n m (BitVec.ofNat 64 (2 ^ 63)) false fun t => tfind t.chip.hqs h = some q)
      ∧ (k < q.nx → q.rt < k →
        Ends s n m ((tget 0 q.tokens k).setWidth 64) false fun t => tfind t.chip.hqs h = some q)))
  ∧ (∀ (s : State) (h : Nat) (q : HoldQueue), tfind s.chip.hqs h = some q → q.sn < q.rt →
    (q.sn : Int) - q.pqack.toNat < q.sent → s.chip.host.wf = true →
    let a := q.sring.toNat + 8 * (q.sn % q.sent)
    a + 8 ≤ q.scount.toNat ∨ q.scount.toNat + 8 ≤ a →
    ∃ t r, exec (.hqStream h) s = .next t ∧ tfind t.chip.hqs h = some r ∧ r.sn = q.sn + 1
      ∧ rdLe t.chip.host a 8 = (q.sn + 1 + (tget 0 q.tokens (q.sn + 1)).toNat * 2 ^ 32) % 2 ^ 64
      ∧ rd64 t.chip.host q.scount.toNat = BitVec.ofNat 64 (q.sn + 1))
  ∧ (∀ (s : State) (h : Nat) (v : Word) (q : HoldQueue), h < 1024 → tfind s.chip.hqs h = some q →
    ∃ t, exec (.pqackWrite h v) s = .next t ∧ tfind t.chip.hqs h = some { q with pqack := v })

namespace Sys2Proof.Claims

/-- The words of a region's replica and of its shadow area lie apart (R244). -/
def Apart (r : Region) : Prop :=
  let all := (List.range (r.n + 1)).flatMap fun i => [r.word i, r.shadow 0 i, r.shadow 1 i, r.shadow 2 i]
  all.Pairwise fun a b => a + 8 ≤ b ∨ b + 8 ≤ a
/-- What word i of a round sends: half of its value with what arrived and what was added, rounded down; poisoned data sends nothing
(R248). -/
def halved (c : Chip) (r : Region) (i : Nat) : Word :=
  let half := (r.k + 1) % 2
  if c.passBad r i [half, 2] then 0
  else (rd64 c.hbm (r.word i) + rd64 c.hbm (r.shadow half i) + rd64 c.hbm (r.shadow 2 i)).sshiftRight 1
/-- Mass of a round is on its way to a neighbour (R249). -/
def MassSent (c d : Chip) (r : Region) (dest i : Nat) (words : List Word) : Prop :=
  ∃ w : Msg, w.body = .mass r.gid i words ∧ w.dest = ⟨dest, .spine⟩
    ∧ (dest = c.pkg → w ∈ d.net) ∧ (dest ≠ c.pkg → ⟨w, c.now⟩ ∈ d.out)
/-- A gossip instruction at its region, with its entry and the index of its word (R251). -/
def AtRegion (s : State) (n ctx j i : Nat) (r : Region) (m : Msg) (op : ObjOp) (x : Word) (e : Rights) (right : Nat) : Prop :=
  let c := s.chip
  c.arriving n = some m ∧ m.body = .object op x 0 ∧ c.waitersAt m.dest.home = [] ∧ c.hbm.wf = true
  ∧ (∃ st ch, m.dest.home = .hbm st ch) ∧ c.admitObject m 8 [] = .ok ctx ∧ c.regionOf m.addr = some (j, r, i)
  ∧ c.regions[j]? = some r ∧ c.regionEntry m ctx r i = some e ∧ e.rights &&& right ≠ 0
  ∧ (r.owner = ctx ∨ (r.st ≠ .broken ∧ c.brokenFor r.owner ctx = false)) ∧ c.wordBad op r m.addr i = false

end Sys2Proof.Claims

/-- R246, R247, R251: the gossip instructions at their region's home. -/
def Sys2Proof.Claims.GossipInstructions : Prop :=
  (∀ (s : State) (n ctx j i : Nat) (r : Region) (m : Msg) (x : Word) (e : Rights),
    (AtRegion s n ctx j i r m .gosadd x e 2 → let a := if r.st = .stopped then r.word i else r.shadow 2 i
      Ends s n m 0 false fun t => rd64 t.chip.hbm a = rd64 s.chip.hbm a + x)
    ∧ (AtRegion s n ctx j i r m .gosest x e 1 →
      let w := if r.st = .stopped then rd64 s.chip.hbm (r.word r.n) else if r.tag = r.k then r.wNow else r.wPrev
      let q := ((rd64 s.chip.hbm (r.word i)).toInt * 2 ^ r.ws).tdiv w.toInt
      (i = r.n → Ends s n m w true fun t => t.chip.hbm = s.chip.hbm)
      ∧ (i ≠ r.n → (0 : Word).slt w = false → Ends s n m 0 false fun t => t.chip.hbm = s.chip.hbm)
      ∧ (i ≠ r.n → (0 : Word).slt w = true → -2 ^ 63 ≤ q → q < 2 ^ 63 →
        Ends s n m (BitVec.ofInt 64 q) true fun t => t.chip.hbm = s.chip.hbm)
      ∧ (i ≠ r.n → (0 : Word).slt w = true → 2 ^ 63 ≤ q →
        Ends s n m (BitVec.ofNat 64 (2 ^ 63 - 1)) false fun t => t.chip.hbm = s.chip.hbm)
      ∧ (i ≠ r.n → (0 : Word).slt w = true → q < -2 ^ 63 →
        Ends s n m (BitVec.ofNat 64 (2 ^ 63)) false fun t => t.chip.hbm = s.chip.hbm))
    ∧ (AtRegion s n ctx j 0 r m .gosspr x e 1 →
      Ends s n m (r.spread.getD (BitVec.allOnes 64)) false fun t => t.chip.hbm = s.chip.hbm)
    ∧ (∀ img, AtRegion s n ctx j 0 r m (.gosset img) x e 64 → bits x 60 18 = 0 → bits x 17 0 = 0 →
      let status := (match r.st with | .stopped => 1 | .running => 2 | .draining => 3 | .broken => 4)
      (bits x 63 61 = 0 → Ends s n m (BitVec.ofNat 64 (status * 2 ^ 61 + r.ovf.toNat * 2 ^ 60 + r.k % 2 ^ 32)) false fun t =>
        t.chip.regions = s.chip.regions)
      ∧ (bits x 63 61 = 2 → r.st = .stopped → Ends s n m 0 false fun t =>
        t.chip.regions[j]? = some { r with st := .running, started := s.chip.now })
      ∧ (bits x 63 61 = 3 → r.st = .running → Ends s n m 0 false fun t => t.chip.regions[j]? = some { r with st := .draining })
      ∧ (bits x 63 61 = 4 → r.st = .stopped →
        (s.chip.massHeld r = false → Ends s n m 0 false fun t => t.chip.regions = s.chip.regions.eraseIdx j)
        ∧ (s.chip.massHeld r = true → Ends s n m 4 false fun t => t.chip.regions = s.chip.regions))
      ∧ ((bits x 63 61 = 2 ∨ bits x 63 61 = 4) ∧ r.st ≠ .stopped ∨ bits x 63 61 = 3 ∧ r.st ≠ .running →
        Ends s n m 1 false fun t => t.chip.regions = s.chip.regions)))
  ∧ (∀ (s : State) (n ctx : Nat) (m : Msg) (x : Word) (e : Rights) (b : List Byte) (q : Region), let c := s.chip
    c.arriving n = some m → m.body = .object (.gosset (some b)) x 0 → b ≠ [] → c.waitersAt m.dest.home = [] → c.hbm.wf = true →
    (∃ st ch, m.dest.home = .hbm st ch) → c.admitObject m 8 [] = .ok ctx → c.regionOf m.addr = none →
    c.entryFor m ctx = some e → e.bad = false → e.kind = 3 → e.rights &&& 64 ≠ 0 → c.brokenFor e.owner ctx = false →
    bits x 63 61 = 1 → bits x 60 18 = 0 → c.regionImage ctx e.owner e.base b = some q →
    let mine := (c.regions.filter fun r => r.owner == e.owner).length
    (16 ≤ mine → Ends s n m 2 false fun t => t.chip.regions = c.regions)
    ∧ (mine < 16 → (∃ r ∈ c.regions, r.gid = q.gid) → Ends s n m 3 false fun t => t.chip.regions = c.regions)
    ∧ (mine < 16 → (∀ r ∈ c.regions, r.gid ≠ q.gid) → Ends s n m 0 false fun t =>
      t.chip.regions = c.regions ++ [q] ∧ q.st = .stopped ∧ ∀ i, i ≤ q.n → rd64 t.chip.hbm (q.word i) = 0
        ∧ ∀ k, k < 3 → rd64 t.chip.hbm (q.shadow k i) = 0))

/-- R210, R247 to R249: a round, with what it folds, halves and sends, and the end of a drain, and mass as it is held, committed and
withdrawn. That a commit or withdrawal stays behind the mass that it names is the model's reading (log 52), a round is one step
(log 4), poisoned words are passed over (log 64), and a request that names an object of another package finds it by its place
(log 15). -/
def Sys2Proof.Claims.GossipSteps : Prop :=
  (∀ (s : State) (j : Nat) (r : Region), s.chip.regions[j]? = some r → r.sent = [] →
    (r.st = .running → r.started + r.period * 1250 ≤ s.chip.now → ∃ t q, exec (.gossipRound j) s = .next t
      ∧ t.chip.regions[j]? = some q ∧ q.k = r.k + 1 ∧ q.started = s.chip.now ∧ q.wPrev = r.wNow ∧ q.st = .running
      ∧ (s.chip.hbm.wf = true → Apart r →
        (∀ i, i ≤ r.n → s.chip.passBad r i [(r.k + 1) % 2, 2] = false →
          rd64 t.chip.hbm (r.word i) = rd64 s.chip.hbm (r.word i) + rd64 s.chip.hbm (r.shadow ((r.k + 1) % 2) i)
            + rd64 s.chip.hbm (r.shadow 2 i) - halved s.chip r i
          ∧ rd64 t.chip.hbm (r.shadow ((r.k + 1) % 2) i) = 0 ∧ rd64 t.chip.hbm (r.shadow 2 i) = 0
          ∧ rd64 t.chip.hbm (r.shadow (r.k % 2) i) = rd64 s.chip.hbm (r.shadow (r.k % 2) i))
        ∧ (∀ i, i ≤ r.n → s.chip.passBad r i [(r.k + 1) % 2, 2] = true →
          rd64 t.chip.hbm (r.word i) = rd64 s.chip.hbm (r.word i))
        ∧ (s.chip.passBad r r.n [(r.k + 1) % 2, 2] = false → q.wNow = rd64 t.chip.hbm (r.word r.n))
        ∧ ∀ i, i ≤ r.n / 32 → let words := ((List.range (r.n + 1)).map (halved s.chip r)).drop (32 * i) |>.take 32
          (∃ w ∈ words, w ≠ 0) → MassSent s.chip t.chip r (r.nbr.getD (r.k % r.nbr.length) 0) (32 * i) words))
    ∧ (r.st = .draining → ∃ t q, exec (.gossipDrainComplete j) s = .next t ∧ t.chip.regions[j]? = some q ∧ q.st = .stopped
      ∧ q.k = r.k ∧ (s.chip.hbm.wf = true → Apart r → ∀ i, i ≤ r.n → s.chip.passBad r i [0, 1, 2] = false →
        rd64 t.chip.hbm (r.word i) = rd64 s.chip.hbm (r.word i) + rd64 s.chip.hbm (r.shadow 0 i)
          + rd64 s.chip.hbm (r.shadow 1 i) + rd64 s.chip.hbm (r.shadow 2 i)
        ∧ ∀ k, k < 3 → rd64 t.chip.hbm (r.shadow k i) = 0)))
  ∧ (∀ (s : State) (n gid i : Nat) (m : Msg) (words : List Word), s.chip.net[n]? = some m → m.body = .mass gid i words →
    (∀ j r, s.chip.regionByGid gid = some (j, r) → r.st ≠ .broken → m.frank.pkg ∈ r.nbr → i + words.length ≤ r.n + 1 →
      s.chip.pending.length < 4096 → ∃ t, exec (.gossipMass n) s = .next t
        ∧ t.chip.pending = s.chip.pending ++ [⟨m.frank.pkg, m.frank.core, m.pmark, gid, i, words⟩]
        ∧ t.chip.net = s.chip.net.eraseIdx n)
    ∧ (s.chip.regionByGid gid = none → ∃ t, exec (.gossipMass n) s = .next t ∧ t.chip.pending = s.chip.pending
        ∧ ∃ r : Msg, r.body = .nack 3 ∧ r.id = m.id ∧ r.dest = ⟨m.frank.pkg, .spine⟩
          ∧ (r ∈ t.chip.net ∨ ⟨r, s.chip.now⟩ ∈ t.chip.out)))
  ∧ (∀ (s : State) (n pmark : Nat) (m : Msg) (p : Pending), s.chip.net[n]? = some m → s.chip.massBefore n m = false →
    s.chip.pendingMass m pmark = some p →
    (m.body = .withdrawal pmark → ∃ t, exec (.gossipWithdrawal n) s = .next t ∧ t.chip.pending = s.chip.pending.erase p
      ∧ t.chip.hbm = s.chip.hbm)
    ∧ (m.body = .commit pmark → ∀ j r, s.chip.regionByGid p.gid = some (j, r) →
      (r.st = .broken → ∃ t, exec (.gossipCommit n) s = .next t ∧ t.chip.pending = s.chip.pending.erase p
        ∧ t.chip.hbm = s.chip.hbm ∧ ∃ q : Msg, q.body = .nack 3 ∧ (q ∈ t.chip.net ∨ ⟨q, s.chip.now⟩ ∈ t.chip.out))
      ∧ (r.st ≠ .broken → s.chip.hbm.wf = true → Apart r → p.index + p.words.length ≤ r.n + 1 →
        ∃ t, exec (.gossipCommit n) s = .next t ∧ t.chip.pending = s.chip.pending.erase p
          ∧ ∀ i w, p.words[i]? = some w → let a := r.shadow ((r.k + 1) % 2) (p.index + i)
            rd64 t.chip.hbm a = rd64 s.chip.hbm a + w)))

/-- R210, R246 to R249, R251: gossip instructions at home, rounds, and mass held, committed and withdrawn. That a commit or
withdrawal stays behind the mass that it names is the model's reading (log 52), and a round is one step (log 4). -/
def Obligations.GossipSteps : Prop :=
  Sys2Proof.Claims.GossipInstructions ∧ Sys2Proof.Claims.GossipSteps

namespace Sys2Proof.Claims

/-- The element record at a place of this package's HBM, as a party of a mesh reads it now (R214). -/
def RecordAt (d : Chip) (w : Who) (sm : Mesh) (k i : Nat) (p : Phys) : Prop :=
  d.translateNow w.sig w.ctx w.sup (sm.recAddr k i) .r false = .ok p ∧ p.loc = 0 ∧ d.physShut p 32 = false ∧ d.physBad p 32 = false
/-- A field of it. -/
def recField (d : Chip) (p : Phys) (o n : Nat) : Nat := rdLe d.hbm (p.pa + o) n
/-- Whether a handle names a live element whose record is at a place (R217). -/
def LiveAt (d : Chip) (w : Who) (sm : Mesh) (h : Word) (p : Phys) : Prop :=
  sm.formed h = true ∧ RecordAt d w sm (handleKind h) (handleIndex h) p ∧ recField d p 10 1 % 2 = 1
  ∧ recField d p 8 2 = bits h 47 32
/-- Whether its claim keeps others off it (R232). -/
def HeldAt (d : Chip) (w : Who) (p : Phys) : Prop :=
  bits (rd64 d.hbm p.pa) 63 62 % 2 = 1 ∧ rd64 d.hbm p.pa ≠ BitVec.ofNat 64 (2 ^ 62 + w.me)
/-- A mesh instruction at its descriptor's home in HBM (R213, R388), where no other instruction waits. -/
def AtMesh (s : State) (n ctx : Nat) (m : Msg) (op : ObjOp) (x y : Word) (e : Rights) (sm : Mesh) : Prop :=
  let c := s.chip
  let d := c.taken n
  c.arriving n = some m ∧ m.body = .object op x y ∧ c.waitersAt m.dest.home = [] ∧ c.hbm.wf = true
  ∧ (∃ st ch, m.dest.home = .hbm st ch) ∧ c.admitObject m 256 [] = .ok ctx ∧ c.entryCheck m ctx 1 (meshRight op) = .ok e
  ∧ c.brokenFor e.owner ctx = false ∧ (whoOf m ctx e.base).mesh ⟨d, [], []⟩ = .ok sm ⟨d, [], []⟩ ∧ sm.bad = false
/-- The element that a field of a record names: the kind and the place of the index (R390). -/
def linkOf (f : MLink) (k : Nat) : Nat × Nat :=
  match f with
  | .link => (if k = 3 then 2 else 3, 12)
  | .next => (3, 16)
  | .twin => (3, 20)
  | .origin => (0, 24)
  | .edge => (1, 28)
  | .face => (2, 12)
/-- Memory is as it was. -/
def HbmKept (s t : State) : Prop := t.chip.hbm = s.chip.hbm

end Sys2Proof.Claims

/-- R225, R228 to R232, R389 to R394: the mesh instructions at the descriptor's home: reads of links and fields, stores of fields,
single claims, the start of an edit, and a round of a mesh that has no pending entry. -/
def Sys2Proof.Claims.MeshAtHome : Prop :=
  ∀ (s : State) (n ctx : Nat) (m : Msg) (x y : Word) (e : Rights) (sm : Mesh),
    let d := s.chip.taken n
    let w := whoOf m ctx e.base
    let made := fun (op : ObjOp) => AtMesh s n ctx m op x y e sm
    (∀ f, made (.mget f) → (f ≠ .link → handleKind x ≠ 3 → EndsAs s n m (.trap 8 0 x) (HbmKept s))
      ∧ (f = .link ∨ handleKind x = 3 → ∀ p, LiveAt d w sm x p →
        (HeldAt d w p → Ends s n m 0 false (HbmKept s))
        ∧ (¬HeldAt d w p →
          let k := (linkOf f (handleKind x)).1
          let i := recField d p (linkOf f (handleKind x)).2 4
          (sm.cap.getD k 0 ≤ i → Ends s n m (BitVec.allOnes 64) true (HbmKept s))
          ∧ (i < sm.cap.getD k 0 → ∀ q, RecordAt d w sm k i q →
            Ends s n m (BitVec.ofNat 64 (sm.mid * 2 ^ 52 + k * 2 ^ 50 + recField d q 8 2 * 2 ^ 32 + i)) true (HbmKept s)))))
    ∧ (∀ j f, sm.fields[j]? = some f → j < sm.nfld → f.v = true →
      (made (.mfld j) ∨ made (.mfst j) → f.kind ≠ handleKind x → EndsAs s n m (.trap 8 0 x) (HbmKept s))
      ∧ (f.kind = handleKind x → ∀ p, LiveAt d w sm x p →
        let va := BitVec.ofNat 64 (f.base + fieldBytes f.type * handleIndex x)
        (made (.mfld j) ∨ made (.mfst j) → HeldAt d w p → Ends s n m 0 false (HbmKept s))
        ∧ (made (.mfld j) → ¬HeldAt d w p → ∀ q, d.translateNow w.sig w.ctx w.sup va .r false = .ok q → q.loc = 0 →
          d.physShut q (fieldBytes f.type) = false → d.physBad q (fieldBytes f.type) = false →
          let v := BitVec.ofNat 64 (rdLe d.hbm q.pa (fieldBytes f.type))
          Ends s n m (if f.type = 2 then signExt v 4 else v) true (HbmKept s))
        ∧ (made (.mfst j) → ¬HeldAt d w p → ∀ q, d.translateNow w.sig w.ctx w.sup va .w false = .ok q → q.loc = 0 →
          d.physShut q 1 = false → Ends s n m 0 true fun t =>
            rdLe t.chip.hbm q.pa (fieldBytes f.type) = y.toNat % 2 ^ (8 * fieldBytes f.type))))
    ∧ (∀ j, sm.nfld ≤ j → made (.mfld j) ∨ made (.mfst j) → EndsAs s n m (.trap 0x0C 0 m.va) (HbmKept s))
    ∧ (made .mval → (sm.formed x = false → Ends s n m 0 false (HbmKept s))
      ∧ ∀ p, RecordAt d w sm (handleKind x) (handleIndex x) p → sm.formed x = true →
        Ends s n m 0 (decide (recField d p 10 1 % 2 = 1 ∧ recField d p 8 2 = bits x 47 32)) (HbmKept s))
    ∧ (∀ p q, LiveAt d w sm x p → d.translateNow w.sig w.ctx w.sup (sm.recAddr (handleKind x) (handleIndex x)) .w false = .ok q →
      q.pa = p.pa → q.loc = 0 → d.physShut q 1 = false →
      let mine := BitVec.ofNat 64 (2 ^ 62 + w.me)
      (made .mclaim → sm.rounded = true → EndsAs s n m (.trap 9 0 m.va) (HbmKept s))
      ∧ (made .mclaim → sm.rounded = false → d.claimMoved p = false →
        (bits (rd64 d.hbm p.pa) 63 62 ≠ 0 → Ends s n m 0 false (HbmKept s))
        ∧ (bits (rd64 d.hbm p.pa) 63 62 = 0 → d.abandoned m = false → Ends s n m 0 true fun t => rd64 t.chip.hbm p.pa = mine))
      ∧ (made .mrel → (sm.rounded = true ∨ rd64 d.hbm p.pa ≠ mine → Ends s n m 0 false (HbmKept s))
        ∧ (sm.rounded = false → rd64 d.hbm p.pa = mine → Ends s n m 0 true fun t => rd64 t.chip.hbm p.pa = 0)))
    ∧ (∀ k want cavity, made (.edit k want) → (handleKind x ≠ keyKind k → EndsAs s n m (.trap 8 0 x) (HbmKept s))
      ∧ (handleKind x = keyKind k → sm.rounded = false → ∀ p, LiveAt d w sm x p →
        sm.cavityHandles w k (handleIndex x) ⟨d, [], []⟩ = .ok cavity ⟨d, [], []⟩ →
        ∃ t, exec (.objectRequest n) s = .next t ∧ HbmKept s t ∧ t.chip.net = d.net ∧ t.chip.out = d.out
          ∧ t.chip.edits = d.edits ++ [⟨m, ctx, e.base, k, want, cavity, .claim 0, [], false⟩]))
    ∧ (made .mround → (sm.rounded = false → EndsAs s n m (.trap 9 0 m.va) (HbmKept s))
      ∧ (sm.rounded = true →
        ((∃ r ∈ d.edits, r.msg.dest = m.dest ∧ r.msg.addr = m.addr ∧ ∃ a b, r.phase = .place a b) →
          ∃ t, exec (.objectRequest n) s = .next t ∧ HbmKept s t ∧ t.chip.rounds = d.rounds ++ [(m, ctx)] ∧ t.chip.net = d.net)
        ∧ ((∀ r ∈ d.edits, ¬(r.msg.dest = m.dest ∧ r.msg.addr = m.addr)) →
          (∀ r ∈ d.rounds, ¬(r.1.dest = m.dest ∧ r.1.addr = m.addr)) →
          ∀ q, d.translateNow w.sig w.ctx w.sup (e.base + 80) .w false = .ok q → q.loc = 0 → d.physShut q 1 = false →
          Ends s n m 0 false fun t =>
            rdLe t.chip.hbm (q.pa + 2) 2 = 0 ∧ rdLe t.chip.hbm (q.pa + 4) 4 = (sm.round + 1) % 2 ^ 32)))

namespace Sys2Proof.Claims

/-- The element h of an edit's mesh lies at p in this package's HBM, where the edit's party may read and write it now. -/
def ElementAt (c : Chip) (r : EditRun) (h : Word) (p : Phys) : Prop :=
  let w := whoOf r.msg r.ctx r.base
  ∃ sm q, w.mesh ⟨c, [], []⟩ = .ok sm ⟨c, [], []⟩
    ∧ c.translateNow w.sig w.ctx w.sup (sm.recAddr (handleKind h) (handleIndex h)) .w false = .ok p
    ∧ c.translateNow w.sig w.ctx w.sup (sm.recAddr (handleKind h) (handleIndex h)) .r false = .ok q
    ∧ p.loc = 0 ∧ q.loc = 0 ∧ q.pa = p.pa ∧ c.physShut q 32 = false ∧ c.claimMoved p = false ∧ c.physBad q 32 = false
/-- An edit gives up: it gives back what it holds, and then answers. -/
def GivesUp (c d : Chip) (r : EditRun) (a : ObjAns) : Prop :=
  (r.held ≠ [] → { r with phase := .release r.held.length a } ∈ d.edits)
  ∧ (r.held = [] → Answered c d r.msg (.objReply a))

end Sys2Proof.Claims

/-- R221, R222, R225 to R228: an immediate edit takes its claims one by one, gives up at one that is held, and gives back what it
holds; one whose thread is gone gives up at its next claim. A rounded edit leaves the claim of the greater key on each element,
contests an equal one, and answers with its entry behind the last. -/
def Sys2Proof.Claims.MeshClaimSteps : Prop :=
  ∀ (s : State) (e i : Nat) (r : EditRun) (h : Word), s.chip.edits[e]? = some r → s.chip.hbm.wf = true →
    (r.phase = .claim i → r.cavity[i]? = some h → r.dead = false → ∀ p, ElementAt s.chip r h p →
      (i + 1 < r.cavity.length → bits (rd64 s.chip.hbm p.pa) 63 62 = 0 →
        ∃ t, exec (.meshClaim e) s = .next t
          ∧ { r with phase := .claim (i + 1), held := (p.leaf, p.size, p.pa) :: r.held } ∈ t.chip.edits
          ∧ rd64 t.chip.hbm p.pa
              = BitVec.ofNat 64 (2 ^ 62 + r.msg.frank.pkg * 2 ^ 22 + r.msg.frank.core * 2 ^ 7 + r.msg.frank.frame))
      ∧ (bits (rd64 s.chip.hbm p.pa) 63 62 ≠ 0 → r.expect ≠ some true →
        ∃ t, exec (.meshClaim e) s = .next t ∧ t.chip.hbm = s.chip.hbm ∧ GivesUp s.chip t.chip r (.ok 0 false)))
    ∧ (r.phase = .claim i → r.dead = true →
        ∃ t, exec (.meshClaim e) s = .next t ∧ t.chip.hbm = s.chip.hbm ∧ GivesUp s.chip t.chip r (.ok 0 false))
    ∧ (∀ n a leaf size pa rest, r.phase = .release n a → r.held = (leaf, size, pa) :: rest → bits leaf 11 10 = 0 →
      ∃ t, exec (.meshClaim e) s = .next t ∧ rd64 t.chip.hbm pa = 0 ∧ GivesUp s.chip t.chip { r with held := rest } a)
    ∧ (∀ entry, r.phase = .place entry i → r.cavity[i]? = some h → entry < 2 ^ 16 → ∀ p, ElementAt s.chip r h p →
      let old := rd64 s.chip.hbm p.pa
      let idx := handleIndex (editArgs r.msg).1
      let code := match r.edit with | .split => 0 | .collapse => 1 | .flip => 2 | .refine => 3
      let key := prioOf idx * 4 + code
      let stored := bits old 31 0 * 4 + bits old 61 60
      let placed := fun (t : State) =>
        (bits old 63 62 = 0 ∨ stored < key →
          rd64 t.chip.hbm p.pa = BitVec.ofNat 64 (2 ^ 63 + code * 2 ^ 60 + entry * 2 ^ 34 + prioOf idx))
        ∧ (bits old 63 62 ≠ 0 → stored = key → bits (rd64 t.chip.hbm p.pa) 49 34 = 0xFFFF)
        ∧ (bits old 63 62 ≠ 0 → key < stored → rd64 t.chip.hbm p.pa = old)
      (i + 1 < r.cavity.length → ∃ t, exec (.meshClaim e) s = .next t ∧ placed t
        ∧ { r with phase := .place entry (i + 1) } ∈ t.chip.edits)
      ∧ (i + 1 = r.cavity.length → s.chip.rounds = [] → ∃ t, exec (.meshClaim e) s = .next t ∧ placed t
        ∧ { r with phase := .pending entry } ∈ t.chip.edits
        ∧ Answered s.chip t.chip r.msg (.objReply (.ok (BitVec.ofNat 64 entry) true))))

/-- R221, R222, R225 to R232, R389 to R394: mesh instructions at home, and the claims of edits. -/
def Obligations.MeshClaimSteps : Prop :=
  Sys2Proof.Claims.MeshAtHome ∧ Sys2Proof.Claims.MeshClaimSteps

/-! ## Rights -/

namespace Sys2Proof.Claims

/-- A context in which a request may act with a right: its franking's in its own package, and off it that of an export entry that
covers its bytes, admits its franking and grants the right (R211). -/
def ActsIn (c : Chip) (m : Msg) (n right ctx : Nat) : Prop :=
  if m.frank.pkg = c.pkg then ctx = m.frank.ctx
  else ∃ i, i < 256 ∧
    let head := rd64 c.exports (32 * i)
    let lo := (rd64 c.exports (32 * i + 8)).toNat
    let hi := (rd64 c.exports (32 * i + 16)).toNat
    tst head 7 = true ∧ tst head (8 + right) = true ∧ (tst head 31 = true ∨ bits head 27 16 = m.frank.pkg)
    ∧ (tst head 47 = true ∨ bits head 41 32 = m.frank.ctx) ∧ ctx = bits head 57 48
    ∧ match m.dest.home with
      | .hbm _ _ => tst head 0 = false ∧ lo ≤ m.addr ∧ m.addr + n ≤ hi + 1
      | .core k => tst head 0 = true ∧ lo ≤ k ∧ k ≤ hi
      | _ => False
/-- A window of a core gives a context a right, by its bit, over every byte of a message (R58, R60); a supervisor's message passes,
but reaches data alone (R19). -/
def WindowGives (c : Chip) (m : Msg) (k bit ctx : Nat) : Prop :=
  (∀ x ∈ spans m, x.1 + x.2 ≤ Config.dataEnd)
  ∧ (m.frank.sup = true ∨ ∃ w ∈ (c.coreAt k).windowsAt c.now, tst w 63 = true ∧ tst w bit = true
      ∧ (tst w 47 = true ∨ bits w 57 48 = ctx) ∧ c.switchOf m.frank k ≤ bits w 46 44
      ∧ ∀ x ∈ spans m, bits w 11 0 * 64 ≤ x.1 ∧ x.1 + x.2 ≤ bits w 27 16 * 64 + 64)
/-- A request may act at its home (R60, R181, R211). -/
def MayAct (c : Chip) (m : Msg) (n bit right : Nat) : Prop :=
  ∃ ctx, ActsIn c m n right ctx ∧ match m.dest.home with
    | .core k => WindowGives c m k bit ctx
    | .hbm _ _ => True
    | .host => m.frank.pkg = c.pkg
    | .spine => False
/-- An arrival is refused: no memory changes (R25, R369). -/
def RefusedAt (s : State) (i : Instr) (m : Msg) : Prop :=
  ∃ t st, exec i s = .next t ∧ Answered s.chip t.chip m (.nack st) ∧ SameMemory s.chip t.chip

/-- The kind of object that an instruction acts on, and the rights of its entry (R88, R89). -/
def objectNeeds (op : ObjOp) : Option (Nat × Nat) :=
  match op with
  | .mget _ | .mfld _ | .mval => some (1, 1)
  | .mfst _ => some (1, 2)
  | .mclaim | .mrel | .edit .. | .mround => some (1, 8)
  | .verpub | .verpubO | .verpubFin | .verstop => some (2, 2)
  | .verwait => some (2, 4)
  | .verchk | .verchkD => some (2, 5)
  | .bar | .barv => some (4, 2)
  | .bwait => some (4, 1)
  | .chsend => some (5, 16)
  | .chrecv => some (5, 1)
  | _ => none
/-- An entry names the object of a request, with its kind and every right needed. -/
def EntryGives (c : Chip) (m : Msg) (ctx kind right : Nat) (e : Rights) : Prop :=
  e ∈ c.rightsOf ctx ∧ e.bad = false ∧ e.kind = kind ∧ e.rights &&& right = right
  ∧ if m.frank.pkg = c.pkg then e.base = m.va
    else ∃ p, c.placeIn ctx e.base = some p ∧ p.loc = 0 ∧ p.pa = m.addr
/-- A plain access may leave the core (R53, R182): an address of the virtual space, in the supervisor half only for a supervisor, in a
page whose cached leaf lets the frame read it, and write it for a store, and which is no object area. -/
def LeafGives (c : Chip) (va : Word) (store : Bool) : Prop :=
  bits va 63 57 = 0 ∧ (tst va 56 = true → c.me.sup = true)
  ∧ ∃ leaf size, c.cached (sigOf c.core) c.me.ctx va.toNat = some (leaf, size) ∧ tst leaf 3 = true
    ∧ (store = true → tst leaf 4 = true) ∧ bits leaf 11 10 ≠ 3
/-- The frame has asked for something new. -/
def AsksNew (s t : State) : Prop :=
  ∃ id r, tfind (t.chip.coreAt s.chip.core).reqs id = some r ∧ tfind (s.chip.coreAt s.chip.core).reqs id = none

end Sys2Proof.Claims

/-- R25, R53, R58 to R60, R88, R89, R182, R211: nothing is performed without a right. A request that no export entry or no window
admits is refused and changes no memory; an object instruction without an entry of the object's kind and right is answered 0x07 or
refused, and changes no memory; a plain access leaves its core only through a leaf that grants it. That an object of another package
is named by its physical place is the model's reading (log 15). -/
def Obligations.RightsAreRequired : Prop :=
  (∀ (s : State) (n : Nat) (m : Msg), s.chip.arriving n = some m →
    (∀ d ctr, m.body = .put d ctr → ¬MayAct s.chip m d.length 61 1 → RefusedAt s (.putArrival n) m)
    ∧ (∀ d, m.body = .piece d → ¬MayAct s.chip m d.length 61 1 → RefusedAt s (.putArrival n) m)
    ∧ (∀ k, m.body = .get k → ¬MayAct s.chip m k 62 0 → RefusedAt s (.getArrival n) m)
    ∧ (∀ k, m.body = .reserve k → ¬MayAct s.chip m k 59 2 → RefusedAt s (.reserveArrival n) m)
    ∧ (∀ k v e, m.body = .condStore k v e → ¬MayAct s.chip m k 59 2 → RefusedAt s (.conditionalStoreArrival n) m)
    ∧ (∀ k v, m.body = .reduce k v → ¬MayAct s.chip m 8 60 2 → RefusedAt s (.reduceArrival n) m)
    ∧ (∀ core h a d, m.dest.home = .core core → m.body = .active h a d → m.lctx = none →
        ¬MayAct s.chip m (spans m).length 58 4 → RefusedAt s (.activeArrival n) m))
  ∧ (∀ (s : State) (n kind right : Nat) (m : Msg) (op : ObjOp) (x y : Word), s.chip.arriving n = some m →
    m.body = .object op x y → objectNeeds op = some (kind, right) → (∃ st ch, m.dest.home = .hbm st ch) →
    (∀ h, s.chip.waitersAt h = []) →
    (∀ ctx e, ActsIn s.chip m (if kind = 1 then 256 else 64) 3 ctx → ¬EntryGives s.chip m ctx kind right e) →
    ∃ t, exec (.objectRequest n) s = .next t ∧ t.chip.hbm = s.chip.hbm
      ∧ (Answered s.chip t.chip m (.objReply (.trap 7 0 m.va)) ∨ ∃ st, Answered s.chip t.chip m (.nack st)))
  ∧ (∀ (s t : State) (g : Guard) (z : Size) (d a : Reg) (q : Option Scope) (off : BitVec 6),
    let n := sizeBytes z
    (s.chip.usable [a] [d] = true → exec (.gld g z d a q off) s = .next t → AsksNew s t →
      LeafGives s.chip (s.chip.val a + BitVec.ofNat 64 (off.toNat * n)) false)
    ∧ (s.chip.usable [d, a] [] = true → exec (.gst g z d a q off) s = .next t → AsksNew s t →
      LeafGives s.chip ((s.chip.popped d).val a + BitVec.ofNat 64 (off.toNat * n)) true))

/-! ## Pre-emption -/

namespace Sys2Proof.Claims

/-- The asker of a request, if it is a frame, has its status in `pstat` and goes on (R163). -/
def Reported (c d : Chip) (q : Asker) (status : Nat) : Prop :=
  ∀ core f, q = .frame core f → (d.coreAt core).pstat = BitVec.ofNat 64 status ∧ (d.frameAt core f).st = .ready
    ∧ (d.frameAt core f).pc = (c.frameAt core f).npc

/-- A request op for frame f of a core stands: of the command processor, or of a frame that waits for it (R163). -/
def AsksFor (c : Chip) (q : Asker) (op core f : Nat) : Prop :=
  f < 96 ∧ core < Config.cores ∧ ∀ a g, q = .frame a g → (c.frameAt a g).st = .stalled (.request op core f)

end Sys2Proof.Claims

/-- R163, R164, R167: what each pre-emption request does to its frame and what it reports. That a pre-emption of a parked frame
leaves it and reports 0, and that one of a frame already asked waits, is the model's reading (log 29). -/
def Sys2Proof.Claims.PreemptionRequests : Prop :=
  ∀ (s : State) (q : Asker) (core f : Nat), let c := s.chip
    let fr := c.frameAt core f
    (AsksFor c q 1 core f → (∀ a g, q = .frame a g → ¬ (a = core ∧ g = f)) →
      (fr.st = .free → ∃ t, exec (.preqPreempt q core f) s = .next t ∧ Reported c t.chip q 1)
      ∧ (fr.sup = true → fr.st ≠ .free → ∃ t, exec (.preqPreempt q core f) s = .next t ∧ Reported c t.chip q 3)
      ∧ (fr.st = .parked → fr.sup = false → ∃ t, exec (.preqPreempt q core f) s = .next t ∧ Reported c t.chip q 0)
      ∧ (fr.st ≠ .free → fr.st ≠ .parked → fr.sup = false → fr.preempt = none →
          ∃ t, exec (.preqPreempt q core f) s = .next t ∧ (t.chip.frameAt core f).preempt = some q
            ∧ (t.chip.frameAt core f).st = fr.st))
    ∧ (AsksFor c q 2 core f → fr.st = .parked →
      ∃ t, exec (.preqResumeReissue q core f) s = .next t ∧ (t.chip.frameAt core f).st = .ready
        ∧ (t.chip.frameAt core f).pc = fr.pc ∧ (t.chip.frameAt core f).g = fr.g ∧ Reported c t.chip q 0)
    ∧ (AsksFor c q 3 core f → fr.st = .parked → ∀ i, (c.wordAt core f).bind decode = some i →
      let src := (skipFields i).1
      let dst := (skipFields i).2
      let k := c.coreAt core
      let skips := fun (is : State → Prop) => ∃ t, exec (.preqResumeSkip q core f) s = .next t ∧ Reported c t.chip q 0 ∧ is t
      ((∀ g d x a b, i ≠ .join g d x a b) → (∀ g k d a b x, i ≠ .wtab g k d a b x) →
        (∀ d, src.count (.link d) ≤ c.poppable core d) → (∀ d, dst = some (.link d) → 1 ≤ c.pushRoom core d) →
        skips fun t => (t.chip.frameAt core f).st = .ready ∧ (t.chip.frameAt core f).pc = fr.npc
          ∧ (∀ n, dst = some (.g n) → (t.chip.frameAt core f).g = fr.g.set n.toFin (c.paddrOf q))
          ∧ ((∀ n, dst ≠ some (.g n)) → (t.chip.frameAt core f).g = fr.g)
          ∧ (∀ d, (t.chip.coreAt core).links[dirIx d] = k.links[dirIx d].drop (src.count (.link d)))
          ∧ (∀ d, dst = some (.link d) → (t.chip.coreAt (neighbour core d)).links[dirIx (opposite d)]
              = (c.coreAt (neighbour core d)).links[dirIx (opposite d)] ++ [(c.paddrOf q, c.now)]))
      ∧ (∀ g p a b r, i = .join g p a b (.g r) → a.isLink = false → b.isLink = false → k.pad.wf = true →
        let o := fr.g[r.toFin].toNat
        skips fun t => (∃ w, (t.chip.frameAt core f).st = .retiring true w) ∧ (t.chip.frameAt core f).g = fr.g
          ∧ rd64 (t.chip.coreAt core).pad (o + 16) = fr.tjoin ∧ rd64 (t.chip.coreAt core).pad (o + 24) = fr.tname)
      ∧ (∀ g p n a b r, i = .wtab g p (.g n) a b (.g r) → a.isLink = false → b.isLink = false → k.pad.wf = true →
        let o := fr.g[r.toFin].toNat
        rd64 k.pad (o + 16) = 0 → k.padBad (o + 16) 8 = false →
        { c with core := core, frame := f }.inTurn (o + 16) 8 = true →
        skips fun t => (t.chip.frameAt core f).st = .ready ∧ (t.chip.frameAt core f).pc = fr.npc
          ∧ (t.chip.frameAt core f).g = fr.g.set n.toFin (c.paddrOf q)
          ∧ (t.chip.frameAt core f).tname = putBits fr.tname 45 30 (bits fr.tname 45 30 + 1)
          ∧ rd64 (t.chip.coreAt core).pad (o + 16) = 0
          ∧ rd64 (t.chip.coreAt core).pad (o + 24)
              = BitVec.ofNat 64 (fr.pri * 2 ^ 62 + mixName (bits fr.tname 29 0) (bits fr.tname 45 30))))
    ∧ (AsksFor c q 4 core f → fr.st = .parked →
      ∃ t, exec (.preqDiscard q core f) s = .next t ∧ (t.chip.frameAt core f).st = .free
        ∧ (fr.preempt = none → Reported c t.chip q 0)
        ∧ (∀ l x o, fr.launch = some l → tfind c.launches l = some x → x.objects = [o] → o.place.pkg = c.pkg → o.parked = none →
            fr.claims = [] → c.waitersAt o.place.home = [] → HomeWf c o.place.home →
            c.inLset o.place.home o.addr (BitVec.ofNat 64 (c.pkg * 2 ^ 52 + l)) = true →
            t.chip.headerBroken o.place.home o.addr = true
            ∧ (bits (c.read64 o.place.home (o.addr + 16)) 11 8 = 4 →
                t.chip.read64 o.place.home o.addr = BitVec.ofNat 64 (2 ^ 63 - 1))))
    ∧ (∀ n, n ∈ [2, 3, 4] → AsksFor c q n core f → fr.st ≠ .parked →
      ∀ i, (n = 2 ∧ i = Instr.preqResumeReissue q core f) ∨ (n = 3 ∧ i = Instr.preqResumeSkip q core f)
        ∨ (n = 4 ∧ i = Instr.preqDiscard q core f) →
      ∃ t, exec i s = .next t ∧ Reported c t.chip q 2 ∧ (q ≠ .frame core f → t.chip.frameAt core f = fr))

/-- R161 to R165, R405: a frame parks at a boundary; what it owns is saved to `paddr` as R162 lays it out, and ownership ends; a bad
`paddr` is reported and nothing is saved. -/
def Sys2Proof.Claims.FramesPark : Prop :=
  ∀ (s : State) (core f : Nat) (q : Asker), let c := s.chip
    let fr := c.frameAt core f
    let k := c.coreAt core
    let a := (c.paddrOf q).toNat
    fr.preempt = some q → c.atBoundary core f = true → q ≠ .frame core f →
    ∃ t, exec (.framePark core f) s = .next t
      ∧ (t.chip.frameAt core f).st = .parked ∧ (t.chip.frameAt core f).preempt = none
      ∧ (t.chip.frameAt core f).pc = (match fr.st with | .stalled (.sleep _) => fr.npc | _ => fr.pc)
      ∧ (k.vec.owner ≠ some f → k.mowner ≠ some f →
          (t.chip.frameAt core f).g = fr.g ∧ t.chip.hbm = c.hbm ∧ Reported c t.chip q 0)
      ∧ (k.vec.owner = some f ∨ k.mowner = some f → c.saveFaults a = true → t.chip.hbm = c.hbm ∧ Reported c t.chip q 4
          ∧ (t.chip.coreAt core).vec = k.vec ∧ (t.chip.coreAt core).mowner = k.mowner
          ∧ (t.chip.frameAt core f).esave = fr.esave)
      ∧ (k.vec.owner = some f ∨ k.mowner = some f → c.saveFaults a = false → Reported c t.chip q 0
          ∧ (t.chip.frameAt core f).esave = BitVec.ofNat 64 a ∧ (t.chip.coreAt core).vec.owner ≠ some f
          ∧ (t.chip.coreAt core).mowner ≠ some f)
      ∧ (k.vec.owner = some f → c.saveFaults a = false → c.hbm.wf = true → let m := t.chip.hbm
          (∀ i : Fin 32, rdLe m (a + 64 * i.val) 64 = ((t.chip.coreAt core).vec.v[i]).toNat)
          ∧ (∀ i : Fin 8, rd64 m (a + 0x800 + 8 * i.val) = (t.chip.coreAt core).vec.k[i])
          ∧ (k.vec.writes = [] → (t.chip.coreAt core).vec.v = k.vec.v ∧ (t.chip.coreAt core).vec.k = k.vec.k)
          ∧ (∀ i, i < 16 → rdLe m (a + 0x840 + 4 * i) 4 = (k.vec.words.getD i 0).toNat)
          ∧ (if k.vec.running = true ∨ 0 < k.vec.capturing then
              rdLe m (a + 0x880) 8
                = (k.vec.count + k.vec.position * 2 ^ 8 + k.vec.stride * 2 ^ 16 + k.vec.remaining * 2 ^ 32) % 2 ^ 64
              ∧ rdLe m (a + 0x888) 8 = k.vec.iteration % 2 ^ 64
            else rdLe m (a + 0x880) 16 = 0)
          ∧ rdLe m (a + 0x890) 48 = 0)
      ∧ (k.mowner = some f → c.saveFaults a = false → c.hbm.wf = true →
          (∀ i, i < 1024 → rdLe t.chip.hbm (a + 0x8C0 + 4 * i) 4 = (tget 0 k.acc i).toNat)
          ∧ rdLe t.chip.hbm (a + 0x18C0) 64 = 0)

/-- R161 to R165, R167, R405: pre-emption requests, and frames that park. That `paddr` is read when it is used is the model's
reading (log 45), that the repetition part of an idle buffer is zero its choice (log 14), and what a pre-emption of a parked
or already asked frame does follows log 29. -/
def Obligations.Preemption : Prop :=
  Sys2Proof.Claims.PreemptionRequests ∧ Sys2Proof.Claims.FramesPark

/-! ## Records of the host queues -/

namespace Sys2Proof.Claims

/-- Record r is the next that the command processor takes, from queue q, and its header passes (R98, R100). -/
def Takes (c : Chip) (q : Nat) (r : List Byte) : Prop :=
  c.nextQueue = some q ∧ (c.queueAt q).st = .running ∧ c.headRecord q = r ∧ c.headerCode q r = none ∧ c.host.wf = true
/-- The completion of the record at the head of queue q is written, with its kind and tag (R99). -/
def Answers (c d : Chip) (q code : Nat) (r : List Byte) : Prop :=
  let a := (c.queueAt q).cpl.toNat + 32 * (c.queueAt q).head
  rdLe d.host a 2 = code ∧ rdLe d.host (a + 2) 1 = field r 0 1 ∧ rdLe d.host (a + 3) 1 = 1 ∧ rdLe d.host (a + 4) 4 = field r 4 4
/-- A record is acted on and completes (R98, R99); and what then holds. -/
def Acted (s : State) (i : Instr) (q : Nat) (r : List Byte) (is : State → Prop) : Prop :=
  ∃ t, exec i s = .next t ∧ Answers s.chip t.chip q 0 r
    ∧ (t.chip.queueAt q).head = ((s.chip.queueAt q).head + 1) % 2 ^ (s.chip.queueAt q).lsize ∧ is t
/-- The leaf entry of a page, at the level of its size, stands at a in a context's tables (R180). -/
def EntryAt (c : Chip) (ctx va size a : Nat) : Prop := entryAddr c.hbm va size 4 (c.ctxAt ctx).ptroot.toNat = some a

end Sys2Proof.Claims

/-- R82 to R87, R156: the records that create, activate, close and kill a context, and the steps that end one. When a kill is
complete and when a number is free again follow log 43, and context 0 is left out (log 33). -/
def Obligations.ContextLifecycle : Prop :=
  (∀ (s : State) (q x : Nat) (r : List Byte), Takes s.chip q r → targetCtx r = some x →
    (isKind 2 r = true → (s.chip.ctxAt x).st = .free → zeroBytes r 80 176 = true → ∀ d, descriptor r = some d →
      Acted s (.create q) q r fun t => t.chip.ctxAt x = d ∧ d.st = .building ∧ d.ptroot = BitVec.ofNat 64 (field r 16 8)
        ∧ d.tvbase = BitVec.ofNat 64 (field r 24 8) ∧ d.rtbase = BitVec.ofNat 64 (field r 32 8))
    ∧ (isKind 3 r = true → (s.chip.ctxAt x).st = .building →
      Acted s (.activate q) q r fun t => t.chip.ctxAt x = { s.chip.ctxAt x with st := .live })
    ∧ (isKind 4 r = true → (s.chip.ctxAt x).st = .live →
      Acted s (.close q) q r fun t => t.chip.ctxAt x = { s.chip.ctxAt x with st := .draining })
    ∧ (isKind 5 r = true → (s.chip.ctxAt x).st = .live ∨ (s.chip.ctxAt x).st = .draining → q / 16 ≠ x →
      Acted s (.kill q) q r fun t => (t.chip.ctxAt x).st = .killing))
  ∧ (∀ (s : State) (core f : Nat), s.chip.job = none → (s.chip.reports.find? fun r => r.key == some (core, f)) = some (.fatal core f) →
    let fr := s.chip.frameAt core f
    (fr.fatal = true → fr.ctx ≠ 0 → (s.chip.ctxAt fr.ctx).st = .live → ∃ t, exec (.fatalTrapReport core f) s = .next t
      ∧ (t.chip.ctxAt fr.ctx).st = .killing)
    ∧ (fr.fatal = false → exec (.fatalTrapReport core f) s = .next (s.withChip
        { s.chip with reports := s.chip.reports.erase (.fatal core f) })))
  ∧ (∀ (s : State) (x : Nat), let c := s.chip
    (c.job = none → (c.ctxAt x).st = .draining → c.framesOf x = [] → c.commandsIn x = false → c.tasksIn x = false → c.trafficOf x = false →
      (∀ p ∈ c.launches, p.2.ctx ≠ x) → ∃ t, exec (.contextDrained x) s = .next t ∧ (t.chip.ctxAt x).st = .closing)
    ∧ (c.job = none → (c.ctxAt x).st = .killing → c.framesOf x = [] → c.commandsIn x = false → c.tasksIn x = false → c.recordsIn x = false →
      (∀ p ∈ c.launches, p.2.ctx ≠ x) → ∃ t, exec (.killComplete x) s = .next t ∧ (t.chip.ctxAt x).st = .closing)
    ∧ (c.job = none → (c.ctxAt x).st = .closing → c.trafficOf x = false → c.waitsFor x = false →
      (∀ y ∈ c.ownedAreas x, c.openThrough c.nextReq y.holder y.base.toNat y.len = false) →
      (c.ctxs.map Prod.fst).Pairwise (· < ·) →
      ∃ t, exec (.contextCleanup x) s = .next t ∧ t.chip.ctxAt x = Ctx.reset
        ∧ ∀ k, ∀ p ∈ (t.chip.coreAt k).tags, p.2.ctx ≠ x))

/-- R94 to R101: a record of no kind is rejected, and the queue's registers act as their writes say. The kind and tag of a
record that could not be read follow log 40. The kind and tag of a record that could not be read follow log 40, a write of
cqcfg with several bits in error log 83, and a doorbell beyond the queue log 76. -/
def Obligations.QueueRegistersAndRejections : Prop :=
  (∀ (s : State) (q : Nat) (r : List Byte), Takes s.chip q r → field r 0 1 = 0 ∨ 0x0B ≤ field r 0 1 →
    let code := if r = [] then 9 else 1
    ∃ t, exec (.malformedRecord q) s = .next t ∧ Answers s.chip t.chip q code r ∧ (t.chip.queueAt q).st = .error
      ∧ (t.chip.queueAt q).err = BitVec.ofNat 64 ((s.chip.queueAt q).head * 2 ^ 32 + code))
  ∧ (∀ (s : State) (q : Nat) (v : Word), s.chip.hasQueue q = true →
    let x := s.chip.queueAt q
    let tail := v.toNat % 2 ^ 16
    (x.st = .disabled → tst v 0 = true → 4 ≤ bits v 12 8 → bits v 12 8 ≤ 16 → x.base.toNat % 4096 = 0 → x.cpl.toNat % 4096 = 0 →
      ∃ t, exec (.queueEnable q v) s = .next t
        ∧ t.chip.queueAt q = { x with st := .running, lsize := bits v 12 8, head := 0, tail := 0, err := 0 })
    ∧ (x.st = .disabled → tst v 0 = true →
        bits v 12 8 < 4 ∨ 16 < bits v 12 8 ∨ x.base.toNat % 4096 ≠ 0 ∨ x.cpl.toNat % 4096 ≠ 0 →
      ∃ t, exec (.queueEnable q v) s = .next t ∧ t.chip = s.chip)
    ∧ (x.st = .disabled ∨ x.st = .stopped → ∃ t, exec (.queueDoorbell q v) s = .next t ∧ t.chip = s.chip)
    ∧ (x.st = .running ∨ x.st = .error → tst v 0 = false →
      ∃ t, exec (.queueDisable q v) s = .next t ∧ t.chip.queueAt q = { x with st := .disabled, err := 0 })
    ∧ (x.st = .running → tail < 2 ^ x.lsize →
      ∃ t, exec (.queueDoorbell q v) s = .next t ∧ t.chip.queueAt q = { x with tail := tail })
    ∧ (x.st = .running → 2 ^ x.lsize ≤ tail → ∃ t, exec (.queueDoorbell q v) s = .next t
        ∧ (t.chip.queueAt q).st = .error ∧ (t.chip.queueAt q).err = BitVec.ofNat 64 (x.head * 2 ^ 32 + 0x0B))
    ∧ (x.st = .error → ∃ t, exec (.queueDoorbell q v) s = .next t ∧ t.chip.queueAt q = { x with tail := tail })
    ∧ (x.st = .error → tst v 0 = true → tst v 2 = true →
      ∃ t, exec (.queueResume q v) s = .next t ∧ t.chip.queueAt q = { x with st := .running, err := 0 })
    ∧ (x.st = .error → tst v 0 = true → tst v 3 = true → x.head < 2 ^ x.lsize → x.tail < 2 ^ x.lsize →
      ∃ t, exec (.queueFlush q v) s = .next t ∧ t.chip.queueAt q = { x with st := .running, head := x.tail, err := 0 }
        ∧ (s.chip.host.wf = true → ∀ j, j < (x.tail + 2 ^ x.lsize - x.head) % 2 ^ x.lsize →
          let a := x.cpl.toNat + 32 * ((x.head + j) % 2 ^ x.lsize)
          rdLe t.chip.host a 2 = 0x0A ∧ rdLe t.chip.host (a + 3) 1 = 1)))

/-- R88 to R92, R108: grant, accept, revoke and the creation of a holding queue. That a holding queue takes the lowest free
number is the model's reading (log 57), and so are the leaf rights of an accepted page (log 72). -/
def Obligations.RightsRecords : Prop :=
  (∀ (s : State) (q : Nat) (r : List Byte), Takes s.chip q r → let c := s.chip
    let ctx := q / 16
    let base : Word := BitVec.ofNat 64 (field r 8 8)
    base.toNat % 64 = 0 → field r 8 8 < 2 ^ 57 →
    (isKind 7 r = true → ∀ e, c.entryAtBase ctx base = some e → e.bad = false → e.rights / 128 % 2 = 1 →
      field r 18 1 &&& e.rights = field r 18 1 → c.grants.length < 256 → 1 ≤ field r 16 2 → field r 16 2 ≤ 1023 →
      field r 16 2 ≠ ctx → field r 20 4 % 64 = 0 → 64 ≤ field r 20 4 → zeroBytes r 19 1 = true → zeroBytes r 24 232 = true →
      Acted s (.grant q) q r fun t =>
        t.chip.grants = c.grants ++ [⟨ctx, field r 16 2, base, field r 18 1, field r 20 4, e.kind, e.owner, c.ownersBase ctx e⟩])
    ∧ (isKind 8 r = true → field r 24 8 % 4096 = 0 → field r 32 4 % 4096 = 0 → zeroBytes r 18 6 = true →
      zeroBytes r 36 220 = true →
      ∀ g pg i a, (c.grants.find? fun g => g.giver == field r 16 2 && g.taker == ctx) = some g →
      base.toNat % 65536 = g.base.toNat % 65536 → 0 < g.len → g.base.toNat % 65536 + g.len ≤ 65536 →
      c.givenPage g 0 = some pg → c.hbm.wf = true → let lo := base.toNat / 65536 * 65536
      let w := (c.ctxAt ctx).rtbase.toNat + 16 * i
      let fresh := c.walk ctx lo = none ∧ EntryAt c ctx lo 0 a ∧ tst (rd64 c.hbm a) 0 = false
      fresh ∨ c.pageClash ctx lo pg = some false →
      (∀ old, (c.entryAtBase ctx base = none ∧ c.entryRoom ctx = some i ∧ old = 0)
        ∨ (∃ e, c.entryAtBase ctx base = some e ∧ c.sameObject ctx g e = true ∧ e.index = i ∧ e.rights = old) →
      Acted s (.accept q) q r fun t => t.chip.grants = c.grants.erase g ∧ t.chip.shares = c.shares ++ [⟨g.owner, ctx, base, g.len, g.object⟩]
        ∧ rd64 t.chip.hbm w = base ∧ bits (rd64 t.chip.hbm (w + 8)) 7 4 = g.kind % 16
        ∧ bits (rd64 t.chip.hbm (w + 8)) 15 8 = (old ||| g.rights) % 256
        ∧ bits (rd64 t.chip.hbm (w + 8)) 31 16 = g.owner % 2 ^ 16
        ∧ i < (t.chip.ctxAt ctx).rtcount
        ∧ (fresh → a + 8 ≤ w ∨ w + 16 ≤ a → rd64 t.chip.hbm a = leafWord pg.2.2.1 pg.2.2.2 pg.2.1 pg.1)))
    ∧ (isKind 9 r = true → zeroBytes r 19 237 = true → ∀ e x, c.entryAtBase ctx base = some e → e.owner = ctx →
      ((c.rightsOf (field r 16 2)).find? fun x => x.kind == e.kind && c.namesObject (field r 16 2) x ctx base false) = some x →
      c.hbm.wf = true →
      let left := without x.rights (field r 18 1)
      let w := (c.ctxAt (field r 16 2)).rtbase.toNat + 16 * x.index
      (left ≠ 0 → Acted s (.revoke q) q r fun t => bits (rd64 t.chip.hbm (w + 8)) 15 8 = left % 256)
      ∧ (left = 0 → ∃ t j, exec (.revoke q) s = .next t ∧ t.chip.job = some j ∧ j.kind = .drain ∧ j.ctx = field r 16 2
          ∧ j.queue = q ∧ j.record = r))
    ∧ (isKind 0x0A r = true → 16 ≤ field r 16 2 → field r 16 2 ≤ 4096 → field r 24 8 % 4096 = 0 →
      (∃ k, 4 ≤ k ∧ k ≤ 16 ∧ field r 32 4 = 2 ^ k) → field r 40 8 % 8 = 0 → zeroBytes r 18 6 = true → zeroBytes r 36 4 = true →
      zeroBytes r 48 208 = true → ∀ i h a, c.walk ctx (base.toNat / 65536 * 65536) = none →
      EntryAt c ctx (base.toNat / 65536 * 65536) 0 a → tst (rd64 c.hbm a) 0 = false → c.entryRoom ctx = some i →
      ((List.range 1024).find? fun h => !thas c.hqs h) = some h → c.entryAtBase ctx base = none →
      Acted s (.createHoldingQueue q) q r fun t => ∃ x, tfind t.chip.hqs h = some x ∧ x.owner = ctx ∧ x.base = base
        ∧ x.nx = 1 ∧ x.rt = 0 ∧ x.sn = 0 ∧ x.cap = field r 16 2 ∧ x.sent = field r 32 4))

/-! ## Pages -/

namespace Sys2Proof.Claims

/-- A completion is written in a slot of a queue, with the kind and the tag of its record (R99). -/
def Finished (c d : Chip) (q index code : Nat) (r : List Byte) : Prop :=
  let a := (c.queueAt q).cpl.toNat + 32 * index
  rdLe d.host a 2 = code ∧ rdLe d.host (a + 2) 1 = field r 0 1 ∧ rdLe d.host (a + 3) 1 = 1 ∧ rdLe d.host (a + 4) 4 = field r 4 4
/-- A record that goes page by page begins with its first page (R184). -/
def Begins (s : State) (i : Instr) (kind : JobKind) (q : Nat) (r : List Byte) (x : MapRec) : Prop :=
  ∃ t, exec i s = .next t ∧ t.chip.job
    = some ⟨kind, q / 16, q, (s.chip.queueAt q).head, r, x.va, x.count * pageBytes x.size, x.size, 0, .mapped, 0, 0⟩

end Sys2Proof.Claims

/-- R180 to R184, R194: the ops of a map record. The span of a drain and the requests that it counts follow log 46. -/
def Obligations.MapRecords : Prop :=
  ∀ (s : State) (q : Nat) (r : List Byte), let c := s.chip
    let ctx := q / 16
    let x := mapRec r
    Takes c q r → x.ok r = true → (c.queueAt q).head < 2 ^ (c.queueAt q).lsize →
    (isMap 1 r = true →
      (∀ d p, c.putLeaves (c.ctxAt ctx).ptroot.toNat x.va x.size x.pa x.pkg x.loc x.rights 0 x.count x.pool = some (d, p) →
        Acted s (.map q) q r fun t => t.chip.hbm = d.hbm)
      ∧ (∀ a, x.count = 1 → EntryAt c ctx x.va x.size a → tst (rd64 c.hbm a) 0 = false → c.hbm.wf = true →
        Acted s (.map q) q r fun t => rd64 t.chip.hbm a = leafWord x.pkg x.pa x.loc x.rights))
    ∧ (isMap 2 r = true → ∀ l, c.leavesOf ctx x = some l → (∀ w ∈ l, c.pageInRegion x.size w = false) →
      let span := c.removedSpan ctx x.va (x.count * pageBytes x.size)
      ∃ t, exec (.unmap q) s = .next t
        ∧ t.chip.hbm = (c.zeroLeaves ctx x.va x.size x.count).hbm
        ∧ (∀ a, x.count = 1 → EntryAt c ctx x.va x.size a → c.hbm.wf = true → rd64 t.chip.hbm a = 0)
        ∧ (∀ sig, ∀ e ∈ tget [] t.chip.tlb sig, e.ctx = ctx →
            overlap (e.page * pageBytes e.size) (pageBytes e.size) x.va (x.count * pageBytes x.size) = false)
        ∧ t.chip.job = some ⟨.drain, ctx, q, (c.queueAt q).head, r, span.1, span.2, 0, 0, .moved, 0, c.nextReq⟩)
    ∧ (isMap 3 r = true → ∀ l, c.leavesOf ctx x = some l → x.loc ≤ 1 →
      (∀ w ∈ l, bits w 11 10 ≤ 1 ∧ c.holdsObject x.size w = false) → Begins s (.migrate q) .migrate q r x)
    ∧ (isMap 4 r = true → ∀ l, c.leavesOf ctx x = some l → x.loc = 0 ∨ x.loc = 2 →
      (∀ w ∈ l, bits w 5 3 = bits (l.headD 0) 5 3 ∧ c.pageInRegion x.size w = false) → Begins s (.park q) .park q r x)
    ∧ (isMap 5 r = true → x.loc = 2 → x.count = 1 → c.hostFails x.pa 64 = false →
      c.hostFails (x.pa + 0x10000) (pageBytes x.size) = false →
      x.names (rdBytes c.host x.pa 64) = true →
      let rights := rdLe c.host (x.pa + 21) 1 % 8
      let data := rdBytes c.host (x.pa + 0x10000) (pageBytes x.size)
      ∀ a, EntryAt c ctx x.va x.size a → tst (rd64 c.hbm a) 0 = false →
        entryAddr (wrBytes c.hbm x.pkg data) x.va x.size 4 (c.ctxAt ctx).ptroot.toNat = some a →
        tst (rd64 (wrBytes c.hbm x.pkg data) a) 0 = false → c.hbm.wf = true → (a + 8 ≤ x.pkg ∨ x.pkg + pageBytes x.size ≤ a) →
        Acted s (.restore q) q r fun t => rd64 t.chip.hbm a = leafWord 0 x.pkg 0 rights
          ∧ rdBytes t.chip.hbm x.pkg (pageBytes x.size) = data)

/-- R190, R193: a page that moves is sealed, copied and released; then the next follows, or the record completes. That a page
is copied in one step, to another package too, is the model's choice (log 4, log 8, log 47). That a page is copied in one
step, to another package too, is the model's choice (log 4, log 8, log 47); which accesses a drain waits for follows log 46.
-/
def Obligations.PagesMove : Prop :=
  ∀ (s : State) (j : PageJob), let c := s.chip
    let x := j.fields
    let b := pageBytes x.size
    c.job = some j →
    (j.kind ≠ .drain → j.st = .mapped → ∀ leaf, c.pageLeaf j.ctx j.pageVa x.size = some leaf →
      let range := j.oldRange leaf
      (bits leaf 11 10 = 0 → (∀ p ∈ c.claimed, p < range.1 ∨ range.1 + range.2 ≤ p) → ∃ t, exec .pageSeal s = .next t
        ∧ t.chip.job = some { j with st := .sealed_, old := leaf } ∧ t.chip.shut = c.shut ++ [range]
        ∧ ∀ n, ∀ r ∈ tget [] t.chip.agentResv n, overlap range.1 range.2 r.addr r.size = false)
      ∧ (bits leaf 11 10 = 2 → exec .pageSeal s
          = .next (s.withChip { c with
              shut := c.shut ++ [(hostMark + range.1, range.2)], job := some { j with st := .sealed_, old := leaf } }))
      ∧ (bits leaf 11 10 = 1 → exec .pageSeal s
          = .next (s.withChip { c with job := some { j with st := .sealed_, old := leaf } }))
      ∧ (bits leaf 11 10 = 3 → exec .pageSeal s
          = .next (s.withChip { c with
              shut := c.shut ++ [(spineMark + range.1, range.2)], job := some { j with st := .sealed_, old := leaf } })))
    ∧ (j.kind = .migrate → j.st = .sealed_ → c.hbm.wf = true → c.far.wf = true →
      let dst := x.pa + j.page * b
      let data := c.readPhys ⟨j.old, x.size, leafAddr j.old x.size j.pageVa⟩ b
      ∃ t, exec .pageCopyComplete s = .next t ∧ t.chip.job = some { j with st := .moved, since := c.nextReq }
        ∧ (x.loc = 1 → x.pkg < 4096 → dst < 2 ^ 52 → dst % 65536 = 0 → rdBytes t.chip.far (x.pkg * 2 ^ 52 + dst) b = data
          ∧ ∀ a, EntryAt c j.ctx j.pageVa x.size a → rd64 t.chip.hbm a = leafWord x.pkg dst 1 (bits j.old 5 3))
        ∧ (x.loc = 0 → dst % 65536 = 0 → ∀ a, entryAddr (wrBytes c.hbm dst data) j.pageVa x.size 4 (c.ctxAt j.ctx).ptroot.toNat = some a →
          (a + 8 ≤ dst ∨ dst + b ≤ a) → rdBytes t.chip.hbm dst b = data
          ∧ rd64 t.chip.hbm a = leafWord 0 dst 0 (bits j.old 5 3)))
    ∧ (j.kind = .park → j.st = .sealed_ → ∃ t, exec .pageCopyComplete s = .next t
        ∧ (j.page + 1 < x.count → t.chip.job = some { j with page := j.page + 1, st := .mapped })
        ∧ (x.count ≤ j.page + 1 → t.chip.job = some { j with st := .moved, since := c.nextReq }))
    ∧ (j.st = .moved → c.host.wf = true →
      (j.kind = .migrate → j.page + 1 < x.count → c.openThrough j.since j.ctx j.pageVa b = false →
        exec .pageReleased s = .next (s.withChip { c with job := some { j with page := j.page + 1, st := .mapped } }))
      ∧ ((j.kind = .migrate ∧ x.count ≤ j.page + 1 ∧ c.openThrough j.since j.ctx j.pageVa b = false)
          ∨ (j.kind ≠ .migrate ∧ c.openThrough j.since j.ctx j.va j.size = false) →
        ∃ t, exec .pageReleased s = .next t ∧ t.chip.job = none ∧ Finished c t.chip j.queue j.index 0 j.record
          ∧ (j.kind = .park → x.loc = 0 → c.hbm.wf = true → rdBytes t.chip.hbm x.pa 64 = x.header (bits j.old 5 3))))

/-- R185, R186, R191: a walk ends the wait of its frames and fills the caches; a request turned away by a moved page is sent to
the page's new home, or asks the old one again after 64 cycles. -/
def Obligations.WalksAndRetries : Prop :=
  (∀ (s : State) (die : Nat) (w : Walk) (rest : List Walk), let c := s.chip
    tget [] c.walks die = w :: rest → (∀ p ∈ w.frames, (c.frameAt p.1 p.2).trapping = none) →
    ∃ t, exec (.translationWalk die) s = .next t ∧ (rest.length < 256 → tget [] t.chip.walks die = rest)
      ∧ (∀ leaf size, c.walk w.ctx w.va = some (leaf, size) → ∀ sig ∈ w.sigs,
          (⟨w.ctx, w.va / 2 ^ pageShift size, size, leaf⟩ : Tlb) ∈ tget [] t.chip.tlb sig)
      ∧ ∀ p ∈ w.frames, (c.frameAt p.1 p.2).ctx = w.ctx → (c.frameAt p.1 p.2).st = .stalled (.walk (w.va / 2 ^ 16)) →
          (t.chip.frameAt p.1 p.2).st = .ready ∧ (t.chip.frameAt p.1 p.2).walkFault
            = if c.walk w.ctx w.va = none then some (w.va / 2 ^ 16, 6) else (c.frameAt p.1 p.2).walkFault)
  ∧ (∀ (s : State) (die core f : Nat) (w : Walk) (rest : List Walk) (x : Trapping) (leaf : Word) (size : Nat), let c := s.chip
    tget [] c.walks die = w :: rest → w.frames = [(core, f)] → w.cmds = [] → (c.frameAt core f).trapping = some x →
    (c.frameAt core f).ctx = w.ctx → (c.frameAt core f).st = .stalled (.walk (w.va / 2 ^ 16)) → c.walk w.ctx w.va = some (leaf, size) →
    ∃ d : Chip, exec (.translationWalk die) s
        = .next (s.withChip (d.takeTrap core f x.word x.seq x.cause x.detail x.eaddr))
      ∧ (∀ k n, d.frameAt k n = c.frameAt k n) ∧ ∀ sig ∈ w.sigs, (⟨w.ctx, w.va / 2 ^ pageShift size, size, leaf⟩ : Tlb) ∈ tget [] d.tlb sig)
  ∧ (∀ (s : State) (core id tm size : Nat) (r : Req) (leaf : Word), let c := s.chip
    let va := r.msg.va.toNat
    let p : Phys := ⟨leaf, size, leafAddr leaf size va⟩
    let m := { r.msg with dest := c.placeOf p, addr := p.pa, pmark := 0, epoch := 0 }
    tfind (c.coreAt core).reqs id = some r → r.retry = some tm → tm ≤ c.now →
    c.retriesBefore core id r r.msg.dest r.msg.addr = false →
    c.preempted core r = false → c.walk r.msg.frank.ctx va = some (leaf, size) →
    leafRights leaf (needOf r.msg.body) (match r.msg.body with | .object .. => true | _ => false) = true →
    let stays := c.placeOf p = r.msg.dest ∧ p.pa = r.msg.addr ∧ ((c.placeOf p).pkg ≠ c.pkg ∨ c.physShut p 1 = true)
    (¬ stays → c.retriesBefore core id r (c.placeOf p) p.pa = false → ∃ t, exec (.pageMovedRetry core id) s = .next t
      ∧ tfind (t.chip.coreAt core).reqs id = some { r with msg := m, retry := none, sent := c.now }
      ∧ ((c.placeOf p).pkg = c.pkg → t.chip.net = c.net ++ [m] ∧ t.chip.out = c.out)
      ∧ ((c.placeOf p).pkg ≠ c.pkg → t.chip.out = c.out ++ [⟨m, c.now⟩] ∧ t.chip.net = c.net))
    ∧ (stays → ∃ t, exec (.pageMovedRetry core id) s = .next t ∧ t.chip.net = c.net ∧ t.chip.out = c.out
        ∧ tfind (t.chip.coreAt core).reqs id = some { r with retry := some (c.now + 64) }))

/-! ## Launches -/

/-- R116 to R125: a launch is accepted, placed whole and completed. The digest follows FIPS 180-4 (log 10), and the cores
that a placement reserves follow log 58. The digest follows FIPS 180-4 (log 10), the cores that a placement reserves follow
log 58, and the room that it waits for log 71. -/
def Obligations.LaunchesRun : Prop :=
  (∀ (s : State) (q : Nat) (r : List Byte), let c := s.chip
    let l : Launch := ⟨q / 16, q, (c.queueAt q).head, r, q / 16 == 0, false, [], false, [], 0⟩
    Takes c q r → isKind 1 r = true → (c.queueAt q).head < 2 ^ (c.queueAt q).lsize →
    (c.launchCode l = none → ∃ t, exec (.launch q) s = .next t ∧ t.chip.launches = tset c.launches c.nextLaunch l
      ∧ t.chip.nextLaunch = c.nextLaunch + 1)
    ∧ (∀ e, c.launchCode l = some e → e < 0x10000 → ∃ t, exec (.launch q) s = .next t ∧ Answers c t.chip q e r
      ∧ t.chip.launches = c.launches ∧ (t.chip.queueAt q).st = .error))
  ∧ (∀ (s : State) (n : Nat) (l : Launch) (us : List Nat), let c := s.chip
    tfind c.launches n = some l → c.firstOfClass n l = true → c.urgentFirst l = false → c.outerUnits l = some us →
    c.devState ≠ 4 → (∀ u ∈ l.units us, c.dequeFree (unitCore u) = true
      ∧ (c.coreAt (unitCore u)).deque.length + ((l.units us).filter fun v => unitCore v == unitCore u).length ≤ 128) →
    ∃ t cores, exec (.launchPlacement n) s = .next t
      ∧ tfind t.chip.launches n = some { l with placed := true, cores := cores }
      ∧ (∀ u ∈ l.units us, l.task n u ∈ (t.chip.coreAt (unitCore u)).deque ∧ unitCore u ∈ cores)
      ∧ ∀ core ∈ cores,
        (c.coreFree l core = true → l.frames
          ≤ ((List.range Config.frames).filter fun f => (t.chip.frameAt core f).reservedFor == some n).length)
        ∧ ∀ ps, c.range l.ctx .r l.image l.imgsize = some ps → (c.coreAt core).pad.wf = true →
          let image := ps.flatMap fun p => c.readPhys p.1 p.2
          rdBytes (t.chip.coreAt core).pad l.spbase image.length = image)
  ∧ (∀ (s : State) (n : Nat) (l : Launch), let c := s.chip
    tfind c.launches n = some l → l.placed = true → l.record ≠ [] → c.worksFor n = false → c.host.wf = true →
    let ends := fun (status code : Nat) (digest : List Byte) => ∃ t, exec (.launchCompletion n) s = .next t
      ∧ t.chip.launches = tdel c.launches n ∧ Finished c t.chip l.queue l.index code l.record
      ∧ tget 0 t.chip.ring (n % 65536) = BitVec.ofNat 1024 (leNat (l.ringEntry n status digest))
    (l.killed = true → ends 1 6 (toLe 48 0))
    ∧ (l.killed = false → c.outputs l = none → ends 2 7 (toLe 48 0))
    ∧ (∀ b, l.killed = false → c.outputs l = some b → ends 0 0 (sha384 b)))

/-! ## Traffic between packages -/

namespace Sys2Proof.Claims

/-- Free credits of a port in the class of a message (R200, R201). -/
def creditsFor (c : Chip) (p : Nat) (m : Msg) : Nat := (c.portAt p).credits[classOf m.body]
/-- The link replay buffer of a port has room for a message (R206). -/
def ReplayRoom (c : Chip) (p : Nat) (m : Msg) : Prop := ((c.portAt p).buffer.map (·.2)).sum + flitsOf m ≤ 1024
/-- A message goes out through a port: its credits are spent, and its frame stands in the link replay buffer (R201, R206). -/
def Through (c d : Chip) (p : Nat) (m : Msg) : Prop :=
  creditsFor d p m + flitsOf m = creditsFor c p m
  ∧ (d.portAt p).buffer = (c.portAt p).buffer ++ [((c.portAt p).seq, flitsOf m)]

end Sys2Proof.Claims

/-- R198, R200 to R203, R209: a message leaves through its candidate port with the next postmark of its stream, is retained,
and is sent again with that postmark; the far end returns credits. -/
def Sys2Proof.Claims.MessagesLeave : Prop :=
  (∀ (s : State) (n p : Nat) (w : Waiting), let c := s.chip
    let key := streamKey w.msg.frank.core w.msg.dest.pkg
    let k := tget 0 c.streamsOut key % pmarks + 1
    c.out[n]? = some w → c.candidate w.msg = some p → ReplayRoom c p w.msg →
    (∀ x ∈ c.out.take n, noticeBefore x.msg w.msg = false ∧ ¬ (x.msg.frank.core = w.msg.frank.core
      ∧ x.msg.dest.pkg = w.msg.dest.pkg ∧ classOf x.msg.body = classOf w.msg.body)) →
    (marked w.msg.body = true → c.retained.length < 8192 → ∃ t, exec (.offpackageSend n) s = .next t
      ∧ t.chip.out = c.out.eraseIdx n ∧ tget 0 t.chip.streamsOut key = k
      ∧ t.chip.retained = c.retained ++ [⟨{ w.msg with pmark := k, epoch := c.epoch }, p, c.now, c.now⟩]
      ∧ Through c t.chip p w.msg)
    ∧ (marked w.msg.body = false → ∃ t, exec (.offpackageSend n) s = .next t ∧ t.chip.out = c.out.eraseIdx n
      ∧ t.chip.retained = c.retained ∧ t.chip.streamsOut = c.streamsOut ∧ Through c t.chip p w.msg))
  ∧ (∀ (s : State) (i p : Nat) (r : Retained), let c := s.chip
    c.retained[i]? = some r → isMass r.msg.body = false → 16 ≤ r.port ∨ r.sent + 20 * Config.cyclesPerUs ≤ c.now →
    let left := if 16 ≤ r.port ∧ c.now < r.sent + 20 * Config.cyclesPerUs then some (r.port - 16) else none
    c.candidateBut left r.msg = some p → ReplayRoom c p r.msg → ∃ t, exec (.retentionResend i) s = .next t
      ∧ t.chip.retained = c.retained.set i { r with port := p, sent := c.now, since := c.now } ∧ Through c t.chip p r.msg)
  ∧ (∀ (s : State) (p flits : Nat) (k : Fin 3), let c := s.chip
    p < 16 → carries (c.portAt p).st = true → (c.portAt p).credits[k] + flits ≤ fullCredits[k] →
    ∃ t, exec (.creditReturn p k.val flits) s = .next t ∧ (t.chip.portAt p).credits[k] = (c.portAt p).credits[k] + flits)

/-- R200, R202, R204, R205: a message arrives in order, again, early, of an invalid kind, or comes back from a switch; a delivery ack
frees the copies that it covers. The form of a message that a switch returns is the model's reading (log 41). -/
def Obligations.MessagesArrive : Prop :=
  (∀ (s : State) (p : Nat) (m : Msg), let c := s.chip
    let x := c.streamFor m
    let d := pmarkPast m.pmark x.last
    let ack := fun (t : State) (last : Nat) => (t.chip.out.getLast?).map (fun w => (w.msg.body, w.msg.dest.pkg))
      = some (Body.deliveryAck last, m.frank.pkg)
    p < 16 → carries (c.portAt p).st = true → m.dest.pkg = c.pkg → m.frank.pkg ≠ c.pkg → marked m.body = true →
    1 ≤ m.pmark → m.pmark ≤ pmarks → m.waits = false → m.lctx = none → (∀ k, m.body ≠ .invalid k) →
    (c.portAt p).bad = false ∨ payloadFlits m.body = 0 →
    (d = 1 → (∀ h ∈ x.held, pmarkPast h.pmark m.pmark ≠ 1) → ∃ t, exec (.postmarkArrival p m) s = .next t
      ∧ t.chip.net = c.net ++ [landed m] ∧ (t.chip.streamFor m).last = m.pmark ∧ ack t m.pmark)
    ∧ (d = 0 ∨ 2 ^ 31 ≤ d → ∃ t, exec (.postmarkArrival p m) s = .next t ∧ t.chip.net = c.net ∧ ack t x.last)
    ∧ (1 < d → d < 2 ^ 31 → (∀ h ∈ x.held, h.pmark ≠ m.pmark) → c.heldIn (classOf m.body) < 1024 →
      ∃ t, exec (.postmarkArrival p m) s = .next t ∧ t.chip.net = c.net ∧ t.chip.out = c.out
        ∧ (t.chip.streamFor m).held = x.held ++ [m]))
  ∧ (∀ (s : State) (p k : Nat) (m : Msg), let c := s.chip
    p < 16 → carries (c.portAt p).st = true → m.body = .invalid k → ∃ t, exec (.postmarkArrival p m) s = .next t
      ∧ t.chip.net = c.net ∧ (t.chip.portAt p).replay = min 0xFFFF ((c.portAt p).replay + 1))
  ∧ (∀ (s : State) (p : Nat) (m : Msg) (r : Retained), let c := s.chip
    p < 16 → carries (c.portAt p).st = true → c.returned m = some r → ∃ t, exec (.postmarkArrival p m) s = .next t
      ∧ t.chip.retained = c.retained.erase r
      ∧ (t.chip.net.getLast?).map (fun y => (y.body, y.dest, y.id)) = some (Body.nack 5, ⟨c.pkg, .core r.msg.frank.core⟩, r.msg.id))
  ∧ (∀ (s : State) (m : Msg) (core last : Nat), let c := s.chip
    m.body = .deliveryAck last → m.dest = ⟨c.pkg, .core core⟩ → m.frank.pkg ≠ c.pkg → m.epoch = c.epoch →
    (∃ p, p < 16 ∧ carries (c.portAt p).st = true) →
    ∃ t, exec (.deliveryAck m) s = .next t ∧ t.chip.retained = c.retained.filter fun r =>
      !(r.msg.dest.pkg == m.frank.pkg && r.msg.frank.core == core && covered r.msg.pmark last))

/-- R205, R210, R452: mass that is not acknowledged is withdrawn; a request that finds no port is returned with nack status 5,
and another message that finds none is dropped. The withdrawal of mass that never left names no postmark (log 36). -/
def Sys2Proof.Claims.MessagesFindNoPort : Prop :=
  (∀ (s : State) (i gid first : Nat) (ws : List Word) (r : Retained), let c := s.chip
    c.retained[i]? = some r → r.msg.body = .mass gid first ws → r.sent + c.tmo ≤ c.now → r.msg.dest.pkg ≠ c.pkg →
    ∃ t, exec (.gossipMassTimeout i) s = .next t ∧ t.chip.retained = c.retained.erase r
      ∧ (t.chip.out.getLast?).map (fun w => (w.msg.body, w.msg.dest)) = some (Body.withdrawal r.msg.pmark, r.msg.dest))
  ∧ (∀ (s : State) (n since : Nat) (m : Msg), let c := s.chip
    c.portless n = some (m, since) → c.candidate m = none → since + c.tmo ≤ c.now →
    (isRequest m.body = true → ∃ t, exec (.noRouteReturn n) s = .next t
      ∧ (∀ r ∈ t.chip.retained, isRequest r.msg.body = true → r.msg.dest.pkg ≠ m.dest.pkg)
      ∧ (n < c.out.length → t.chip.out = c.out.eraseIdx n)
      ∧ ∃ y ∈ t.chip.net, y.body = .nack 5 ∧ y.dest = ⟨c.pkg, .core m.frank.core⟩ ∧ y.id = m.id)
    ∧ (isRequest m.body = false → classOf m.body ≠ 2 → ∃ t, exec (.nonrequestDrop n) s = .next t
      ∧ (n < c.out.length → t.chip = { c with out := c.out.eraseIdx n })
      ∧ (c.out.length ≤ n → t.chip = { c with retained := c.retained.eraseIdx (n - c.out.length) }))
    ∧ (isMass m.body = true → n < c.out.length → m.dest.pkg ≠ c.pkg → ∃ t, exec (.nonrequestDrop n) s = .next t
      ∧ t.chip.out = c.out.eraseIdx n ++ [⟨{ m with body := .withdrawal 0 }, c.now⟩]))

/-- R198, R200 to R203, R205, R209, R210, R452: messages that leave the package, and those that find no port. That a delivery
ack takes no postmark and that the withdrawal of mass that never left names none are the model's readings (log 35, log 36). -/
def Obligations.MessagesLeaveOrReturn : Prop :=
  Sys2Proof.Claims.MessagesLeave ∧ Sys2Proof.Claims.MessagesFindNoPort

/-- R201, R206, R207, R209: the steps of an external port. -/
def Obligations.PortsTrain : Prop :=
  ∀ (s : State) (p : Nat), p < 16 → let c := s.chip
    let x := c.portAt p
    let goes := fun (i : Instr) (is : Port → Prop) => ∃ t, exec i s = .next t ∧ is (t.chip.portAt p)
    let none_ : Vector Nat 3 := Vector.replicate 3 0
    let replays := (x.recentReplays.filter fun t => decide (c.now < t + oneMs)).length
    let again : PortSt := if 2 ≤ (c.recentEntries p).length then .quarantined else .training
    (carries x.st = true → goes (.linkReplay p) fun y => y.replay = min 0xFFFF (x.replay + 1)
      ∧ (replays < 64 → y.st = x.st ∧ y.credits = x.credits) ∧ (64 ≤ replays → y.st = again ∧ y.credits = none_))
    ∧ (x.st = .down → x.dis = false → x.since + oneMs ≤ c.now → goes (.linkTrainingStart p) fun y => y.st = .training ∧ y.since = c.now)
    ∧ (∀ lanes rate, x.st = .training → 2 ≤ lanes → lanes ≤ 8 → 1 ≤ rate → rate ≤ 3 → c.now < x.since + 100 * Config.cyclesPerUs →
      goes (.linkTrained p lanes rate) fun y => y.st = (if lanes = 8 ∧ rate = 3 then .up else .degraded) ∧ y.lanes = lanes
        ∧ y.rate = rate ∧ y.replay = 0 ∧ y.trains = 0 ∧ y.credits = fullCredits)
    ∧ (x.st = .training → x.since + 100 * Config.cyclesPerUs ≤ c.now → goes (.linkTrainingTimeout p) fun y =>
        y.st = (if 8 ≤ x.trains + 1 then .quarantined else .down) ∧ y.trains = x.trains + 1)
    ∧ (carries x.st = true → ∀ i, i = Instr.linkFault p ∨ i = Instr.linkRetrain p → ∃ t, exec i s = .next t
        ∧ (t.chip.portAt p).st = again ∧ (t.chip.portAt p).credits = none_ ∧ (t.chip.portAt p).buffer = []
        ∧ ∀ r ∈ t.chip.retained, r.port ≠ p)
    ∧ goes (.linkDisable p) (fun y => y.st = .down ∧ y.dis = true ∧ (carries x.st = true → y.credits = none_))
    ∧ (x.st = .quarantined → goes (.linkRelease p) fun y => y.st = .down ∧ y.dis = false ∧ y.trains = 0)

/-! ## Health, the start and attestation -/

/-- R424 to R426, R453: memory errors are counted, logged and tested for; a tested block passes or fails; a hot die is
logged. The log entries of a failed port and what a thermal stop does at once are the model's readings (log 37, log 38). -/
def Obligations.HealthSteps : Prop :=
  (∀ (s : State) (g : Granule), let c := s.chip
    granuleExists g = true →
    (∃ t, exec (.eccError g true) s = .next t ∧ t.chip.corrected = c.corrected ++ [(blockAt g, c.now)]
      ∧ t.chip.hlhead = c.hlhead + 1)
    ∧ ∃ t, exec (.eccError g false) s = .next t ∧ t.chip.hlhead = c.hlhead + 1
      ∧ (∃ x ∈ t.chip.testing, x.1 = blockAt g)
      ∧ (∀ sector, g = .hbm sector → sector ∈ t.chip.hbmPoison)
      ∧ (∀ core d, g = .pad core d → d < 0x5800 → d ∈ (t.chip.coreAt core).padPoison))
  ∧ (∀ (s : State) (b : Block), let c := s.chip
    let ends := fun (r : TestEnd) (is : Chip → Prop) => ∃ t, exec (.selfTestComplete b r) s = .next t
      ∧ (∀ y ∈ t.chip.testing, y.1 ≠ b) ∧ t.chip.hlhead = c.hlhead + 1 ∧ is t.chip
    (∃ x ∈ c.testing, x.1 = b ∧ c.testRuns x = true) → c.devState ≠ 4 →
    ends .pass (fun d => d.failed = c.failed ∧ d.dead = c.dead ∧ d.spares = c.spares)
    ∧ (∀ n, b = .signature n → n / 16 ∉ c.spares → ends .spare fun d => d.spares = c.spares ++ [n / 16])
    ∧ (∀ n, b = .signature n → n / 16 ∈ c.spares → ends .noSpare fun d => d.failed = c.failed ++ [n] ∧ d.devState = 2)
    ∧ (∀ st ch, b = .channel st ch → ends .repaired (fun d => d.dead = c.dead)
      ∧ ∀ l, ends (.unrepaired l) fun d => d.dead = c.dead ++ l ∧ d.devState = 2)
    ∧ (∀ p, b = .port p → ends .portFailed fun d => (d.portAt p).st = .quarantined))
  ∧ (∀ (s : State) (die : Nat) (x : BitVec 16), let c := s.chip
    die < 9 →
    (0x5F0 ≤ x.toInt → tst (c.monitor die).tmon 32 = false → ∃ t, exec (.thermalWarning die x) s = .next t
      ∧ tst (t.chip.monitor die).tmon 32 = true ∧ bits (t.chip.monitor die).tmon 15 0 = x.toNat ∧ t.chip.hlhead = c.hlhead + 1)
    ∧ (0x6E0 ≤ x.toInt → tst (c.monitor die).tmon 33 = false → ∃ t, exec (.thermalStop die x) s = .next t
      ∧ tst (t.chip.monitor die).tmon 33 = true ∧ t.chip.devState = 4
      ∧ ∀ ctx, ctx ≠ 0 → (t.chip.ctxAt ctx).st ≠ .live))

/-- R413 to R422: the start and its journal, the attestation commands, and the host's writes of plain registers. The digests
of a start are free values (log 9), SHA-384 follows FIPS 180-4 (log 10), and that an extension completes in the step that
starts it is the model's reading (log 59). The digests of a start are free values (log 9), SHA-384 follows FIPS 180-4 (log
10), and that an extension completes in the step that starts it is the model's reading (log 59), as are context 0 live after
a start (log 11) and the place that cy counts from (log 39). -/
def Obligations.StartAndAttestation : Prop :=
  (∀ s : State, s.chip.jalt = [] → s.chip.jstarted = [] → s.chip.failed = [] → s.chip.dead = [] →
    (∀ d, d < 9 → (BitVec.ofNat 16 (bits (s.chip.monitor d).tmon 15 0)).slt 0x6E0 = true) →
    ∃ t, exec (.packageStart none []) s = .next t ∧ t.chip.devState = 1 ∧ t.chip.starts = s.chip.starts + 1
      ∧ (∀ x ∈ startSteps, tget 0 t.chip.journal x = 1) ∧ (∀ n, n ≠ 0 → tfind t.chip.launches n = none) ∧ t.chip.nextLaunch = 1
      ∧ (∃ l, tfind t.chip.launches 0 = some l ∧ l.ctx = 0 ∧ l.sup = true ∧ l.placed = true ∧ l.record = []
          ∧ l.cores = (List.range 128).map (256 * ·)) ∧ (∀ i, i < 128 → (t.chip.frameAt (256 * i) 95).reservedFor = some 0)
      ∧ t.chip.started = s.chip.now
      ∧ (∀ p, p < 16 → t.chip.portAt p = { Port.reset with since := s.chip.now }) ∧ (t.chip.ctxAt 0).st = .live
      ∧ (∀ i : Fin 8, t.mr[i] = if i.val < 4 then (extendMr (Vector.replicate 8 0) i.val (Config.startDigest t.chip.starts i.val))[i]
          else 0))
  ∧ (∀ s : State, exec .journalReset s = .next (s.withChip { s.chip with jreset := true }))
  ∧ (∀ (s : State) (v : Word), let c := s.chip
    (bits v 60 3 = 0 → bits v 63 61 = 1 → bits v 2 0 = 0 → c.atst ≠ 1 →
      exec (.attestReport v) s = .next (s.withChip { c with atst := 1, atstSince := c.now, report := reportBody c s.mr }))
    ∧ (bits v 60 3 = 0 → bits v 63 61 = 2 → 4 ≤ bits v 2 0 → c.atst ≠ 1 → ∃ t, exec (.attestExtend v) s = .next t
      ∧ t.chip = { c with atst := 2 }
      ∧ ∀ i : Fin 8, t.mr[i] = if i.val = bits v 2 0
          then BitVec.ofNat 384 (leNat (sha384 (toLe 48 (s.mr[i]).toNat ++ toLe 48 c.nonce.toNat))) else s.mr[i])
    ∧ (c.atst = 1 → c.now ≤ c.atstSince + 5 * oneMs → ∃ t, exec .attestComplete s = .next t ∧ t.chip.atst = 2
      ∧ t.chip.report.take c.report.length = c.report ∧ t.chip.report.length = c.report.length + 96))
  ∧ (∀ (s : State) (off : Nat) (v : Word), let c := s.chip
    off % 8 = 0 → off < 2 ^ 28 → ownBehaviour off v = false →
    (off < 0x2000000 → (off < 0x10100 ∨ 0x10130 ≤ off) → exec (.registerWrite off v) s = .next s)
    ∧ (off = 0x2010000 → ∃ t, exec (.registerWrite off v) s = .next t ∧ bits t.chip.fabcfg 15 0 = bits v 15 0
      ∧ ((∀ p, p < 16 → (c.portAt p).st = .down ∨ (c.portAt p).st = .quarantined) → t.chip.pkg = bits v 43 32)
      ∧ ((∃ p, p < 16 ∧ (c.portAt p).st ≠ .down ∧ (c.portAt p).st ≠ .quarantined) → t.chip.pkg = c.pkg))
    ∧ (0x4000000 ≤ off → off < 0x8000000 → let q := (off - 0x4000000) / 0x1000
      c.hasQueue q = true → (c.queueAt q).st = .disabled →
      (off % 0x1000 = 0 → ∃ t, exec (.registerWrite off v) s = .next t ∧ t.chip.queueAt q = { c.queueAt q with base := v })
      ∧ (off % 0x1000 = 8 → ∃ t, exec (.registerWrite off v) s = .next t ∧ t.chip.queueAt q = { c.queueAt q with cpl := v })))

/-! ## The whole machine -/

namespace Sys2Proof.Claims

/-- The registers that an instruction may write when it issues. -/
def writes : Instr → List Reg
  | .add _ d .. | .sub _ d .. | .mul _ d .. | .mulh _ d .. | .mulhu _ d .. | .div _ d .. | .divu _ d .. | .rem _ d .. | .remu _ d ..
  | .and _ d .. | .or _ d .. | .xor _ d .. | .andn _ d .. | .shl _ d .. | .shr _ d .. | .sar _ d .. | .rol _ d .. | .ror _ d ..
  | .min _ d .. | .max _ d .. | .minu _ d .. | .maxu _ d .. | .popc _ d _ | .clz _ d _ | .ctz _ d _ | .sext8 _ d _ | .sext16 _ d _
  | .sext32 _ d _ | .zext8 _ d _ | .zext16 _ d _ | .zext32 _ d _ | .bfx _ d .. | .bfxu _ d .. | .bfi _ d .. | .lea _ d ..
  | .sel _ d .. | .mov _ d _ | .addImm _ d .. | .subImm _ d .. | .andImm _ d .. | .orImm _ d .. | .xorImm _ d .. | .shlImm _ d ..
  | .shrImm _ d .. | .sarImm _ d .. | .movi _ d .. | .wtab _ _ d .. | .wclr _ d _ | .ld _ _ d .. | .lds _ _ d .. | .tlk _ d _
  | .cas _ d .. | .amoAdd _ d .. | .amoAnd _ d .. | .amoOr _ d .. | .amoXor _ d .. | .amoMin _ d .. | .amoMax _ d ..
  | .amoMinu _ d .. | .amoMaxu _ d .. | .amoSwap _ d .. | .qwait _ d _ | .qroom _ d _ | .qpos _ d _ | .rsc _ d .. | .getc _ d _
  | .olog _ d _ | .probe _ d _ | .get _ d .. | .vext _ _ _ d .. => [d]
  | .call .. => [.g 15]
  | _ => []
/-- Whether an instruction writes predicates of its frame when it issues. -/
def writesFlags : Instr → Bool
  | .cmp .. | .cmpImm .. | .pand .. | .por .. | .pxor .. | .pandn .. | .rfe _ | .swWrite .. | .setc .. => true
  | _ => false
/-- Whether an instruction may write its core's scratchpad when it issues. -/
def writesPad : Instr → Bool
  | .st .. | .cas .. | .amoAdd .. | .amoAnd .. | .amoOr .. | .amoXor .. | .amoMin .. | .amoMax .. | .amoMinu .. | .amoMaxu ..
  | .amoSwap .. | .spawn .. | .fork .. | .wtab .. | .join .. | .wclr .. | .vst .. | .vscatter .. | .vamo .. | .corr ..
  | .put .. => true
  | _ => false
/-- Whether an instruction may take a record of the order log when it issues (R151). -/
def mayLog : Instr → Bool
  | .rsc .. | .olog .. | .msplit .. | .mcoll .. | .mflip .. | .mref .. => true
  | _ => false
/-- The words of a join block that a count-up raises: count and spawned (R133, R136). -/
def countedUp (j : Word) : List (Nat × Nat) := [(bits j 17 0, 8), (bits j 17 0 + 24, 8)]
/-- Bytes of an outlier list at an offset from its location word, as its j-th access in another package finds them, and the number of
the next such access (R366): in the scratchpad, in this package's HBM or host memory, or as another package has answered. -/
def listBytes (c : Chip) (pad : Memory) (gl off n j : Nat) : List Byte × Nat :=
  let a := (spotOf gl).at_.toNat + off
  if (spotOf gl).pad then (rdBytes pad a n, j)
  else match c.lookup (BitVec.ofNat 64 a) .r false with
    | .ok p =>
      if p.loc = 1 then ((match c.me.far[j]? with
        | some (.data b _) => b
        | _ => []), j + 1)
      else (c.readPhys p n, j)
    | .error _ => ([], j)
/-- The words of the tile at ga that the records of a list name, from record i up, each read after the words before it are written
(R366). -/
def correctedWords (c : Chip) (gl ga : Nat) : Memory → Nat → Nat → Nat → List (Nat × Nat)
  | _, _, _, 0 => []
  | pad, i, j, n + 1 =>
    let r := listBytes c pad gl (16 + 8 * i) 8 j
    let o := ga + 4 * leNat (r.1.take 4)
    (o, 4) :: correctedWords c gl ga (wrBytes pad o ((r.1.drop 4).take 4)) (i + 1) r.2 n
/-- The words that `corr` writes: capacity and count of the list say how many. -/
def corrStores (c : Chip) (gl ga : Nat) : List (Nat × Nat) :=
  let h := listBytes c c.here.pad gl 0 8 0
  correctedWords c gl ga c.here.pad 0 h.2 (min (leNat (h.1.take 4)) (leNat (h.1.drop 4)))
/-- The scratchpad ranges, as offset and length, that an instruction may store to when it issues, by its operands in a package; v
are the vector registers as it finds them. -/
def storesAt (c : Chip) (v : Vector VWord 32) : Instr → List (Nat × Nat)
  | .st _ z d a o => [(((c.popped d).val a + BitVec.ofNat 64 (o.toNat * sizeBytes z)).toNat, sizeBytes z)]
  | .cas _ d a _ z => [(((c.popped d).val a).toNat, wordBytes z)]
  | .amoAdd _ _ a _ z | .amoAnd _ _ a _ z | .amoOr _ _ a _ z | .amoXor _ _ a _ z | .amoMin _ _ a _ z | .amoMax _ _ a _ z
  | .amoMinu _ _ a _ z | .amoMaxu _ _ a _ z | .amoSwap _ _ a _ z => [((c.val a).toNat, wordBytes z)]
  | .put _ d a _ _ z => [(refOff ((c.popped d).val a), sizeBytes z), ((c.val d).toNat, 8)]
  | .spawn _ a => countedUp (rd64 c.here.pad ((c.val a).toNat + 16))
  | .fork _ j _ => countedUp (c.val j)
  | .wtab _ _ _ x y a =>
    let ga := ((c.poppedAll [x, y]).val a).toNat
    (ga + 16, 16) :: countedUp (rd64 c.here.pad (ga + 16))
  | .join _ _ x y a => [(((c.poppedAll [x, y]).val a).toNat + 16, 16)]
  | .wclr _ _ a =>
    let e := c.here.wtab[(c.val a).toNat % 32]'(Nat.mod_lt _ (by decide))
    (bits (rd64 c.here.pad (bits e.ctl 49 32 + 16)) 17 0, 24) :: c.here.held.map fun m => (m.addr, 24)
  | .vst _ _ _ _ a f => (List.range 16).map fun i => ((c.val a + BitVec.ofNat 64 (64 * f.toNat) + BitVec.ofNat 64 (4 * i)).toNat, 4)
  | .vamo _ _ _ _ a _ => (List.range 16).map fun i => ((c.val a + BitVec.ofNat 64 (4 * i)).toNat, 4)
  | .vscatter _ _ _ _ a x => (List.range 16).map fun i => ((laneOffset (c.val a) v[x.toFin] i).toNat, 4)
  | .corr _ a b => corrStores c ((c.popped a).val b).toNat (c.val a).toNat
  | _ => []
/-- A byte of the memory with a location code belongs to the outlier list of the issuing frame (R51): in this package's HBM, another
package's, or host memory. -/
def ListByte (c : Chip) (loc x : Nat) : Prop :=
  ∃ k p, k < 16 + 8 * 2 ^ 32 ∧ c.lookup (c.me.volist + BitVec.ofNat 64 k) .w false = .ok p ∧ p.loc = loc
    ∧ (let a := if loc = 1 then farKey (bits p.leaf 63 52) p.pa else p.pa; a ≤ x ∧ x < a + 8)
/-- A frame as another frame's instruction leaves it: as it was, or stalled in a `wait` whose counter a write has brought up
(R141). -/
def Kept (f g : Frame) : Prop :=
  g = f ∨ ∃ o th pops, f.st = .stalled (.counter o th false pops) ∧ g = { f with st := .stalled (.counter o th true pops) }
/-- A step that has written no scratchpad and used no deque leaves nothing for the banks and waiters to do (R78, R134, R171).
-/
def Quiet (c : Chip) : Prop :=
  (∀ p ∈ c.cores, p.2.touched = [] ∧ p.2.dequeOps = 0 ∧ p.2.advanced = [] ∧ p.2.padPoison = [] ∧ p.2.stuck = []) ∧ c.waitedAt = []
/-- Where `st` stores. -/
def storeAt (c : Chip) (z : Size) (d a : Reg) (o : BitVec 10) : Nat :=
  ((c.popped d).val a + BitVec.ofNat 64 (o.toNat * sizeBytes z)).toNat
/-- An instruction that a word encodes, but for `tail`, which frees its frame (R318), and a supervisor's store beyond the data
banks, which reaches every frame of its core (R19) and is stated apart. -/
def OwnEffects (s : State) (i : Instr) : Prop :=
  isEvent i = false ∧ (∀ g, i ≠ .tail g)
    ∧ ∀ g z d a o, i = .st g z d a o → s.chip.me.sup = true → storeAt s.chip z d a o < Config.dataEnd
/-- Whether a frame of the package has asked for the issuing frame's pre-emption: a trap that parks that frame reports to it
(R165). -/
def AskedBy (c : Chip) (core f : Nat) : Prop := c.me.preempt = some (.frame core f)
/-- What an instruction leaves of the package outside its core: the other cores but for their ends of links, ports, queues,
measurement registers and the clock. -/
def OutsideKept (s t : State) : Prop :=
  t.mr = s.mr ∧ t.agenda = s.agenda ∧ t.turnCore = s.turnCore ∧ t.chip.now = s.chip.now
  ∧ t.chip.ports = s.chip.ports ∧ t.chip.queues = s.chip.queues ∧ t.chip.fabcfg = s.chip.fabcfg
  ∧ ∀ core, core ≠ s.chip.core → (∀ f, ¬ AskedBy s.chip core f) → ∃ l, t.chip.coreAt core = { s.chip.coreAt core with links := l }
/-- An instruction that may stand in a delay slot (R266). -/
def standsInSlot : Instr → Bool
  | .fork .. | .join .. | .spawn .. | .tail .. | .endThread .. | .go .. | .yield .. | .rfe .. => false
  | _ => true
/-- The measurement registers hold m, and nothing that extends or clears them is on the agenda. -/
def Measured (m : Vector (BitVec 384) 8) (s : State) : Prop :=
  s.mr = m ∧ ∀ x ∈ s.agenda, (∀ v, x.act ≠ .event (.attestExtend v)) ∧ ∀ h b, x.act ≠ .event (.packageStart h b)

end Sys2Proof.Claims

/-- R290, R259, R260: what the issue of an instruction, completed, stalled or trapped, leaves of its own frame and of memory.
-/
def Obligations.InstructionFrames : Prop :=
  ∀ (s t : State) (i : Instr), OwnEffects s i → exec i s = .next t →
    t.chip.core = s.chip.core ∧ t.chip.frame = s.chip.frame
    ∧ (∀ n : BitVec 4, Reg.g n ∉ writes i → t.chip.me.g[n.toFin] = s.chip.me.g[n.toFin])
    ∧ (writesFlags i = false → ∀ n, 1 ≤ n → n ≤ 7 → tst t.chip.me.sw n = tst s.chip.me.sw n)
    ∧ t.chip.me.tjoin = s.chip.me.tjoin ∧ t.chip.me.ctx = s.chip.me.ctx ∧ t.chip.me.launch = s.chip.me.launch
    ∧ t.chip.me.thread = s.chip.me.thread ∧ t.chip.me.reservedFor = s.chip.me.reservedFor
    ∧ t.chip.here.abuf = s.chip.here.abuf
    ∧ (t.chip.here.acc = s.chip.here.acc ∨ (s.chip.me.esave ≠ 0 ∧ s.chip.me.savedAcc = true
        ∧ t.chip.here.acc = (s.chip.here.restoreAcc s.chip.hbm s.chip.me.esave.toNat).acc))
    ∧ (writesPad i = false → t.chip.here.pad = s.chip.here.pad)
    ∧ (s.chip.here.pad.wf = true → ∀ x, (∀ r ∈ storesAt s.chip t.chip.here.vec.v i, x < r.1 ∨ r.1 + r.2 ≤ x) →
        rdByte t.chip.here.pad x = rdByte s.chip.here.pad x)
    ∧ ((∀ g w sd sa d a k m, i ≠ .vcvtOl g w sd sa d a k m) → mayLog i = false ∨ s.chip.modeOf s.chip.me.launch = 0 →
        t.chip.hbm = s.chip.hbm ∧ t.chip.host = s.chip.host ∧ t.chip.far = s.chip.far)
    ∧ ((∃ g w sd sa d a k m, i = .vcvtOl g w sd sa d a k m) → ∀ x,
        (s.chip.hbm.wf = true → ¬ ListByte s.chip 0 x → rdByte t.chip.hbm x = rdByte s.chip.hbm x)
        ∧ (s.chip.far.wf = true → ¬ ListByte s.chip 1 x → rdByte t.chip.far x = rdByte s.chip.far x)
        ∧ (s.chip.host.wf = true → ¬ ListByte s.chip 2 x → rdByte t.chip.host x = rdByte s.chip.host x))

/-- R2, R17, R19, R126, R141: an instruction reaches no other frame of its core, but that a `wait` sees the counter that it writes,
nothing of another core but its end of a link, and no port, queue, measurement register or clock; a supervisor's store beyond the data
banks reaches one register image, one entry of the wait table or the words of the core block, and no memory. The agenda and the turn
are the model's own fields (log 3). A frame that has asked for the issuing frame's pre-emption has its report where that frame parks at
a trap (R165). -/
def Obligations.OthersAreKept : Prop :=
  (∀ (s t : State) (i : Instr), OwnEffects s i → exec i s = .next t → OutsideKept s t
    ∧ ∀ f, f ≠ s.chip.frame → ¬ AskedBy s.chip s.chip.core f → Kept (s.chip.frameAt s.chip.core f) (t.chip.frameAt s.chip.core f))
  ∧ ∀ (s t : State) (g : Guard) (z : Size) (d a : Reg) (o : BitVec 10), let c := s.chip
    let x := storeAt c z d a o
    let slot := (x - 0x2C000) / 160
    let image := (x - 0x2C000) % 160 / 8
    exec (.st g z d a o) s = .next t → Config.dataEnd ≤ x →
    OutsideKept s t ∧ t.chip.hbm = c.hbm ∧ t.chip.host = c.host ∧ t.chip.far = c.far ∧ t.chip.here.pad = c.here.pad
    ∧ t.chip.here.abuf = c.here.abuf ∧ t.chip.here.deque = c.here.deque ∧ t.chip.here.postbox = c.here.postbox
    ∧ (∀ f, f ≠ c.frame → ¬ AskedBy c c.core f → (x < 0x2FC00 → f ≠ slot) → t.chip.frameAt c.core f = c.frameAt c.core f)
    ∧ (x < 0x2FC00 → ¬ AskedBy c c.core slot → slot ≠ c.frame →
        let e := c.frameAt c.core slot
        let e' := t.chip.frameAt c.core slot
        e' = { e with g := e'.g, poisoned := e'.poisoned, pc := e'.pc, npc := e'.npc, nnpc := e'.nnpc, sw := e'.sw }
        ∧ (∀ n : Fin 16, n.val ≠ image → e'.g[n] = e.g[n]) ∧ (image ≠ 16 → e'.pc = e.pc) ∧ (image ≠ 17 → e'.npc = e.npc)
        ∧ (image ≠ 18 → e'.nnpc = e.nnpc) ∧ (image ≠ 19 → e'.sw = e.sw)
        ∧ ∀ n, n = 0 ∨ (8 ≤ n ∧ n ≤ 16) ∨ (19 ≤ n ∧ n ≤ 23) → tst e'.sw n = tst e.sw n)
    ∧ (∀ n : Fin 16, (x < 0x2FC00 → slot = c.frame → n.val ≠ image) → t.chip.me.g[n] = c.me.g[n])
    ∧ (∀ e : Fin 32, (0x2FC00 ≤ x → x < 0x2FE00 → e.val ≠ (x - 0x2FC00) / 16) → t.chip.here.wtab[e] = c.here.wtab[e])

/-- R261, R262: an instruction whose guard is false goes on to the next and does nothing else, in a delay slot as well, where it traps
if it may not stand there; a `fork` then leaves its two slots to issue. So a compare whose guard names
the predicate that it writes writes it only where the guard, as read at issue, was true. -/
def Obligations.GuardedOff : Prop :=
  (∀ (s : State) (i : Instr), s.chip.capturing = false → guardHolds (guardOf i) s.chip.me.sw = false →
    (∀ g an d, i ≠ .br g an d ∧ i ≠ .call g an d) → (∀ g an a, i ≠ .jr g an a) → (∀ g an, i ≠ .ret g an) →
    let c := s.chip.issuing i
    ((s.chip.me.inSlot = true → standsInSlot i = true) → (∀ g j d, i ≠ .fork g j d) → exec i s = .next (s.withChip c.goOn))
    ∧ (s.chip.me.inSlot = false → (∃ g j d, i = .fork g j d) →
        exec i s = .next (s.withChip (c.modFrame c.core c.frame fun f => { f.advance with slots := [f.npc, f.nnpc] })))
    ∧ (s.chip.me.inSlot = true → standsInSlot i = false → Traps s i (causeWord i) 0x02 0 0))
  ∧ (∀ (s : State) (neg : Bool) (p : BitVec 3), s.chip.capturing = false →
    let lands := guardHolds ⟨neg, p⟩ s.chip.me.sw
    (∀ (q : BitVec 3) (a : Reg) (i : BitVec 12), s.chip.usable [a] [] = true →
      let k := Instr.cmpImm ⟨neg, p⟩ p q a i
      let c := s.chip.issuing k
      exec k s = .next (s.withChip (if lands then
        (((c.popped a).flagged p (compares q.toNat (c.val a) (BitVec.ofInt 64 i.toInt))).goOn) else c.goOn)))
    ∧ (∀ (q : Cond) (a b : Reg), s.chip.usable [a, b] [] = true →
      let k := Instr.cmp ⟨neg, p⟩ p a b q
      let c := s.chip.issuing k
      exec k s = .next (s.withChip (if lands then
        (((c.poppedAll [a, b]).flagged p (compares q.code (c.val a) ((c.popped a).val b))).goOn) else c.goOn)))
    ∧ (∀ a b : BitVec 3, ∀ k ∈ [(Instr.pand ⟨neg, p⟩ p a b, fun x y => x && y), (.por ⟨neg, p⟩ p a b, fun x y => x || y),
        (.pxor ⟨neg, p⟩ p a b, fun x y => x != y), (.pandn ⟨neg, p⟩ p a b, fun x y => x && !y)],
      let c := s.chip.issuing k.1
      exec k.1 s = .next (s.withChip (if lands then
        ((c.flagged p (k.2 (predOf c.me.sw a) (predOf c.me.sw b))).goOn) else c.goOn))))

/-- R155, R156, R186: the entry of a trap handler with what it saves; a trap in a handler, with a table entry of zero, or with one
that cannot be read is fatal; one whose entry's page the caches do not hold waits for its walk; `go` in a handler raises 0x01. The
table is read at the context's privilege, supervisor for context 0 alone (log 62). -/
def Obligations.TrapEntry : Prop :=
  (∀ (c : Chip) (core frame : Nat) (word : BitVec 32) (seq : Bool) (cause detail : Nat) (eaddr : Word),
    cause < 256 → cause ≠ 0x0B → detail < 256 →
    let f := c.frameAt core frame
    let d := c.takeTrap core frame word seq cause detail eaddr
    let e := d.frameAt core frame
    let va := (c.ctxAt f.ctx).tvbase + BitVec.ofNat 64 (8 * cause)
    let page := va.toNat / 2 ^ 16
    let isFatal := d.reports = c.reports ++ [.fatal core frame]
      ∧ (f.preempt = none →
          e = { f with st := .parked, fatal := true, walkFault := none, trapping := none, far := [] }
          ∧ ∀ k n, (k, n) ≠ (core, frame) → d.frameAt k n = c.frameAt k n)
      ∧ ∀ k n, f.preempt = some (.frame k n) → (k, n) ≠ (core, frame) →
          e.st = .parked ∧ e.fatal = true ∧ (d.coreAt k).pstat = 0 ∧ (d.frameAt k n).st = .ready
    let reads := f.inTrap = false ∧ addrCheck va (f.ctx == 0) = none
    (∀ leaf size, reads → c.cached (sigOf core) f.ctx va.toNat = some (leaf, size) →
      let p : Phys := ⟨leaf, size, leafAddr leaf size va.toNat⟩
      let h := BitVec.ofNat 64 (leNat (c.readPhys p 8))
      (leafRights leaf .r false = true → c.physBad p 8 = false → h ≠ 0 →
        e.st = .ready ∧ e.pc = h ∧ e.npc = h + 4 ∧ e.nnpc = h + 8
        ∧ (cause ≠ 0x11 → e.epc = f.pc ∧ e.enpc = f.npc ∧ e.ennpc = f.nnpc)
        ∧ (cause = 0x11 → e.epc = f.npc ∧ e.enpc = f.nnpc ∧ e.ennpc = f.nnpc + 4)
        ∧ e.esw = (c.coreAt core).swOf frame ∧ e.eaddr = eaddr
        ∧ e.ecause = BitVec.ofNat 64 (word.toNat * 2 ^ 32 + seq.toNat * 2 ^ 16 + detail * 2 ^ 8 + cause)
        ∧ tst e.sw 18 = true ∧ tst e.sw 17 = false ∧ bits e.sw 29 24 = 0
        ∧ (∀ n, n < 64 → n ≠ 17 → n ≠ 18 → (n < 24 ∨ 29 < n) → tst e.sw n = tst f.sw n)
        ∧ e.g = f.g ∧ e.tname = f.tname ∧ e.tjoin = f.tjoin
        ∧ ∀ k n, (k, n) ≠ (core, frame) → d.frameAt k n = c.frameAt k n)
      ∧ (leafRights leaf .r false = false ∨ c.physBad p 8 = true ∨ h = 0 → isFatal))
    ∧ (f.inTrap = true ∨ addrCheck va (f.ctx == 0) ≠ none → isFatal)
    ∧ (reads → c.cached (sigOf core) f.ctx va.toNat = none →
      ((∃ n, f.walkFault = some (page, n)) → isFatal)
      ∧ ((∀ n, f.walkFault ≠ some (page, n)) → d.walking core frame page = true
          ∧ e = { f with st := .stalled (.walk page), trapping := some ⟨word, seq, cause, detail, eaddr⟩ }
          ∧ ∀ k n, (k, n) ≠ (core, frame) → d.frameAt k n = c.frameAt k n)))
  ∧ (∀ (s : State) (g : Guard) (a : Reg), s.chip.clear g = true → s.chip.me.inTrap = true →
    Traps s (.go g a) (causeWord (.go g a)) 0x01 0 0)

/-- R17, R128, R272, R289, R309: a step of a core's issue slot executes the instruction that the bytes at the chosen frame's
pc decode to, or the step for a word that names none; around that the banks and the deque of the cycle take its writes or hold them
back (R78, R134), and where it has made none, nothing is added. The agenda is the model's own (log 3). -/
def Obligations.StepRunsDecoded : Prop :=
  ∀ (s : State) (x : Turn) (rest : List Turn) (core f : Nat) (p : Phys),
    let c0 := (s.chip.pass x.after).freeSlot core
    let c := c0.begin_ core f
    let w : BitVec 32 := BitVec.ofNat 32 (leNat (c.readPhys p 4))
    let u : State := { s with chip := c, agenda := rest, turnCore := core }
    let ran := match decode w with
      | some i => exec i u
      | none => exec (.illegalInstruction w) u
    s.agenda = x :: rest → x.act = .issue core → c0.pick core = some f →
    (c.coreAt core).badImage f = none →
    c.lookup (c.frameAt core f).pc .x false = .ok p → c.physBad p 4 = false →
    (∀ t, ran = .next t → (∀ d, c0.merge t.chip c.wordWriter = .taken d → step s = .next (t.withChip d))
      ∧ (∀ d, c0.merge t.chip c.wordWriter = .held d →
          step s = .next (u.withChip (d.holdFrame core f (t.chip.coreAt core))))
      ∧ (Quiet t.chip → c0.withheld c.wordWriter = false → step s = .next t))
    ∧ ((∀ t, ran ≠ .next t) → step s = ran)

/-- R272 to R289: words written from their encodings decode to their instructions. -/
def Obligations.WordsDecode : Prop :=
  decode 0x00531C02 = some (.sub ⟨false, 0⟩ (.g 5) (.g 6) (.g 7))
  ∧ decode 0x004088DF = some (.lea ⟨false, 0⟩ (.g 4) (.g 1) (.g 2) 3)
  ∧ decode 0x218E0040 = some (.movi ⟨false, 0⟩ (.g 3) 2 0x40)
  ∧ decode 0x40600000 = some (.ret ⟨false, 0⟩ 0)
  ∧ decode 0x40C00005 = some (.spawn ⟨false, 0⟩ (.g 5))
  ∧ decode 0x60B20C02 = some (.st ⟨false, 0⟩ .b64 (.g 4) (.g 3) 2)
  ∧ decode 0x80600443 = some (.vminF32 ⟨false, 0⟩ 0 false false false 1 2 3)
  ∧ decode 0xA0472004 = some (.get ⟨false, 0⟩ (.g 7) (.g 4) none .b32)
  ∧ decode 0xC00218A4 = some (.mgetLink ⟨false, 0⟩ (.g 4) (.g 6) (.g 5) 1)
  ∧ decode 0xE0410000 = some (.getc ⟨false, 0⟩ (.g 1) 0)
  ∧ decode 0xE0A02980 = some (.xinv ⟨false, 0⟩ (.g 5) (.g 6))
  ∧ decode 0x00000000 = none

/-- R272 to R289: the word of a well-formed instruction decodes to that instruction, every operand at every value that its
field admits, and every instruction that is not another agent's step has a word. -/
def Obligations.DecodeEncode : Prop :=
  ∀ i : Instr, WellFormed i = true →
    (∀ w : BitVec 32, encode i = some w → decode w = some i)
    ∧ (isEvent i = false → (∀ w, i ≠ .illegalInstruction w) → ∃ j, decode (causeWord i) = some j)

/-- R289, R306, R399, R412: a word has one meaning. Every word that decodes to an instruction is the one word that the
encoding tables give for it, so a word with a reserved field, an unlisted modifier or an unused field that is not zero names
no instruction. -/
def Obligations.WordsHaveOneMeaning : Prop :=
  ∀ (w : BitVec 32) (i : Instr), decode w = some i → WellFormed i = true ∧ encode i = some w

/-- R418: a step that is neither an extension nor the start leaves every measurement register as it was. The agenda is the
model's own (log 3). -/
def Obligations.MeasurementsKept : Prop :=
  ∀ (m : Vector (BitVec 384) 8) (s t : State), Measured m s → step s = .next t → Measured m t

/-- R105, R123, R207, R208, R415, R418: what the machine holds at reset, as far as the spec gives it. That every queue is disabled
and every frame free is the choice of log 1, what a byte of the scratchpad reads as that of log 2; the state is that before the
first start (log 11). -/
def Obligations.ResetState : Prop :=
  Measured (Vector.replicate 8 0) State.reset
  ∧ (∀ p, p < 16 → (State.reset.chip.portAt p).st = .down ∧ (State.reset.chip.portAt p).dis = true)
  ∧ bits State.reset.chip.fabcfg 15 0 = 1000 ∧ State.reset.chip.nextLaunch = 1
  ∧ (∀ q, (State.reset.chip.queueAt q).st = .disabled) ∧ State.reset.chip.devState = 0
  ∧ State.reset.chip.hbm = [] ∧ State.reset.chip.host = [] ∧ State.reset.chip.far = []
  ∧ (∀ core, (State.reset.chip.coreAt core).pad = []) ∧ (∀ a, rdByte [] a = unwritten)
  ∧ ∀ core f, (State.reset.chip.frameAt core f).st = .free
end

