-- ==== Sys2Proof/Laws/Memory.lean ====
section
/-! SUPPORT. Laws of the two containers: a table read after a write, and memory's canonical form with the read after a
write (R5, log 2). -/

namespace Sys2Proof

/-! ## Tables -/

@[simp] theorem tget_tset_same {α : Type} (d v : α) (t : Tab α) (k : Nat) : tget d (tset t k v) k = v := by
  induction t with
  | nil => simp [tset, tget]
  | cons p r ih =>
    obtain ⟨j, w⟩ := p
    simp only [tset]
    split
    · simp [tget]
    · split
      · simp [tget]
      · simp [tget, *]

theorem tget_tset_other {α : Type} (d v : α) (t : Tab α) {k j : Nat} (h : j ≠ k) :
    tget d (tset t k v) j = tget d t j := by
  induction t with
  | nil => simp [tset, tget, Ne.symm h]
  | cons p r ih =>
    obtain ⟨i, w⟩ := p
    simp only [tset]
    split
    · next e => subst e; simp [tget, Ne.symm h]
    · split
      · simp [tget, Ne.symm h]
      · simp [tget, ih]

theorem tget_tset {α : Type} (d v : α) (t : Tab α) (k j : Nat) :
    tget d (tset t k v) j = if j = k then v else tget d t j := by
  split
  · next e => subst e; exact tget_tset_same ..
  · next h => exact tget_tset_other _ _ _ h

/-! ## Memory in canonical form -/

/-- Every listed address lies above a bound. -/
def Memory.above (m : Memory) (a : Nat) : Prop := ∀ p ∈ m, a < p.1

theorem Memory.wf_cons (a : Nat) (v : Byte) (r : Memory) :
    Memory.wf ((a, v) :: r) = true ↔ v ≠ 0 ∧ Memory.above r a ∧ Memory.wf r = true := by
  induction r generalizing a v with
  | nil => simp [Memory.wf, Memory.above]
  | cons p r ih =>
    obtain ⟨b, w⟩ := p
    have hb := ih b w
    simp only [Memory.wf, Bool.and_eq_true, bne_iff_ne, decide_eq_true_eq, Memory.above, List.mem_cons]
    constructor
    · rintro ⟨⟨hv, hab⟩, hr⟩
      refine ⟨hv, ?_, hr⟩
      rintro q (rfl | hq)
      · exact hab
      · exact Nat.lt_trans hab ((hb.1 hr).2.1 q hq)
    · rintro ⟨hv, hall, hr⟩
      exact ⟨⟨hv, hall (b, w) (Or.inl rfl)⟩, hr⟩

theorem rdByte_above (m : Memory) (a : Nat) (h : m.above a) : rdByte m a = unwritten := by
  induction m with
  | nil => rfl
  | cons p r ih =>
    have : a < p.1 := h p (by simp)
    have hne : p.1 ≠ a := by omega
    obtain ⟨b, w⟩ := p
    simp only [rdByte, if_neg hne]
    exact ih fun q hq => h q (by simp [hq])

theorem mem_wrByte {m : Memory} {a : Nat} {v : Byte} {p : Host.Cell} (h : p ∈ wrByte m a v) : p = (a, v) ∨ p ∈ m := by
  induction m with
  | nil => simp only [wrByte] at h; split at h <;> simp_all
  | cons q r ih =>
    obtain ⟨b, w⟩ := q
    simp only [wrByte] at h
    split at h
    · split at h <;> simp_all
    · split at h
      · split at h
        · simp_all
        · simp only [List.mem_cons] at h ⊢; exact h.imp_right Or.inr
      · simp only [List.mem_cons] at h ⊢
        rcases h with h | h
        · exact Or.inr (Or.inl h)
        · exact (ih h).imp id Or.inr

/-- A byte write keeps the canonical form. -/
theorem wrByte_wf (m : Memory) (a : Nat) (v : Byte) (h : m.wf = true) : (wrByte m a v).wf = true := by
  induction m with
  | nil => simp only [wrByte]; split <;> simp_all [Memory.wf, unwritten]
  | cons p r ih =>
    obtain ⟨b, w⟩ := p
    obtain ⟨hw, hab, hr⟩ := (Memory.wf_cons b w r).1 h
    simp only [wrByte]
    split
    · next hlt =>
      split
      · exact h
      · next hv =>
        refine (Memory.wf_cons _ _ _).2 ⟨hv, ?_, h⟩
        intro q hq
        rcases List.mem_cons.1 hq with rfl | hq
        · exact hlt
        · exact Nat.lt_trans hlt (hab q hq)
    · split
      · next e =>
        subst e
        split
        · exact hr
        · next hv => exact (Memory.wf_cons _ _ _).2 ⟨hv, hab, hr⟩
      · refine (Memory.wf_cons _ _ _).2 ⟨hw, ?_, ih hr⟩
        intro q hq
        rcases mem_wrByte hq with rfl | hq
        · simp only; omega
        · exact hab q hq

/-- A read after a write of the same byte. -/
theorem rdByte_wrByte_same (m : Memory) (a : Nat) (v : Byte) (h : m.wf = true) : rdByte (wrByte m a v) a = v := by
  induction m with
  | nil => simp only [wrByte]; split <;> simp_all [rdByte]
  | cons p r ih =>
    obtain ⟨b, w⟩ := p
    obtain ⟨hw, hab, hr⟩ := (Memory.wf_cons b w r).1 h
    simp only [wrByte]
    split
    · next hlt =>
      split
      · next hv =>
        rw [rdByte_above _ _ (by
          intro q hq
          rcases List.mem_cons.1 hq with rfl | hq
          · exact hlt
          · exact Nat.lt_trans hlt (hab q hq)), hv]
      · simp [rdByte]
    · split
      · next e =>
        subst e
        split
        · next hv => rw [rdByte_above _ _ hab, hv]
        · simp [rdByte]
      · next hne => simp only [rdByte, if_neg (Ne.symm hne)]; exact ih hr

/-- A write leaves every other byte alone. -/
theorem rdByte_wrByte_other (m : Memory) {a b : Nat} (v : Byte) (hne : b ≠ a) :
    rdByte (wrByte m a v) b = rdByte m b := by
  induction m with
  | nil => simp only [wrByte]; split <;> simp [rdByte, Ne.symm hne]
  | cons p r ih =>
    obtain ⟨c, w⟩ := p
    simp only [wrByte]
    split
    · split <;> simp [rdByte, Ne.symm hne]
    · split
      · next e => subst e; split <;> simp [rdByte, Ne.symm hne]
      · simp only [rdByte, ih]

/-- A write of several bytes keeps the canonical form. -/
theorem wrBytes_wf (l : List Byte) (m : Memory) (a : Nat) (h : m.wf = true) : (wrBytes m a l).wf = true := by
  induction l generalizing m a with
  | nil => exact h
  | cons b r ih => exact ih _ _ (wrByte_wf _ _ _ h)

/-- Writes outside a byte leave it alone. -/
theorem rdByte_wrBytes_other (l : List Byte) (m : Memory) (a b : Nat) (h : b < a ∨ a + l.length ≤ b) :
    rdByte (wrBytes m a l) b = rdByte m b := by
  induction l generalizing m a with
  | nil => rfl
  | cons v r ih =>
    simp only [List.length_cons] at h
    rw [wrBytes, ih _ _ (by omega), rdByte_wrByte_other _ _ (by omega)]

/-- Writes of a range put each byte in its place. -/
theorem rdByte_wrBytes (l : List Byte) (m : Memory) (a i : Nat) (h : m.wf = true) (hi : i < l.length) :
    rdByte (wrBytes m a l) (a + i) = l[i] := by
  induction l generalizing m a i with
  | nil => simp at hi
  | cons v r ih =>
    cases i with
    | zero =>
      rw [wrBytes, rdByte_wrBytes_other _ _ _ _ (by omega)]
      exact rdByte_wrByte_same _ _ _ h
    | succ j =>
      have hj : j < r.length := by simpa using hi
      have := ih (wrByte m a v) (a + 1) j (wrByte_wf _ _ _ h) hj
      simp only [wrBytes, List.getElem_cons_succ]
      rw [← this]; congr 1; omega

/-- A range read after it was written gives what was written. -/
theorem rdBytes_wrBytes (l : List Byte) (m : Memory) (a : Nat) (h : m.wf = true) :
    rdBytes (wrBytes m a l) a l.length = l := by
  have key : ∀ (k : Nat) (n : Memory) (b : Nat) (r : List Byte), r.length = k →
      (∀ i (hi : i < r.length), rdByte n (b + i) = r[i]) → rdBytes n b r.length = r := by
    intro k
    induction k with
    | zero => intro n b r hr _; rw [List.length_eq_zero_iff.1 hr]; rfl
    | succ k ih =>
      intro n b r hr hall
      cases r with
      | nil => simp at hr
      | cons v r =>
        simp only [List.length_cons, rdBytes, List.cons.injEq]
        refine ⟨hall 0 (Nat.succ_pos _), ih n (b + 1) r (by simpa using hr) ?_⟩
        intro i hi
        have := hall (i + 1) (by simpa using hi)
        simp only [List.getElem_cons_succ] at this
        rw [← this]; congr 1; omega
  exact key l.length _ a l rfl fun i hi => rdByte_wrBytes l m a i h hi

@[simp] theorem toLe_length (n v : Nat) : (toLe n v).length = n := by
  induction n generalizing v with
  | zero => rfl
  | succ n ih => simp [toLe, ih]

@[simp] theorem rdBytes_length (m : Memory) (a n : Nat) : (rdBytes m a n).length = n := by
  induction n generalizing a with
  | zero => rfl
  | succ n ih => simp [rdBytes, ih]

/-- Little-endian bytes give the number back (R5). -/
theorem leNat_toLe (n v : Nat) : leNat (toLe n v) = v % 2 ^ (8 * n) := by
  induction n generalizing v with
  | zero => simp [toLe, leNat, Nat.mod_one]
  | succ n ih =>
    rw [toLe, leNat, ih]
    have h : 2 ^ (8 * (n + 1)) = 256 * 2 ^ (8 * n) := by rw [Nat.mul_succ, Nat.pow_add, Nat.mul_comm]
    rw [h, Nat.mod_mul]
    simp

/-- A number read back from where it was written (R5). -/
theorem rdLe_wrLe (m : Memory) (a n v : Nat) (h : m.wf = true) : rdLe (wrLe m a n v) a n = v % 2 ^ (8 * n) := by
  have := rdBytes_wrBytes (toLe n v) m a h
  rw [toLe_length] at this
  rw [rdLe, wrLe, this, leNat_toLe]

/-- A number's write keeps the canonical form. -/
theorem wrLe_wf (m : Memory) (a n v : Nat) (h : m.wf = true) : (wrLe m a n v).wf = true := wrBytes_wf _ _ _ h

/-- A doubleword read back from where it was written (R5). -/
theorem rd64_wr64 (m : Memory) (a : Nat) (v : Word) (h : m.wf = true) : rd64 (wr64 m a v) a = v := by
  rw [rd64, wr64, rdLe_wrLe _ _ _ _ h]
  exact BitVec.eq_of_toNat_eq (by simp; omega)

end Sys2Proof
end

