-- ==== Sys2Proof/Laws/State.lean ====
section
/-! SUPPORT. Field laws of the state's updates: what each update of a package, a core or a frame leaves of each field, all
by definition, and the reads of a core, a frame or a context after it is changed. -/

namespace Sys2Proof.Machine

/-! ## Reads after changes -/

@[simp] theorem Chip.coreAt_modCore (c : Chip) (n : Nat) (f : Core → Core) : (c.modCore n f).coreAt n = f (c.coreAt n) :=
  tget_tset_same ..
theorem Chip.coreAt_modCore_other (c : Chip) {n m : Nat} (f : Core → Core) (h : m ≠ n) :
    (c.modCore n f).coreAt m = c.coreAt m := tget_tset_other _ _ _ h
@[simp] theorem Core.frameAt_modFrame (k : Core) (n : Nat) (u : Frame → Frame) :
    (k.modFrame n u).frameAt n = u (k.frameAt n) := tget_tset_same ..
theorem Core.frameAt_modFrame_other (k : Core) {n m : Nat} (u : Frame → Frame) (h : m ≠ n) :
    (k.modFrame n u).frameAt m = k.frameAt m := tget_tset_other _ _ _ h
@[simp] theorem Chip.coreAt_modFrame (c : Chip) (n f : Nat) (u : Frame → Frame) :
    (c.modFrame n f u).coreAt n = (c.coreAt n).modFrame f u := Chip.coreAt_modCore ..
theorem Chip.coreAt_modFrame_other (c : Chip) {n m : Nat} (f : Nat) (u : Frame → Frame) (h : m ≠ n) :
    (c.modFrame n f u).coreAt m = c.coreAt m := Chip.coreAt_modCore_other _ _ h
@[simp] theorem Chip.frameAt_modFrame (c : Chip) (n f : Nat) (u : Frame → Frame) :
    (c.modFrame n f u).frameAt n f = u (c.frameAt n f) := by simp [Chip.frameAt]
theorem Chip.frameAt_modFrame_other (c : Chip) {n f m e : Nat} (u : Frame → Frame) (h : m ≠ n ∨ e ≠ f) :
    (c.modFrame n f u).frameAt m e = c.frameAt m e := by
  rw [Chip.frameAt, Chip.frameAt]
  by_cases hm : m = n
  · subst hm
    rw [Chip.coreAt_modFrame, Core.frameAt_modFrame_other _ _ (h.resolve_left (· rfl))]
  · rw [Chip.coreAt_modFrame_other _ _ _ hm]
@[simp] theorem Chip.ctxAt_modCtx (c : Chip) (n : Nat) (f : Ctx → Ctx) : (c.modCtx n f).ctxAt n = f (c.ctxAt n) :=
  tget_tset_same ..
theorem Chip.ctxAt_modCtx_other (c : Chip) {n m : Nat} (f : Ctx → Ctx) (h : m ≠ n) :
    (c.modCtx n f).ctxAt m = c.ctxAt m := tget_tset_other _ _ _ h
@[simp] theorem Chip.ctxAt_modCore (c : Chip) (n : Nat) (f : Core → Core) (m : Nat) :
    (c.modCore n f).ctxAt m = c.ctxAt m := rfl
@[simp] theorem Chip.ctxAt_modFrame (c : Chip) (n e : Nat) (u : Frame → Frame) (m : Nat) :
    (c.modFrame n e u).ctxAt m = c.ctxAt m := rfl
@[simp] theorem Chip.pkg_modCore (c : Chip) (n : Nat) (f : Core → Core) : (c.modCore n f).pkg = c.pkg := rfl
@[simp] theorem Chip.pkg_modFrame (c : Chip) (n e : Nat) (u : Frame → Frame) : (c.modFrame n e u).pkg = c.pkg := rfl
@[simp] theorem Chip.cached_modCore (c : Chip) (n : Nat) (f : Core → Core) (g x v : Nat) :
    (c.modCore n f).cached g x v = c.cached g x v := rfl
@[simp] theorem Chip.cached_modFrame (c : Chip) (n e : Nat) (u : Frame → Frame) (g x v : Nat) :
    (c.modFrame n e u).cached g x v = c.cached g x v := rfl

/-! ## A change of one core -/

@[simp] theorem Chip.modCore_now (c : Chip) (n : Nat) (f : Core → Core) : (c.modCore n f).now = c.now := rfl
@[simp] theorem Chip.modCore_started (c : Chip) (n : Nat) (f : Core → Core) : (c.modCore n f).started = c.started := rfl
@[simp] theorem Chip.modCore_core (c : Chip) (n : Nat) (f : Core → Core) : (c.modCore n f).core = c.core := rfl
@[simp] theorem Chip.modCore_frame (c : Chip) (n : Nat) (f : Core → Core) : (c.modCore n f).frame = c.frame := rfl
@[simp] theorem Chip.modCore_word (c : Chip) (n : Nat) (f : Core → Core) : (c.modCore n f).word = c.word := rfl
@[simp] theorem Chip.modCore_hbm (c : Chip) (n : Nat) (f : Core → Core) : (c.modCore n f).hbm = c.hbm := rfl
@[simp] theorem Chip.modCore_hbmPoison (c : Chip) (n : Nat) (f : Core → Core) : (c.modCore n f).hbmPoison = c.hbmPoison := rfl
@[simp] theorem Chip.modCore_dead (c : Chip) (n : Nat) (f : Core → Core) : (c.modCore n f).dead = c.dead := rfl
@[simp] theorem Chip.modCore_host (c : Chip) (n : Nat) (f : Core → Core) : (c.modCore n f).host = c.host := rfl
@[simp] theorem Chip.modCore_hostBad (c : Chip) (n : Nat) (f : Core → Core) : (c.modCore n f).hostBad = c.hostBad := rfl
@[simp] theorem Chip.modCore_far (c : Chip) (n : Nat) (f : Core → Core) : (c.modCore n f).far = c.far := rfl
@[simp] theorem Chip.modCore_agentResv (c : Chip) (n : Nat) (f : Core → Core) : (c.modCore n f).agentResv = c.agentResv := rfl
@[simp] theorem Chip.modCore_agentWait (c : Chip) (n : Nat) (f : Core → Core) : (c.modCore n f).agentWait = c.agentWait := rfl
@[simp] theorem Chip.modCore_ctxs (c : Chip) (n : Nat) (f : Core → Core) : (c.modCore n f).ctxs = c.ctxs := rfl
@[simp] theorem Chip.modCore_queues (c : Chip) (n : Nat) (f : Core → Core) : (c.modCore n f).queues = c.queues := rfl
@[simp] theorem Chip.modCore_turn (c : Chip) (n : Nat) (f : Core → Core) : (c.modCore n f).turn = c.turn := rfl
@[simp] theorem Chip.modCore_hqs (c : Chip) (n : Nat) (f : Core → Core) : (c.modCore n f).hqs = c.hqs := rfl
@[simp] theorem Chip.modCore_grants (c : Chip) (n : Nat) (f : Core → Core) : (c.modCore n f).grants = c.grants := rfl
@[simp] theorem Chip.modCore_shares (c : Chip) (n : Nat) (f : Core → Core) : (c.modCore n f).shares = c.shares := rfl
@[simp] theorem Chip.modCore_launches (c : Chip) (n : Nat) (f : Core → Core) : (c.modCore n f).launches = c.launches := rfl
@[simp] theorem Chip.modCore_nextLaunch (c : Chip) (n : Nat) (f : Core → Core) : (c.modCore n f).nextLaunch = c.nextLaunch := rfl
@[simp] theorem Chip.modCore_foreign (c : Chip) (n : Nat) (f : Core → Core) : (c.modCore n f).foreign = c.foreign := rfl
@[simp] theorem Chip.modCore_ring (c : Chip) (n : Nat) (f : Core → Core) : (c.modCore n f).ring = c.ring := rfl
@[simp] theorem Chip.modCore_signatures (c : Chip) (n : Nat) (f : Core → Core) : (c.modCore n f).signatures = c.signatures := rfl
@[simp] theorem Chip.modCore_tlb (c : Chip) (n : Nat) (f : Core → Core) : (c.modCore n f).tlb = c.tlb := rfl
@[simp] theorem Chip.modCore_walks (c : Chip) (n : Nat) (f : Core → Core) : (c.modCore n f).walks = c.walks := rfl
@[simp] theorem Chip.modCore_job (c : Chip) (n : Nat) (f : Core → Core) : (c.modCore n f).job = c.job := rfl
@[simp] theorem Chip.modCore_shut (c : Chip) (n : Nat) (f : Core → Core) : (c.modCore n f).shut = c.shut := rfl
@[simp] theorem Chip.modCore_net (c : Chip) (n : Nat) (f : Core → Core) : (c.modCore n f).net = c.net := rfl
@[simp] theorem Chip.modCore_steals (c : Chip) (n : Nat) (f : Core → Core) : (c.modCore n f).steals = c.steals := rfl
@[simp] theorem Chip.modCore_out (c : Chip) (n : Nat) (f : Core → Core) : (c.modCore n f).out = c.out := rfl
@[simp] theorem Chip.modCore_retained (c : Chip) (n : Nat) (f : Core → Core) : (c.modCore n f).retained = c.retained := rfl
@[simp] theorem Chip.modCore_streamsOut (c : Chip) (n : Nat) (f : Core → Core) : (c.modCore n f).streamsOut = c.streamsOut := rfl
@[simp] theorem Chip.modCore_streamsIn (c : Chip) (n : Nat) (f : Core → Core) : (c.modCore n f).streamsIn = c.streamsIn := rfl
@[simp] theorem Chip.modCore_ports (c : Chip) (n : Nat) (f : Core → Core) : (c.modCore n f).ports = c.ports := rfl
@[simp] theorem Chip.modCore_fabcfg (c : Chip) (n : Nat) (f : Core → Core) : (c.modCore n f).fabcfg = c.fabcfg := rfl
@[simp] theorem Chip.modCore_exports (c : Chip) (n : Nat) (f : Core → Core) : (c.modCore n f).exports = c.exports := rfl
@[simp] theorem Chip.modCore_regions (c : Chip) (n : Nat) (f : Core → Core) : (c.modCore n f).regions = c.regions := rfl
@[simp] theorem Chip.modCore_pending (c : Chip) (n : Nat) (f : Core → Core) : (c.modCore n f).pending = c.pending := rfl
@[simp] theorem Chip.modCore_edits (c : Chip) (n : Nat) (f : Core → Core) : (c.modCore n f).edits = c.edits := rfl
@[simp] theorem Chip.modCore_rounds (c : Chip) (n : Nat) (f : Core → Core) : (c.modCore n f).rounds = c.rounds := rfl
@[simp] theorem Chip.modCore_claimed (c : Chip) (n : Nat) (f : Core → Core) : (c.modCore n f).claimed = c.claimed := rfl
@[simp] theorem Chip.modCore_tiles (c : Chip) (n : Nat) (f : Core → Core) : (c.modCore n f).tiles = c.tiles := rfl
@[simp] theorem Chip.modCore_reports (c : Chip) (n : Nat) (f : Core → Core) : (c.modCore n f).reports = c.reports := rfl
@[simp] theorem Chip.modCore_testing (c : Chip) (n : Nat) (f : Core → Core) : (c.modCore n f).testing = c.testing := rfl
@[simp] theorem Chip.modCore_failed (c : Chip) (n : Nat) (f : Core → Core) : (c.modCore n f).failed = c.failed := rfl
@[simp] theorem Chip.modCore_spares (c : Chip) (n : Nat) (f : Core → Core) : (c.modCore n f).spares = c.spares := rfl
@[simp] theorem Chip.modCore_corrected (c : Chip) (n : Nat) (f : Core → Core) : (c.modCore n f).corrected = c.corrected := rfl
@[simp] theorem Chip.modCore_monitors (c : Chip) (n : Nat) (f : Core → Core) : (c.modCore n f).monitors = c.monitors := rfl
@[simp] theorem Chip.modCore_health (c : Chip) (n : Nat) (f : Core → Core) : (c.modCore n f).health = c.health := rfl
@[simp] theorem Chip.modCore_hlhead (c : Chip) (n : Nat) (f : Core → Core) : (c.modCore n f).hlhead = c.hlhead := rfl
@[simp] theorem Chip.modCore_msix (c : Chip) (n : Nat) (f : Core → Core) : (c.modCore n f).msix = c.msix := rfl
@[simp] theorem Chip.modCore_starts (c : Chip) (n : Nat) (f : Core → Core) : (c.modCore n f).starts = c.starts := rfl
@[simp] theorem Chip.modCore_devState (c : Chip) (n : Nat) (f : Core → Core) : (c.modCore n f).devState = c.devState := rfl
@[simp] theorem Chip.modCore_devStep (c : Chip) (n : Nat) (f : Core → Core) : (c.modCore n f).devStep = c.devStep := rfl
@[simp] theorem Chip.modCore_journal (c : Chip) (n : Nat) (f : Core → Core) : (c.modCore n f).journal = c.journal := rfl
@[simp] theorem Chip.modCore_jstarted (c : Chip) (n : Nat) (f : Core → Core) : (c.modCore n f).jstarted = c.jstarted := rfl
@[simp] theorem Chip.modCore_jalt (c : Chip) (n : Nat) (f : Core → Core) : (c.modCore n f).jalt = c.jalt := rfl
@[simp] theorem Chip.modCore_jreset (c : Chip) (n : Nat) (f : Core → Core) : (c.modCore n f).jreset = c.jreset := rfl
@[simp] theorem Chip.modCore_nonce (c : Chip) (n : Nat) (f : Core → Core) : (c.modCore n f).nonce = c.nonce := rfl
@[simp] theorem Chip.modCore_atst (c : Chip) (n : Nat) (f : Core → Core) : (c.modCore n f).atst = c.atst := rfl
@[simp] theorem Chip.modCore_atstSince (c : Chip) (n : Nat) (f : Core → Core) : (c.modCore n f).atstSince = c.atstSince := rfl
@[simp] theorem Chip.modCore_report (c : Chip) (n : Nat) (f : Core → Core) : (c.modCore n f).report = c.report := rfl
@[simp] theorem Chip.modCore_nextReq (c : Chip) (n : Nat) (f : Core → Core) : (c.modCore n f).nextReq = c.nextReq := rfl
@[simp] theorem Chip.modCore_nextThread (c : Chip) (n : Nat) (f : Core → Core) : (c.modCore n f).nextThread = c.nextThread := rfl
@[simp] theorem Chip.modCore_freeCount (c : Chip) (n : Nat) (f : Core → Core) : (c.modCore n f).freeCount = c.freeCount := rfl

/-! ## A change of one frame -/

@[simp] theorem Chip.modFrame_now (c : Chip) (n e : Nat) (u : Frame → Frame) : (c.modFrame n e u).now = c.now := rfl
@[simp] theorem Chip.modFrame_started (c : Chip) (n e : Nat) (u : Frame → Frame) : (c.modFrame n e u).started = c.started := rfl
@[simp] theorem Chip.modFrame_core (c : Chip) (n e : Nat) (u : Frame → Frame) : (c.modFrame n e u).core = c.core := rfl
@[simp] theorem Chip.modFrame_frame (c : Chip) (n e : Nat) (u : Frame → Frame) : (c.modFrame n e u).frame = c.frame := rfl
@[simp] theorem Chip.modFrame_word (c : Chip) (n e : Nat) (u : Frame → Frame) : (c.modFrame n e u).word = c.word := rfl
@[simp] theorem Chip.modFrame_hbm (c : Chip) (n e : Nat) (u : Frame → Frame) : (c.modFrame n e u).hbm = c.hbm := rfl
@[simp] theorem Chip.modFrame_hbmPoison (c : Chip) (n e : Nat) (u : Frame → Frame) : (c.modFrame n e u).hbmPoison = c.hbmPoison := rfl
@[simp] theorem Chip.modFrame_dead (c : Chip) (n e : Nat) (u : Frame → Frame) : (c.modFrame n e u).dead = c.dead := rfl
@[simp] theorem Chip.modFrame_host (c : Chip) (n e : Nat) (u : Frame → Frame) : (c.modFrame n e u).host = c.host := rfl
@[simp] theorem Chip.modFrame_hostBad (c : Chip) (n e : Nat) (u : Frame → Frame) : (c.modFrame n e u).hostBad = c.hostBad := rfl
@[simp] theorem Chip.modFrame_far (c : Chip) (n e : Nat) (u : Frame → Frame) : (c.modFrame n e u).far = c.far := rfl
@[simp] theorem Chip.modFrame_agentResv (c : Chip) (n e : Nat) (u : Frame → Frame) : (c.modFrame n e u).agentResv = c.agentResv := rfl
@[simp] theorem Chip.modFrame_agentWait (c : Chip) (n e : Nat) (u : Frame → Frame) : (c.modFrame n e u).agentWait = c.agentWait := rfl
@[simp] theorem Chip.modFrame_ctxs (c : Chip) (n e : Nat) (u : Frame → Frame) : (c.modFrame n e u).ctxs = c.ctxs := rfl
@[simp] theorem Chip.modFrame_queues (c : Chip) (n e : Nat) (u : Frame → Frame) : (c.modFrame n e u).queues = c.queues := rfl
@[simp] theorem Chip.modFrame_turn (c : Chip) (n e : Nat) (u : Frame → Frame) : (c.modFrame n e u).turn = c.turn := rfl
@[simp] theorem Chip.modFrame_hqs (c : Chip) (n e : Nat) (u : Frame → Frame) : (c.modFrame n e u).hqs = c.hqs := rfl
@[simp] theorem Chip.modFrame_grants (c : Chip) (n e : Nat) (u : Frame → Frame) : (c.modFrame n e u).grants = c.grants := rfl
@[simp] theorem Chip.modFrame_shares (c : Chip) (n e : Nat) (u : Frame → Frame) : (c.modFrame n e u).shares = c.shares := rfl
@[simp] theorem Chip.modFrame_launches (c : Chip) (n e : Nat) (u : Frame → Frame) : (c.modFrame n e u).launches = c.launches := rfl
@[simp] theorem Chip.modFrame_nextLaunch (c : Chip) (n e : Nat) (u : Frame → Frame) : (c.modFrame n e u).nextLaunch = c.nextLaunch := rfl
@[simp] theorem Chip.modFrame_foreign (c : Chip) (n e : Nat) (u : Frame → Frame) : (c.modFrame n e u).foreign = c.foreign := rfl
@[simp] theorem Chip.modFrame_ring (c : Chip) (n e : Nat) (u : Frame → Frame) : (c.modFrame n e u).ring = c.ring := rfl
@[simp] theorem Chip.modFrame_signatures (c : Chip) (n e : Nat) (u : Frame → Frame) : (c.modFrame n e u).signatures = c.signatures := rfl
@[simp] theorem Chip.modFrame_tlb (c : Chip) (n e : Nat) (u : Frame → Frame) : (c.modFrame n e u).tlb = c.tlb := rfl
@[simp] theorem Chip.modFrame_walks (c : Chip) (n e : Nat) (u : Frame → Frame) : (c.modFrame n e u).walks = c.walks := rfl
@[simp] theorem Chip.modFrame_job (c : Chip) (n e : Nat) (u : Frame → Frame) : (c.modFrame n e u).job = c.job := rfl
@[simp] theorem Chip.modFrame_shut (c : Chip) (n e : Nat) (u : Frame → Frame) : (c.modFrame n e u).shut = c.shut := rfl
@[simp] theorem Chip.modFrame_net (c : Chip) (n e : Nat) (u : Frame → Frame) : (c.modFrame n e u).net = c.net := rfl
@[simp] theorem Chip.modFrame_steals (c : Chip) (n e : Nat) (u : Frame → Frame) : (c.modFrame n e u).steals = c.steals := rfl
@[simp] theorem Chip.modFrame_out (c : Chip) (n e : Nat) (u : Frame → Frame) : (c.modFrame n e u).out = c.out := rfl
@[simp] theorem Chip.modFrame_retained (c : Chip) (n e : Nat) (u : Frame → Frame) : (c.modFrame n e u).retained = c.retained := rfl
@[simp] theorem Chip.modFrame_streamsOut (c : Chip) (n e : Nat) (u : Frame → Frame) : (c.modFrame n e u).streamsOut = c.streamsOut := rfl
@[simp] theorem Chip.modFrame_streamsIn (c : Chip) (n e : Nat) (u : Frame → Frame) : (c.modFrame n e u).streamsIn = c.streamsIn := rfl
@[simp] theorem Chip.modFrame_ports (c : Chip) (n e : Nat) (u : Frame → Frame) : (c.modFrame n e u).ports = c.ports := rfl
@[simp] theorem Chip.modFrame_fabcfg (c : Chip) (n e : Nat) (u : Frame → Frame) : (c.modFrame n e u).fabcfg = c.fabcfg := rfl
@[simp] theorem Chip.modFrame_exports (c : Chip) (n e : Nat) (u : Frame → Frame) : (c.modFrame n e u).exports = c.exports := rfl
@[simp] theorem Chip.modFrame_regions (c : Chip) (n e : Nat) (u : Frame → Frame) : (c.modFrame n e u).regions = c.regions := rfl
@[simp] theorem Chip.modFrame_pending (c : Chip) (n e : Nat) (u : Frame → Frame) : (c.modFrame n e u).pending = c.pending := rfl
@[simp] theorem Chip.modFrame_edits (c : Chip) (n e : Nat) (u : Frame → Frame) : (c.modFrame n e u).edits = c.edits := rfl
@[simp] theorem Chip.modFrame_rounds (c : Chip) (n e : Nat) (u : Frame → Frame) : (c.modFrame n e u).rounds = c.rounds := rfl
@[simp] theorem Chip.modFrame_claimed (c : Chip) (n e : Nat) (u : Frame → Frame) : (c.modFrame n e u).claimed = c.claimed := rfl
@[simp] theorem Chip.modFrame_tiles (c : Chip) (n e : Nat) (u : Frame → Frame) : (c.modFrame n e u).tiles = c.tiles := rfl
@[simp] theorem Chip.modFrame_reports (c : Chip) (n e : Nat) (u : Frame → Frame) : (c.modFrame n e u).reports = c.reports := rfl
@[simp] theorem Chip.modFrame_testing (c : Chip) (n e : Nat) (u : Frame → Frame) : (c.modFrame n e u).testing = c.testing := rfl
@[simp] theorem Chip.modFrame_failed (c : Chip) (n e : Nat) (u : Frame → Frame) : (c.modFrame n e u).failed = c.failed := rfl
@[simp] theorem Chip.modFrame_spares (c : Chip) (n e : Nat) (u : Frame → Frame) : (c.modFrame n e u).spares = c.spares := rfl
@[simp] theorem Chip.modFrame_corrected (c : Chip) (n e : Nat) (u : Frame → Frame) : (c.modFrame n e u).corrected = c.corrected := rfl
@[simp] theorem Chip.modFrame_monitors (c : Chip) (n e : Nat) (u : Frame → Frame) : (c.modFrame n e u).monitors = c.monitors := rfl
@[simp] theorem Chip.modFrame_health (c : Chip) (n e : Nat) (u : Frame → Frame) : (c.modFrame n e u).health = c.health := rfl
@[simp] theorem Chip.modFrame_hlhead (c : Chip) (n e : Nat) (u : Frame → Frame) : (c.modFrame n e u).hlhead = c.hlhead := rfl
@[simp] theorem Chip.modFrame_msix (c : Chip) (n e : Nat) (u : Frame → Frame) : (c.modFrame n e u).msix = c.msix := rfl
@[simp] theorem Chip.modFrame_starts (c : Chip) (n e : Nat) (u : Frame → Frame) : (c.modFrame n e u).starts = c.starts := rfl
@[simp] theorem Chip.modFrame_devState (c : Chip) (n e : Nat) (u : Frame → Frame) : (c.modFrame n e u).devState = c.devState := rfl
@[simp] theorem Chip.modFrame_devStep (c : Chip) (n e : Nat) (u : Frame → Frame) : (c.modFrame n e u).devStep = c.devStep := rfl
@[simp] theorem Chip.modFrame_journal (c : Chip) (n e : Nat) (u : Frame → Frame) : (c.modFrame n e u).journal = c.journal := rfl
@[simp] theorem Chip.modFrame_jstarted (c : Chip) (n e : Nat) (u : Frame → Frame) : (c.modFrame n e u).jstarted = c.jstarted := rfl
@[simp] theorem Chip.modFrame_jalt (c : Chip) (n e : Nat) (u : Frame → Frame) : (c.modFrame n e u).jalt = c.jalt := rfl
@[simp] theorem Chip.modFrame_jreset (c : Chip) (n e : Nat) (u : Frame → Frame) : (c.modFrame n e u).jreset = c.jreset := rfl
@[simp] theorem Chip.modFrame_nonce (c : Chip) (n e : Nat) (u : Frame → Frame) : (c.modFrame n e u).nonce = c.nonce := rfl
@[simp] theorem Chip.modFrame_atst (c : Chip) (n e : Nat) (u : Frame → Frame) : (c.modFrame n e u).atst = c.atst := rfl
@[simp] theorem Chip.modFrame_atstSince (c : Chip) (n e : Nat) (u : Frame → Frame) : (c.modFrame n e u).atstSince = c.atstSince := rfl
@[simp] theorem Chip.modFrame_report (c : Chip) (n e : Nat) (u : Frame → Frame) : (c.modFrame n e u).report = c.report := rfl
@[simp] theorem Chip.modFrame_nextReq (c : Chip) (n e : Nat) (u : Frame → Frame) : (c.modFrame n e u).nextReq = c.nextReq := rfl
@[simp] theorem Chip.modFrame_nextThread (c : Chip) (n e : Nat) (u : Frame → Frame) : (c.modFrame n e u).nextThread = c.nextThread := rfl
@[simp] theorem Chip.modFrame_freeCount (c : Chip) (n e : Nat) (u : Frame → Frame) : (c.modFrame n e u).freeCount = c.freeCount := rfl
@[simp] theorem Core.modFrame_pad (k : Core) (e : Nat) (u : Frame → Frame) : (k.modFrame e u).pad = k.pad := rfl
@[simp] theorem Core.modFrame_padPoison (k : Core) (e : Nat) (u : Frame → Frame) : (k.modFrame e u).padPoison = k.padPoison := rfl
@[simp] theorem Core.modFrame_wtab (k : Core) (e : Nat) (u : Frame → Frame) : (k.modFrame e u).wtab = k.wtab := rfl
@[simp] theorem Core.modFrame_ctl (k : Core) (e : Nat) (u : Frame → Frame) : (k.modFrame e u).ctl = k.ctl := rfl
@[simp] theorem Core.modFrame_links (k : Core) (e : Nat) (u : Frame → Frame) : (k.modFrame e u).links = k.links := rfl
@[simp] theorem Core.modFrame_pops (k : Core) (e : Nat) (u : Frame → Frame) : (k.modFrame e u).pops = k.pops := rfl
@[simp] theorem Core.modFrame_win (k : Core) (e : Nat) (u : Frame → Frame) : (k.modFrame e u).win = k.win := rfl
@[simp] theorem Core.modFrame_winOld (k : Core) (e : Nat) (u : Frame → Frame) : (k.modFrame e u).winOld = k.winOld := rfl
@[simp] theorem Core.modFrame_winAt (k : Core) (e : Nat) (u : Frame → Frame) : (k.modFrame e u).winAt = k.winAt := rfl
@[simp] theorem Core.modFrame_tgcfg (k : Core) (e : Nat) (u : Frame → Frame) : (k.modFrame e u).tgcfg = k.tgcfg := rfl
@[simp] theorem Core.modFrame_tags (k : Core) (e : Nat) (u : Frame → Frame) : (k.modFrame e u).tags = k.tags := rfl
@[simp] theorem Core.modFrame_handles (k : Core) (e : Nat) (u : Frame → Frame) : (k.modFrame e u).handles = k.handles := rfl
@[simp] theorem Core.modFrame_handlesOld (k : Core) (e : Nat) (u : Frame → Frame) : (k.modFrame e u).handlesOld = k.handlesOld := rfl
@[simp] theorem Core.modFrame_handlesAt (k : Core) (e : Nat) (u : Frame → Frame) : (k.modFrame e u).handlesAt = k.handlesAt := rfl
@[simp] theorem Core.modFrame_mxq (k : Core) (e : Nat) (u : Frame → Frame) : (k.modFrame e u).mxq = k.mxq := rfl
@[simp] theorem Core.modFrame_cpq (k : Core) (e : Nat) (u : Frame → Frame) : (k.modFrame e u).cpq = k.cpq := rfl
@[simp] theorem Core.modFrame_mxerr (k : Core) (e : Nat) (u : Frame → Frame) : (k.modFrame e u).mxerr = k.mxerr := rfl
@[simp] theorem Core.modFrame_cperr (k : Core) (e : Nat) (u : Frame → Frame) : (k.modFrame e u).cperr = k.cperr := rfl
@[simp] theorem Core.modFrame_acc (k : Core) (e : Nat) (u : Frame → Frame) : (k.modFrame e u).acc = k.acc := rfl
@[simp] theorem Core.modFrame_abuf (k : Core) (e : Nat) (u : Frame → Frame) : (k.modFrame e u).abuf = k.abuf := rfl
@[simp] theorem Core.modFrame_afmt (k : Core) (e : Nat) (u : Frame → Frame) : (k.modFrame e u).afmt = k.afmt := rfl
@[simp] theorem Core.modFrame_latch (k : Core) (e : Nat) (u : Frame → Frame) : (k.modFrame e u).latch = k.latch := rfl
@[simp] theorem Core.modFrame_fctx (k : Core) (e : Nat) (u : Frame → Frame) : (k.modFrame e u).fctx = k.fctx := rfl
@[simp] theorem Core.modFrame_vec (k : Core) (e : Nat) (u : Frame → Frame) : (k.modFrame e u).vec = k.vec := rfl
@[simp] theorem Core.modFrame_mowner (k : Core) (e : Nat) (u : Frame → Frame) : (k.modFrame e u).mowner = k.mowner := rfl
@[simp] theorem Core.modFrame_divide (k : Core) (e : Nat) (u : Frame → Frame) : (k.modFrame e u).divide = k.divide := rfl
@[simp] theorem Core.modFrame_deque (k : Core) (e : Nat) (u : Frame → Frame) : (k.modFrame e u).deque = k.deque := rfl
@[simp] theorem Core.modFrame_trackers (k : Core) (e : Nat) (u : Frame → Frame) : (k.modFrame e u).trackers = k.trackers := rfl
@[simp] theorem Core.modFrame_postbox (k : Core) (e : Nat) (u : Frame → Frame) : (k.modFrame e u).postbox = k.postbox := rfl
@[simp] theorem Core.modFrame_reqs (k : Core) (e : Nat) (u : Frame → Frame) : (k.modFrame e u).reqs = k.reqs := rfl
@[simp] theorem Core.modFrame_resv (k : Core) (e : Nat) (u : Frame → Frame) : (k.modFrame e u).resv = k.resv := rfl
@[simp] theorem Core.modFrame_waiters (k : Core) (e : Nat) (u : Frame → Frame) : (k.modFrame e u).waiters = k.waiters := rfl
@[simp] theorem Core.modFrame_stealing (k : Core) (e : Nat) (u : Frame → Frame) : (k.modFrame e u).stealing = k.stealing := rfl
@[simp] theorem Core.modFrame_held (k : Core) (e : Nat) (u : Frame → Frame) : (k.modFrame e u).held = k.held := rfl
@[simp] theorem Core.modFrame_logSeq (k : Core) (e : Nat) (u : Frame → Frame) : (k.modFrame e u).logSeq = k.logSeq := rfl
@[simp] theorem Core.modFrame_touched (k : Core) (e : Nat) (u : Frame → Frame) : (k.modFrame e u).touched = k.touched := rfl
@[simp] theorem Core.modFrame_advanced (k : Core) (e : Nat) (u : Frame → Frame) : (k.modFrame e u).advanced = k.advanced := rfl
@[simp] theorem Core.modFrame_dequeOps (k : Core) (e : Nat) (u : Frame → Frame) : (k.modFrame e u).dequeOps = k.dequeOps := rfl
@[simp] theorem Core.modFrame_dequeTill (k : Core) (e : Nat) (u : Frame → Frame) : (k.modFrame e u).dequeTill = k.dequeTill := rfl
@[simp] theorem Core.modFrame_stuck (k : Core) (e : Nat) (u : Frame → Frame) : (k.modFrame e u).stuck = k.stuck := rfl
@[simp] theorem Core.modFrame_cycle (k : Core) (e : Nat) (u : Frame → Frame) : (k.modFrame e u).cycle = k.cycle := rfl
@[simp] theorem Core.modFrame_slpcfg (k : Core) (e : Nat) (u : Frame → Frame) : (k.modFrame e u).slpcfg = k.slpcfg := rfl
@[simp] theorem Core.modFrame_asleep (k : Core) (e : Nat) (u : Frame → Frame) : (k.modFrame e u).asleep = k.asleep := rfl
@[simp] theorem Core.modFrame_wakeAt (k : Core) (e : Nat) (u : Frame → Frame) : (k.modFrame e u).wakeAt = k.wakeAt := rfl
@[simp] theorem Core.modFrame_pstat (k : Core) (e : Nat) (u : Frame → Frame) : (k.modFrame e u).pstat = k.pstat := rfl
@[simp] theorem Core.modFrame_paddr (k : Core) (e : Nat) (u : Frame → Frame) : (k.modFrame e u).paddr = k.paddr := rfl
@[simp] theorem Core.modFrame_lastIssue (k : Core) (e : Nat) (u : Frame → Frame) : (k.modFrame e u).lastIssue = k.lastIssue := rfl
@[simp] theorem Core.modFrame_rr (k : Core) (e : Nat) (u : Frame → Frame) : (k.modFrame e u).rr = k.rr := rfl

/-! ## A change of one context -/

@[simp] theorem Chip.modCtx_now (c : Chip) (n : Nat) (f : Ctx → Ctx) : (c.modCtx n f).now = c.now := rfl
@[simp] theorem Chip.modCtx_started (c : Chip) (n : Nat) (f : Ctx → Ctx) : (c.modCtx n f).started = c.started := rfl
@[simp] theorem Chip.modCtx_core (c : Chip) (n : Nat) (f : Ctx → Ctx) : (c.modCtx n f).core = c.core := rfl
@[simp] theorem Chip.modCtx_frame (c : Chip) (n : Nat) (f : Ctx → Ctx) : (c.modCtx n f).frame = c.frame := rfl
@[simp] theorem Chip.modCtx_word (c : Chip) (n : Nat) (f : Ctx → Ctx) : (c.modCtx n f).word = c.word := rfl
@[simp] theorem Chip.modCtx_cores (c : Chip) (n : Nat) (f : Ctx → Ctx) : (c.modCtx n f).cores = c.cores := rfl
@[simp] theorem Chip.modCtx_hbm (c : Chip) (n : Nat) (f : Ctx → Ctx) : (c.modCtx n f).hbm = c.hbm := rfl
@[simp] theorem Chip.modCtx_hbmPoison (c : Chip) (n : Nat) (f : Ctx → Ctx) : (c.modCtx n f).hbmPoison = c.hbmPoison := rfl
@[simp] theorem Chip.modCtx_dead (c : Chip) (n : Nat) (f : Ctx → Ctx) : (c.modCtx n f).dead = c.dead := rfl
@[simp] theorem Chip.modCtx_host (c : Chip) (n : Nat) (f : Ctx → Ctx) : (c.modCtx n f).host = c.host := rfl
@[simp] theorem Chip.modCtx_hostBad (c : Chip) (n : Nat) (f : Ctx → Ctx) : (c.modCtx n f).hostBad = c.hostBad := rfl
@[simp] theorem Chip.modCtx_far (c : Chip) (n : Nat) (f : Ctx → Ctx) : (c.modCtx n f).far = c.far := rfl
@[simp] theorem Chip.modCtx_agentResv (c : Chip) (n : Nat) (f : Ctx → Ctx) : (c.modCtx n f).agentResv = c.agentResv := rfl
@[simp] theorem Chip.modCtx_agentWait (c : Chip) (n : Nat) (f : Ctx → Ctx) : (c.modCtx n f).agentWait = c.agentWait := rfl
@[simp] theorem Chip.modCtx_queues (c : Chip) (n : Nat) (f : Ctx → Ctx) : (c.modCtx n f).queues = c.queues := rfl
@[simp] theorem Chip.modCtx_turn (c : Chip) (n : Nat) (f : Ctx → Ctx) : (c.modCtx n f).turn = c.turn := rfl
@[simp] theorem Chip.modCtx_hqs (c : Chip) (n : Nat) (f : Ctx → Ctx) : (c.modCtx n f).hqs = c.hqs := rfl
@[simp] theorem Chip.modCtx_grants (c : Chip) (n : Nat) (f : Ctx → Ctx) : (c.modCtx n f).grants = c.grants := rfl
@[simp] theorem Chip.modCtx_shares (c : Chip) (n : Nat) (f : Ctx → Ctx) : (c.modCtx n f).shares = c.shares := rfl
@[simp] theorem Chip.modCtx_launches (c : Chip) (n : Nat) (f : Ctx → Ctx) : (c.modCtx n f).launches = c.launches := rfl
@[simp] theorem Chip.modCtx_nextLaunch (c : Chip) (n : Nat) (f : Ctx → Ctx) : (c.modCtx n f).nextLaunch = c.nextLaunch := rfl
@[simp] theorem Chip.modCtx_foreign (c : Chip) (n : Nat) (f : Ctx → Ctx) : (c.modCtx n f).foreign = c.foreign := rfl
@[simp] theorem Chip.modCtx_ring (c : Chip) (n : Nat) (f : Ctx → Ctx) : (c.modCtx n f).ring = c.ring := rfl
@[simp] theorem Chip.modCtx_signatures (c : Chip) (n : Nat) (f : Ctx → Ctx) : (c.modCtx n f).signatures = c.signatures := rfl
@[simp] theorem Chip.modCtx_tlb (c : Chip) (n : Nat) (f : Ctx → Ctx) : (c.modCtx n f).tlb = c.tlb := rfl
@[simp] theorem Chip.modCtx_walks (c : Chip) (n : Nat) (f : Ctx → Ctx) : (c.modCtx n f).walks = c.walks := rfl
@[simp] theorem Chip.modCtx_job (c : Chip) (n : Nat) (f : Ctx → Ctx) : (c.modCtx n f).job = c.job := rfl
@[simp] theorem Chip.modCtx_shut (c : Chip) (n : Nat) (f : Ctx → Ctx) : (c.modCtx n f).shut = c.shut := rfl
@[simp] theorem Chip.modCtx_net (c : Chip) (n : Nat) (f : Ctx → Ctx) : (c.modCtx n f).net = c.net := rfl
@[simp] theorem Chip.modCtx_steals (c : Chip) (n : Nat) (f : Ctx → Ctx) : (c.modCtx n f).steals = c.steals := rfl
@[simp] theorem Chip.modCtx_out (c : Chip) (n : Nat) (f : Ctx → Ctx) : (c.modCtx n f).out = c.out := rfl
@[simp] theorem Chip.modCtx_retained (c : Chip) (n : Nat) (f : Ctx → Ctx) : (c.modCtx n f).retained = c.retained := rfl
@[simp] theorem Chip.modCtx_streamsOut (c : Chip) (n : Nat) (f : Ctx → Ctx) : (c.modCtx n f).streamsOut = c.streamsOut := rfl
@[simp] theorem Chip.modCtx_streamsIn (c : Chip) (n : Nat) (f : Ctx → Ctx) : (c.modCtx n f).streamsIn = c.streamsIn := rfl
@[simp] theorem Chip.modCtx_ports (c : Chip) (n : Nat) (f : Ctx → Ctx) : (c.modCtx n f).ports = c.ports := rfl
@[simp] theorem Chip.modCtx_fabcfg (c : Chip) (n : Nat) (f : Ctx → Ctx) : (c.modCtx n f).fabcfg = c.fabcfg := rfl
@[simp] theorem Chip.modCtx_exports (c : Chip) (n : Nat) (f : Ctx → Ctx) : (c.modCtx n f).exports = c.exports := rfl
@[simp] theorem Chip.modCtx_regions (c : Chip) (n : Nat) (f : Ctx → Ctx) : (c.modCtx n f).regions = c.regions := rfl
@[simp] theorem Chip.modCtx_pending (c : Chip) (n : Nat) (f : Ctx → Ctx) : (c.modCtx n f).pending = c.pending := rfl
@[simp] theorem Chip.modCtx_edits (c : Chip) (n : Nat) (f : Ctx → Ctx) : (c.modCtx n f).edits = c.edits := rfl
@[simp] theorem Chip.modCtx_rounds (c : Chip) (n : Nat) (f : Ctx → Ctx) : (c.modCtx n f).rounds = c.rounds := rfl
@[simp] theorem Chip.modCtx_claimed (c : Chip) (n : Nat) (f : Ctx → Ctx) : (c.modCtx n f).claimed = c.claimed := rfl
@[simp] theorem Chip.modCtx_tiles (c : Chip) (n : Nat) (f : Ctx → Ctx) : (c.modCtx n f).tiles = c.tiles := rfl
@[simp] theorem Chip.modCtx_reports (c : Chip) (n : Nat) (f : Ctx → Ctx) : (c.modCtx n f).reports = c.reports := rfl
@[simp] theorem Chip.modCtx_testing (c : Chip) (n : Nat) (f : Ctx → Ctx) : (c.modCtx n f).testing = c.testing := rfl
@[simp] theorem Chip.modCtx_failed (c : Chip) (n : Nat) (f : Ctx → Ctx) : (c.modCtx n f).failed = c.failed := rfl
@[simp] theorem Chip.modCtx_spares (c : Chip) (n : Nat) (f : Ctx → Ctx) : (c.modCtx n f).spares = c.spares := rfl
@[simp] theorem Chip.modCtx_corrected (c : Chip) (n : Nat) (f : Ctx → Ctx) : (c.modCtx n f).corrected = c.corrected := rfl
@[simp] theorem Chip.modCtx_monitors (c : Chip) (n : Nat) (f : Ctx → Ctx) : (c.modCtx n f).monitors = c.monitors := rfl
@[simp] theorem Chip.modCtx_health (c : Chip) (n : Nat) (f : Ctx → Ctx) : (c.modCtx n f).health = c.health := rfl
@[simp] theorem Chip.modCtx_hlhead (c : Chip) (n : Nat) (f : Ctx → Ctx) : (c.modCtx n f).hlhead = c.hlhead := rfl
@[simp] theorem Chip.modCtx_msix (c : Chip) (n : Nat) (f : Ctx → Ctx) : (c.modCtx n f).msix = c.msix := rfl
@[simp] theorem Chip.modCtx_starts (c : Chip) (n : Nat) (f : Ctx → Ctx) : (c.modCtx n f).starts = c.starts := rfl
@[simp] theorem Chip.modCtx_devState (c : Chip) (n : Nat) (f : Ctx → Ctx) : (c.modCtx n f).devState = c.devState := rfl
@[simp] theorem Chip.modCtx_devStep (c : Chip) (n : Nat) (f : Ctx → Ctx) : (c.modCtx n f).devStep = c.devStep := rfl
@[simp] theorem Chip.modCtx_journal (c : Chip) (n : Nat) (f : Ctx → Ctx) : (c.modCtx n f).journal = c.journal := rfl
@[simp] theorem Chip.modCtx_jstarted (c : Chip) (n : Nat) (f : Ctx → Ctx) : (c.modCtx n f).jstarted = c.jstarted := rfl
@[simp] theorem Chip.modCtx_jalt (c : Chip) (n : Nat) (f : Ctx → Ctx) : (c.modCtx n f).jalt = c.jalt := rfl
@[simp] theorem Chip.modCtx_jreset (c : Chip) (n : Nat) (f : Ctx → Ctx) : (c.modCtx n f).jreset = c.jreset := rfl
@[simp] theorem Chip.modCtx_nonce (c : Chip) (n : Nat) (f : Ctx → Ctx) : (c.modCtx n f).nonce = c.nonce := rfl
@[simp] theorem Chip.modCtx_atst (c : Chip) (n : Nat) (f : Ctx → Ctx) : (c.modCtx n f).atst = c.atst := rfl
@[simp] theorem Chip.modCtx_atstSince (c : Chip) (n : Nat) (f : Ctx → Ctx) : (c.modCtx n f).atstSince = c.atstSince := rfl
@[simp] theorem Chip.modCtx_report (c : Chip) (n : Nat) (f : Ctx → Ctx) : (c.modCtx n f).report = c.report := rfl
@[simp] theorem Chip.modCtx_nextReq (c : Chip) (n : Nat) (f : Ctx → Ctx) : (c.modCtx n f).nextReq = c.nextReq := rfl
@[simp] theorem Chip.modCtx_nextThread (c : Chip) (n : Nat) (f : Ctx → Ctx) : (c.modCtx n f).nextThread = c.nextThread := rfl
@[simp] theorem Chip.modCtx_freeCount (c : Chip) (n : Nat) (f : Ctx → Ctx) : (c.modCtx n f).freeCount = c.freeCount := rfl

/-! ## A register write, and the advance (R157) -/

@[simp] theorem Frame.setReg_g (f : Frame) (n : BitVec 4) (v : Word) : (f.setReg n v).g = f.g.set n.toFin v := rfl
@[simp] theorem Frame.setReg_pc (f : Frame) (n : BitVec 4) (v : Word) : (f.setReg n v).pc = f.pc := rfl
@[simp] theorem Frame.setReg_npc (f : Frame) (n : BitVec 4) (v : Word) : (f.setReg n v).npc = f.npc := rfl
@[simp] theorem Frame.setReg_nnpc (f : Frame) (n : BitVec 4) (v : Word) : (f.setReg n v).nnpc = f.nnpc := rfl
@[simp] theorem Frame.setReg_sw (f : Frame) (n : BitVec 4) (v : Word) : (f.setReg n v).sw = f.sw := rfl
@[simp] theorem Frame.setReg_st (f : Frame) (n : BitVec 4) (v : Word) : (f.setReg n v).st = f.st := rfl
@[simp] theorem Frame.setReg_tname (f : Frame) (n : BitVec 4) (v : Word) : (f.setReg n v).tname = f.tname := rfl
@[simp] theorem Frame.setReg_tjoin (f : Frame) (n : BitVec 4) (v : Word) : (f.setReg n v).tjoin = f.tjoin := rfl
@[simp] theorem Frame.setReg_epc (f : Frame) (n : BitVec 4) (v : Word) : (f.setReg n v).epc = f.epc := rfl
@[simp] theorem Frame.setReg_enpc (f : Frame) (n : BitVec 4) (v : Word) : (f.setReg n v).enpc = f.enpc := rfl
@[simp] theorem Frame.setReg_ennpc (f : Frame) (n : BitVec 4) (v : Word) : (f.setReg n v).ennpc = f.ennpc := rfl
@[simp] theorem Frame.setReg_esw (f : Frame) (n : BitVec 4) (v : Word) : (f.setReg n v).esw = f.esw := rfl
@[simp] theorem Frame.setReg_ecause (f : Frame) (n : BitVec 4) (v : Word) : (f.setReg n v).ecause = f.ecause := rfl
@[simp] theorem Frame.setReg_eaddr (f : Frame) (n : BitVec 4) (v : Word) : (f.setReg n v).eaddr = f.eaddr := rfl
@[simp] theorem Frame.setReg_esave (f : Frame) (n : BitVec 4) (v : Word) : (f.setReg n v).esave = f.esave := rfl
@[simp] theorem Frame.setReg_volist (f : Frame) (n : BitVec 4) (v : Word) : (f.setReg n v).volist = f.volist := rfl
@[simp] theorem Frame.setReg_vobase (f : Frame) (n : BitVec 4) (v : Word) : (f.setReg n v).vobase = f.vobase := rfl
@[simp] theorem Frame.setReg_ctx (f : Frame) (n : BitVec 4) (v : Word) : (f.setReg n v).ctx = f.ctx := rfl
@[simp] theorem Frame.setReg_launch (f : Frame) (n : BitVec 4) (v : Word) : (f.setReg n v).launch = f.launch := rfl
@[simp] theorem Frame.setReg_origin (f : Frame) (n : BitVec 4) (v : Word) : (f.setReg n v).origin = f.origin := rfl
@[simp] theorem Frame.setReg_reservedFor (f : Frame) (n : BitVec 4) (v : Word) : (f.setReg n v).reservedFor = f.reservedFor := rfl
@[simp] theorem Frame.setReg_thread (f : Frame) (n : BitVec 4) (v : Word) : (f.setReg n v).thread = f.thread := rfl
@[simp] theorem Frame.setReg_poisoned (f : Frame) (n : BitVec 4) (v : Word) : (f.setReg n v).poisoned = f.poisoned.filter fun p => p.1 != n.toNat := rfl
@[simp] theorem Frame.setReg_refusals (f : Frame) (n : BitVec 4) (v : Word) : (f.setReg n v).refusals = f.refusals := rfl
@[simp] theorem Frame.setReg_resv (f : Frame) (n : BitVec 4) (v : Word) : (f.setReg n v).resv = f.resv := rfl
@[simp] theorem Frame.setReg_claims (f : Frame) (n : BitVec 4) (v : Word) : (f.setReg n v).claims = f.claims := rfl
@[simp] theorem Frame.setReg_preempt (f : Frame) (n : BitVec 4) (v : Word) : (f.setReg n v).preempt = f.preempt := rfl
@[simp] theorem Frame.setReg_engErr (f : Frame) (n : BitVec 4) (v : Word) : (f.setReg n v).engErr = f.engErr := rfl
@[simp] theorem Frame.setReg_walkFault (f : Frame) (n : BitVec 4) (v : Word) : (f.setReg n v).walkFault = f.walkFault := rfl
@[simp] theorem Frame.setReg_trapping (f : Frame) (n : BitVec 4) (v : Word) : (f.setReg n v).trapping = f.trapping := rfl
@[simp] theorem Frame.setReg_readySince (f : Frame) (n : BitVec 4) (v : Word) : (f.setReg n v).readySince = f.readySince := rfl
@[simp] theorem Frame.setReg_promoted (f : Frame) (n : BitVec 4) (v : Word) : (f.setReg n v).promoted = f.promoted := rfl
@[simp] theorem Frame.setReg_freeAt (f : Frame) (n : BitVec 4) (v : Word) : (f.setReg n v).freeAt = f.freeAt := rfl
@[simp] theorem Frame.setReg_far (f : Frame) (n : BitVec 4) (v : Word) : (f.setReg n v).far = f.far := rfl
@[simp] theorem Frame.setReg_slots (f : Frame) (n : BitVec 4) (v : Word) : (f.setReg n v).slots = f.slots := rfl
@[simp] theorem Frame.setReg_eslots (f : Frame) (n : BitVec 4) (v : Word) : (f.setReg n v).eslots = f.eslots := rfl
@[simp] theorem Frame.setReg_fatal (f : Frame) (n : BitVec 4) (v : Word) : (f.setReg n v).fatal = f.fatal := rfl
@[simp] theorem Frame.setReg_savedVec (f : Frame) (n : BitVec 4) (v : Word) : (f.setReg n v).savedVec = f.savedVec := rfl
@[simp] theorem Frame.setReg_savedCap (f : Frame) (n : BitVec 4) (v : Word) : (f.setReg n v).savedCap = f.savedCap := rfl
@[simp] theorem Frame.setReg_savedAcc (f : Frame) (n : BitVec 4) (v : Word) : (f.setReg n v).savedAcc = f.savedAcc := rfl
@[simp] theorem Frame.advance_g (f : Frame) : f.advance.g = f.g := rfl
@[simp] theorem Frame.advance_pc (f : Frame) : f.advance.pc = f.npc := rfl
@[simp] theorem Frame.advance_npc (f : Frame) : f.advance.npc = f.nnpc := rfl
@[simp] theorem Frame.advance_nnpc (f : Frame) : f.advance.nnpc = f.nnpc + 4 := rfl
@[simp] theorem Frame.advance_sw (f : Frame) : f.advance.sw = f.sw := rfl
@[simp] theorem Frame.advance_st (f : Frame) : f.advance.st = f.st := rfl
@[simp] theorem Frame.advance_tname (f : Frame) : f.advance.tname = f.tname := rfl
@[simp] theorem Frame.advance_tjoin (f : Frame) : f.advance.tjoin = f.tjoin := rfl
@[simp] theorem Frame.advance_epc (f : Frame) : f.advance.epc = f.epc := rfl
@[simp] theorem Frame.advance_enpc (f : Frame) : f.advance.enpc = f.enpc := rfl
@[simp] theorem Frame.advance_ennpc (f : Frame) : f.advance.ennpc = f.ennpc := rfl
@[simp] theorem Frame.advance_esw (f : Frame) : f.advance.esw = f.esw := rfl
@[simp] theorem Frame.advance_ecause (f : Frame) : f.advance.ecause = f.ecause := rfl
@[simp] theorem Frame.advance_eaddr (f : Frame) : f.advance.eaddr = f.eaddr := rfl
@[simp] theorem Frame.advance_esave (f : Frame) : f.advance.esave = f.esave := rfl
@[simp] theorem Frame.advance_volist (f : Frame) : f.advance.volist = f.volist := rfl
@[simp] theorem Frame.advance_vobase (f : Frame) : f.advance.vobase = f.vobase := rfl
@[simp] theorem Frame.advance_ctx (f : Frame) : f.advance.ctx = f.ctx := rfl
@[simp] theorem Frame.advance_launch (f : Frame) : f.advance.launch = f.launch := rfl
@[simp] theorem Frame.advance_origin (f : Frame) : f.advance.origin = f.origin := rfl
@[simp] theorem Frame.advance_reservedFor (f : Frame) : f.advance.reservedFor = f.reservedFor := rfl
@[simp] theorem Frame.advance_thread (f : Frame) : f.advance.thread = f.thread := rfl
@[simp] theorem Frame.advance_poisoned (f : Frame) : f.advance.poisoned = f.poisoned := rfl
@[simp] theorem Frame.advance_refusals (f : Frame) : f.advance.refusals = f.refusals := rfl
@[simp] theorem Frame.advance_resv (f : Frame) : f.advance.resv = f.resv := rfl
@[simp] theorem Frame.advance_claims (f : Frame) : f.advance.claims = f.claims := rfl
@[simp] theorem Frame.advance_preempt (f : Frame) : f.advance.preempt = f.preempt := rfl
@[simp] theorem Frame.advance_engErr (f : Frame) : f.advance.engErr = f.engErr := rfl
@[simp] theorem Frame.advance_walkFault (f : Frame) : f.advance.walkFault = f.walkFault := rfl
@[simp] theorem Frame.advance_trapping (f : Frame) : f.advance.trapping = f.trapping := rfl
@[simp] theorem Frame.advance_readySince (f : Frame) : f.advance.readySince = f.readySince := rfl
@[simp] theorem Frame.advance_promoted (f : Frame) : f.advance.promoted = f.promoted := rfl
@[simp] theorem Frame.advance_freeAt (f : Frame) : f.advance.freeAt = f.freeAt := rfl
@[simp] theorem Frame.advance_far (f : Frame) : f.advance.far = f.far := rfl
@[simp] theorem Frame.advance_slots (f : Frame) : f.advance.slots = f.slots.tail := rfl
@[simp] theorem Frame.advance_eslots (f : Frame) : f.advance.eslots = f.eslots := rfl
@[simp] theorem Frame.advance_fatal (f : Frame) : f.advance.fatal = f.fatal := rfl
@[simp] theorem Frame.advance_savedVec (f : Frame) : f.advance.savedVec = f.savedVec := rfl
@[simp] theorem Frame.advance_savedCap (f : Frame) : f.advance.savedCap = f.savedCap := rfl
@[simp] theorem Frame.advance_savedAcc (f : Frame) : f.advance.savedAcc = f.savedAcc := rfl

/-! ## Entering a handler (R155) and leaving it (R158) -/

@[simp] theorem Frame.enter_g (f : Frame) (sw h ec ea : Word) (after : Bool) :
    (f.enter sw h ec ea after).g = f.g := rfl
@[simp] theorem Frame.enter_pc (f : Frame) (sw h ec ea : Word) (after : Bool) :
    (f.enter sw h ec ea after).pc = h := rfl
@[simp] theorem Frame.enter_npc (f : Frame) (sw h ec ea : Word) (after : Bool) :
    (f.enter sw h ec ea after).npc = h + 4 := rfl
@[simp] theorem Frame.enter_nnpc (f : Frame) (sw h ec ea : Word) (after : Bool) :
    (f.enter sw h ec ea after).nnpc = h + 8 := rfl
@[simp] theorem Frame.enter_sw (f : Frame) (sw h ec ea : Word) (after : Bool) :
    (f.enter sw h ec ea after).sw = putBits (putBits (putBits f.sw 18 18 1) 29 24 0) 17 17 0 := rfl
@[simp] theorem Frame.enter_st (f : Frame) (sw h ec ea : Word) (after : Bool) :
    (f.enter sw h ec ea after).st = .ready := rfl
@[simp] theorem Frame.enter_tname (f : Frame) (sw h ec ea : Word) (after : Bool) :
    (f.enter sw h ec ea after).tname = f.tname := rfl
@[simp] theorem Frame.enter_tjoin (f : Frame) (sw h ec ea : Word) (after : Bool) :
    (f.enter sw h ec ea after).tjoin = f.tjoin := rfl
@[simp] theorem Frame.enter_epc (f : Frame) (sw h ec ea : Word) (after : Bool) :
    (f.enter sw h ec ea after).epc = if after then f.npc else f.pc := rfl
@[simp] theorem Frame.enter_enpc (f : Frame) (sw h ec ea : Word) (after : Bool) :
    (f.enter sw h ec ea after).enpc = if after then f.nnpc else f.npc := rfl
@[simp] theorem Frame.enter_ennpc (f : Frame) (sw h ec ea : Word) (after : Bool) :
    (f.enter sw h ec ea after).ennpc = if after then f.nnpc + 4 else f.nnpc := rfl
@[simp] theorem Frame.enter_esw (f : Frame) (sw h ec ea : Word) (after : Bool) :
    (f.enter sw h ec ea after).esw = sw := rfl
@[simp] theorem Frame.enter_ecause (f : Frame) (sw h ec ea : Word) (after : Bool) :
    (f.enter sw h ec ea after).ecause = ec := rfl
@[simp] theorem Frame.enter_eaddr (f : Frame) (sw h ec ea : Word) (after : Bool) :
    (f.enter sw h ec ea after).eaddr = ea := rfl
@[simp] theorem Frame.enter_esave (f : Frame) (sw h ec ea : Word) (after : Bool) :
    (f.enter sw h ec ea after).esave = f.esave := rfl
@[simp] theorem Frame.enter_volist (f : Frame) (sw h ec ea : Word) (after : Bool) :
    (f.enter sw h ec ea after).volist = f.volist := rfl
@[simp] theorem Frame.enter_vobase (f : Frame) (sw h ec ea : Word) (after : Bool) :
    (f.enter sw h ec ea after).vobase = f.vobase := rfl
@[simp] theorem Frame.enter_ctx (f : Frame) (sw h ec ea : Word) (after : Bool) :
    (f.enter sw h ec ea after).ctx = f.ctx := rfl
@[simp] theorem Frame.enter_launch (f : Frame) (sw h ec ea : Word) (after : Bool) :
    (f.enter sw h ec ea after).launch = f.launch := rfl
@[simp] theorem Frame.enter_origin (f : Frame) (sw h ec ea : Word) (after : Bool) :
    (f.enter sw h ec ea after).origin = f.origin := rfl
@[simp] theorem Frame.enter_reservedFor (f : Frame) (sw h ec ea : Word) (after : Bool) :
    (f.enter sw h ec ea after).reservedFor = f.reservedFor := rfl
@[simp] theorem Frame.enter_thread (f : Frame) (sw h ec ea : Word) (after : Bool) :
    (f.enter sw h ec ea after).thread = f.thread := rfl
@[simp] theorem Frame.enter_poisoned (f : Frame) (sw h ec ea : Word) (after : Bool) :
    (f.enter sw h ec ea after).poisoned = f.poisoned := rfl
@[simp] theorem Frame.enter_refusals (f : Frame) (sw h ec ea : Word) (after : Bool) :
    (f.enter sw h ec ea after).refusals = f.refusals := rfl
@[simp] theorem Frame.enter_resv (f : Frame) (sw h ec ea : Word) (after : Bool) :
    (f.enter sw h ec ea after).resv = f.resv := rfl
@[simp] theorem Frame.enter_claims (f : Frame) (sw h ec ea : Word) (after : Bool) :
    (f.enter sw h ec ea after).claims = f.claims := rfl
@[simp] theorem Frame.enter_preempt (f : Frame) (sw h ec ea : Word) (after : Bool) :
    (f.enter sw h ec ea after).preempt = f.preempt := rfl
@[simp] theorem Frame.enter_engErr (f : Frame) (sw h ec ea : Word) (after : Bool) :
    (f.enter sw h ec ea after).engErr = f.engErr := rfl
@[simp] theorem Frame.enter_walkFault (f : Frame) (sw h ec ea : Word) (after : Bool) :
    (f.enter sw h ec ea after).walkFault = none := rfl
@[simp] theorem Frame.enter_trapping (f : Frame) (sw h ec ea : Word) (after : Bool) :
    (f.enter sw h ec ea after).trapping = none := rfl
@[simp] theorem Frame.enter_readySince (f : Frame) (sw h ec ea : Word) (after : Bool) :
    (f.enter sw h ec ea after).readySince = f.readySince := rfl
@[simp] theorem Frame.enter_promoted (f : Frame) (sw h ec ea : Word) (after : Bool) :
    (f.enter sw h ec ea after).promoted = f.promoted := rfl
@[simp] theorem Frame.enter_freeAt (f : Frame) (sw h ec ea : Word) (after : Bool) :
    (f.enter sw h ec ea after).freeAt = f.freeAt := rfl
@[simp] theorem Frame.enter_far (f : Frame) (sw h ec ea : Word) (after : Bool) :
    (f.enter sw h ec ea after).far = [] := rfl
@[simp] theorem Frame.enter_slots (f : Frame) (sw h ec ea : Word) (after : Bool) :
    (f.enter sw h ec ea after).slots = [] := rfl
@[simp] theorem Frame.enter_eslots (f : Frame) (sw h ec ea : Word) (after : Bool) :
    (f.enter sw h ec ea after).eslots = if after then f.slots.tail else f.slots := rfl
@[simp] theorem Frame.enter_fatal (f : Frame) (sw h ec ea : Word) (after : Bool) :
    (f.enter sw h ec ea after).fatal = f.fatal := rfl
@[simp] theorem Frame.enter_savedVec (f : Frame) (sw h ec ea : Word) (after : Bool) :
    (f.enter sw h ec ea after).savedVec = f.savedVec := rfl
@[simp] theorem Frame.enter_savedCap (f : Frame) (sw h ec ea : Word) (after : Bool) :
    (f.enter sw h ec ea after).savedCap = f.savedCap := rfl
@[simp] theorem Frame.enter_savedAcc (f : Frame) (sw h ec ea : Word) (after : Bool) :
    (f.enter sw h ec ea after).savedAcc = f.savedAcc := rfl
@[simp] theorem Frame.leave_g (f : Frame) : f.leave.g = f.g := rfl
@[simp] theorem Frame.leave_pc (f : Frame) : f.leave.pc = f.epc := rfl
@[simp] theorem Frame.leave_npc (f : Frame) : f.leave.npc = f.enpc := rfl
@[simp] theorem Frame.leave_nnpc (f : Frame) : f.leave.nnpc = f.ennpc := rfl
@[simp] theorem Frame.leave_sw (f : Frame) : f.leave.sw = putBits (putBits f.esw 16 15 0) 0 0 1 := rfl
@[simp] theorem Frame.leave_st (f : Frame) : f.leave.st = f.st := rfl
@[simp] theorem Frame.leave_tname (f : Frame) : f.leave.tname = f.tname := rfl
@[simp] theorem Frame.leave_tjoin (f : Frame) : f.leave.tjoin = f.tjoin := rfl
@[simp] theorem Frame.leave_epc (f : Frame) : f.leave.epc = f.epc := rfl
@[simp] theorem Frame.leave_enpc (f : Frame) : f.leave.enpc = f.enpc := rfl
@[simp] theorem Frame.leave_ennpc (f : Frame) : f.leave.ennpc = f.ennpc := rfl
@[simp] theorem Frame.leave_esw (f : Frame) : f.leave.esw = f.esw := rfl
@[simp] theorem Frame.leave_ecause (f : Frame) : f.leave.ecause = f.ecause := rfl
@[simp] theorem Frame.leave_eaddr (f : Frame) : f.leave.eaddr = f.eaddr := rfl
@[simp] theorem Frame.leave_esave (f : Frame) : f.leave.esave = f.esave := rfl
@[simp] theorem Frame.leave_volist (f : Frame) : f.leave.volist = f.volist := rfl
@[simp] theorem Frame.leave_vobase (f : Frame) : f.leave.vobase = f.vobase := rfl
@[simp] theorem Frame.leave_ctx (f : Frame) : f.leave.ctx = f.ctx := rfl
@[simp] theorem Frame.leave_launch (f : Frame) : f.leave.launch = f.launch := rfl
@[simp] theorem Frame.leave_origin (f : Frame) : f.leave.origin = f.origin := rfl
@[simp] theorem Frame.leave_reservedFor (f : Frame) : f.leave.reservedFor = f.reservedFor := rfl
@[simp] theorem Frame.leave_thread (f : Frame) : f.leave.thread = f.thread := rfl
@[simp] theorem Frame.leave_poisoned (f : Frame) : f.leave.poisoned = f.poisoned := rfl
@[simp] theorem Frame.leave_refusals (f : Frame) : f.leave.refusals = f.refusals := rfl
@[simp] theorem Frame.leave_resv (f : Frame) : f.leave.resv = f.resv := rfl
@[simp] theorem Frame.leave_claims (f : Frame) : f.leave.claims = f.claims := rfl
@[simp] theorem Frame.leave_preempt (f : Frame) : f.leave.preempt = f.preempt := rfl
@[simp] theorem Frame.leave_engErr (f : Frame) : f.leave.engErr = f.engErr := rfl
@[simp] theorem Frame.leave_walkFault (f : Frame) : f.leave.walkFault = f.walkFault := rfl
@[simp] theorem Frame.leave_trapping (f : Frame) : f.leave.trapping = f.trapping := rfl
@[simp] theorem Frame.leave_readySince (f : Frame) : f.leave.readySince = f.readySince := rfl
@[simp] theorem Frame.leave_promoted (f : Frame) : f.leave.promoted = f.promoted := rfl
@[simp] theorem Frame.leave_freeAt (f : Frame) : f.leave.freeAt = f.freeAt := rfl
@[simp] theorem Frame.leave_far (f : Frame) : f.leave.far = f.far := rfl
@[simp] theorem Frame.leave_slots (f : Frame) : f.leave.slots = f.eslots.dropWhile (· != f.epc) := rfl
@[simp] theorem Frame.leave_eslots (f : Frame) : f.leave.eslots = f.eslots := rfl
@[simp] theorem Frame.leave_fatal (f : Frame) : f.leave.fatal = f.fatal := rfl
@[simp] theorem Frame.leave_savedVec (f : Frame) : f.leave.savedVec = f.savedVec := rfl
@[simp] theorem Frame.leave_savedCap (f : Frame) : f.leave.savedCap = f.savedCap := rfl
@[simp] theorem Frame.leave_savedAcc (f : Frame) : f.leave.savedAcc = f.savedAcc := rfl

/-! ## Time, and the package of a state -/

@[simp] theorem Chip.tick_now (c : Chip) (n : Nat) : (c.tick n).now = c.now + n := rfl
@[simp] theorem Chip.tick_started (c : Chip) (n : Nat) : (c.tick n).started = c.started := rfl
@[simp] theorem Chip.tick_core (c : Chip) (n : Nat) : (c.tick n).core = c.core := rfl
@[simp] theorem Chip.tick_frame (c : Chip) (n : Nat) : (c.tick n).frame = c.frame := rfl
@[simp] theorem Chip.tick_word (c : Chip) (n : Nat) : (c.tick n).word = c.word := rfl
@[simp] theorem Chip.tick_cores (c : Chip) (n : Nat) : (c.tick n).cores = c.cores := rfl
@[simp] theorem Chip.tick_hbm (c : Chip) (n : Nat) : (c.tick n).hbm = c.hbm := rfl
@[simp] theorem Chip.tick_hbmPoison (c : Chip) (n : Nat) : (c.tick n).hbmPoison = c.hbmPoison := rfl
@[simp] theorem Chip.tick_dead (c : Chip) (n : Nat) : (c.tick n).dead = c.dead := rfl
@[simp] theorem Chip.tick_host (c : Chip) (n : Nat) : (c.tick n).host = c.host := rfl
@[simp] theorem Chip.tick_hostBad (c : Chip) (n : Nat) : (c.tick n).hostBad = c.hostBad := rfl
@[simp] theorem Chip.tick_far (c : Chip) (n : Nat) : (c.tick n).far = c.far := rfl
@[simp] theorem Chip.tick_agentResv (c : Chip) (n : Nat) : (c.tick n).agentResv = c.agentResv := rfl
@[simp] theorem Chip.tick_agentWait (c : Chip) (n : Nat) : (c.tick n).agentWait = c.agentWait := rfl
@[simp] theorem Chip.tick_ctxs (c : Chip) (n : Nat) : (c.tick n).ctxs = c.ctxs := rfl
@[simp] theorem Chip.tick_queues (c : Chip) (n : Nat) : (c.tick n).queues = c.queues := rfl
@[simp] theorem Chip.tick_turn (c : Chip) (n : Nat) : (c.tick n).turn = c.turn := rfl
@[simp] theorem Chip.tick_hqs (c : Chip) (n : Nat) : (c.tick n).hqs = c.hqs := rfl
@[simp] theorem Chip.tick_grants (c : Chip) (n : Nat) : (c.tick n).grants = c.grants := rfl
@[simp] theorem Chip.tick_shares (c : Chip) (n : Nat) : (c.tick n).shares = c.shares := rfl
@[simp] theorem Chip.tick_launches (c : Chip) (n : Nat) : (c.tick n).launches = c.launches := rfl
@[simp] theorem Chip.tick_nextLaunch (c : Chip) (n : Nat) : (c.tick n).nextLaunch = c.nextLaunch := rfl
@[simp] theorem Chip.tick_foreign (c : Chip) (n : Nat) : (c.tick n).foreign = c.foreign := rfl
@[simp] theorem Chip.tick_ring (c : Chip) (n : Nat) : (c.tick n).ring = c.ring := rfl
@[simp] theorem Chip.tick_signatures (c : Chip) (n : Nat) : (c.tick n).signatures = c.signatures := rfl
@[simp] theorem Chip.tick_tlb (c : Chip) (n : Nat) : (c.tick n).tlb = c.tlb := rfl
@[simp] theorem Chip.tick_walks (c : Chip) (n : Nat) : (c.tick n).walks = c.walks := rfl
@[simp] theorem Chip.tick_job (c : Chip) (n : Nat) : (c.tick n).job = c.job := rfl
@[simp] theorem Chip.tick_shut (c : Chip) (n : Nat) : (c.tick n).shut = c.shut := rfl
@[simp] theorem Chip.tick_net (c : Chip) (n : Nat) : (c.tick n).net = c.net := rfl
@[simp] theorem Chip.tick_steals (c : Chip) (n : Nat) : (c.tick n).steals = c.steals := rfl
@[simp] theorem Chip.tick_out (c : Chip) (n : Nat) : (c.tick n).out = (c.routesAt (c.now + n)).out := rfl
@[simp] theorem Chip.tick_retained (c : Chip) (n : Nat) : (c.tick n).retained = (c.routesAt (c.now + n)).retained := rfl
@[simp] theorem Chip.tick_streamsOut (c : Chip) (n : Nat) : (c.tick n).streamsOut = c.streamsOut := rfl
@[simp] theorem Chip.tick_streamsIn (c : Chip) (n : Nat) : (c.tick n).streamsIn = c.streamsIn := rfl
@[simp] theorem Chip.tick_ports (c : Chip) (n : Nat) : (c.tick n).ports = c.ports := rfl
@[simp] theorem Chip.tick_fabcfg (c : Chip) (n : Nat) : (c.tick n).fabcfg = c.fabcfg := rfl
@[simp] theorem Chip.tick_exports (c : Chip) (n : Nat) : (c.tick n).exports = c.exports := rfl
@[simp] theorem Chip.tick_regions (c : Chip) (n : Nat) : (c.tick n).regions = c.regions := rfl
@[simp] theorem Chip.tick_pending (c : Chip) (n : Nat) : (c.tick n).pending = c.pending := rfl
@[simp] theorem Chip.tick_edits (c : Chip) (n : Nat) : (c.tick n).edits = c.edits := rfl
@[simp] theorem Chip.tick_rounds (c : Chip) (n : Nat) : (c.tick n).rounds = c.rounds := rfl
@[simp] theorem Chip.tick_claimed (c : Chip) (n : Nat) : (c.tick n).claimed = c.claimed := rfl
@[simp] theorem Chip.tick_tiles (c : Chip) (n : Nat) : (c.tick n).tiles = c.tiles := rfl
@[simp] theorem Chip.tick_reports (c : Chip) (n : Nat) : (c.tick n).reports = c.reports := rfl
@[simp] theorem Chip.tick_testing (c : Chip) (n : Nat) : (c.tick n).testing = c.testing := rfl
@[simp] theorem Chip.tick_failed (c : Chip) (n : Nat) : (c.tick n).failed = c.failed := rfl
@[simp] theorem Chip.tick_spares (c : Chip) (n : Nat) : (c.tick n).spares = c.spares := rfl
@[simp] theorem Chip.tick_corrected (c : Chip) (n : Nat) : (c.tick n).corrected = c.corrected := rfl
@[simp] theorem Chip.tick_monitors (c : Chip) (n : Nat) : (c.tick n).monitors = c.monitors := rfl
@[simp] theorem Chip.tick_health (c : Chip) (n : Nat) : (c.tick n).health = c.health := rfl
@[simp] theorem Chip.tick_hlhead (c : Chip) (n : Nat) : (c.tick n).hlhead = c.hlhead := rfl
@[simp] theorem Chip.tick_msix (c : Chip) (n : Nat) : (c.tick n).msix = c.msix := rfl
@[simp] theorem Chip.tick_starts (c : Chip) (n : Nat) : (c.tick n).starts = c.starts := rfl
@[simp] theorem Chip.tick_devState (c : Chip) (n : Nat) : (c.tick n).devState = c.devState := rfl
@[simp] theorem Chip.tick_devStep (c : Chip) (n : Nat) : (c.tick n).devStep = c.devStep := rfl
@[simp] theorem Chip.tick_journal (c : Chip) (n : Nat) : (c.tick n).journal = c.journal := rfl
@[simp] theorem Chip.tick_jstarted (c : Chip) (n : Nat) : (c.tick n).jstarted = c.jstarted := rfl
@[simp] theorem Chip.tick_jalt (c : Chip) (n : Nat) : (c.tick n).jalt = c.jalt := rfl
@[simp] theorem Chip.tick_jreset (c : Chip) (n : Nat) : (c.tick n).jreset = c.jreset := rfl
@[simp] theorem Chip.tick_nonce (c : Chip) (n : Nat) : (c.tick n).nonce = c.nonce := rfl
@[simp] theorem Chip.tick_atst (c : Chip) (n : Nat) : (c.tick n).atst = c.atst := rfl
@[simp] theorem Chip.tick_atstSince (c : Chip) (n : Nat) : (c.tick n).atstSince = c.atstSince := rfl
@[simp] theorem Chip.tick_report (c : Chip) (n : Nat) : (c.tick n).report = c.report := rfl
@[simp] theorem Chip.tick_nextReq (c : Chip) (n : Nat) : (c.tick n).nextReq = c.nextReq := rfl
@[simp] theorem Chip.tick_nextThread (c : Chip) (n : Nat) : (c.tick n).nextThread = c.nextThread := rfl
@[simp] theorem Chip.tick_freeCount (c : Chip) (n : Nat) : (c.tick n).freeCount = c.freeCount := rfl
@[simp] theorem State.withChip_chip (s : State) (c : Chip) : (s.withChip c).chip = c := rfl
@[simp] theorem State.withChip_mr (s : State) (c : Chip) : (s.withChip c).mr = s.mr := rfl
@[simp] theorem State.withChip_agenda (s : State) (c : Chip) : (s.withChip c).agenda = s.agenda := rfl
@[simp] theorem State.withChip_turnCore (s : State) (c : Chip) : (s.withChip c).turnCore = s.turnCore := rfl

end Sys2Proof.Machine
end

