-- ==== Sys2Proof/Laws/Ops.lean ====
section
/-! SUPPORT. What each shared operation of an instruction comes to: the monad's plain steps, register fields, and the issue
itself, so that a claim about an instruction cites these and unfolds only its own meaning. -/

namespace Sys2Proof.Machine

/-! ## The monad -/

@[simp] theorem M.pure_run {α : Type} (x : α) (c : Chip) : (pure x : M α) c = .ok x c := rfl
@[simp] theorem M.get_run (c : Chip) : (get : M Chip) c = .ok c c := rfl
@[simp] theorem M.set_run (d c : Chip) : (set d : M PUnit) c = .ok PUnit.unit d := rfl
@[simp] theorem M.modify_run (f : Chip → Chip) (c : Chip) : (modify f : M PUnit) c = .ok PUnit.unit (f c) := rfl
@[simp] theorem M.throw_run {α : Type} (e : Stop) (c : Chip) : (throw e : M α) c = .error e c := rfl
theorem M.bind_ok {α β : Type} {x : M α} {f : α → M β} {c d : Chip} {a : α} (h : x c = .ok a d) :
    (x >>= f) c = f a d := by
  show EStateM.bind x f c = _; simp only [EStateM.bind, h]
theorem M.bind_error {α β : Type} {x : M α} {f : α → M β} {c d : Chip} {e : Stop} (h : x c = .error e d) :
    (x >>= f) c = .error e d := by
  show EStateM.bind x f c = _; simp only [EStateM.bind, h]
theorem M.bind_run {α β : Type} (x : M α) (f : α → M β) (c : Chip) :
    (x >>= f) c = match x c with
      | .ok a d => f a d
      | .error e d => .error e d := by
  show EStateM.bind x f c = _; simp only [EStateM.bind]; cases x c <;> rfl

@[simp] theorem raise_run {α : Type} (k : Nat) (a : Word) (d : Nat) (c : Chip) :
    (raise k a d : M α) c = .error (.trap k d a) c := rfl
@[simp] theorem notReady_run {α : Type} (w : Wait) (c : Chip) : (notReady w : M α) c = .error (.wait w) c := rfl
@[simp] theorem raiseIf_false (k : Nat) (a : Word) (d : Nat) : raiseIf false k a d = pure () := rfl
@[simp] theorem raiseIf_true (k : Nat) (a : Word) (d : Nat) : raiseIf true k a d = raise k a d := rfl
@[simp] theorem waitIf_false (w : Wait) : waitIf false w = pure () := rfl
@[simp] theorem waitIf_true (w : Wait) : waitIf true w = notReady w := rfl
@[simp] theorem modCore_run (f : Core → Core) (c : Chip) : modCore f c = .ok () (c.modCore c.core f) := rfl
@[simp] theorem modFrame_run (f : Frame → Frame) (c : Chip) : modFrame f c = .ok () (c.modFrame c.core c.frame f) := rfl
@[simp] theorem theCore_run (c : Chip) : theCore c = .ok c.here c := rfl
@[simp] theorem theFrame_run (c : Chip) : theFrame c = .ok c.me c := rfl
@[simp] theorem advance_run (c : Chip) : advance c = .ok () c.goOn := rfl
@[simp] theorem readPred_run (n : BitVec 3) (c : Chip) : readPred n c = .ok (predOf c.me.sw n) c := rfl
@[simp] theorem writePred_run (n : BitVec 3) (b : Bool) (c : Chip) : writePred n b c = .ok () (c.flagged n b) := rfl

/-- A loop whose every turn leaves the package alone leaves it alone. -/
theorem forIn_ok {α : Type} (l : List α) (f : α → PUnit → M (ForInStep PUnit)) (c : Chip)
    (h : ∀ x ∈ l, f x PUnit.unit c = .ok (ForInStep.yield PUnit.unit) c) :
    (forIn l PUnit.unit f : M PUnit) c = .ok PUnit.unit c := by
  induction l with
  | nil => rfl
  | cons x r ih =>
    rw [List.forIn_cons, M.bind_ok (h x (by simp))]
    exact ih fun y hy => h y (by simp [hy])

/-! ## Register fields -/

theorem reportRefusal_ok (p : Refusal_ → Bool) (c : Chip) (h : c.me.refusals.all (fun x => !p x) = true) :
    reportRefusal p c = .ok () c := by
  have : c.me.refusals.find? p = none := by
    rw [List.find?_eq_none]; intro x hx; have := List.all_eq_true.1 h x hx; simpa using this
  simp [reportRefusal, M.bind_run, this]

theorem checkReg_ok (r : Reg) (c : Chip) (h : c.settled r = true) : checkReg r c = .ok () c := by
  cases r <;> try rfl
  next n =>
    simp only [Chip.settled, Bool.and_eq_true, Bool.not_eq_true'] at h
    obtain ⟨⟨h1, h2⟩, h3⟩ := h
    simp only [Chip.here] at h1 h2
    simp only [checkReg, M.bind_run, M.get_run, h1, h2, waitIf_false, M.pure_run]
    exact reportRefusal_ok _ _ (by simpa [bne] using h3)
  all_goals
    simp only [Chip.settled, Bool.and_eq_true, Bool.not_eq_true', Chip.here] at h
    simp only [checkReg, M.bind_run, M.get_run, h.1, h.2, waitIf_false]
    rfl

theorem checkPoison_ok (r : Reg) (c : Chip) (h : c.sound r = true) : checkPoison r c = .ok () c := by
  cases r <;> try rfl
  next n =>
    have : c.me.poisoned.find? (fun p => p.1 == n.toNat) = none := by
      rw [List.find?_eq_none]; intro x hx; have := List.all_eq_true.1 h x hx; simpa using this
    simp [checkPoison, M.bind_run, this]

/-- Words that can be popped, counted in queue order, can be popped at all (R15). -/
theorem poppable_of_holds (c : Chip) (d : Dir) (n : Nat) (h : c.linkWords d n = true) : n ≤ c.poppable c.core d := by
  simp only [Chip.linkWords, Bool.and_eq_true, decide_eq_true_eq] at h
  obtain ⟨h1, h2⟩ := h
  rw [Chip.poppable]
  have key : ∀ l : List (Word × Nat), n ≤ l.length → ((l.take n).all fun w => decide (w.2 < c.now)) = true →
      n ≤ (l.filter fun w => decide (w.2 < c.now)).length := by
    intro l h1 h2
    have e : l.filter (fun w => decide (w.2 < c.now)) =
        (l.take n).filter (fun w => decide (w.2 < c.now)) ++ (l.drop n).filter (fun w => decide (w.2 < c.now)) := by
      rw [← List.filter_append, List.take_append_drop]
    rw [e, List.filter_eq_self.2 (fun x hx => List.all_eq_true.1 h2 x hx), List.length_append, List.length_take]
    omega
  exact key _ h1 h2

theorem checkLinks_ok (src dst : List Reg) (c : Chip)
    (h : ∀ d : Dir, c.linkWords d (src.count (.link d)) = true ∧ dst.count (.link d) ≤ c.pushRoom c.core d) :
    checkLinks src dst c = .ok () c := by
  rw [checkLinks, M.bind_ok (M.get_run c), M.bind_ok (forIn_ok _ _ c ?_)]
  · rfl
  intro d _
  have h1 := poppable_of_holds _ _ _ (h d).1
  have h2 := (h d).2
  have e1 : decide (c.poppable c.core d < src.count (.link d)) = false := by simpa using h1
  have e2 : decide (c.pushRoom c.core d < dst.count (.link d)) = false := by simpa using h2
  simp only [e1, e2, waitIf_false, M.bind_run, M.pure_run]

theorem usable_iff (c : Chip) (src dst : List Reg) : c.usable src dst = true ↔
    (∀ r ∈ src ++ dst, c.settled r = true) ∧ (∀ r ∈ src, c.sound r = true) ∧
    ∀ d : Dir, c.linkWords d (src.count (.link d)) = true ∧ dst.count (.link d) ≤ c.pushRoom c.core d := by
  simp only [Chip.usable, Bool.and_eq_true, List.all_eq_true, decide_eq_true_eq, and_assoc]
  refine and_congr Iff.rfl (and_congr Iff.rfl ⟨fun h d => h d (by cases d <;> simp), fun h d _ => h d⟩)

/-- The register fields made ready (R61, R259, R369). -/
theorem use_ok (src dst : List Reg) (c : Chip) (h : c.usable src dst = true) : use src dst c = .ok () c := by
  obtain ⟨h1, h2, h3⟩ := (usable_iff ..).1 h
  rw [use, M.bind_ok (forIn_ok _ _ c fun r hr => by simp only [M.bind_run, checkReg_ok _ _ (h1 r hr), M.pure_run]),
    M.bind_ok (forIn_ok _ _ c fun r hr => by simp only [M.bind_run, checkPoison_ok _ _ (h2 r hr), M.pure_run])]
  exact checkLinks_ok _ _ _ h3

/-- A register field is read (R259). -/
theorem rd_ok (r : Reg) (c : Chip) (h : ∀ d, r = .link d → c.linkWords d 1 = true) : rd r c = .ok (c.val r) (c.popped r) := by
  cases r <;> try rfl
  · next d =>
    have := h d rfl
    simp only [Chip.linkWords, Bool.and_eq_true, decide_eq_true_eq] at this
    simp only [Chip.here] at this
    simp only [rd, popLink, M.bind_run, M.get_run, Chip.val, Chip.popped, Chip.here]
    cases hl : (c.coreAt c.core).links[dirIx d] with
    | nil => simp [hl] at this
    | cons w r =>
      rw [hl] at this
      have hw : w.2 < c.now := by simpa using this.2
      have e : decide (c.now ≤ w.2) = false := by simpa using hw
      simp only [e, waitIf_false, M.bind_run, M.pure_run, modCore_run, List.head?_cons, Option.map_some,
        Option.getD_some]
      congr 1
      simp only [Chip.modCore, hl, List.tail_cons]
  · simp only [rd, M.bind_run, theCore_run, Chip.val]
    cases c.here.postbox <;> rfl

/-- A register field is written (R259). -/
theorem wr_ok (r : Reg) (v : Word) (c : Chip) (h : ∀ d, r = .link d → 1 ≤ c.pushRoom c.core d) :
    wr r v c = .ok () (c.given r v) := by
  cases r <;> try rfl
  next d =>
    have := h d rfl
    have e : (c.pushRoom c.core d == 0) = false := by simp; omega
    simp only [wr, pushLink, M.bind_run, M.get_run, e, waitIf_false, M.pure_run, M.set_run, Chip.given]

/-! ## Several fields in order -/

/-- A core is not its own neighbour (R14). -/
theorem neighbour_ne (n : Nat) (d : Dir) : neighbour n d ≠ n := by
  cases d <;> simp only [neighbour] <;> omega

@[simp] theorem popped_core (c : Chip) (r : Reg) : (c.popped r).core = c.core := by cases r <;> rfl
@[simp] theorem popped_frame (c : Chip) (r : Reg) : (c.popped r).frame = c.frame := by cases r <;> rfl
@[simp] theorem popped_now (c : Chip) (r : Reg) : (c.popped r).now = c.now := by cases r <;> rfl
@[simp] theorem popped_me (c : Chip) (r : Reg) : (c.popped r).me = c.me := by
  cases r <;> try rfl
  next d => simp only [Chip.me, Chip.popped, Chip.modCore_core, Chip.modCore_frame, Chip.frameAt, Chip.coreAt_modCore]; rfl
@[simp] theorem popped_pushRoom (c : Chip) (r : Reg) (d : Dir) : (c.popped r).pushRoom c.core d = c.pushRoom c.core d := by
  cases r <;> try rfl
  next e => simp only [Chip.pushRoom, Chip.popped, Chip.coreAt_modCore_other _ _ (neighbour_ne _ _), Chip.modCore_now]

@[simp] theorem here_modCore (c : Chip) (f : Core → Core) : (c.modCore c.core f).here = f c.here := Chip.coreAt_modCore ..
theorem dirIx_ne {d e : Dir} (h : d ≠ e) : (dirIx d).val ≠ (dirIx e).val := by
  cases d <;> cases e <;> first | exact absurd rfl h | decide
theorem popped_here (c : Chip) (d : Dir) : (c.popped (.link d)).here = { c.here with
    links := c.here.links.set (dirIx d) (c.here.links[dirIx d]).tail
    pops := c.here.pops.set (dirIx d) (c.now :: (c.here.pops[dirIx d]).filter (· == c.now)) } := here_modCore ..

theorem popped_linkWords (c : Chip) (r : Reg) (d : Dir) (n : Nat)
    (h : c.linkWords d (n + if r = .link d then 1 else 0) = true) : (c.popped r).linkWords d n = true := by
  simp only [Chip.linkWords, Bool.and_eq_true, decide_eq_true_eq, List.all_eq_true] at h ⊢
  simp only [popped_now]
  obtain ⟨h1, h2⟩ := h
  have sub : ∀ (l : List (Word × Nat)) m, ∀ x ∈ l.take n, x ∈ l.take (n + m) := by
    intro l m x hx
    rw [← Nat.add_sub_cancel (n := n) (m := m), Nat.add_sub_cancel] at *
    exact (List.take_sublist_take_left (l := l) (Nat.le_add_right n m)).subset hx
  cases r
  case link e =>
    by_cases he : e = d
    · subst he
      have hl : ((c.popped (.link e)).here.links[dirIx e]) = (c.here.links[dirIx e]).tail := by
        rw [popped_here]; exact Vector.getElem_set_self _
      rw [if_pos rfl] at h1 h2
      rw [hl]
      generalize hL : c.here.links[dirIx e] = L at h1 h2
      cases L with
      | nil => simp at h1
      | cons w r =>
        refine ⟨by simpa using h1, fun x hx => h2 x ?_⟩
        simp only [List.tail_cons] at hx
        rw [List.take_succ_cons]; exact List.mem_cons_of_mem _ hx
    · have hl : ((c.popped (.link e)).here.links[dirIx d]) = c.here.links[dirIx d] := by
        rw [popped_here]; exact Vector.getElem_set_ne (dirIx e).isLt (dirIx d).isLt (dirIx_ne he)
      rw [hl]
      exact ⟨by omega, fun x hx => h2 x (sub _ _ x hx)⟩
  all_goals exact ⟨Nat.le_trans (Nat.le_add_right ..) h1, fun x hx => h2 x (sub _ _ x hx)⟩

/-- The words and the room that a list of fields needs, in order. -/
def Chip.flow (c : Chip) (src dst : List Reg) : Prop :=
  ∀ d : Dir, c.linkWords d (src.count (.link d)) = true ∧ dst.count (.link d) ≤ c.pushRoom c.core d

theorem flow_of_usable {c : Chip} {src dst : List Reg} (h : c.usable src dst = true) : c.flow src dst :=
  ((usable_iff ..).1 h).2.2

/-- The first source read; the rest flow on from there. -/
theorem rd_flow {c : Chip} {r : Reg} {src dst : List Reg} (h : c.flow (r :: src) dst) :
    rd r c = .ok (c.val r) (c.popped r) ∧ (c.popped r).flow src dst := by
  constructor
  · refine rd_ok _ _ fun d hd => ?_
    subst hd
    have := (h d).1
    rw [List.count_cons_self] at this
    simp only [Chip.linkWords, Bool.and_eq_true, decide_eq_true_eq, List.all_eq_true] at this ⊢
    refine ⟨by omega, fun x hx => this.2 x ?_⟩
    exact (List.take_sublist_take_left (l := _) (Nat.le_add_left 1 _)).subset hx
  · intro d
    refine ⟨popped_linkWords _ _ _ _ ?_, by rw [popped_core, popped_pushRoom]; exact (h d).2⟩
    have := (h d).1
    rw [List.count_cons] at this
    simpa [beq_iff_eq] using this

/-- The one destination written. -/
theorem wr_flow {c : Chip} {r : Reg} {src dst : List Reg} (h : c.flow src (r :: dst)) (v : Word) :
    wr r v c = .ok () (c.given r v) := by
  refine wr_ok _ _ _ fun d hd => ?_
  subst hd
  have := (h d).2
  rw [List.count_cons_self] at this
  omega

/-! ## Issue -/

@[simp] theorem issuing_core (c : Chip) (i : Instr) : (c.issuing i).core = c.core := (rfl)
@[simp] theorem issuing_frame (c : Chip) (i : Instr) : (c.issuing i).frame = c.frame := (rfl)
@[simp] theorem issuing_me (c : Chip) (i : Instr) : (c.issuing i).me = c.me := (rfl)
@[simp] theorem issuing_here (c : Chip) (i : Instr) : (c.issuing i).here = c.here := (rfl)
@[simp] theorem issuing_now (c : Chip) (i : Instr) : (c.issuing i).now = c.now := (rfl)
@[simp] theorem issuing_val (c : Chip) (i : Instr) (r : Reg) : (c.issuing i).val r = c.val r := by cases r <;> exact (rfl)
@[simp] theorem issuing_usable (c : Chip) (i : Instr) (a b : List Reg) : (c.issuing i).usable a b = c.usable a b := (rfl)

/-- An instruction whose guard holds comes to what its body comes to (R261, R290). -/
theorem issue_ok {i : Instr} {slotOk : Bool} {body : M Unit} {c d : Chip} (hc : c.clear (guardOf i) = true)
    (hs : slotOk = true ∨ c.me.inSlot = false) (hb : body (c.issuing i) = .ok () d) : issueChip i slotOk body c = d := by
  simp only [Chip.clear, Bool.and_eq_true, Bool.not_eq_true'] at hc
  obtain ⟨h1, h2⟩ := hc
  have e1 : Chip.capturing { c with word := causeWord i } = false := h1
  have e2 : (!slotOk && c.me.inSlot) = false := by rcases hs with h | h <;> simp [h]
  have e3 : Chip.me { c with word := causeWord i } = c.me := rfl
  rw [issueChip, finish, finishWord]
  simp only [M.bind_run, M.get_run, e1, theFrame_run, e3, e2, raiseIf_false, M.pure_run, h2, if_true,
    Bool.false_eq_true, if_false]
  rw [show body { c with word := causeWord i } = .ok () d from hb]

/-- An instruction whose guard does not hold only advances (R261). -/
theorem issue_skip {i : Instr} {body : M Unit} {c : Chip} (h1 : c.capturing = false)
    (h2 : guardHolds (guardOf i) c.me.sw = false) (slotOk : Bool) (hs : slotOk = true ∨ c.me.inSlot = false) :
    issueChip i slotOk body c = (c.issuing i).goOn := by
  have e1 : Chip.capturing { c with word := causeWord i } = false := h1
  have e2 : (!slotOk && c.me.inSlot) = false := by rcases hs with h | h <;> simp [h]
  have e3 : Chip.me { c with word := causeWord i } = c.me := rfl
  rw [issueChip, finish, finishWord]
  simp only [M.bind_run, M.get_run, e1, theFrame_run, e3, e2, raiseIf_false, M.pure_run, h2, advance_run,
    Bool.false_eq_true, if_false]
  rfl

/-- An instruction whose body traps takes the trap in the state before it (R152, R271). -/
theorem issue_trap {i : Instr} {slotOk : Bool} {body : M Unit} {c d : Chip} {k x : Nat} {e : Word}
    (hc : c.clear (guardOf i) = true) (hs : slotOk = true ∨ c.me.inSlot = false)
    (hb : body (c.issuing i) = .error (.trap k x e) d) :
    issueChip i slotOk body c = (d.linksOf c c.core).takeTrap c.core c.frame (causeWord i) false k x e := by
  simp only [Chip.clear, Bool.and_eq_true, Bool.not_eq_true'] at hc
  obtain ⟨h1, h2⟩ := hc
  have e1 : Chip.capturing { c with word := causeWord i } = false := h1
  have e2 : (!slotOk && c.me.inSlot) = false := by rcases hs with h | h <;> simp [h]
  have e3 : Chip.me { c with word := causeWord i } = c.me := rfl
  rw [issueChip, finish, finishWord]
  simp only [M.bind_run, M.get_run, e1, theFrame_run, e3, e2, raiseIf_false, M.pure_run, h2, if_true,
    Bool.false_eq_true, if_false]
  rw [show body { c with word := causeWord i } = .error (.trap k x e) d from hb]

/-- A plain instruction: its body, then the advance (R157). -/
theorem plain_ok {i : Instr} {body : M Unit} {s : State} {d : Chip} (hc : s.chip.clear (guardOf i) = true)
    (hb : body (s.chip.issuing i) = .ok () d) : plain i body s = .next (s.withChip d.goOn) := by
  rw [plain, issue_ok (d := d.goOn) hc (Or.inl rfl) (by rw [M.bind_ok hb]; rfl)]; rfl

/-- An instruction that sets the triple itself. -/
theorem steers_ok {i : Instr} {body : M Unit} {s : State} {d : Chip} (hc : s.chip.clear (guardOf i) = true)
    (hb : body (s.chip.issuing i) = .ok () d) : steers i body s = .next (s.withChip d) := by
  rw [steers, issue_ok hc (Or.inl rfl) hb]; rfl

/-- An instruction that may not stand in a delay slot. -/
theorem slotless_ok {i : Instr} {body : M Unit} {s : State} {d : Chip} (hc : s.chip.clear (guardOf i) = true)
    (hs : s.chip.me.inSlot = false) (hb : body (s.chip.issuing i) = .ok () d) : slotless i body s = .next (s.withChip d) := by
  rw [slotless, issue_ok hc (Or.inr hs) hb]; rfl

/-- Every issue of an instruction answers a next state. -/
theorem plain_next (i : Instr) (body : M Unit) (s : State) : ∃ c, plain i body s = .next (s.withChip c) := ⟨_, rfl⟩

/-- A step of another agent that is enabled. -/
theorem event_ok {f : Chip → Option Chip} {s : State} {d : Chip} (h : f s.chip = some d) :
    event f s = .next (s.withChip d) := by rw [event, h]; rfl
/-- A step of another agent leaves all but the package alone. -/
theorem event_next {f : Chip → Option Chip} {s t : State} (h : event f s = .next t) :
    ∃ d, f s.chip = some d ∧ t = s.withChip d := by
  rw [event] at h
  split at h
  · next d hd => exact ⟨d, hd, by cases h; rfl⟩
  · cases h

end Sys2Proof.Machine
end

