-- ==== Sys2Proof/Laws/Access.lean ====
section
/-! SUPPORT. What each shared operation of an access comes to: waits for the sequencer and for acquires, releases, ownership
of the vector and matrix units, translations, targets, requests, and the scratchpad as an instruction reads and writes it. -/

namespace Sys2Proof.Machine

/-! ## The noted word changes nothing that an instruction tests. Proofs in parentheses keep simp from leaving the step to
the kernel, which would compare the words. -/

@[simp] theorem issuing_capturing (c : Chip) (i : Instr) : (c.issuing i).capturing = c.capturing := (rfl)
@[simp] theorem issuing_clear (c : Chip) (i : Instr) (g : Guard) : (c.issuing i).clear g = c.clear g := (rfl)
@[simp] theorem issuing_atRest (c : Chip) (i : Instr) : (c.issuing i).atRest = c.atRest := (rfl)
@[simp] theorem issuing_unrefused (c : Chip) (i : Instr) : (c.issuing i).unrefused = c.unrefused := (rfl)
@[simp] theorem issuing_mayAccess (c : Chip) (i : Instr) : (c.issuing i).mayAccess = c.mayAccess := (rfl)
@[simp] theorem issuing_releasable (c : Chip) (i : Instr) (s : Scope) : (c.issuing i).releasable s = c.releasable s := (rfl)
@[simp] theorem issuing_orderedBy (c : Chip) (i : Instr) (q : Option Scope) : (c.issuing i).orderedBy q = c.orderedBy q := by
  cases q <;> exact (rfl)
@[simp] theorem issuing_openIn (c : Chip) (i : Instr) (core : Nat) (o : Owner) (s : Scope) (p : Req → Bool) :
    (c.issuing i).openIn core o s p = c.openIn core o s p := (rfl)
@[simp] theorem issuing_settled (c : Chip) (i : Instr) (r : Reg) : (c.issuing i).settled r = c.settled r := by cases r <;> exact (rfl)
@[simp] theorem issuing_sound (c : Chip) (i : Instr) (r : Reg) : (c.issuing i).sound r = c.sound r := by cases r <;> exact (rfl)
@[simp] theorem issuing_linkWords (c : Chip) (i : Instr) (d : Dir) (n : Nat) :
    (c.issuing i).linkWords d n = c.linkWords d n := (rfl)
@[simp] theorem issuing_padSound (c : Chip) (i : Instr) (a n : Nat) : (c.issuing i).padSound a n = c.padSound a n := (rfl)
@[simp] theorem issuing_pad64 (c : Chip) (i : Instr) (a : Nat) : (c.issuing i).pad64 a = c.pad64 a := (rfl)
@[simp] theorem issuing_vectorIdle (c : Chip) (i : Instr) (v : Nat) : (c.issuing i).vectorIdle v = c.vectorIdle v := (rfl)
@[simp] theorem issuing_lookup (c : Chip) (i : Instr) (va : Word) (n : Need) (o : Bool) :
    (c.issuing i).lookup va n o = c.lookup va n o := (rfl)
@[simp] theorem issuing_word (c : Chip) (i : Instr) : (c.issuing i).word = causeWord i := (rfl)

/-! ## Traps and waits -/

/-- An instruction whose body traps takes the trap, with its links as they were (R152, R271). -/
theorem finish_trap {i : Instr} {seq : Bool} {body : M Unit} {c d : Chip} {k x : Nat} {e : Word}
    (hb : body (c.issuing i) = .error (.trap k x e) d) :
    finish i seq body c = (d.linksOf c c.core).takeTrap c.core c.frame (causeWord i) seq k x e := by
  rw [finish, finishWord, show body { c with word := causeWord i } = .error (.trap k x e) d from hb]
/-- An instruction whose body waits leaves its package as it was, but for the frame that stalls (R127). -/
theorem finish_wait {i : Instr} {seq : Bool} {body : M Unit} {c d : Chip} {w : Wait}
    (hb : body (c.issuing i) = .error (.wait w) d) : finish i seq body c = c.stall c.core c.frame w := by
  rw [finish, finishWord, show body { c with word := causeWord i } = .error (.wait w) d from hb]
theorem plain_trap {i : Instr} {body : M Unit} {s : State} {d : Chip} {k x : Nat} {e : Word}
    (hc : s.chip.clear (guardOf i) = true) (hb : body (s.chip.issuing i) = .error (.trap k x e) d) :
    plain i body s = .next (s.withChip ((d.linksOf s.chip s.chip.core).takeTrap s.chip.core s.chip.frame (causeWord i) false
      k x e)) := by
  rw [plain, issue_trap hc (Or.inl rfl) (by rw [M.bind_error hb])]; rfl
theorem steers_trap {i : Instr} {body : M Unit} {s : State} {d : Chip} {k x : Nat} {e : Word}
    (hc : s.chip.clear (guardOf i) = true) (hb : body (s.chip.issuing i) = .error (.trap k x e) d) :
    steers i body s = .next (s.withChip ((d.linksOf s.chip s.chip.core).takeTrap s.chip.core s.chip.frame (causeWord i) false
      k x e)) := by
  rw [steers, issue_trap hc (Or.inl rfl) hb]; rfl
theorem slotless_trap {i : Instr} {body : M Unit} {s : State} {d : Chip} {k x : Nat} {e : Word}
    (hc : s.chip.clear (guardOf i) = true) (hs : s.chip.me.inSlot = false)
    (hb : body (s.chip.issuing i) = .error (.trap k x e) d) :
    slotless i body s = .next (s.withChip ((d.linksOf s.chip s.chip.core).takeTrap s.chip.core s.chip.frame (causeWord i)
      false k x e)) := by
  rw [slotless, issue_trap hc (Or.inr hs) hb]; rfl

/-! ## Holds -/

theorem reportRefusal_none (p : Refusal_ → Bool) (c : Chip) (h : c.unrefused = true) : reportRefusal p c = .ok () c := by
  refine reportRefusal_ok _ _ ?_
  rw [List.isEmpty_iff.1 h]; rfl
theorem notSequencing_ok (c : Chip) (h : c.atRest = true) : notSequencing c = .ok () c := by
  have h : c.here.sequencing c.frame = false := by simpa [Chip.atRest] using h
  simp only [Chip.here] at h
  simp only [notSequencing, M.bind_run, M.get_run, h, waitIf_false, M.pure_run]
theorem acquired_ok (c : Chip) (h : c.mayAccess = true) : acquired c = .ok () c := by
  simp only [Chip.mayAccess, Bool.and_eq_true, Bool.not_eq_true', Chip.here] at h
  obtain ⟨⟨_, h1⟩, h2⟩ := h
  simp only [acquired, M.bind_run, M.get_run, h1, waitIf_false, M.pure_run]
  exact reportRefusal_ok _ _ h2
/-- An access goes ahead (R71, R367). -/
theorem access_ok (c : Chip) (h : c.mayAccess = true) : access c = .ok () c := by
  have h' : c.atRest = true := by simp only [Chip.mayAccess, Bool.and_eq_true] at h; exact h.1.1
  rw [access, M.bind_ok (notSequencing_ok c h'), acquired_ok c h]
/-- A release holds (R70). -/
theorem release_ok (c : Chip) (s : Scope) (h : c.releasable s = true) : release s c = .ok () c := by
  simp only [Chip.releasable, Bool.and_eq_true] at h
  rw [release, M.bind_ok (reportRefusal_none _ _ h.1)]
  simp only [M.bind_run, M.get_run, h.2, Bool.not_true, waitIf_false, M.pure_run]
theorem releaseIf_ok (c : Chip) (q : Option Scope) (h : c.orderedBy q = true) : releaseIf q c = .ok () c := by
  cases q with
  | none => rfl
  | some s => exact release_ok c s h
/-- Earlier reads have been performed (R73). -/
theorem readsDone_ok (c : Chip) (s : Scope) (h : c.unrefused = true)
    (h' : c.openIn c.core (.frame c.frame) s Req.isRead = false) : readsDone s c = .ok () c := by
  rw [readsDone, M.bind_ok (reportRefusal_none _ _ h)]
  simp only [M.bind_run, M.get_run, h', waitIf_false, M.pure_run]

/-! ## Ownership (R161) -/

/-- The vector unit is the frame's already. -/
theorem takeVector_own (c : Chip) (h : c.here.vec.owner = some c.frame) : takeVector c = .ok () c := by
  simp only [Chip.here] at h
  simp only [takeVector, M.bind_run, M.get_run, h, bne_self_eq_false, waitIf_false, M.pure_run]
/-- The vector unit is free, and nothing of the frame's is saved or on its way in it. -/
theorem takeVector_free (c : Chip) (h : c.here.vec.owner = none) (h1 : c.me.esave = 0) :
    takeVector c = .ok () (c.modCore c.core fun k => { k with vec := { k.vec with owner := some c.frame } }) := by
  simp only [Chip.here] at h
  simp only [takeVector, M.bind_run, M.get_run, h, theFrame_run, h1, modCore_run, bne_self_eq_false, Bool.false_eq_true, if_false,
    M.pure_run]
theorem takeMatrix_ok (c : Chip) (h : c.here.mowner = none ∨ c.here.mowner = some c.frame) :
    takeMatrix c = .ok () (c.modCore c.core fun k => { k with mowner := some c.frame }) := by
  have e : (c.here.mowner.isSome && c.here.mowner != some c.frame) = false := by
    rcases h with h | h <;> simp [h]
  simp only [Chip.here] at e
  simp only [takeMatrix, M.bind_run, M.get_run, e, waitIf_false, M.pure_run, modCore_run]
theorem waitIf_ok {b : Bool} (w : Wait) (c : Chip) (h : b = false) : waitIf b w c = .ok () c := by subst h; rfl
theorem vectorReady_ok (c : Chip) (v : Nat) (h : c.vectorIdle v = true) : vectorReady v c = .ok () c := by
  simp only [Chip.vectorIdle, Bool.and_eq_true, Bool.not_eq_true'] at h
  obtain ⟨⟨⟨h1, h2⟩, h3⟩, h4⟩ := h
  have h5 : c.here.vec.poisoned.find? (fun p => p.1 == v) = none := by
    rw [List.find?_eq_none]; intro x hx; have := List.all_eq_true.1 h4 x hx; simpa using this
  simp only [Chip.here] at h5
  rw [vectorReady, M.bind_ok (M.get_run c)]
  refine (M.bind_ok (waitIf_ok _ _ h1)).trans ((M.bind_ok (waitIf_ok _ _ h2)).trans ?_)
  rw [M.bind_ok (reportRefusal_ok _ _ (by simpa [bne] using h3)), h5]
  rfl

/-! ## Addresses -/

/-- A translation that the cache gives (R182, R186). -/
theorem translate_ok (c : Chip) (va : Word) (n : Need) (o : Bool) (p : Phys) (h : c.lookup va n o = .ok p) :
    translate va n o c = .ok p c := by
  simp only [translate, M.bind_run, M.get_run, h, M.pure_run]
/-- A translation that stops: the fault that a walk brought back is used up. -/
theorem translate_error (c : Chip) (va : Word) (n : Need) (o : Bool) (e : Stop) (h : c.lookup va n o = .error e) :
    translate va n o c = .error e (c.modFrame c.core c.frame fun f => { f with walkFault := none }) := by
  simp only [translate, M.bind_run, M.get_run, h]; rfl
/-- A reference that passes the checks of R376. -/
theorem targetOf_ref (c : Chip) (w : Word) (n al : Nat) (need : Need) (h : tst w 63 = true) (h1 : refBad w = false)
    (h2 : w.toNat % al = 0) (h3 : refOff w + n ≤ Config.dataEnd) :
    targetOf w n al need c = .ok (.ref (refPkg w) (refCore w) (refOff w)) c := by
  have e : decide (refOff w + n > Config.dataEnd) = false := by simpa using h3
  have e2 : (w.toNat % al != 0) = false := by simp [h2]
  simp only [targetOf, h, h1, Bool.and_false, raiseIf_false, M.bind_run, M.pure_run, e2, if_true, e]
/-- A virtual address that passes the checks of R376. -/
theorem targetOf_virt (c : Chip) (w : Word) (n al : Nat) (need : Need) (p : Phys) (h : tst w 63 = false)
    (h2 : w.toNat % al = 0) (h3 : c.lookup w need false = .ok p) : targetOf w n al need c = .ok (.virt p) c := by
  have e2 : (w.toNat % al != 0) = false := by simp [h2]
  simp only [targetOf, h, Bool.false_and, raiseIf_false, M.bind_run, M.pure_run, e2, Bool.false_eq_true, if_false,
    translate_ok c w need false p h3]

/-! ## Requests -/

/-- No earlier request to the page is, or may have to be, issued again (R191). -/
theorem holdMoved_ok (c : Chip) (va : Word) (dest : Place) (addr : Nat)
    (h : tst va 63 = true ∨ c.behind va dest addr = false) : holdMoved va dest addr c = .ok () c := by
  have e : (!tst va 63 && c.behind va dest addr) = false := by
    rcases h with h | h
    · rw [h]; rfl
    · rw [h, Bool.and_false]
  simp only [holdMoved, M.bind_run, M.get_run, e, waitIf_false, M.pure_run]
/-- A request is recorded and sent (R368): a posted one has a tracker entry, a returning one a reply slot. -/
theorem send_ok (c : Chip) (want : Want) (acq : Bool) (dest : Place) (addr : Nat) (va : Word) (scope : Option Scope) (body : Body)
    (h : tst va 63 = true ∨ c.behind va dest addr = false)
    (h1 : want = .posted → c.here.trackerUsed < 128)
    (h2 : (match want with | .load .. | .stored .. | .vpart .. => true | _ => false) = true → c.here.slotsUsed < 64) :
    send want acq dest addr va scope body c = .ok () (c.ask c.core (.frame c.frame) want acq
      ⟨0, c.frankOf c.core c.frame, dest, addr, va, scope, c.me.pri, none, 0, 0, body, none, false⟩) := by
  rw [send, M.bind_ok (M.get_run c), M.bind_ok (holdMoved_ok c va dest addr h)]
  simp only [Chip.here] at h1 h2
  cases want <;>
    simp only [M.bind_run, M.set_run, Chip.me] <;>
    first
      | (have e : decide (128 ≤ (c.coreAt c.core).trackerUsed) = false := by simpa using h1 rfl
         simp only [e, waitIf_false, M.pure_run])
      | (have e : decide (64 ≤ (c.coreAt c.core).slotsUsed) = false := by simpa using h2 rfl
         simp only [e, waitIf_false, M.pure_run])
@[simp] theorem post_nextReq (c : Chip) (m : Msg) : (c.post m).nextReq = c.nextReq := by
  rw [Chip.post]; split <;> rfl
@[simp] theorem post_cores (c : Chip) (m : Msg) : (c.post m).cores = c.cores := by
  rw [Chip.post]; split <;> rfl
/-- A message for this package is in flight (R196). -/
theorem post_here (c : Chip) (m : Msg) (h : m.dest.pkg = c.pkg) : c.post m = { c with net := c.net ++ [m] } := by
  rw [Chip.post, if_pos (by simpa using h)]
/-- A message for another package waits in the package switch (R198). -/
theorem post_away (c : Chip) (m : Msg) (h : m.dest.pkg ≠ c.pkg) : c.post m = { c with out := c.out ++ [⟨m, c.now⟩] } := by
  rw [Chip.post, if_neg (by simpa using h)]

/-! ## The scratchpad -/

/-- The thread's earlier messages to a range of its core are performed (R68). -/
theorem inOrder_ok (c : Chip) (a n : Nat) (h : c.inTurn a n = true) : inOrder a n c = .ok () c := by
  have e : c.ahead c.core c.frame a n = false := by simpa [Chip.inTurn] using h
  simp only [inOrder, M.bind_run, M.get_run, e, waitIf_false, M.pure_run]
/-- A scratchpad word that holds no poison. -/
theorem spad_ok (c : Chip) (a n : Nat) (h : c.padSound a n = true) (h1 : c.inTurn a n = true) :
    spad a n c = .ok (c.readNat (.core c.core) a n) c := by
  have e : c.poisonAt (.core c.core) a n = false := by simpa [Chip.padSound] using h
  rw [spad, M.bind_ok (inOrder_ok c a n h1)]
  simp only [M.bind_run, M.get_run, e, raiseIf_false, M.pure_run]
/-- A poisoned one raises 0x0E, detail 0x52 (log 21). -/
theorem spad_poisoned (c : Chip) (a n : Nat) (h : c.padSound a n = false) (h1 : c.inTurn a n = true) :
    spad a n c = .error (.trap 0x0E 0x52 (BitVec.ofNat 64 a)) c := by
  have e : c.poisonAt (.core c.core) a n = true := by simpa [Chip.padSound] using h
  rw [spad, M.bind_ok (inOrder_ok c a n h1)]
  simp only [M.bind_run, M.get_run, e, raiseIf_true, raise_run]
@[simp] theorem spadWrite_run (a n v : Nat) (kind : TouchKind) (c : Chip) :
    spadWrite a n v kind c = .ok () (c.modCore c.core fun k => k.padWrite a (toLe n v) kind) := rfl

/-- A test of a wait-table entry leaves everything but the table and the deque alone (R140). -/
theorem testEntry_frame (k : Core) (i : Fin 32) :
    k.testEntry i = { k with wtab := (k.testEntry i).wtab, deque := (k.testEntry i).deque, dequeOps := (k.testEntry i).dequeOps } := by
  simp only [Core.testEntry, Core.push]; repeat' split
  all_goals rfl
/-- So do the tests that follow a write, but that a waiting frame may find its counter met (R141). -/
theorem testEntries_frame (k : Core) (l : List (Nat × Nat)) :
    k.testEntries l = { k with wtab := (k.testEntries l).wtab, deque := (k.testEntries l).deque,
                               dequeOps := (k.testEntries l).dequeOps, frames := (k.testEntries l).frames } := by
  have tests : ∀ (e : List (Fin 32)) (k : Core),
      e.foldl (fun k i => if l.any fun p => overlap p.1 p.2 (k.wtab[i].ctr) 8 then k.testEntry i else k) k =
      { k with
        wtab := (e.foldl (fun k i => if l.any fun p => overlap p.1 p.2 (k.wtab[i].ctr) 8 then k.testEntry i else k) k).wtab
        deque := (e.foldl (fun k i => if l.any fun p => overlap p.1 p.2 (k.wtab[i].ctr) 8 then k.testEntry i else k) k).deque
        dequeOps := (e.foldl (fun k i => if l.any fun p => overlap p.1 p.2 (k.wtab[i].ctr) 8 then k.testEntry i else k) k).dequeOps } := by
    intro e
    induction e with
    | nil => intro k; rfl
    | cons i e ih =>
      intro k
      simp only [List.foldl_cons]
      split
      · rw [ih, testEntry_frame]
      · rw [ih]
  have waits : ∀ (w : List (Nat × Nat)) (k : Core), w.foldl (fun k p => k.testWaits p.1 p.2) k =
      { k with frames := (w.foldl (fun k p => k.testWaits p.1 p.2) k).frames } := by
    intro w
    induction w with
    | nil => intro k; rfl
    | cons p w ih => intro k; rw [List.foldl_cons, ih]; rfl
  rw [Core.testEntries, waits, tests]
/-- The tests leave of a frame everything but its state. -/
theorem testWaits_frameAt (k : Core) (a n f : Nat) :
    (k.testWaits a n).frameAt f = { k.frameAt f with st := ((k.testWaits a n).frameAt f).st } := by
  have one : ∀ fr : Frame, fr.testWait k a n = { fr with st := (fr.testWait k a n).st } := by
    intro fr; rw [Frame.testWait]; split
    · split <;> rfl
    · rfl
  have all : ∀ l : Tab Frame, tget Frame.reset (l.map fun p => (p.1, p.2.testWait k a n)) f =
      { tget Frame.reset l f with st := (tget Frame.reset (l.map fun p => (p.1, p.2.testWait k a n)) f).st } := by
    intro l
    induction l with
    | nil => rfl
    | cons p l ih =>
      simp only [List.map_cons, tget]
      split
      · exact one _
      · exact ih
  exact all k.frames
/-- A write of a scratchpad leaves its bytes there (R140). -/
theorem padWrite_pad (k : Core) (a : Nat) (b : List Byte) : (k.padWrite a b).pad = wrBytes k.pad a b := by
  rw [Core.padWrite]
  split
  · next h => rw [List.isEmpty_iff.1 h]; rfl
  · rw [testEntries_frame]; rfl
/-- And nothing else but its poison, its reservations, its wait-table, its deque and the waits of its frames changes. -/
theorem padWrite_frame (k : Core) (a : Nat) (b : List Byte) :
    k.padWrite a b = { k with pad := (k.padWrite a b).pad, padPoison := (k.padWrite a b).padPoison, resv := (k.padWrite a b).resv,
                              touched := (k.padWrite a b).touched, wtab := (k.padWrite a b).wtab, deque := (k.padWrite a b).deque,
                              dequeOps := (k.padWrite a b).dequeOps, frames := (k.padWrite a b).frames } := by
  rw [Core.padWrite]
  split
  · rfl
  · rw [testEntries_frame]; rfl

/-- A register written with data (R61): a register that gets poisoned data keeps where it came from. -/
theorem wrData_ok (r : Reg) (v : Word) (bad : Bool) (a : Word) (c : Chip) (h : ∀ d, r = .link d → 1 ≤ c.pushRoom c.core d) :
    wrData r v bad a c = .ok () (c.givenData r v bad a) := by
  cases r with
  | g n =>
    rw [wrData, M.bind_ok (wr_ok _ v c h)]
    cases bad
    · rfl
    · simp only [if_true, Chip.givenData]
      rw [modFrame_run]
  | _ => rw [wrData, M.bind_ok (wr_ok _ v c h)] <;> first | rfl | simp
/-- The offset of a local access that passes its checks (R370). -/
theorem localAddr_ok (a : Reg) (off n : Nat) (c : Chip) (h : ∀ d, a = .link d → c.linkWords d 1 = true) :
    let o := c.val a + BitVec.ofNat 64 off
    o.toNat % n = 0 → o.toNat + n ≤ 0x30000 → (0x2C000 ≤ o.toNat → c.me.sup = true) →
    localAddr a off n c = .ok o.toNat (c.popped a) := by
  intro o h1 h2 h3
  have e1 : (o.toNat % n != 0) = false := by simp [h1]
  have e2 : decide (o.toNat + n > 0x30000) = false := by simpa using h2
  have e3 : (decide (0x2C000 ≤ o.toNat) && !(c.popped a).me.sup) = false := by
    rw [popped_me]
    cases hs : c.me.sup <;> simp_all
  rw [localAddr, M.bind_ok (rd_ok a c h)]
  simp only [o] at e1 e2 e3 ⊢
  simp only [e1, e2, raiseIf_false, M.bind_run, M.pure_run, theFrame_run, e3]

/-! ## Handles -/

/-- A handle that the frame may use and that is enabled (R105, R375). -/
theorem handleReady_ok (c : Chip) (q : BitVec 3)
    (h : c.here.handles[q.toFin].owner = none ∨ c.here.handles[q.toFin].owner = some c.me.ctx)
    (h1 : c.here.handles[q.toFin].en = true) : handleReady q c = .ok c.here.handles[q.toFin] c := by
  have e : (c.here.handles[q.toFin].owner.isSome && c.here.handles[q.toFin].owner != some c.me.ctx) = false := by
    rcases h with h | h <;> rw [h] <;> simp
  simp only [handleReady, handleOwned, M.bind_run, theCore_run, theFrame_run, e, raiseIf_false, M.pure_run, h1, Bool.not_true]

end Sys2Proof.Machine
end

