-- ==== Sys2Proof/Laws/Merge.lean ====
section
/-! SUPPORT. What the merge step of the banks, the deque's cycle and the passing of cycles do (R78, R79, R134). -/

namespace Sys2Proof.Machine

/-- No cycle passes in none. -/
@[simp] theorem pass_zero (c : Chip) : c.pass 0 = c := by rw [Chip.pass]
/-- A core that has issued nothing in this cycle has its slot free now. -/
theorem freeSlot_of_idle (c : Chip) (core : Nat) (h : (c.coreAt core).lastIssue ≠ some c.now) : c.freeSlot core = c := by
  simp [Chip.freeSlot, h]

/-- A core as a step leaves it that has touched no bank and no handle, used no deque and holds no poison. -/
def Core.quiet (k : Core) : Bool := k.touched.isEmpty && k.dequeOps == 0 && k.advanced.isEmpty && k.padPoison.isEmpty
/-- A package without withheld writes, all of whose cores are quiet, and in which nothing waits at a home. -/
def Chip.quiet (c : Chip) : Bool := c.cores.all (fun p => p.2.quiet && p.2.stuck.isEmpty) && c.waitedAt.isEmpty

/-- A quiet core is as the step left it. -/
theorem core_merge_quiet (k k' : Core) (now : Nat) (w : Writer) (log : Bool) (h : k'.quiet = true) : k.merge k' now w log = k' := by
  simp only [Core.quiet, Bool.and_eq_true, List.isEmpty_iff, beq_iff_eq] at h
  simp [Core.merge, Core.freshImages, h.1.1.1, h.1.1.2, h.1.2, h.2]
/-- Such a step never waits. -/
theorem core_mustWait_quiet (k k' : Core) (now : Nat) (w : Writer) (h : k'.quiet = true) : k.mustWait k' now w = false := by
  simp only [Core.quiet, Bool.and_eq_true, List.isEmpty_iff, beq_iff_eq] at h
  simp [Core.mustWait, Writer.parts, Core.blocked, h.1.1.1, h.1.1.2, h.1.2]
/-- The accesses of a quiet package are none. -/
theorem noteWrites_quiet (c0 c : Chip) (w : Writer) (h : ∀ p ∈ c.cores, p.2.quiet = true) : c0.noteWrites c w = c := by
  have : c.cores.map (fun p => (p.1, (c0.coreAt p.1).merge p.2 c.now w (c.logging p.1))) = c.cores := by
    conv => rhs; rw [← List.map_id c.cores]
    exact List.map_congr_left fun p hp => by simp [core_merge_quiet _ _ _ _ _ (h p hp)]
  simp [Chip.noteWrites, this]
/-- A step that leaves the package quiet, and is not that of a party with a withheld write, is taken as it is. -/
theorem merge_quiet (c0 c : Chip) (w : Writer) (h : c.quiet = true) (hw : c0.withheld w = false) : c0.merge c w = .taken c := by
  simp only [Chip.quiet, Bool.and_eq_true, List.all_eq_true, List.isEmpty_iff] at h
  obtain ⟨h1, h2⟩ := h
  have hany : (c.cores.any fun p => (c0.coreAt p.1).mustWait p.2 c.now w) = false := by
    rw [List.any_eq_false]
    intro p hp
    simp [core_mustWait_quiet _ _ _ _ (h1 p hp).1]
  have hnone : (c.cores.filter fun p => !p.2.touched.isEmpty && c.logging p.1) = [] := by
    rw [List.filter_eq_nil_iff]
    intro p hp
    have := (h1 p hp).1
    simp only [Core.quiet, Bool.and_eq_true] at this
    simp [this.1.1.1]
  have hfree : c.freeStuck = c := by
    have : c.cores.map (fun p => (p.1, p.2.freeStuck fun n => !thas c.launches n)) = c.cores := by
      conv => rhs; rw [← List.map_id c.cores]
      exact List.map_congr_left fun p hp => by simp [Core.freeStuck, (h1 p hp).2]
    simp [Chip.freeStuck, this]
  have hq := fun x => noteWrites_quiet x c w fun p hp => (h1 p hp).1
  have hq' := fun x => noteWrites_quiet x c ⟨0, remoteRank, 127, none⟩ fun p hp => (h1 p hp).1
  simp [Chip.merge, hw, hany, hnone, hq, Chip.recordCollisions, Chip.stepEnd, hfree, Chip.wakeAll, h2, hq']

end Sys2Proof.Machine
end

