-- ==== Sys2Proof/Laws/Scalar.lean ====
section
/-! SUPPORT. What the shapes of classes 000 and 001 come to (R290). -/

namespace Sys2Proof.Machine

theorem binary_ok (f : Word → Word → Word) (d a b : Reg) (c : Chip) (h : c.usable [a, b] [d] = true) :
    binary f d a b c = .ok () (((c.popped a).popped b).given d (f (c.val a) ((c.popped a).val b))) := by
  have h0 := flow_of_usable h
  have ⟨e1, h1⟩ := rd_flow h0
  have ⟨e2, h2⟩ := rd_flow h1
  rw [binary, M.bind_ok (use_ok _ _ _ h), M.bind_ok e1, M.bind_ok e2, wr_flow h2]

theorem unary_ok (f : Word → Word) (d a : Reg) (c : Chip) (h : c.usable [a] [d] = true) :
    unary f d a c = .ok () ((c.popped a).given d (f (c.val a))) := by
  have h0 := flow_of_usable h
  have ⟨e1, h1⟩ := rd_flow h0
  rw [unary, M.bind_ok (use_ok _ _ _ h), M.bind_ok e1, wr_flow h1]

end Sys2Proof.Machine
end

