-- ==== Sys2Proof/Tests/Slice0.lean ====
section
/-! SUPPORT. Tests: ill-formed terms, words written from their encodings, one step on small states, and for each statement
with hypotheses a state and operands that meet them. -/

set_option maxRecDepth 20000
set_option exponentiation.threshold 2000

namespace Sys2Proof.Tests

set_option Elab.async false

open Sys2Proof Sys2Proof.Machine Sys2Proof.Claims

/-! ## Terms that are not well formed, one for each check -/

/-- The default guard (R261). -/
def p0 : Guard := ⟨false, 0⟩

theorem smoke_predicate_zero : WellFormed (.cmp p0 0 (.g 1) (.g 2) .eq) = false ∧ WellFormed (.cmpImm p0 0 1 (.g 1) 2) = false
    ∧ WellFormed (.pand p0 0 1 2) = false ∧ WellFormed (.por p0 0 1 2) = false ∧ WellFormed (.pxor p0 0 1 2) = false
    ∧ WellFormed (.pandn p0 0 1 2) = false := by decide
theorem smoke_annul_three : WellFormed (.br p0 3 0) = false ∧ WellFormed (.call p0 3 0) = false
    ∧ WellFormed (.jr p0 3 (.g 1)) = false ∧ WellFormed (.ret p0 3) = false := by decide
theorem smoke_signed_doubleword : WellFormed (.lds p0 .b64 (.g 1) (.g 2) 0) = false := by decide
theorem smoke_returning_link : WellFormed (.gld p0 .b64 (.link .east) (.g 2) none 0) = false
    ∧ WellFormed (.get p0 (.link .west) (.g 2) none .b8) = false ∧ WellFormed (.rll p0 (.link .north) (.g 2) none true) = false
    ∧ WellFormed (.rsc p0 (.link .south) (.g 2) (.g 3) none true) = false := by decide
theorem smoke_widening_context : WellFormed (.vwid p0 0 false false 1 2 1 .bf16) = false := by decide
theorem smoke_reduction_swap : WellFormed (.red p0 (.g 1) (.g 2) .swap) = false := by decide
theorem smoke_object_predicate : WellFormed (.mgetLink p0 (.g 1) (.g 2) (.g 3) 0) = false
    ∧ WellFormed (.mgetTwin p0 (.g 1) (.g 2) (.g 3) 0) = false ∧ WellFormed (.mgetOrigin p0 (.g 1) (.g 2) (.g 3) 0) = false
    ∧ WellFormed (.mgetEdge p0 (.g 1) (.g 2) (.g 3) 0) = false ∧ WellFormed (.mgetFace p0 (.g 1) (.g 2) (.g 3) 0) = false
    ∧ WellFormed (.mnext p0 (.g 1) (.g 2) (.g 3) 0) = false ∧ WellFormed (.mfldLow p0 (.g 1) (.g 2) (.g 3) 0 1) = false
    ∧ WellFormed (.mfldHigh p0 (.g 1) (.g 2) (.g 3) 0 1) = false ∧ WellFormed (.mfstLow p0 (.g 1) (.g 2) (.g 3) 0 1) = false
    ∧ WellFormed (.mfstHigh p0 (.g 1) (.g 2) (.g 3) 0 1) = false ∧ WellFormed (.mval p0 (.g 2) (.g 3) 0) = false
    ∧ WellFormed (.mclaim p0 (.g 2) (.g 3) 0) = false ∧ WellFormed (.mrel p0 (.g 2) (.g 3) 0) = false
    ∧ WellFormed (.msplit p0 (.g 1) (.g 2) (.g 3) 0) = false ∧ WellFormed (.mcoll p0 (.g 1) (.g 2) (.g 3) 0) = false
    ∧ WellFormed (.mflip p0 (.g 1) (.g 2) (.g 3) 0) = false ∧ WellFormed (.mref p0 (.g 1) (.g 2) (.g 3) 0) = false := by decide
theorem smoke_tile_predicate : WellFormed (.verchk p0 (.g 2) (.g 3) 0) = false ∧ WellFormed (.verchkD p0 (.g 2) (.g 3) 0) = false
    ∧ WellFormed (.versettle p0 (.g 2) 0) = false ∧ WellFormed (.versettleT p0 (.g 2) 0) = false
    ∧ WellFormed (.gosest p0 (.g 1) (.g 2) 0) = false ∧ WellFormed (.bwait p0 (.g 2) (.g 3) 0) = false
    ∧ WellFormed (.chsend p0 (.g 2) (.g 3) 0) = false ∧ WellFormed (.chrecv p0 (.g 1) (.g 2) 0) = false := by decide
theorem smoke_selector : WellFormed (.getc p0 (.g 1) 0x003) = false ∧ WellFormed (.setc p0 (.g 1) 0x3FF) = false := by decide

/-! ## Words written out from their encodings (R272 to R289), with the spec's own worked words -/

theorem decode_class0 : decode 0x01084001 = some (.add p0 .zr .zr .zr)
    ∧ decode 0x00531C02 = some (.sub p0 (.g 5) (.g 6) (.g 7)) ∧ decode 0x004088DF = some (.lea p0 (.g 4) (.g 1) (.g 2) 3)
    ∧ decode 0x002190A0 = some (.cmp p0 2 (.g 3) (.g 4) .lt) := by decide
theorem decode_class1 : decode 0x218E0040 = some (.movi p0 (.g 3) 2 0x40) := by decide
theorem decode_class2 : decode 0x40200040 = some (.call p0 0 0x40) ∧ decode 0x40600000 = some (.ret p0 0)
    ∧ decode 0x40860010 = some (.fork p0 (.g 6) 0x10) ∧ decode 0x40C00005 = some (.spawn p0 (.g 5))
    ∧ decode 0x40B01907 = some (.join p0 true (.g 6) (.g 8) (.g 7)) ∧ decode 0x41018004 = some (.wclr p0 (.g 3) (.g 4))
    ∧ decode 0x41401900 = some (.wait p0 (.g 6) (.g 8)) ∧ decode 0x41600009 = some (.go p0 (.g 9))
    ∧ decode 0x40F21907 = some (.wtab p0 true (.g 4) (.g 6) (.g 8) (.g 7)) ∧ decode 0x41A00000 = some (.endThread p0) := by decide
theorem decode_class3 : decode 0x60208802 = some (.ld p0 .b32 (.g 1) (.g 2) 2) ∧ decode 0x60508801 = some (.lds p0 .b16 (.g 1) (.g 2) 1)
    ∧ decode 0x60B20C02 = some (.st p0 .b64 (.g 4) (.g 3) 2) ∧ decode 0x61405300 = some (.tlk p0 (.g 5) (.g 6))
    ∧ decode 0x6142031C = some (.tins p0 (.g 6) (.g 7)) ∧ decode 0x614A4008 = some (.qwait p0 (.g 4) 2)
    ∧ decode 0x614E0009 = some (.qadvC p0 2) ∧ decode 0x61500288 = some (.qset p0 (.g 5) 2) := by decide
theorem decode_class4 : decode 0x80600443 = some (.vminF32 p0 0 false false false 1 2 3)
    ∧ decode 0x81480443 = some (.vcmpLt p0 0 false .f32 1 2 3) ∧ decode 0x81A00440 = some (.vexp2F32 p0 0 false false 1 2)
    ∧ decode 0x81280445 = some (.vshlI32 p0 0 false false 1 2 5) ∧ decode 0x81900443 = some (.vext p0 0 false (.g 1) 2 3) := by decide
theorem decode_class5 : decode 0xA0472004 = some (.get p0 (.g 7) (.g 4) none .b32) := by decide
theorem decode_class6 : decode 0xC00218A4 = some (.mgetLink p0 (.g 4) (.g 6) (.g 5) 1)
    ∧ decode 0xC0D21800 = some (.verpub p0 (.g 4) (.g 6)) ∧ decode 0xC10018A4 = some (.verchk p0 (.g 6) (.g 5) 1)
    ∧ decode 0xC12018A0 = some (.gosadd p0 (.g 6) (.g 5)) ∧ decode 0xC1321804 = some (.gosest p0 (.g 4) (.g 6) 1)
    ∧ decode 0xC17029CC = some (.bwait p0 (.g 10) (.g 14) 3) ∧ decode 0xC1921804 = some (.chrecv p0 (.g 4) (.g 6) 1) := by decide
theorem decode_class7 : decode 0xE0410000 = some (.getc p0 (.g 1) 0) ∧ decode 0xE0607010 = some (.setc p0 (.g 14) 0x010)
    ∧ decode 0xE0802800 = some (.sleep p0 (.g 5)) ∧ decode 0xE0A02980 = some (.xinv p0 (.g 5) (.g 6))
    ∧ decode 0xE0C00000 = some (.brkpt p0) ∧ decode 0xE0E00000 = some (.halt p0)
    ∧ decode 0xE1042800 = some (.olog p0 (.g 4) (.g 5)) ∧ decode 0xE1242800 = some (.probe p0 (.g 4) (.g 5)) := by decide
theorem wit_one_meaning : decode 0xE0E00000 = some (.halt p0) ∧ encode (.halt p0) = some 0xE0E00000 ∧ WellFormed (.halt p0) = true := by decide
theorem decode_reserved : decode 0xE0E00001 = none ∧ decode 0xC0C21820 = none ∧ decode 0x00110417 = none ∧ decode 0xE1400000 = none := by decide
theorem decode_unassigned : decode 0x00000000 = none ∧ decode 0xFFFFFFFF = none := by decide

/-! ## Small states -/

/-- General registers set. -/
def regs (l : List (Fin 16 × Word)) (f : Frame) : Frame := { f with g := l.foldl (fun g p => g.set p.1 p.2) f.g }
/-- A leaf that maps a page to an HBM page with every right (R181). -/
def leaf : Word := 0x4003B
/-- Frame 0 of core 0 ready at 0x1_0000 in context 1, whose page there is cached; changed by the functions given. -/
def st (v : Chip → Chip) (u : Core → Core) (f : Frame → Frame) : State :=
  { State.reset with chip := v { Chip.reset with
      now := 10
      ctxs := [(0, { Ctx.reset with st := .live }), (1, { Ctx.reset with st := .live, ptroot := 0x100000, tvbase := 0x10100 })]
      tlb := [(0, [⟨1, 1, 0, leaf⟩])]
      cores := [(0, u { Core.reset with frames := [(0, f { Frame.reset with
        st := .ready, pc := 0x10000, npc := 0x10004, nnpc := 0x10008, ctx := 1, thread := 7 })] })] } }
/-- An instruction runs to a next state of which p holds. -/
def runs (i : Instr) (s : State) (p : State → Bool) : Bool :=
  match exec i s with
  | .next t => p t
  | _ => false
/-- Memory that holds doublewords. -/
def words (l : List (Nat × Word)) : Memory := l.foldl (fun m p => wr64 m p.1 p.2) []
/-- A frame at supervisor privilege. -/
def sup (f : Frame) : Frame := { f with sw := f.sw ||| 0x80000 }
/-- A reference to an offset in a core of package 0 (R54). -/
def ref (core o : Nat) : Word := BitVec.ofNat 64 (2 ^ 63 + core * 2 ^ 19 + o)

/-! ## Class 000, 001 and 010 -/

/-- Two registers at the ends of their range, and two words in the link from the west. -/
def sA : State := st id (fun k => { k with links := k.links.set 1 [(5, 0), (6, 0)] }) (regs [(1, 0xFFFFFFFFFFFFFFFF), (2, 2)])

theorem wit_two_sources : sA.chip.clear p0 = true ∧ sA.chip.usable [.g 1, .g 2] [.g 3] = true
    ∧ sA.chip.usable [.link .west, .link .west] [.link .east] = true ∧ sA.chip.usable [.g 1, .g 1] [.zr] = true := by decide
theorem test_add_wraps : runs (.add p0 (.g 1) (.g 1) (.g 2)) sA (fun t => t.chip.me.g[1] == 1 && t.chip.me.pc == 0x10004) = true := by decide
theorem test_add_links : runs (.add p0 (.link .east) (.link .west) (.link .west)) sA
    (fun t => (t.chip.coreAt (neighbour 0 .east)).links[1] == [(11, 10)] && t.chip.here.links[1] == []) = true := by decide
theorem test_sub_borrows : runs (.sub p0 (.g 3) .zr (.g 2)) sA (fun t => t.chip.me.g[3] == 0xFFFFFFFFFFFFFFFE) = true := by decide
theorem test_mulh_signed : runs (.mulh p0 (.g 3) (.g 1) (.g 2)) sA (fun t => t.chip.me.g[3] == 0xFFFFFFFFFFFFFFFF) = true
    ∧ runs (.mulhu p0 (.g 3) (.g 1) (.g 2)) sA (fun t => t.chip.me.g[3] == 1) = true := by decide
theorem test_sar_sign : runs (.sar p0 (.g 3) (.g 1) (.g 2)) sA (fun t => t.chip.me.g[3] == 0xFFFFFFFFFFFFFFFF) = true
    ∧ runs (.shr p0 (.g 3) (.g 1) (.g 2)) sA (fun t => t.chip.me.g[3] == 0x3FFFFFFFFFFFFFFF) = true := by decide
theorem test_min_signs : runs (.min p0 (.g 3) (.g 1) (.g 2)) sA (fun t => t.chip.me.g[3] == 0xFFFFFFFFFFFFFFFF) = true
    ∧ runs (.minu p0 (.g 3) (.g 1) (.g 2)) sA (fun t => t.chip.me.g[3] == 2) = true := by decide
theorem test_zr_discards : runs (.add p0 .zr (.g 1) (.g 2)) sA (fun t => t.chip.me.g == sA.chip.me.g) = true := by decide
theorem wit_divide : sA.chip.here.divide = none ∧ sA.chip.val (.g 2) ≠ 0 ∧ sA.chip.val (.g 3) = 0
    ∧ sA.chip.usable [.g 1, .g 3] [.g 4] = true := by decide
theorem test_divide_by_zero : runs (.div p0 (.g 4) (.g 1) (.g 3)) sA
    (fun t => t.chip.me.fatal && t.chip.me.st == .parked) = true := by decide
theorem test_div_starts : runs (.divu p0 (.g 4) (.g 1) (.g 2)) sA
    (fun t => t.chip.here.divide == some ⟨0, 7, .g 4, 0x7FFFFFFFFFFFFFFF, 34⟩) = true := by decide
theorem wit_bit_fields : sA.chip.clear p0 = true ∧ sA.chip.usable [.g 3, .g 1, .g 2] [.g 3] = true := by decide
theorem test_bfx : runs (.bfx p0 (.g 3) (.g 1) (.g 2)) sA (fun t => t.chip.me.g[3] == 0xFFFFFFFFFFFFFFFF) = true
    ∧ runs (.bfxu p0 (.g 3) (.g 1) (.g 2)) sA (fun t => t.chip.me.g[3] == 0x3FFFFFFFFFFFFFFF) = true
    ∧ runs (.bfi p0 (.g 3) (.g 1) (.g 2)) sA (fun t => t.chip.me.g[3] == 0xFFFFFFFFFFFFFFFC) = true := by decide
theorem wit_one_source : sA.chip.clear p0 = true ∧ sA.chip.usable [.g 1] [.g 3] = true ∧ sA.chip.usable [] [.g 3] = true := by decide
theorem test_counts : runs (.popc p0 (.g 3) (.g 1)) sA (fun t => t.chip.me.g[3] == 64) = true
    ∧ runs (.clz p0 (.g 3) .zr) sA (fun t => t.chip.me.g[3] == 64) = true
    ∧ runs (.ctz p0 (.g 3) (.g 2)) sA (fun t => t.chip.me.g[3] == 1) = true := by decide
theorem test_movi : runs (.movi p0 (.g 3) 3 0x8000) sA (fun t => t.chip.me.g[3] == 0x8000000000000000) = true := by decide
theorem test_sel : runs (.sel p0 (.g 3) (.g 1) (.g 2) false 1) sA (fun t => t.chip.me.g[3] == 2) = true := by decide
theorem wit_predicates : sA.chip.clear p0 = true ∧ sA.chip.usable [.g 1, .g 2] [] = true ∧ sA.chip.usable [.g 1] [] = true := by decide
theorem test_cmp_signed : runs (.cmp p0 1 (.g 1) (.g 2) .lt) sA (fun t => tst t.chip.me.sw 1) = true
    ∧ runs (.cmp p0 1 (.g 1) (.g 2) .ltu) sA (fun t => !tst t.chip.me.sw 1) = true := by decide

/-- A frame about to branch, with a link register target in g15. -/
def sB : State := st id id (regs [(15, 0x10040), (3, 0x10042), (4, 0x0200000000000000)])
theorem wit_branches : sB.chip.capturing = false ∧ guardHolds p0 sB.chip.me.sw = true ∧ bits (sB.chip.me.pc + BitVec.ofInt 64 (4 * (-1))) 63 57 = 0
    ∧ sB.chip.usable [] [.g 15] = true ∧ sB.chip.usable [.g 15] [] = true ∧ (sB.chip.val (.g 15)).toNat % 4 = 0
    ∧ bits (sB.chip.val (.g 15)) 63 57 = 0 ∧ guardHolds ⟨true, 0⟩ sB.chip.me.sw = false := by decide
theorem test_branch_forms : runs (.br p0 0 4) sB (fun t => t.chip.me.pc == 0x10004 && t.chip.me.nnpc == 0x10010) = true
    ∧ runs (.br p0 2 4) sB (fun t => t.chip.me.pc == 0x10010) = true
    ∧ runs (.br ⟨true, 0⟩ 1 4) sB (fun t => t.chip.me.pc == 0x1000C) = true
    ∧ runs (.call p0 0 4) sB (fun t => t.chip.me.g[15] == 0x1000C) = true := by decide
theorem test_ret : runs (.ret p0 0) sB (fun t => t.chip.me.nnpc == 0x10040) = true := by decide
/-- A pc near the top of the address space, whose targets lie beyond it. -/
def sB' : State := st id id (fun f => { regs [(3, 0x10042), (4, 0x0200000000000000)] f with pc := 0x01FFFFFFFFFFFFFC })
theorem wit_branch_traps : sB'.chip.clear p0 = true ∧ bits (sB'.chip.me.pc + BitVec.ofInt 64 (4 * 1)) 63 57 ≠ 0
    ∧ sB'.chip.usable [.g 3] [] = true ∧ (sB'.chip.val (.g 3)).toNat % 4 ≠ 0 ∧ bits (sB'.chip.val (.g 4)) 63 57 ≠ 0 := by decide

/-- An image at 0x100 with a join block at 0x200 (R131, R132). -/
def sC : State := st id (fun k => { k with pad := words [(0x100, 0x10040), (0x108, 5), (0x110, ref 0 0x200), (0x200, 1)] })
  (regs [(0, 9), (1, 0x100), (2, ref 0 0x200), (3, 0x300), (4, 2), (6, 31), (7, 32)])
/-- What a spawn needs holds (R311). -/
theorem wit_spawn : sC.chip.clear p0 = true ∧ sC.chip.me.inSlot = false ∧ sC.chip.atRest = true ∧ sC.chip.usable [.g 1] [] = true
    ∧ (sC.chip.val (.g 1)).toNat % 8 = 0 ∧ (sC.chip.val (.g 1)).toNat + 24 ≤ Config.dataEnd
    ∧ (∀ i < 3, WordReady sC.chip (0x100 + 8 * i)) ∧ sC.chip.usable [.g 0, .g 2] [] = true := by unfold WordReady; decide
theorem wit_spawn_image (c : Chip) (h : c = sC.chip.issuing (.spawn p0 (.g 1))) : MaySpawn c (c.pad64 0x100) (c.pad64 0x110) := by
  subst h; unfold MaySpawn JoinOk WordReady; decide
theorem wit_fork_image : MaySpawn (sC.chip.issuing (.fork p0 (.g 2) 4)) 0x1000C (ref 0 0x200) := by unfold MaySpawn JoinOk WordReady; decide
theorem test_spawn : runs (.spawn p0 (.g 1)) sC (fun t => t.chip.here.deque.length == 1 && t.chip.pad64 0x200 == 2
    && t.chip.pad64 0x218 == 1 && (t.chip.here.deque.map (·.arg)) == [5]) = true := by decide
theorem test_fork : runs (.fork p0 (.g 2) 4) sC (fun t => (t.chip.here.deque.map (·.entry)) == [0x1000C] && t.chip.me.nnpc == 0x10010) = true := by decide
theorem wit_wtab : sC.chip.usable [.g 3, .g 4, .g 1] [.g 5] = true ∧ MayBind 0x300 0x100 ∧ WordReady sC.chip 0x100
    ∧ WordReady sC.chip 0x110 ∧ JoinOk sC.chip (sC.chip.pad64 0x110) ∧ (sC.chip.pad64 0x100).toNat % 4 = 0 ∧ bits (sC.chip.pad64 0x100) 63 57 = 0
    ∧ bits (sC.chip.pad64 0x110) 62 18 = 0 ∧ sC.chip.here.freeEntry = some 0 ∧ sC.chip.usable [.g 3, .g 4, .g 1] [] = true := by
  unfold MayBind JoinOk WordReady; decide
theorem test_wtab : runs (.wtab p0 true (.g 5) (.g 3) (.g 4) (.g 1)) sC
    (fun t => (t.chip.here.wtab[0]).bound && (t.chip.here.wtab[0]).threshold == 2 && t.chip.me.g[5] == 0) = true := by decide
theorem test_join : runs (.join p0 true (.g 3) (.g 4) (.g 1)) sC
    (fun t => (t.chip.here.wtab[0]).bound && t.chip.me.st == .retiring true (causeWord (.join p0 true (.g 3) (.g 4) (.g 1)))) = true := by decide
theorem wit_wclr : sC.chip.usable [.g 6] [.g 5] = true ∧ (sC.chip.val (.g 6)).toNat = (31 : Fin 32).val := by decide
theorem test_wclr_free : runs (.wclr p0 (.g 5) (.g 6)) sC (fun t => t.chip.me.g[5] == 0) = true := by decide
theorem wit_threads : sC.chip.clear p0 = true ∧ sC.chip.me.inSlot = false ∧ sC.chip.mayAccess = true ∧ sC.chip.usable [.g 1, .g 4] [] = true
    ∧ (sC.chip.val (.g 4)).toInt ≤ (sC.chip.pad64 0x100).toInt ∧ sC.chip.me.inTrap = false ∧ bits (sC.chip.val (.g 4)) 63 15 = 0
    ∧ (sC.chip.val (.g 4)).toNat ≠ sC.chip.core ∧ (sC.chip.val .zr).toNat = sC.chip.core ∧ sC.chip.here.vec.owner ≠ some sC.chip.frame
    ∧ sC.chip.here.mowner ≠ some sC.chip.frame ∧ sC.chip.unrefused = true ∧ sC.chip.drained 0 (.frame 0) 7 = true
    ∧ WordReady sC.chip 0x100 := by unfold WordReady; decide
theorem test_go_sends : runs (.go p0 (.g 4)) sC (fun t => t.chip.me.st == .stalled (.answer 1) && t.chip.net.length == 1) = true := by decide
theorem test_tail_frees : runs (.tail p0) sC (fun t => t.chip.me.st == .free && thas t.chip.here.trackers 0) = true := by decide
theorem test_end_retires : runs (.endThread p0) sC (fun t => t.chip.me.st == .retiring false (causeWord (.endThread p0))) = true := by decide


/-! ## Class 011 -/

/-- A scratchpad whose ends hold values, a supervisor frame, and offsets at both ends of the data banks. -/
def sD : State := st id (fun k => { k with pad := words [(0, 0x80), (0x10, 0x1122334455667788), (0x2BFF8, 7)] })
  (fun f => sup (regs [(1, 0), (2, 0x2BFF8), (3, 0x2C000), (4, 0x2C008), (5, 0x1000000FF), (6, 0x88)] f))
theorem wit_local_loads : sD.chip.clear p0 = true ∧ sD.chip.mayAccess = true ∧ sD.chip.usable [.g 1] [.g 7] = true
    ∧ sD.chip.usable [.g 5, .g 1] [] = true ∧ LocalOk sD.chip 0 1 ∧ LocalOk sD.chip 0x2BFF8 8 ∧ LocalOk sD.chip 0x2C008 8
    ∧ LocalOk sD.chip 0x2FFF8 8 ∧ ¬ LocalOk sD.chip 0x30000 8
    ∧ ownRegister sD.chip.frame 0x2C008 = some 1 ∧ sD.chip.settled (.g 1) = true := by unfold LocalOk; decide
theorem test_ld_lds : runs (.ld p0 .b8 (.g 7) (.g 1) 0) sD (fun t => t.chip.me.g[7] == 0x80) = true
    ∧ runs (.lds p0 .b8 (.g 7) (.g 1) 0) sD (fun t => t.chip.me.g[7] == 0xFFFFFFFFFFFFFF80) = true
    ∧ runs (.ld p0 .b32 (.g 7) (.g 1) 5) sD (fun t => t.chip.me.g[7] == 0x11223344) = true
    ∧ runs (.ld p0 .b64 (.g 7) (.g 2) 0) sD (fun t => t.chip.me.g[7] == 7) = true := by decide
theorem test_frame_store : runs (.ld p0 .b64 (.g 7) (.g 4) 0) sD (fun t => t.chip.me.g[7] == 0) = true
    ∧ runs (.st p0 .b64 (.g 5) (.g 4) 0) sD (fun t => t.chip.me.g[1] == 0x1000000FF && t.chip.here.pad == sD.chip.here.pad) = true := by decide
theorem test_st_bytes : runs (.st p0 .b16 (.g 5) (.g 1) 8) sD (fun t => t.chip.pad64 0x10 == 0x11223344556600FF) = true := by decide
/-- Words to combine. -/
def sE : State := st id (fun k => { k with pad := words [(0x40, 0xFFFFFFFF00000005), (0x2BFF8, 9)] })
  (regs [(1, 0x40), (2, 0xFFFFFFFFFFFFFFFE), (3, 9), (4, 0x2BFF8), (5, 1)])
theorem wit_local_atomics : sE.chip.clear p0 = true ∧ sE.chip.mayAccess = true ∧ sE.chip.usable [.g 1, .g 2] [.g 7] = true
    ∧ sE.chip.usable [.g 3, .g 4, .g 5] [.g 3] = true ∧ (sE.chip.val (.g 4)).toNat % 8 = 0
    ∧ (sE.chip.val (.g 4)).toNat + 8 ≤ Config.dataEnd ∧ sE.chip.inTurn 0x2BFF8 8 = true ∧ sE.chip.inTurn 0x40 4 = true := by decide
theorem test_amo_word : runs (.amoAdd p0 (.g 7) (.g 1) (.g 2) false) sE (fun t => t.chip.me.g[7] == 5 && t.chip.pad64 0x40 == 0xFFFFFFFF00000003) = true
    ∧ runs (.amoMax p0 (.g 7) (.g 1) (.g 2) false) sE (fun t => t.chip.pad64 0x40 == 0xFFFFFFFF00000005) = true
    ∧ runs (.amoMaxu p0 (.g 7) (.g 1) (.g 2) false) sE (fun t => t.chip.pad64 0x40 == 0xFFFFFFFFFFFFFFFE) = true := by decide
theorem test_cas : runs (.cas p0 (.g 3) (.g 4) (.g 5) true) sE (fun t => t.chip.me.g[3] == 9 && t.chip.pad64 0x2BFF8 == 1) = true
    ∧ runs (.cas p0 (.g 2) (.g 4) (.g 5) true) sE (fun t => t.chip.me.g[2] == 9 && t.chip.pad64 0x2BFF8 == 9) = true := by decide

/-- Tags of two contexts (R64), lines of 256 bytes over 256 slots; line 1 of context 1 stands in slot 4. -/
def sF : State := st id (fun k => { k with tgcfg := 0x100, tags := [(4, ⟨1, 1⟩), (5, ⟨1, 2⟩)] }) (regs [(1, 0x100), (2, 0x4000), (3, 0xFF), (4, 0xFF00)])
theorem wit_tags : sF.chip.clear p0 = true ∧ sF.chip.mayAccess = true ∧ sF.chip.usable [.g 1] [.g 7] = true ∧ sF.chip.usable [.g 4, .g 3] [] = true
    ∧ (sF.chip.val (.g 3)).toNat ≤ 255 ∧ (sF.chip.val (.g 3)).toNat < bits sF.chip.here.tgcfg 8 0
    ∧ (sF.chip.val (.g 3)).toNat / 4 = (sF.chip.val (.g 4)).toNat / 256 % 64 := by decide
theorem test_tlk : runs (.tlk p0 (.g 7) (.g 1)) sF (fun t => t.chip.me.g[7] == 4) = true
    ∧ runs (.tlk p0 (.g 7) (.g 2)) sF (fun t => t.chip.me.g[7] == 0xFFFFFFFFFFFFFFFF) = true := by decide
theorem test_tag_changes : runs (.tins p0 (.g 4) (.g 3)) sF (fun t => tfind t.chip.here.tags 255 == some ⟨255, 1⟩) = true
    ∧ runs (.tinv p0 (.g 1)) sF (fun t => t.chip.here.tags == [(5, ⟨1, 2⟩)]) = true
    ∧ runs (.tinvAll p0) sF (fun t => t.chip.here.tags == [(5, ⟨1, 2⟩)]) = true := by decide
/-- A handle of two slots of 64 bytes at 0x80, one of them filled, and a handle that is disabled. -/
def sG : State := st id (fun k => { k with handles := k.handles.set 1 ⟨0x8000010000000002, some 1, 1, 0⟩ })
  (regs [(1, 0x8000010000000004), (2, 0)])
theorem wit_handles : sG.chip.clear p0 = true ∧ sG.chip.mayAccess = true ∧ sG.chip.usable [] [.g 7] = true ∧ HandleOk sG.chip 1
    ∧ filled (begun sG.chip 1) ≠ 0 ∧ filled (begun sG.chip 1) ≠ slotsOf (begun sG.chip 1) ∧ sG.chip.releasable .core = true := by unfold HandleOk; decide
theorem wit_qset : sG.chip.usable [.g 1] [] = true ∧ sG.chip.here.handles[0].owner = none ∧ sG.chip.here.mxq = [] ∧ sG.chip.here.cpq = []
    ∧ tst (sG.chip.val (.g 1)) 63 = true ∧ tst (sG.chip.val (.g 2)) 63 = false ∧ bits (sG.chip.val (.g 1)) 62 48 = 0
    ∧ bits (sG.chip.val (.g 1)) 39 32 = 0 ∧ bits (sG.chip.val (.g 1)) 23 12 = 0 := by decide
theorem test_handle_reads : runs (.qwait p0 (.g 7) 1) sG (fun t => t.chip.me.g[7] == 0x80) = true
    ∧ runs (.qroom p0 (.g 7) 1) sG (fun t => t.chip.me.g[7] == 0xC0) = true
    ∧ runs (.qpos p0 (.g 7) 1) sG (fun t => t.chip.me.g[7] == 0x100000001) = true := by decide
def sNone : State := st id (fun k => { k with handles := k.handles.set 1 { sG.chip.here.handles[1] with ci := sG.chip.here.handles[1].pi } }) id
def sFull : State := st id (fun k => { k with handles := k.handles.set 1 { sG.chip.here.handles[1] with pi := sG.chip.here.handles[1].ci + BitVec.ofNat 16 (slotsOf sG.chip.here.handles[1]) } }) id
theorem wit_handle_ends : filled (begun sNone.chip 1) = 0 ∧ filled (begun sFull.chip 1) = slotsOf (begun sFull.chip 1) ∧ HandleOk sNone.chip 1 ∧ HandleOk sFull.chip 1
    ∧ sNone.chip.mayAccess = true ∧ sFull.chip.clear p0 = true := by unfold HandleOk; decide
theorem test_handle_ends : runs (.qwait p0 (.g 7) 1) sNone (fun t => t.chip.me.st == .stalled (.filled 1)) = true
    ∧ runs (.qadvC p0 1) sNone (fun t => t.chip.here.handles[1] == sNone.chip.here.handles[1] && t.chip.me.fatal) = true
    ∧ runs (.qadvP p0 1) sFull (fun t => t.chip.here.handles[1] == sFull.chip.here.handles[1] && t.chip.me.fatal) = true := by decide
theorem test_handle_moves : runs (.qadvP p0 1) sG (fun t => t.chip.here.handles[1].pi == 2) = true
    ∧ runs (.qadvC p0 1) sG (fun t => t.chip.here.handles[1].ci == 1) = true
    ∧ runs (.qset p0 (.g 1) 0) sG (fun t => t.chip.here.handles[0] == ⟨0x8000010000000004, some 1, 0, 0⟩) = true
    ∧ runs (.qset p0 (.g 2) 1) sG (fun t => t.chip.here.handles[1] == ⟨0, none, 0, 0⟩) = true := by decide

/-- Operands of global accesses: an address in the mapped page, references to another core and to this one, and one that
is not aligned. -/
def sH : State := st id (fun k => { k with pad := words [(0x400, ref 2 0x100), (0x408, 0x10040), (0x410, 6)] })
  (regs [(1, 0x10008), (2, ref 1 0x40), (3, 0x55), (4, 0x10001), (5, 0x2BFF8), (6, 0x0200000000000000), (8, 0x400), (9, 0x800000410)])
theorem wit_global : sH.chip.clear p0 = true ∧ sH.chip.mayAccess = true ∧ sH.chip.usable [.g 1] [.g 7] = true
    ∧ sH.chip.usable [.g 3, .g 1] [] = true ∧ SlotFree sH.chip ∧ TrackerFree sH.chip ∧ sH.chip.orderedBy (some .sys) = true
    ∧ (sH.chip.lookup (sH.chip.val (.g 1)) .w false).toOption.isSome = true
    ∧ (sH.chip.lookup (sH.chip.val (.g 1)) .r false).toOption.isSome = true ∧ Settled sH.chip (sH.chip.val (.g 1)) ⟨0, .hbm 0 0⟩ 0x40008
    ∧ Settled sH.chip (sH.chip.val (.g 2)) ⟨0, .core 1⟩ 0x40 ∧ NoMigration sH.chip ∧ LogRoom sH.chip 2 := by
  unfold SlotFree TrackerFree Settled NoMigration LogRoom; decide
theorem wit_global_traps : (sH.chip.val (.g 4)).toNat % 8 ≠ 0 ∧ (sH.chip.val (.g 6)).toNat % 8 = 0 ∧ bits (sH.chip.val (.g 6)) 63 57 ≠ 0 := by decide
theorem test_gld : runs (.gld p0 .b64 (.g 7) (.g 1) none 1) sH (fun t => (t.chip.net.map fun m => (m.addr, m.body)) == [(0x40010, .get 8)]
    && t.chip.net.all (fun m => m.dest == ⟨0, .hbm 0 0⟩ && m.va == 0x10010) && !(t.chip.usable [.g 7] [])) = true := by decide
theorem test_gst : runs (.gst p0 .b16 (.g 3) (.g 1) none 0) sH (fun t => (t.chip.net.map fun m => m.body) == [.put [0x55, 0] none]) = true := by decide
theorem test_gld_misaligned : runs (.gld p0 .b64 (.g 7) (.g 4) none 0) sH (fun t => t.chip.me.fatal && t.chip.net == []) = true := by decide
theorem wit_fences : sH.chip.atRest = true ∧ sH.chip.releasable .sys = true ∧ sH.chip.unrefused = true
    ∧ sH.chip.openIn sH.chip.core (.frame sH.chip.frame) .sys Req.isRead = false := by decide
theorem test_fence : runs (.fence p0 .sys) sH (fun t => t.chip.me.pc == 0x10004) = true
    ∧ runs (.fenceRel p0 .die) sH (fun t => t.chip.me.pc == 0x10004) = true
    ∧ runs (.fenceAcq p0 .core) sH (fun t => t.chip.me.pc == 0x10004) = true := by decide
theorem wit_targets : TargetAt sH.chip (sH.chip.val (.g 2)) 8 .w ⟨0, .core 1⟩ 0x40 ∧ TargetAt sH.chip (sH.chip.val (.g 2)) 64 .w ⟨0, .core 1⟩ 0x40
    ∧ TargetAt sH.chip (ref 0x7FFF 0x2BFF8) 8 .r ⟨0, .core 0x7FFF⟩ 0x2BFF8 ∧ TargetAt sH.chip (sH.chip.val (.g 1)) 8 .r ⟨0, .hbm 0 0⟩ 0x40008
    ∧ CounterOf .zr 0 (sH.chip.val (.g 2)) none ∧ CounterOf (.g 5) (sH.chip.val (.g 5)) (sH.chip.val (.g 2)) (some 0x2BFF8) := by
  refine ⟨⟨by decide, .inl (by decide)⟩, ⟨by decide, .inl (by decide)⟩, ⟨by decide, .inl (by decide)⟩,
    ⟨by decide, .inr ⟨by decide, ⟨leaf, 0, 0x40008⟩, rfl, by decide, rfl⟩⟩, .inl (by decide), .inr (by decide)⟩
/-- The frame owns the vector unit. -/
def sHv : State := st id (fun k => { k with vec := { k.vec with owner := some 0, v := k.vec.v.set 3 0x77 } }) (regs [(2, ref 1 0x40)])
/-- The thread migrates on access (R146): a task of launch 1, which this core works for. -/
def sHm : State := st (fun c => { c with launches := [(1, ⟨1, 0, 0, [], false, true, [0, 1], false, [], 0⟩)] })
  (fun k => { k with pad := words [(0x40, 9)] })
  (fun f => { regs [(3, ref 0 0x40), (5, 8)] f with sw := f.sw ||| 0x20000, launch := some 1 })
theorem wit_putv : sHv.chip.here.vec.owner = some sHv.chip.frame ∧ sHv.chip.vectorIdle 3 = true ∧ sHv.chip.vectorIdle 31 = true
    ∧ sHv.chip.orderedBy none = true ∧ sHv.chip.usable [.zr, .g 2] [] = true ∧ TrackerFree sHv.chip := by unfold TrackerFree; decide
theorem wit_in_place : sHm.chip.migratesTo (.ref 0 0 0x40) = some sHm.chip.core ∧ tst (sHm.chip.val (.g 3)) 63 = true
    ∧ sHm.chip.inTurn 0x40 8 = true ∧ sHm.chip.inTurn 0x2BFF8 8 = true ∧ sHm.chip.here.pad.wf = true := by decide
theorem test_put : runs (.put p0 (.g 5) (.g 2) (.g 3) none .b64) sH (fun t =>
    (t.chip.net.map fun m => (m.dest, m.addr, m.body)) == [(⟨0, .core 1⟩, 0x40, .put [0x55, 0, 0, 0, 0, 0, 0, 0] (some 0x2BFF8))]) = true := by decide
theorem test_putv : runs (.putv p0 .zr (.g 2) 3 none) sHv (fun t => (t.chip.net.map fun m => m.body) == [.put (0x77 :: List.replicate 63 0) none]) = true := by decide
theorem test_put_in_place : runs (.put p0 .zr (.g 3) (.g 5) none .b64) sHm (fun t => t.chip.pad64 0x40 == 8 && t.chip.net == []) = true
    ∧ runs (.get p0 (.g 7) (.g 3) none .b64) sHm (fun t => t.chip.me.g[7] == 9 && t.chip.net == []) = true := by decide
theorem test_get : runs (.get p0 (.g 7) (.g 2) none .b32) sH (fun t => (t.chip.net.map fun m => m.body) == [.get 4]) = true := by decide
/-- What `amsg` needs holds: descriptor at 0x400, eight bytes of payload at 0x410 (R380). -/
theorem wit_amsg : sH.chip.usable [.g 9, .g 8, .g 3] [] = true ∧ WordReady sH.chip 0x400 ∧ WordReady sH.chip 0x408
    ∧ tst (sH.chip.pad64 0x400) 63 = true ∧ bits (sH.chip.pad64 0x400) 62 46 = 0 ∧ bits (sH.chip.pad64 0x400) 17 0 % 8 = 0
    ∧ (sH.chip.pad64 0x408).toNat % 4 = 0 ∧ bits (sH.chip.val (.g 9)) 31 18 = 0 ∧ bits (sH.chip.val (.g 9)) 63 40 = 0
    ∧ bits (sH.chip.val (.g 9)) 39 32 = 8 ∧ sH.chip.padSound 0x410 8 = true ∧ sH.chip.inTurn 0x410 8 = true := by unfold WordReady; decide
theorem test_amsg : runs (.amsg p0 (.g 9) (.g 8) (.g 3)) sH (fun t => (t.chip.net.map fun m => (m.addr, m.body)) ==
    [(0x100, .active 0x10040 0x55 [6, 0, 0, 0, 0, 0, 0, 0])]) = true := by decide
/-- A frame that holds the reservation of a word in another core (R381). -/
def sHr : State := st id id (fun f => { regs [(2, ref 1 0x40), (3, 0x55)] f with resv := some (ref 1 0x40, 8) })
theorem wit_reservations : sHr.chip.me.resv = some (sHr.chip.val (.g 2), 8) ∧ sH.chip.me.resv ≠ some (sH.chip.val (.g 2), 8)
    ∧ sHr.chip.usable [.g 2, .g 3] [.g 7] = true ∧ sHr.chip.orderedBy none = true ∧ LogRoom sHr.chip 2 := by unfold LogRoom; decide
theorem test_red : runs (.red p0 (.g 2) (.g 3) .max) sH (fun t => (t.chip.net.map fun m => m.body) == [.reduce .max 0x55]) = true := by decide
theorem test_rll_rsc : runs (.rll p0 (.g 7) (.g 2) none true) sH (fun t => t.chip.me.resv == some (ref 1 0x40, 8)
      && (t.chip.net.map fun m => m.body) == [.reserve 8]) = true
    ∧ runs (.rsc p0 (.g 7) (.g 2) (.g 3) none true) sHr (fun t => t.chip.me.resv == none
      && (t.chip.net.map fun m => m.body) == [.condStore 8 0x55 none]) = true := by decide
theorem test_rsc_without : runs (.rsc p0 (.g 3) (.g 2) (.g 3) none true) sH (fun t => t.chip.me.g[3] == 0 && t.chip.net == []) = true := by decide
theorem wit_fwd : sA.chip.clear p0 = true ∧ sA.chip.mayAccess = true ∧ sA.chip.usable [.link .west] [.link .south] = true := by decide
theorem test_fwd : runs (.fwd p0 .south .west) sA (fun t => (t.chip.coreAt (neighbour 0 .south)).links.toList.any (· == [(5, 10)])) = true := by decide

/-! ## Arrivals and answers -/

/-- A supervisor message of core 1 to a place. -/
def mail (dest : Place) (addr : Nat) (b : Body) : Msg := ⟨9, ⟨0, 1, 1, true, 0, none⟩, dest, addr, 0, none, 0, none, 0, 0, b, none, false⟩
/-- Core 0 and a channel of the package's HBM. -/
def here : Place := ⟨0, .core 0⟩
def mem : Place := ⟨0, .hbm 0 1⟩
/-- A state with one message in flight. -/
def got (m : Msg) (u : Core → Core) (f : Frame → Frame) : State := st (fun c => { c with net := [m], hbm := words [(0x100, 40)] }) u f

def mPut : Msg := mail here 0x2BFF8 (.put [1, 0, 0, 0, 0, 0, 0, 0] (some 0x40))
def sPut : State := got mPut (fun k => { k with pad := words [(0x40, 6)] }) id
theorem wit_put_arrival : sPut.chip.arriving 0 = some mPut ∧ sPut.chip.admits mPut 8 61 1 = .ok 1 ∧ (sPut.chip.coreAt 0).pad.wf = true
    ∧ HomeWf sPut.chip mPut.dest.home := ⟨by decide, rfl, by decide, (by decide : (sPut.chip.coreAt 0).pad.wf = true)⟩
theorem test_put_arrival : runs (.putArrival 0) sPut (fun t => t.chip.pad64 0x2BFF8 == 1 && t.chip.pad64 0x40 == 7
    && (t.chip.net.map fun m => (m.id, m.dest, m.body)) == [(9, ⟨0, .core 1⟩, .ack 0)]) = true := by decide
/-- A user's message with no window that admits it, and one that lies beyond the data banks. -/
def mPut' : Msg := { mPut with frank := ⟨0, 1, 1, false, 0, none⟩ }
theorem wit_put_refused : (got mPut' id id).chip.arriving 0 = some mPut' ∧ (got mPut' id id).chip.admits mPut' 8 61 1 = .error 1 := ⟨by decide, rfl⟩
theorem test_put_refused : runs (.putArrival 0) (got mPut' id id) (fun t => t.chip.here.pad == []
    && (t.chip.net.map fun m => m.body) == [.nack 1]) = true := by decide
def mGet : Msg := mail mem 0x100 (.get 8)
theorem wit_get_arrival : (got mGet id id).chip.arriving 0 = some mGet ∧ (got mGet id id).chip.admits mGet 8 62 0 = .ok 1 ∧ mGet.dest.home ≠ .host :=
  ⟨by decide, rfl, by decide⟩
theorem test_get_arrival : runs (.getArrival 0) (got mGet id id) (fun t => (t.chip.net.map fun m => m.body) ==
    [.reply [40, 0, 0, 0, 0, 0, 0, 0] false]) = true := by decide
def mRes : Msg := mail mem 0x100 (.reserve 8)
theorem wit_reserve_arrival : (got mRes id id).chip.arriving 0 = some mRes ∧ (got mRes id id).chip.admits mRes 8 59 2 = .ok 1
    ∧ ((got mRes id id).chip.resvAt mRes.dest.home).length < resvRoom mRes.dest.home := ⟨by decide, rfl, by decide⟩
theorem test_reserve_arrival : runs (.reserveArrival 0) (got mRes id id) (fun t => t.chip.reserved mRes 8) = true := by decide
def mSc : Msg := mail here 0x40 (.condStore 8 77 none)
def sSc : State := got mSc (fun k => { k with resv := [⟨0x40, 8, 0, 1, 0, 3⟩] }) id
theorem wit_conditional_store : sSc.chip.arriving 0 = some mSc ∧ sSc.chip.admits mSc 8 59 2 = .ok 1 ∧ sSc.chip.reserved mSc 8 = true
    ∧ (got mSc id id).chip.arriving 0 = some mSc ∧ (got mSc id id).chip.admits mSc 8 59 2 = .ok 1 ∧ (got mSc id id).chip.reserved mSc 8 = false :=
  ⟨by decide, rfl, by decide, by decide, rfl, by decide⟩
theorem test_conditional_store : runs (.conditionalStoreArrival 0) sSc (fun t => t.chip.pad64 0x40 == 77 && t.chip.here.resv == []
      && (t.chip.net.map fun m => m.body) == [.ack 0]) = true
    ∧ runs (.conditionalStoreArrival 0) (got mSc id id) (fun t => t.chip.pad64 0x40 == 0 && (t.chip.net.map fun m => m.body) == [.ack 1]) = true := by decide
def mAct : Msg := mail here 0x80 (.active 0x10040 3 [5, 0, 0, 0, 0, 0, 0, 0])
theorem wit_active_arrival : (got mAct id id).chip.arriving 0 = some mAct ∧ (got mAct id id).chip.admits mAct (spans mAct).length 58 4 = .ok 1
    ∧ (got mAct id id).chip.ctxOpen 1 = true ∧ ((got mAct id id).chip.coreAt 0).postboxUsed < 32 ∧ mAct.lctx = none :=
  ⟨by decide, rfl, by decide, by decide, rfl⟩
theorem test_active_arrival : runs (.activeArrival 0) (got mAct id id) (fun t => t.chip.pad64 0x80 == 5
    && (t.chip.here.postbox.map (·.lctx)) == [some 1]) = true := by decide
def mRed : Msg := mail mem 0x100 (.reduce .add 2)
def mRed' : Msg := mail here 0x100 (.reduce .add 2)
theorem wit_reduce_arrival : (got mRed id id).chip.arriving 0 = some mRed ∧ (got mRed id id).chip.admits mRed 8 60 2 = .ok 1
    ∧ (got mRed id id).chip.poisonAt mRed.dest.home mRed.addr 8 = false ∧ (got mRed id id).chip.hbm.wf = true
    ∧ (got mRed' id id).chip.arriving 0 = some mRed' ∧ (got mRed' id id).chip.admits mRed' 8 60 2 = .ok 1
    ∧ (got mRed' id id).chip.poisonAt mRed'.dest.home mRed'.addr 8 = false := ⟨by decide, rfl, by decide, by decide, by decide, rfl, by decide⟩
theorem test_reduce_arrival : runs (.reduceArrival 0) (got mRed id id) (fun t => rd64 t.chip.hbm 0x100 == 42) = true
    ∧ runs (.reduceArrival 0) (got mRed' id id) (fun t => (t.chip.here.postbox.map (·.lctx)) == [some 1]) = true := by decide
def sHan : State := st id (fun k => { k with postbox := [{ mAct with lctx := some 1, waits := true, pri := 2 }] }) id
theorem wit_handler_start : sHan.chip.dormant 0 1 = some 1 := by decide
theorem test_handler_start : runs (.handlerStart 0) sHan (fun t => let f := t.chip.frameAt 0 1
    f.pc == 0x10040 && f.g[0] == 3 && f.g[2] == 0x80 && f.g[3] == 8 && !f.sup && f.pri == 2) = true := by decide
/-- Frame 4 holds a reservation of launch 3. -/
def reserve3 (k : Core) : Core := { k with frames := k.frames ++ [(4, { Frame.reset with reservedFor := some 3 })] }
def im0 : Image := { g := Vector.replicate 16 8, pc := 0x10000, npc := 0x10010, nnpc := 0x10014, sw := 0xC0000001, tname := 1, tjoin := ref 1 0x40,
                     launch := some 3, ctx := 1, poisoned := [], claims := [], slots := [] }
def mMig : Msg := mail here 0 (.migrate im0)
theorem wit_migrate_arrival : (got mMig reserve3 id).chip.arriving 0 = some mMig ∧ ((got mMig reserve3 id).chip.coreAt 0).reserves (some 3) = true
    ∧ (got mMig reserve3 id).chip.ctxOpen 1 = true ∧ ((got mMig reserve3 id).chip.coreAt 0).postboxUsed < 32 ∧ (((got mMig reserve3 id).chip.coreAt 0).lowest 10 fun x => x.reservedFor == some 3) = some 4 := by decide
theorem test_migrate_arrival : runs (.migrateArrival 0) (got mMig reserve3 id) (fun t => let f := t.chip.frameAt 0 4
    f.g == im0.g && f.npc == 0x10010 && f.tjoin == ref 1 0x40 && (t.chip.net.map fun m => m.body) == [.ack 0]) = true := by decide
def k0 : Task := ⟨0x10080, 11, ref 0 0x200, 0x8000000000000005, some 3, 1, false⟩
def mTask : Msg := mail here 0 (.taskPush k0)
def mDown : Msg := mail here 0x200 .countDown
theorem wit_pushes : (got mTask id id).chip.arriving 0 = some mTask ∧ ((got mTask id id).chip.coreAt 0).dequeFull = false
    ∧ (got mTask id id).chip.dequeFree 0 = true ∧ ((got mDown id id).chip.coreAt 0).padBad 0x200 8 = false
    ∧ ((got mDown id id).chip.coreAt 0).padBad 0x210 8 = false
    ∧ (got mDown id id).chip.arriving 0 = some mDown ∧ mDown.sib = none ∧ ((got mDown id id).chip.coreAt 0).held = []
    ∧ ((got mDown id id).chip.coreAt 0).pad.wf = true := by decide
theorem test_task_push : runs (.remoteTaskPush 0) (got mTask id id) (fun t => t.chip.here.deque == [k0]) = true := by decide
theorem test_count_down : runs (.joinCountdown 0) (got mDown id id) (fun t => t.chip.pad64 0x200 == 0xFFFFFFFFFFFFFFFF
    && t.chip.pad64 0x210 == 1) = true := by decide
/-- Frame 0 of core 0 waits for an answer with id 9. -/
def asked (w : Want) (k : Core) : Core := { k with reqs := [(9, ⟨.frame 0, w, mail ⟨1, .core 3⟩ 0x80 (.get 8), true, 0, 0, none, 0⟩)] }
def mRep : Msg := mail here 0 (.reply [7, 0, 0, 0, 0, 0, 0, 0] true)
theorem wit_reply : (got mRep (asked (.load (.g 15) 8)) id).chip.arriving 0 = some mRep
    ∧ (tfind ((got mRep (asked (.load (.g 15) 8)) id).chip.coreAt 0).reqs mRep.id).isSome = true := by decide
theorem test_reply : runs (.reply 0) (got mRep (asked (.load (.g 15) 8)) id) (fun t => t.chip.me.g[15] == 7 && t.chip.here.reqs == []
    && t.chip.me.poisoned == [(15, 0)]) = true := by decide
def mAck (n : Nat) : Msg := mail here 0 (.ack n)
theorem wit_ack : (got (mAck 0) (asked .posted) id).chip.arriving 0 = some (mAck 0)
    ∧ (got (mAck 1) (asked (.stored (.g 3) none)) id).chip.arriving 0 = some (mAck 1) := by decide
theorem test_ack : runs (.ack 0) (got (mAck 0) (asked .posted) id) (fun t => t.chip.here.reqs == []) = true
    ∧ runs (.ack 0) (got (mAck 0) (asked (.stored (.g 3) none)) id) (fun t => t.chip.me.g[3] == 1) = true
    ∧ runs (.ack 0) (got (mAck 1) (asked (.stored (.g 0) none)) (regs [(0, 4)])) (fun t => t.chip.me.g[0] == 0) = true := by decide
def mObj : Msg := mail here 0 (.objReply (.ok 5 true))
theorem wit_object_reply : (got mObj (asked (.object (some (.g 2)) (some 3) none)) id).chip.arriving 0 = some mObj
    ∧ (got mObj (asked (.object (some (.g 2)) (some 3) none)) id).chip.canLand 0 (some (.g 2)) = true := by decide
theorem test_object_reply : runs (.objectReply 0) (got mObj (asked (.object (some (.g 2)) (some 3) none)) id) (fun t => t.chip.me.g[2] == 5
    && tst t.chip.me.sw 3 && t.chip.me.pc == 0x10004) = true := by decide
def mNak (n : Nat) : Msg := mail here 0 (.nack n)
theorem wit_nack : ∀ n ∈ [1, 2, 3, 4, 5], (got (mNak n) (asked .posted) id).chip.arriving 0 = some (mNak n)
    ∧ (tfind ((got (mNak n) (asked .posted) id).chip.coreAt 0).reqs 9).isSome = true
    ∧ (tfind (((got (mNak n) (asked .posted) id).chip.taken 0).coreAt 0).reqs 9).isSome = true := by decide
theorem test_nack : runs (.nack 0) (got (mNak 4) (asked .posted) id) (fun t => (t.chip.me.refusals.map fun x => (x.cause, x.detail, x.reg)) ==
    [(0x0E, 0x52, none)]) = true
    ∧ runs (.nack 0) (got (mNak 4) (asked (.load (.g 5) 8)) id) (fun t => t.chip.me.poisoned == [(5, 0)] && t.chip.me.refusals == []) = true := by decide
theorem test_nack_again : runs (.nack 0) (got (mNak 2) (asked .posted) id) (fun t => (t.chip.here.reqs.map fun r => r.2.retry) == [some 10]) = true
    ∧ runs (.nack 0) (got (mNak 1) (asked (.object none none none)) id) (fun t => t.chip.me.fatal && t.chip.here.reqs == []) = true := by decide
/-- A request to package 1 that was sent 1000 times 10 microseconds ago. -/
def sLate : State := st (fun c => { c with now := 12500000 }) (asked .posted) id
theorem wit_timeout : (tfind (sLate.chip.coreAt 0).reqs 9).isSome = true ∧ bits sLate.chip.fabcfg 15 0 = 1000
    ∧ 0 + 1000 * 10 * 1250 ≤ sLate.chip.now := by decide
theorem test_timeout : runs (.requestTimeout 0 9) sLate (fun t => (t.chip.me.refusals.map fun x => (x.cause, x.detail)) == [(0x0E, 0x41)]) = true := by decide
def mNot : Msg := mail here 0 (.notice 0x40 6)
theorem wit_notice : (got mNot id id).chip.arriving 0 = some mNot ∧ ((got mNot id id).chip.coreAt 0).padBad 0x40 8 = false := by decide
theorem test_notice : runs (.notice 0) (got mNot id id) (fun t => t.chip.pad64 0x40 == 6) = true
    ∧ runs (.notice 0) (got mNot (fun k => { k with pad := words [(0x40, 9)] }) id) (fun t => t.chip.pad64 0x40 == 9) = true := by decide
def mWd : Msg := mail here 0x40 .withdraw
def mBw : Msg := mail here 0x40 (.object .bwait 0 0)
def sWd : State := got mWd (fun k => { k with waiters := [mBw] }) id
theorem wit_withdrawal : sWd.chip.arriving 0 = some mWd ∧ ((sWd.chip.waitersAt mWd.dest.home).find? fun x => x.id == mWd.id
    && x.frank.core == mWd.frank.core && x.frank.pkg == mWd.frank.pkg) = some mBw ∧ (sWd.chip.waitersAt mWd.dest.home).Nodup := by decide
theorem test_withdrawal : runs (.waiterWithdrawal 0) sWd (fun t => t.chip.here.waiters == [] && (t.chip.net.map fun m => m.body) ==
    [.objReply .withdrawn]) = true := by decide

/-! ## Frames between instructions, tasks, steals, retirement -/

/-- Frame 0 of core 0 in a state. -/
def as (x : FSt) (f : Frame) : Frame := { f with st := x }
theorem wit_frame_ready : (st id id (as (.stalled .replySlots))).chip.waitOver 0 0 .replySlots = true := by decide
theorem test_frame_ready : runs (.frameReady 0 0) (st id id (as (.stalled (.counter 0x40 0 false [])))) (fun t => t.chip.me.st == .ready
      && t.chip.me.pc == 0x10004) = true
    ∧ runs (.frameReady 0 0) (st id id (as (.stalled (.counter 0x40 1 false [])))) (fun _ => true) = false := by decide
/-- A handle with a filled slot and a free one, and a store of the thread to its own core that has not been acknowledged. -/
def sOpen : State := st id (fun k => { k with handles := sG.chip.here.handles, reqs := [(9, ⟨.frame 0, .posted, mail ⟨sG.chip.pkg, .core 0⟩ 0x80 (.put [0] none), false, 0, 0, none, 64⟩)] }) id
theorem wit_handle_waits : sOpen.chip.unrefused = true ∧ sOpen.chip.releasable .core = false ∧ sOpen.chip.mayAccess = true ∧ HandleOk sOpen.chip 1
    ∧ filled (begun sOpen.chip 1) ≠ slotsOf (begun sOpen.chip 1) ∧ filled (begun sOpen.chip 1) ≠ 0 := by unfold HandleOk; decide
theorem test_handle_waits : runs (.qadvC p0 1) sOpen (fun t => t.chip.me.st == .stalled (.release .core)) = true := by decide
def sAge : State := st (fun c => { c with now := 1250000 }) id (fun f => { f with sw := 0x80000001 })
theorem wit_promotion : sAge.chip.me.st = .ready ∧ sAge.chip.me.sup = false ∧ sAge.chip.me.promoted < sAge.chip.me.pri
    ∧ sAge.chip.underTest 0 = false ∧ 1250000 * (sAge.chip.me.promoted + 1) ≤ sAge.chip.readyCycles 0 sAge.chip.me
    ∧ (∀ p ∈ sAge.chip.testing, p.1 ≠ .signature (sigOf 0)) := by decide
theorem wit_pick : sAge.chip.pick 0 = some 0 := by decide
theorem test_promotion : runs (.framePromotion 0 0) sAge (fun t => t.chip.me.issueClass == 2) = true := by decide
def sDiv : State := st id (fun k => { k with divide := some ⟨0, 7, .g 9, 33, 10⟩ }) id
theorem wit_divide_done : sDiv.chip.canLand 0 (some (.g 9)) = true ∧ sDiv.chip.me.thread = 7 ∧ (10 : Nat) ≤ sDiv.chip.now := by decide
theorem test_divide_done : runs (.divideComplete 0) sDiv (fun t => t.chip.me.g[9] == 33 && t.chip.here.divide == none) = true := by decide
theorem test_sleep_expiry : runs (.sleepExpiry 0 0) (st id id (as (.stalled (.sleep 10)))) (fun t => t.chip.me.pc == 0x10004) = true
    ∧ runs (.sleepExpiry 0 0) (st id id (as (.stalled (.sleep 11)))) (fun _ => true) = false := by decide
def sNap : State := st id id (as .parked)
theorem wit_core_sleep : sNap.chip.here.asleep = false ∧ sNap.chip.here.wakeAt ≤ sNap.chip.now ∧ sNap.chip.here.mxq = [] ∧ sNap.chip.here.cpq = []
    ∧ sNap.chip.here.postbox = [] ∧ (∀ p ∈ sNap.chip.here.frames, p.2.st = .free ∨ p.2.st = .parked) := by decide
theorem test_core_sleep : runs (.coreSleep 0) sNap (fun t => t.chip.here.asleep) = true
    ∧ runs (.coreWake 0) (st id (fun k => { k with asleep := true, slpcfg := 1 }) id) (fun t => !t.chip.here.asleep && t.chip.here.wakeAt == 50) = true := by decide
def sPop : State := st id (fun k => reserve3 { k with deque := [k0, k0] }) id
theorem wit_task_pop : sPop.chip.arrivalStarts 0 = false ∧ sPop.chip.dequeFree 0 = true ∧ ((sPop.chip.coreAt 0).deque.find? fun x => x.launch == some 3) = some k0
    ∧ ((sPop.chip.coreAt 0).lowest 10 fun x => x.reservedFor == some 3) = some 4 := by decide
theorem test_task_pop : runs (.taskPop 0 3) sPop (fun t => let f := t.chip.frameAt 0 4
    f.g[0] == 11 && f.g[1] == ref 0 0x200 && f.pc == 0x10080 && f.pri == 2 && t.chip.here.deque == [k0]) = true := by decide
def sFired : State := st id (fun k => { k with wtab := k.wtab.set 31 { WEntry.reset with fired := some k0 } }) id
theorem wit_deferred_push : ((sFired.chip.coreAt 0).wtab[31]).fired = some k0 ∧ (sFired.chip.coreAt 0).dequeFull = false
    ∧ sFired.chip.dequeFree 0 = true ∧ (sFired.chip.coreAt 0).binderDraining ((sFired.chip.coreAt 0).wtab[31]) = false := by decide
theorem test_deferred_push : runs (.deferredTaskPush 0 31) sFired (fun t => t.chip.here.deque == [k0] && (t.chip.here.wtab[31]).isFree) = true := by decide
/-- Launch 3 on cores 0, 1 and 16. -/
def l3 : Launch := ⟨1, 0, 0, [], false, true, [0, 1, 16], false, [], 0⟩
def sSteal : State := st (fun c => { c with launches := [(3, l3)] }) reserve3 id
theorem wit_steal_request : tfind sSteal.chip.launches 3 = some l3 ∧ l3.mode = 0 ∧ sSteal.chip.maySteal 0 3 = true
    ∧ victimOrder 0 l3.cores = [1, 16] ∧ ((sSteal.chip.coreAt 0).stealing.find? (·.launch == 3)) = none := by decide
theorem test_steal_request : runs (.stealRequest 0 3) sSteal (fun t => t.chip.steals == [⟨false, 0, 1, 3, none, none⟩]) = true := by decide
def sServe : State := st (fun c => { c with steals := [⟨false, 1, 0, 3, none, none⟩] }) (fun k => { k with deque := [{ k0 with arg := 1 }, k0] }) id
theorem wit_steal_service : sServe.chip.stealAt 0 false = some ⟨false, 1, 0, 3, none, none⟩ ∧ sServe.chip.popsNow 0 = false := by decide
theorem test_steal_service : runs (.stealService 0) sServe (fun t => t.chip.here.deque == [{ k0 with arg := 1 }]
    && t.chip.steals == [⟨true, 1, 0, 3, some k0, none⟩]) = true := by decide
def sTaken (k : Option Task) : State := st (fun c => { c with steals := [⟨true, 0, 1, 3, k, none⟩] }) (fun k => { k with stealing := [⟨3, true, [], none, none⟩] }) id
theorem wit_steal_reply : (sTaken (some k0)).chip.stealAt 0 true = some ⟨true, 0, 1, 3, some k0, none⟩
    ∧ (sTaken none).chip.stealAt 0 true = some ⟨true, 0, 1, 3, none, none⟩
    ∧ (((sTaken none).chip.coreAt 0).stealing.find? (·.launch == 3)) = some ⟨3, true, [], none, none⟩ := by decide
theorem test_steal_reply : runs (.stealReply 0) (sTaken (some k0)) (fun t => t.chip.here.deque == [k0] && t.chip.here.stealing == []) = true
    ∧ runs (.stealReply 0) (sTaken none) (fun t => t.chip.here.stealing == [⟨3, false, [], some 266, none⟩]) = true := by decide
theorem test_backoff : runs (.stealBackoffExpiry 0) (st id (fun k => { k with stealing := [⟨3, false, [], some 10, none⟩] }) id)
    (fun t => t.chip.here.stealing == []) = true := by decide
def sRet : State := st id id (fun f => { f with st := .retiring false 0, tjoin := ref 5 0x80 })
theorem wit_retirement : sRet.chip.drained 0 (.frame 0) sRet.chip.me.thread = true ∧ sRet.chip.me.engErr = [] ∧ sRet.chip.me.refusals = []
    ∧ tst sRet.chip.me.tjoin 63 = true ∧ refPkg sRet.chip.me.tjoin = sRet.chip.pkg ∧ refCore sRet.chip.me.tjoin ≠ 0 := by decide
theorem test_retirement : runs (.retirementDrainComplete 0 0) sRet (fun t => t.chip.me.st == .free
    && (t.chip.net.map fun m => (m.dest, m.addr, m.body)) == [(⟨0, .core 5⟩, 0x80, .countDown)]) = true := by decide
def tr0 : Tracker := ⟨0, 7, 1, none, 0, 0, 0, false, false⟩
def sTrk : State := st id (fun k => { k with trackers := [(0, tr0)] }) id
theorem wit_tracker : sTrk.chip.drained 0 (.tracker 0) tr0.thread = true ∧ tr0.refused = false ∧ tst tr0.tjoin 63 = false ∧ sTrk.chip.here.vec.owner = none := by decide
theorem test_tracker : runs (.trackerDrainComplete 0 0) sTrk (fun t => t.chip.here.trackers == []) = true := by decide
def sDog : State := st (fun c => { c with now := 2 ^ 20 + 1 }) id (as (.stalled (.replay 0 2 5)))
theorem wit_watchdog : sDog.chip.me.st = .stalled (.replay 0 2 5) ∧ (0 : Nat) + 2 ^ 20 < sDog.chip.now := by decide
theorem test_watchdog : runs (.orderLogWatchdog 0 0) sDog (fun t => t.chip.me.fatal && t.chip.reports == [.fatal 0 0]) = true := by decide

/-! ## Class 100 -/

/-- Vector registers set. -/
def vregs (l : List (Fin 32 × VWord)) (k : Core) : Core := { k with vec := { k.vec with v := l.foldl (fun v p => v.set p.1 p.2) k.vec.v } }
/-- FP32 1, 2 and -2 in lane 0, integers in v4 and v5, bytes in v6, BF16 ones in v7, E4M3 ones in v8. -/
def sVe : State := st id (fun k => vregs [(1, 0x3F800000), (2, 0x40000000), (3, 0xC0000000), (4, 0x80000001FFFFFFFF), (5, 0x0000000200000001),
    (6, 0x0000000080018002), (7, 0x3F803F80), (8, 0x38383838)] { k with
      fctx := k.fctx.set 1 0, pad := words [(0x100, 0x1111111122222222), (0x2BFF8, 5)] })
  (regs [(1, 0x100), (2, 0x2BFC0), (3, 0xABCD), (4, 0)])
/-- The frame owns the unit already. -/
def sVo : State := st id (fun k => { k with vec := { k.vec with owner := some 0 } }) id
theorem wit_vector_ready : sVe.chip.clear p0 = true ∧ VectorReady sVe.chip [0, 1, 31] ∧ VectorReady sVo.chip [31] := by unfold VectorReady; decide
/-- The low bits of vector register n. -/
def low (t : State) (n : Fin 32) (w : Nat) : Nat := (t.chip.here.vec.v[n]).toNat % 2 ^ w
theorem test_vfma : runs (.vfmaF32 p0 0 false false false 3 1 2) sVe (fun t => low t 3 32 == 0 && t.chip.here.vec.owner == some 0
      && t.chip.here.vec.pipeAt == 11) = true
    ∧ runs (.vfmaBf16 p0 3 false false false 9 7 7) sVe (fun t => low t 9 32 == 0x3F803F80 && t.chip.here.vec.pipeAt == 14) = true := by decide
theorem test_vadd_vsub : runs (.vaddF32 p0 0 false false false 9 1 2) sVe (fun t => low t 9 32 == 0x40400000) = true
    ∧ runs (.vsubF32 p0 0 false false false 9 1 2) sVe (fun t => low t 9 32 == 0xBF800000) = true
    ∧ runs (.vmulF32 p0 0 false false false 9 2 3) sVe (fun t => low t 9 32 == 0xC0800000) = true := by decide
theorem test_vmax_vmin : runs (.vmaxF32 p0 0 false false false 9 1 3) sVe (fun t => low t 9 32 == 0x3F800000) = true
    ∧ runs (.vminF32 p0 0 false false false 9 1 3) sVe (fun t => low t 9 32 == 0xC0000000) = true := by decide
theorem test_vector_integers : runs (.vaddI32 p0 0 false false false 9 4 5) sVe (fun t => low t 9 64 == 0x8000000300000000) = true
    ∧ runs (.vsubI32 p0 0 false false false 9 5 4) sVe (fun t => low t 9 64 == 0x8000000100000002) = true
    ∧ runs (.vmulI32 p0 0 false false false 9 4 5) sVe (fun t => low t 9 64 == 0x00000002FFFFFFFF) = true
    ∧ runs (.vmaxI32 p0 0 false false false 9 4 5) sVe (fun t => low t 9 64 == 0x0000000200000001) = true
    ∧ runs (.vminI32 p0 0 false false false 9 4 5) sVe (fun t => low t 9 64 == 0x80000001FFFFFFFF) = true := by decide
theorem test_vector_bits : runs (.vandn p0 0 false false 9 4 5) sVe (fun t => low t 9 64 == 0x80000001FFFFFFFE) = true
    ∧ runs (.vsarI32 p0 0 false false 9 4 31) sVe (fun t => low t 9 64 == 0xFFFFFFFFFFFFFFFF) = true
    ∧ runs (.vshrI32 p0 0 false false 9 4 31) sVe (fun t => low t 9 64 == 0x0000000100000001) = true := by decide
theorem test_vperm : runs (.vperm p0 0 false false 9 4 6) sVe (fun t => low t 9 32 == 0x00FF00FF) = true := by decide
theorem test_vexp2_vrcp : runs (.vexp2F32 p0 0 false false 9 1) sVe (fun t => low t 9 64 == 0x3F80000040000000) = true
    ∧ runs (.vrcpF32 p0 0 false false 9 2) sVe (fun t => low t 9 64 == 0x7F8000003F000000) = true
    ∧ runs (.vrsqF32 p0 0 false false 9 1) sVe (fun t => low t 9 32 == 0x3F800000) = true := by decide
theorem test_vred : runs (.vred p0 0 false false 9 5 .addI) sVe (fun t => low t 9 512 == 3) = true
    ∧ runs (.vred p0 0 false false 9 3 .minF) sVe (fun t => low t 9 512 == 0xC0000000) = true := by decide
theorem wit_vbcst_vext : sVe.chip.usable [.g 3] [] = true ∧ sVe.chip.usable [] [.g 9] = true ∧ sVe.chip.mayAccess = true := by decide
theorem test_vbcst_vext : runs (.vbcst p0 0 false 9 (.g 3) .b16) sVe (fun t => low t 9 64 == 0xABCDABCDABCDABCD) = true
    ∧ runs (.vext p0 0 false (.g 9) 4 1) sVe (fun t => t.chip.me.g[9] == 0x80000001) = true
    ∧ runs (.vlane p0 0 false 9) sVe (fun t => low t 9 96 == 0x000000020000000100000000) = true := by decide
/-- Format contexts (R44) for BF16, INT8 and E4M3 by E4M3. -/
def ctxState (w : VWord) : State := { sVe with chip := sVe.chip.modCore 0 fun k => { k with fctx := k.fctx.set 1 w } }
theorem wit_vdot : ∃ w1 w2 w3 : VWord, afmtOf w1 = some .bf16 ∧ bfmtOf w1 = some .bf16 ∧ afmtOf w2 = some .int8 ∧ bfmtOf w2 = some .int8
    ∧ afmtOf w3 = some .e4m3 ∧ bfmtOf w3 = some .e5m2 ∧ sVe.chip.here.fctx[1] = 0 :=
  ⟨0x0101, 0x0404, 0x0302, by decide⟩
theorem test_vdot : runs (.vdotF1 p0 0 false false false 9 8 8) (ctxState 0x0202) (fun t => low t 9 128 == 0x40800000) = true
    ∧ runs (.vdotF1 p0 0 false false false 9 7 7) (ctxState 0x0101) (fun t => low t 9 64 == 0x40000000) = true
    ∧ runs (.vdotF1 p0 0 false false false 9 5 5) (ctxState 0x0404) (fun t => low t 9 32 == 5) = true
    ∧ runs (.vdotF1 p0 0 false false false 9 1 1) sVe (fun t => t.chip.me.fatal && bits t.chip.me.pc 31 0 == 0x10000) = true := by decide
theorem test_vcmp : runs (.vcmpLt p0 0 false .f32 2 3 1) sVe (fun t => (t.chip.here.vec.k[2]) == 0xF) = true
    ∧ runs (.vcmpLe p0 0 false .i32 2 4 5) sVe (fun t => (t.chip.here.vec.k[2]) == 0xFFFFFFFFFFFFFFFF) = true
    ∧ runs (.vcmpEq p0 0 false .bf16 7 7 1) sVe (fun t => (t.chip.here.vec.k[7]) == 0xFFFFFFFFFFFFFFFC) = true := by decide
theorem test_vsel : runs (.vsel p0 0 false false 1 2 0) sVe (fun t => low t 1 32 == 0x3F800000) = true := by decide
theorem wit_vcvt_ol : sVe.chip.me.volist = 0 ∧ ∀ i < 16, (convTo (targetFmt .f32e4m3).1 .rne (sourceOf .f32e4m3 i (vreg sVe.chip 1))).overflows = false := by decide
theorem test_vcvt : runs (.vcvt p0 0 false false 9 2 .f32bf16 .rne) sVe (fun t => low t 9 512 == 0x4000) = true
    ∧ runs (.vcvtOl p0 0 false false 9 1 .f32e4m3 .rne) sVe (fun t => low t 9 512 == 0x38 && t.chip.me.vobase == 16) = true := by decide
theorem test_vwid : runs (.vwid p0 0 false false 9 7 0 .bf16) sVe (fun t => low t 9 96 == 0x3F8000003F800000) = true
    ∧ runs (.vwid p0 0 false false 9 8 0 .e4m3) sVe (fun t => low t 9 80 == 0x3F803F803F803F80) = true
    ∧ runs (.vwid p0 0 false false 9 6 0 .i8) sVe (fun t => low t 9 96 == 0x00000001FFFFFF8000000002) = true := by decide
theorem wit_vector_scratchpad : sVe.chip.usable [.g 1] [] = true ∧ elementsOk sVe.chip (elementAt (sVe.chip.val (.g 1)))
    ∧ elementsOk sVe.chip (elementAt (sVe.chip.val (.g 2))) ∧ (∀ i < 16, sVe.chip.padSound ((elementAt (sVe.chip.val (.g 2)) i).toNat) 4 = true)
    ∧ elementsOk sVe.chip (fun i => sVe.chip.val (.g 1) + (laneB 32 i (vreg sVe.chip 0)).setWidth 64) := by unfold elementsOk; decide
theorem test_vld : runs (.vld p0 0 false 9 (.g 1) 0) sVe (fun t => low t 9 96 == 0x1111111122222222 && t.chip.me.pc == 0x10004) = true
    ∧ runs (.vld p0 0 false 9 (.g 2) 0) sVe (fun t => low t 9 512 == 5 * 2 ^ 448) = true := by decide
theorem test_vst : runs (.vst p0 0 false 4 (.g 1) 0) sVe (fun t => t.chip.pad64 0x100 == 0x80000001FFFFFFFF) = true := by decide
theorem test_vamo : runs (.vamo p0 0 false 5 (.g 1) .addI) sVe (fun t => t.chip.pad64 0x100 == 0x1111111322222223) = true := by decide +kernel
theorem test_vgather_vscatter : runs (.vgather p0 0 false 9 (.g 1) 0) sVe (fun t => low t 9 64 == 0x2222222222222222) = true
    ∧ runs (.vscatter p0 0 false 5 (.g 1) 0) sVe (fun t => t.chip.pad64 0x100 == 0x1111111100000000) = true := by decide +kernel
/-- Vectors and addresses of the mapped page. -/
def sVg : State := st id (vregs [(5, 0x0000000200000001)]) (regs [(1, 0x10000), (2, 0x1FFC0)])
theorem wit_vector_global : ElementsCached sVg.chip (sVg.chip.val (.g 1)) .r (fun i => ⟨leaf, 0, 0x40000 + 4 * i⟩)
    ∧ ElementsCached sVg.chip (sVg.chip.val (.g 2)) .w (fun i => ⟨leaf, 0, 0x4FFC0 + 4 * i⟩)
    ∧ sVg.chip.here.slotsUsed + 16 ≤ 64 ∧ sVg.chip.here.trackerUsed + 16 ≤ 128 := by
  refine ⟨?_, ?_, by decide, by decide⟩ <;> intro i hi <;> refine ⟨?_, ?_, .inr ?_⟩ <;>
    (rcases i with _ | _ | _ | _ | _ | _ | _ | _ | _ | _ | _ | _ | _ | _ | _ | _ | i <;> first | rfl | (exfalso; omega))
theorem test_vld_global : runs (.vldG p0 0 false 9 (.g 1) 0) sVg (fun t => (t.chip.net.map fun m => (m.addr, m.body)) == [(0x40000, .get 64)]) = true := by decide +kernel
theorem test_vst_global : runs (.vstG p0 0 false 5 (.g 2) 0) sVg (fun t => (t.chip.net.map fun m => m.addr) == [0x4FFC0]) = true
    ∧ runs (.vamoG p0 0 false 5 (.g 1) .and) sVg (fun t => t.chip.net.length == 16 &&
        ((t.chip.net.head?).map fun m => m.body) == some (.vreduce .and 1)) = true := by decide +kernel

/-! ## Repetition and the sequencer -/

def vi : Instr := .vaddI32 p0 0 true false false 4 4 5
/-- Two vectors, and an operand that makes three repetitions. -/
def sRep : State := st id (vregs [(4, 5), (5, 6)]) (regs [(1, 3)])
theorem wit_rep : VectorReady sRep.chip [] ∧ sRep.chip.usable [.g 1] [] = true := by unfold VectorReady; decide
theorem test_rep : runs (.rep p0 1 (.g 1) 2) sRep (fun t => t.chip.here.vec.capturing == 2 && t.chip.here.vec.remaining == 3
    && t.chip.here.vec.stride == 2) = true := by decide
def capture (n r : Nat) : State := { sRep with chip := sRep.chip.modCore 0 fun k => { k with vec := { k.vec with owner := some 0, capturing := n, remaining := r, stride := 1 } } }
theorem wit_capture : (capture 1 3).chip.here.vec.owner = some (capture 1 3).chip.frame ∧ (capture 1 3).chip.here.vec.stopped = false := by decide
theorem test_capture : runs vi (capture 2 3) (fun t => t.chip.here.vec.words == [causeWord vi] && !t.chip.here.vec.running) = true
    ∧ runs vi (capture 1 3) (fun t => t.chip.here.vec.running && low t 4 32 == 5) = true
    ∧ runs vi (capture 1 0) (fun t => t.chip.here.vec.words == [] && !t.chip.here.vec.running) = true := by decide
def sSeq (i : Instr) : State := { sRep with chip := sRep.chip.modCore 0 fun k => { k with vec := { k.vec with
  owner := some 0, running := true, remaining := 1, iteration := 2, stride := 1, words := [causeWord i], count := 1, nextAt := 0 } } }
def vn : Instr := .vaddI32 ⟨true, 0⟩ 2 true false false 4 4 5
theorem wit_reissue : (sSeq vi).chip.here.vec.words[(sSeq vi).chip.here.vec.position]? = some (causeWord vi)
    ∧ ((sSeq vi).chip.coreAt 0).mayReissue 0 (sSeq vi).chip.now = true ∧ (sSeq vi).chip.underTest 0 = false
    ∧ decode (causeWord vi) = some vi ∧ guardHolds p0 ((sSeq vi).chip.coreAt 0 |>.frameAt 0).sw = true
    ∧ ((sSeq vi).chip.coreAt 0).reqs = [] ∧ ((sSeq vi).chip.coreAt 0).vec.writes = []
    ∧ ((sSeq vn).chip.coreAt 0).mayReissue 0 (sSeq vn).chip.now = true ∧ decode (causeWord vn) = some vn
    ∧ guardHolds ⟨true, 0⟩ ((sSeq vn).chip.coreAt 0 |>.frameAt 0).sw = false := by decide
theorem test_reissue : runs (.sequencerReissue 0) (sSeq vi) (fun t => t.chip.here.vec.writes == [⟨11, 0, .v 6 11 none⟩]) = true
    ∧ runs (.sequencerReissue 0) (sSeq vn) (fun t => !t.chip.here.vec.running && t.chip.here.vec.writes == []) = true := by decide
def sLand (d : VDest) : State := st id (fun k => { k with vec := { k.vec with writes := [⟨9, 0, d⟩] } }) id
theorem test_result_writes : runs (.vectorResultWrite 0) (sLand (.v 31 8 none)) (fun t => low t 31 512 == 8 && t.chip.here.vec.writes == []) = true
    ∧ runs (.vectorResultWrite 0) (sLand (.k 7 8)) (fun t => (t.chip.here.vec.k[7]) == 8) = true
    ∧ runs (.vectorResultWrite 0) (sLand (.g (.g 15) 8)) (fun t => t.chip.me.g[15] == 8) = true := by decide

/-! ## Class 111 -/

/-- A handler table at 0x1_0100 whose entries lie in HBM at 0x4_0100 (R155): causes 0x01, 0x07, 0x11. -/
def sTr : State := st (fun c => { c with hbm := words [(0x40108, 0x10800), (0x40138, 0x10840), (0x40188, 0x10900)] }) id (regs [(1, 5)])
theorem wit_traps : sTr.chip.clear p0 = true ∧ sTr.chip.atRest = true ∧ sTr.chip.capturing = false ∧ sTr.chip.me.inTrap = false := by decide
theorem test_trap_enters : runs (.trap p0 0x7FF) sTr (fun t => t.chip.me.pc == 0x10900 && t.chip.me.npc == 0x10904 && t.chip.me.epc == 0x10004
      && t.chip.me.enpc == 0x10008 && bits t.chip.me.ecause 15 0 == 0xFF11 && t.chip.me.eaddr == 0x7FF && tst t.chip.me.sw 18 && t.chip.me.esw == 1) = true
    ∧ runs (.brkpt p0) sTr (fun t => t.chip.me.fatal) = true := by decide
theorem test_illegal_enters : runs (.illegalInstruction 0xE0000000) sTr (fun t => t.chip.me.pc == 0x10800 && t.chip.me.epc == 0x10000
    && bits t.chip.me.ecause 63 32 == 0xE0000000) = true := by decide
def inTrap (f : Frame) : Frame := { f with sw := f.sw ||| 0x40000, epc := 0x20000, enpc := 0x20008, ennpc := 0x2000C, esw := 0xC0000007 }
theorem wit_rfe : (st id id inTrap).chip.me.inTrap = true ∧ (st id id inTrap).chip.me.inSlot = false ∧ (st id id inTrap).chip.atRest = true := by decide
theorem test_rfe : runs (.rfe p0) (st id id inTrap) (fun t => t.chip.me.pc == 0x20000 && t.chip.me.npc == 0x20008 && t.chip.me.nnpc == 0x2000C
      && t.chip.me.sw == 0xC0000007) = true
    ∧ runs (.rfe p0) sTr (fun t => t.chip.me.pc == 0x10800) = true := by decide
def inSlotOfTrap (f : Frame) : Frame := { inTrap f with slots := [f.pc] }
theorem wit_trap_in_slot : (st id id inSlotOfTrap).chip.me.inTrap = true ∧ (st id id inSlotOfTrap).chip.me.inSlot = true
    ∧ (st id id inSlotOfTrap).chip.clear p0 = true := by decide
theorem test_trap_in_slot : runs (.rfe p0) (st id id inSlotOfTrap) (fun t => t.chip.me.fatal) = true
    ∧ runs (.go p0 (.g 1)) (st id id inTrap) (fun t => t.chip.me.fatal) = true := by decide
theorem wit_getc : sTr.chip.usable [] [.g 9] = true ∧ (0x041, (0x10100 : Word)) ∈ openControls sTr.chip
    ∧ (0x050, (0 : Word)) ∈ closedControls sTr.chip ∧ sTr.chip.me.sup = false ∧ (st id id sup).chip.me.sup = true
    ∧ (∀ q ∈ openControls sTr.chip ++ closedControls sTr.chip, q.1 ≠ 0x3FF) := by decide
theorem test_getc : runs (.getc p0 (.g 9) 0x041) sTr (fun t => t.chip.me.g[9] == 0x10100) = true
    ∧ runs (.getc p0 (.g 9) 0x051) sTr (fun t => t.chip.me.pc == 0x10840) = true
    ∧ runs (.getc p0 (.g 9) 0x3FF) sTr (fun t => t.chip.me.pc == 0x10800) = true
    ∧ runs (.getc p0 (.g 9) 0x060) (st id (fun k => { k with slpcfg := 2 }) id) (fun t => t.chip.me.g[9] == 2) = true := by decide
/-- Operands of control writes. -/
def sSet : State := st id id (fun f => inTrap (sup (regs [(1, 0x8001000000010000), (2, 0x10200), (3, 2), (4, 0x400000000), (5, 0x80), (6, 0xC00200FE)] f)))
theorem wit_setc : sSet.chip.clear p0 = true ∧ sSet.chip.usable [.g 1] [] = true
    ∧ (Allowed sSet.chip 0x000 5 ∧ Allowed sSet.chip 0x020 5 ∧ Allowed sSet.chip 0x021 5 ∧ Allowed sSet.chip 0x036 5 ∧ Allowed sSet.chip 0x037 5)
    ∧ (Allowed sSet.chip 0x010 5 ∧ Allowed sSet.chip 0x011 5 ∧ Allowed sSet.chip 0x012 5 ∧ Allowed sSet.chip 0x013 5 ∧ Allowed sSet.chip 0x015 5)
    ∧ Allowed sSet.chip 0x030 (sSet.chip.val (.g 1)) ∧ Allowed sSet.chip 0x033 (sSet.chip.val (.g 1)) ∧ Allowed sSet.chip 0x034 0x80
    ∧ Allowed sSet.chip 0x041 0x10200 ∧ Allowed sSet.chip 0x052 5 ∧ Allowed sSet.chip 0x060 2 := by
  have h : sSet.chip.me.inTrap = true := by decide
  have k : sSet.chip.me.sup = true := by decide
  refine ⟨by decide, by decide, ⟨trivial, trivial, trivial, trivial, trivial⟩, ⟨h, h, h, h, h⟩, ?_, ?_, ?_, ?_, k, ?_⟩ <;>
    simp only [Allowed] <;> decide
theorem test_setc : runs (.setc p0 (.g 2) 0x041) sSet (fun t => (t.chip.ctxAt 1).tvbase == 0x10200) = true
    ∧ runs (.slpcfgWrite p0 (.g 3)) sSet (fun t => t.chip.here.slpcfg == 2) = true
    ∧ runs (.swWrite p0 (.g 6)) sSet (fun t => t.chip.me.sw == 0xC00E00FF) = true
    ∧ runs (.windowWrite p0 (.g 1) 3) sSet (fun t => t.chip.here.win[3] == 0x8001000000010000) = true := by decide
/-- R436: a frame of context 1 closes an open window of its own by the zero register. -/
theorem test_close_window : runs (.windowWrite p0 .zr 0)
      (st id (fun k => { k with win := k.win.set 0 0x8001000000010000 }) id) (fun t => t.chip.here.win[0] == 0 && t.chip.me.ctx == 1) = true := by decide
theorem test_more_writes : runs (.tgcfgWrite p0 (.g 5)) sSet (fun t => t.chip.here.tgcfg == 0x80 && t.chip.here.tags == []) = true
    ∧ runs (.tvbaseWrite p0 (.g 2)) sSet (fun t => (t.chip.ctxAt 1).tvbase == 0x10200) = true
    ∧ runs (.errorRegisterClear p0 (.g 3) .mx) { sSet with chip := sSet.chip.modCore 0 fun k => { k with mxerr := 0x8000000000000033 } }
      (fun t => t.chip.here.mxerr == 0x33) = true := by decide
/-- A pre-emption request: operation 1 on frame 2 of core 3. -/
def sPre : State := st id id (fun f => sup (regs [(1, 0x2000000200000003)] f))
theorem wit_preq : bits (sPre.chip.val (.g 1)) 63 61 = 1 ∧ bits (sPre.chip.val (.g 1)) 60 39 = 0 ∧ bits (sPre.chip.val (.g 1)) 31 15 = 0
    ∧ bits (sPre.chip.val (.g 1)) 38 32 < 96 ∧ quireOf (bits (sPre.chip.val (.g 1)) 14 0) = quireOf sPre.chip.core := by decide
theorem test_preq : runs (.setc p0 (.g 1) 0x050) sPre (fun t => t.chip.me.st == .stalled (.request 1 3 2)) = true := by decide
/-- Operands of `sleep` and `xinv`: the mapped page in context 1, and every address of it. -/
def sX : State := st id id (fun f => sup (regs [(1, 0x10000), (2, 0x0001000000000000), (3, 0x8001000000000000), (4, 0)] f))
theorem wit_sleep_xinv : sX.chip.clear p0 = true ∧ sX.chip.atRest = true ∧ sX.chip.usable [.g 1, .g 2] [] = true ∧ sX.chip.me.sup = true
    ∧ bits (sX.chip.val (.g 2)) 62 58 = 0 ∧ bits (sX.chip.val (.g 2)) 47 2 = 0 ∧ bits (sX.chip.val (.g 2)) 1 0 ≠ 3
    ∧ bits (sX.chip.val (.g 2)) 57 48 = sX.chip.me.ctx ∧ (sX.chip.val (.g 1)).toNat % 2 ^ 16 = 0 ∧ tst (sX.chip.val (.g 3)) 63 = true := by decide
theorem test_sleep_halt : runs (.sleep p0 (.g 1)) sX (fun t => t.chip.me.st == .stalled (.sleep (10 + 0x10000))) = true
    ∧ runs (.sleep p0 (.g 4)) sX (fun t => t.chip.me.pc == 0x10004) = true
    ∧ runs (.halt p0) sX (fun t => t.chip.me.st == .parked && t.chip.reports == [.halt 0 0]) = true := by decide
theorem test_xinv : runs (.xinv p0 (.g 1) (.g 2)) sX (fun t => (tget [] t.chip.tlb 0).length == 0) = true
    ∧ runs (.xinv p0 (.g 1) (.g 3)) sX (fun t => (tget [] t.chip.tlb 0).length == 0) = true := by decide
/-- A launch with its order log at 0x1_0000, sixteen records a core (R151), and a task of it; the first record of core 0 holds a
program value of frame 0. -/
def logged (mode : Byte) : Launch := { l3 with record := List.replicate 67 0 ++ [mode, 0, 0, 0, 0, 0, 0, 1, 0, 0, 0, 0, 0, 0, 3] ++ List.replicate 430 0 }
def sLog (mode : Byte) : State := st (fun c => { c with launches := [(3, logged mode)], hbm := words [(0x40000, 0x0500000000000001), (0x40008, 55)] }) id
  (fun f => { regs [(1, 77), (2, 0x10008), (3, 0x0200000000000000)] f with launch := some 3 })
theorem wit_olog : (sLog 0).chip.modeOf (some 3) = 0 ∧ (sLog 1).chip.modeOf (some 3) = 1 ∧ (sLog 2).chip.modeOf (some 3) = 2
    ∧ (sLog 1).chip.logFull 0 3 = false ∧ (sLog 1).chip.slicePhys 0 (logged 1) 0 .w = some ⟨leaf, 0, 0x40000⟩ ∧ (sLog 1).chip.hbm.wf = true
    ∧ (sLog 1).chip.cached 0 1 0x10000 = some (leaf, 0) ∧ (sLog 2).chip.logNext 0 3 5 0 = some true
    ∧ (sLog 2).chip.logOutcome 0 3 0 = some 55 ∧ (sLog 1).chip.usable [.g 1] [.g 9] = true := by decide
theorem test_olog : runs (.olog p0 (.g 9) (.g 1)) (sLog 1) (fun t => t.chip.me.g[9] == 77 && rd64 t.chip.hbm 0x40008 == 77
      && t.chip.here.taken 3 == 1) = true
    ∧ runs (.olog p0 (.g 9) (.g 1)) (sLog 2) (fun t => t.chip.me.g[9] == 55) = true := by decide
theorem wit_probe : bits ((sLog 0).chip.val (.g 3)) 63 57 ≠ 0 ∧ bits ((sLog 0).chip.val (.g 2)) 63 57 = 0
    ∧ (sLog 0).chip.cached 0 1 0x10008 = some (leaf, 0) := by decide
theorem test_probe : runs (.probe p0 (.g 9) (.g 2)) (sLog 0) (fun t => t.chip.me.g[9] == 0x3B) = true
    ∧ runs (.probe p0 (.g 9) (.g 3)) (sLog 0) (fun t => t.chip.me.g[9] == 0) = true := by decide

/-! ## The engines -/

/-- A record from its fields: first byte, bytes, value. -/
def recw (l : List (Nat × Nat)) : VWord := BitVec.ofNat 512 (l.foldl (fun n p => n + p.2 * 2 ^ (8 * p.1)) 0)
/-- A command of frame 0, thread 7, context 1. -/
def cmd (l : List (Nat × Nat)) : Cmd := ⟨recw l, 0, 7, 1, false, none, 0, 0, false, 0, [], none, [], 0, none⟩
/-- Core 0 with one command for an engine. -/
def mxOf (m : Cmd) (k : Core) : Core := { k with mxq := [m] }
def cpOf (m : Cmd) (k : Core) : Core := { k with cpq := [m] }
/-- An INT8 format context with INT32 results (R39). -/
def i8 : VWord := 0x050404
theorem wit_post : MayPost sVo.chip .mx 3 ∧ MayPost sVo.chip .cp 31 ∧ MayPost sVe.chip .cp 0 ∧ sVo.chip.clear p0 = true ∧ sVo.chip.mayAccess = true := by
  unfold MayPost; decide
theorem test_post : runs (.postMx p0 4) sVe (fun t => (t.chip.here.mxq.map (·.data)) == [0x80000001FFFFFFFF] && t.chip.here.mowner == some 0
      && t.chip.here.vec.owner == some 0) = true
    ∧ runs (.postCp p0 4) sVe (fun t => (t.chip.here.cpq.map (·.ctx)) == [1] && t.chip.here.mowner == none) = true := by decide
def cDone : Cmd := { cmd [(0, 0x48), (1, 1), (4, 0x2BFF8)] with ran := true }
theorem wit_completion : ((st id (mxOf cDone) id).chip.coreAt 0).queue .mx = [cDone] ∧ ((st id (mxOf cDone) id).chip.coreAt 0).reqs = []
    ∧ cDone.byte 1 % 2 = 1 ∧ ((st id (mxOf cDone) id).chip.coreAt 0).pad.wf = true
    ∧ ((st id (mxOf cDone) id).chip.coreAt 0).padBad 0x2BFF8 8 = false := by decide
theorem test_completion : runs (.commandCompletion 0 .mx) (st id (mxOf cDone) id) (fun t => t.chip.pad64 0x2BFF8 == 1 && t.chip.here.mxq == []) = true := by decide
def cBad : Cmd := cmd [(0, 0x99)]
def cMac : Cmd := cmd [(0, 0x43)]
def sOld : State := st (fun c => { c with now := 2 ^ 20 + 1 }) (mxOf cMac) id
theorem wit_engine_errors : assigned .mx (cBad.byte 0) = false ∧ (st id (mxOf cBad) id).chip.me.thread = cBad.thread ∧ cMac.byte 20 % 2 = 0
    ∧ sOld.chip.here.latch = none ∧ cMac.since + 2 ^ 20 < sOld.chip.now ∧ sOld.chip.me.st ≠ .free := by decide
theorem test_engine_errors : runs (.unassignedEngineCommand 0 .mx) (st id (mxOf cBad) id) (fun t => t.chip.me.engErr == [(0, 0x30, 0)] && t.chip.here.mxq == []
      && bits t.chip.here.mxerr 63 40 == 0x803099) = true
    ∧ runs (.engineWaitTimeout 0 .mx) sOld (fun t => t.chip.me.engErr == [(0, 0x3B, 0)]) = true := by decide
theorem test_error_delivery : runs (.engineErrorDelivery 0 0) (st id id (fun f => { f with engErr := [(5, 0x30, 0), (6, 0x31, 0)] })) (fun t => t.chip.me.fatal
    && t.chip.me.engErr == [(6, 0x31, 0)]) = true := by decide

/-- A set-format-context command through handle 0, and directly. -/
def cSet : Cmd := cmd [(0, 0x47), (16, 0x2BFC0), (20, 3)]
def sCtx : State := st id (fun k => { mxOf cSet k with pad := words [(0x2BFC0, 0x050404)] }) id
theorem wit_setf : Next (sCtx.chip.coreAt 0) .mx 0x47 cSet ∧ Operand (sCtx.chip.coreAt 0) 10 cSet (cSet.byte 8) false id (cSet.field 16 4) 64 0x2BFC0
    ∧ cSet.zero 9 16 = true ∧ cSet.zero 21 64 = true ∧ Readable sCtx.chip 0 0x2BFC0 64 ∧ ctxValid i8 = true := by
  unfold Next Fresh Operand Readable; decide
theorem test_setf : runs (.mxSetf 0) sCtx (fun t => t.chip.here.context 3 == i8) = true := by decide
def cSetH : Cmd := cmd [(0, 0x47), (8, 0x80), (20, 1)]
def sCtxH : State := st id (fun k => { mxOf cSetH k with pad := words [(0x80, 0x050404)], handles := k.handles.set 0 ⟨0x8000010000000002, some 1, 1, 0⟩ }) id
theorem wit_handle_operand : Operand (sCtxH.chip.coreAt 0) 10 cSetH (cSetH.byte 8) false id (cSetH.field 16 4) 64 0x80 := by unfold Operand; decide
theorem test_handle_operand : runs (.mxSetf 0) sCtxH (fun t => t.chip.here.context 1 == i8 && t.chip.here.handles[0].ci == 1) = true := by decide

/-- Two rows of eight INT8 elements. -/
def cLda : Cmd := cmd [(0, 0x41), (16, 0x100), (20, 8), (24, 8), (26, 2)]
def sLda : State := st id (fun k => { mxOf cLda k with pad := words [(0x100, 0x01000000000000FF), (0x108, 2)], fctx := k.fctx.set 0 i8 }) id
theorem wit_lda : Next (sLda.chip.coreAt 0) .mx 0x41 cLda ∧ ctxValid i8 = true ∧ afmtOf i8 = some .int8 ∧ cLda.zero 9 16 = true ∧ cLda.zero 28 64 = true
    ∧ Operand (sLda.chip.coreAt 0) 10 cLda (cLda.byte 8) false id (cLda.field 16 4) 16 0x100 ∧ (∀ r < 2, Readable sLda.chip 0 (0x100 + r * 8) 8) := by
  unfold Next Fresh Operand Readable; decide
theorem test_lda : runs (.mxLda 0) sLda (fun t => tfind t.chip.here.abuf 0 == some (ofInt (-1)) && tfind t.chip.here.abuf 7 == some (ofInt 1)
    && tfind t.chip.here.abuf 256 == some (ofInt 2) && tfind t.chip.here.abuf 8 == none && tfind t.chip.here.abuf 512 == none) = true := by decide
def cLdb : Cmd := cmd [(0, 0x42), (16, 0x100), (20, 16)]
def sLdb : State := st id (fun k => { mxOf cLdb k with pad := words [(0x1F8, 0x0700000000000000)] }) id
theorem wit_ldb : Next (sLdb.chip.coreAt 0) .mx 0x42 cLdb ∧ Operand (sLdb.chip.coreAt 0) 10 cLdb (cLdb.byte 8) false id (cLdb.field 16 4) 256 0x100
    ∧ sLdb.chip.here.latch = none ∧ (sLdb.chip.coreAt 15).passReady = none ∧ cLdb.zero 9 16 = true ∧ cLdb.zero 24 64 = true ∧ (∀ r < 16, Readable sLdb.chip 0 (0x100 + r * 16) 16) := by
  unfold Next Fresh Operand Readable; decide
theorem test_ldb : runs (.mxLdb 0) sLdb (fun t => (t.chip.here.latch.map fun b => (b.length, b.getD 255 0)) == some (256, 7)) = true := by decide
def cZero : Cmd := cmd [(0, 0x45), (16, 0x11)]
def sZero : State := st id (fun k => { mxOf cZero k with acc := [(accIx 0 0 0, 5), (accIx 1 15 15, 6)], latch := some [] }) id
theorem wit_zero : Next (sZero.chip.coreAt 0) .mx 0x45 cZero ∧ cZero.zero 8 16 = true ∧ cZero.byte 16 < 32 ∧ cZero.zero 17 64 = true := by unfold Next Fresh; decide
theorem test_zero : runs (.mxZero 0) sZero (fun t => t.chip.here.accAt 0 0 0 == 0 && t.chip.here.accAt 1 15 15 == 6 && t.chip.here.latch == none) = true := by decide
def cDrain : Cmd := cmd [(0, 0x46), (16, 2), (18, 1), (20, 0x100), (24, 64)]
def sDrain : State := st id (fun k => { mxOf cDrain k with acc := [(accIx 2 1 3, 0xFFFFFFFE)], fctx := k.fctx.set 0 i8 }) id
theorem wit_drain : Next (sDrain.chip.coreAt 0) .mx 0x46 cDrain ∧ cDrain.byte 8 = 0 ∧ cDrain.zero 10 16 = true ∧ cDrain.byte 16 < 4 ∧ cDrain.byte 18 < 2
    ∧ cDrain.field 32 8 = 0 ∧ cDrain.zero 40 64 = true ∧ ofmtOf i8 = some .int32
    ∧ Operand (sDrain.chip.coreAt 0) 10 cDrain (cDrain.byte 9) true id (cDrain.field 20 4) (15 * 64 + 64) 0x100 ∧ sDrain.chip.here.pad.wf = true := by
  unfold Next Fresh Operand; decide
/-- Elements 18 and 19 of the drain, in row 1. -/
theorem test_drain : (match drainFrom 0 cDrain .int32 true .rne 2 0x100 64 0 0 18 2 ⟨sDrain.chip, [], [], 0, 0, none⟩ with
    | .ok _ c => rdLe c.chip.here.pad (0x100 + 64 + 12) 4 == 0xFFFFFFFE && rdLe c.chip.here.pad (0x100 + 64 + 8) 4 == 0
    | .error _ _ => false) = true := by decide
def cMark : Cmd := cmd [(0, 0x48)]
theorem wit_mx_mark : Next ((st id (mxOf cMark) id).chip.coreAt 0) .mx 0x48 cMark ∧ cMark.zero 8 64 = true := by unfold Next Fresh; decide
theorem test_mx_mark : runs (.mxMark 0) (st id (mxOf cMark) id) (fun t => (t.chip.here.mxq.map (·.ran)) == [true]) = true := by decide
/-- A multiply from the latch: 3 times 5 and 2 times minus 1 into column 15. -/
def cMul : Cmd := cmd [(0, 0x43), (16, 1), (19, 1)]
def sMul : State := st id (fun k => { mxOf cMul k with fctx := k.fctx.set 0 i8, afmt := 4, abuf := [(0, ofInt 3), (1, ofInt 2)], latch := some (List.replicate 15 0 ++ [5] ++ List.replicate 15 0 ++ [255] ++ List.replicate 224 0), acc := [(accIx 1 0 15, 100)] }) id
theorem wit_mac : Next (sMul.chip.coreAt 0) .mx 0x43 cMul ∧ cMul.zero 9 16 = true ∧ cMul.byte 20 % 2 = 0 ∧ cMul.byte 8 = 0 ∧ cMul.field 24 4 = 0
    ∧ cMul.field 28 4 = 0 ∧ cMul.zero 21 24 = true ∧ cMul.zero 32 64 = true ∧ bfmtOf i8 = some .int8 ∧ fmtCode (afmtOf i8) = sMul.chip.here.afmt
    ∧ sMul.chip.here.latch.isSome = true := by unfold Next Fresh; decide
theorem test_mac : runs (.mxMac 0) sMul (fun t => t.chip.here.accAt 1 0 15 == 113 && t.chip.here.accAt 1 1 15 == 0) = true := by decide +kernel
/-- A multiply from the scratchpad, the last of whose chunk's rows holds the element that counts. -/
def cMul' : Cmd := cmd [(0, 0x43), (16, 3), (18, 240), (19, 1), (20, 1), (24, 0x100), (28, 16)]
def sMul' : State := st id (fun k => { mxOf cMul' k with fctx := k.fctx.set 0 i8, afmt := 4, abuf := [(255, ofInt 3)], pad := words [(0x1F0, 4)] }) id
theorem wit_mac_scratchpad : Next (sMul'.chip.coreAt 0) .mx 0x43 cMul' ∧ cMul'.byte 18 + 16 * cMul'.byte 19 ≤ 256
    ∧ Operand (sMul'.chip.coreAt 0) 10 cMul' (cMul'.byte 8) false id (cMul'.field 24 4) 256 0x100 ∧ (∀ r < 16, Readable sMul'.chip 0 (0x100 + r * 16) 16) := by
  unfold Next Fresh Operand Readable; decide
theorem test_mac_scratchpad : runs (.mxMac 0) sMul' (fun t => t.chip.here.accAt 3 0 0 == 12) = true := by decide +kernel
def cPass : Cmd := cmd [(0, 0x44)]
def sPass : State := st id (fun k => { mxOf cPass k with latch := some [1] }) id
theorem wit_pass : Next (sPass.chip.coreAt 0) .mx 0x44 cPass ∧ cPass.zero 8 64 = true ∧ (sPass.chip.coreAt 1).latch = none
    ∧ (∀ j < 16, j ≠ 0 → (sPass.chip.coreAt j).mxq = []) := by unfold Next Fresh; decide
theorem test_pass : runs (.mxPass 0) sPass (fun t => t.chip.here.latch == none && (t.chip.coreAt 1).latch == some [1]) = true := by decide
/-- Every core of signature 0 passes a latch. -/
def sRing : State := st (fun c => { c with cores := (List.range 16).map fun j => (j, { mxOf cPass Core.reset with latch := some [BitVec.ofNat 8 j] }) }) id id
theorem wit_ring : ∀ j < 16, Next (sRing.chip.coreAt j) .mx 0x44 cPass ∧ (sRing.chip.coreAt j).latch.isSome = true := by unfold Next Fresh; decide
theorem test_ring : runs (.mxPass 5) sRing (fun t => (t.chip.coreAt 0).latch == some [15] && (t.chip.coreAt 6).latch == some [5]) = true := by decide

def cCopy : Cmd := cmd [(0, 0x81), (16, 2 ^ 63 + 0x100), (24, 2 ^ 63 + 0x108), (32, 4), (36, 2), (40, 4), (44, 4)]
def sCopy : State := st id (fun k => { cpOf cCopy k with pad := words [(0x100, 0x0000000200000001)] }) id
theorem wit_copy2d : Next (sCopy.chip.coreAt 0) .cp 0x81 cCopy ∧ cCopy.zero 10 16 = true ∧ cCopy.zero 48 64 = true
    ∧ Operand (sCopy.chip.coreAt 0) 10 cCopy (cCopy.byte 8) false padLoc (cCopy.field 16 8) 8 0x100
    ∧ Operand (sCopy.chip.coreAt 0) 10 cCopy (cCopy.byte 9) true padLoc (cCopy.field 24 8) 8 0x108
    ∧ (∀ r < 2, Readable sCopy.chip 0 (0x100 + r * 4) 4 ∧ 0x108 + r * 4 + 4 ≤ Config.dataEnd) := by unfold Next Fresh Operand Readable; decide
theorem test_copy2d : runs (.cpCopy2d 0) sCopy (fun t => t.chip.pad64 0x108 == 0x0000000200000001) = true := by decide
/-- Copies between the scratchpad and the mapped page. -/
def cIn : Cmd := cmd [(0, 0x81), (16, 0x10000), (24, 2 ^ 63 + 0x40), (32, 8), (36, 1)]
def cOut : Cmd := cmd [(0, 0x81), (16, 2 ^ 63 + 0x40), (24, 0x1FFF8), (32, 8), (36, 1)]
def sHbm (m : Cmd) : State := st (fun c => { c with hbm := words [(0x40000, 9)] }) (fun k => { cpOf m k with pad := words [(0x40, 8)] }) id
theorem wit_hbm_range : HomeRange (sHbm cIn).chip 0 cIn (cIn.field 16 8) 8 .r false ⟨leaf, 0, 0x40000⟩
    ∧ HomeRange (sHbm cOut).chip 0 cOut (cOut.field 24 8) 8 .w false ⟨leaf, 0, 0x4FFF8⟩ ∧ Readable (sHbm cOut).chip 0 0x40 8 :=
  ⟨⟨⟨by decide, by decide, by decide, by decide, by decide, by decide, leaf, 0, by decide, by decide, by decide⟩, by decide, by decide⟩,
   ⟨⟨by decide, by decide, by decide, by decide, by decide, by decide, leaf, 0, by decide, by decide, by decide⟩, by decide, by decide⟩,
   by unfold Readable; decide⟩
/-- A row of another package's memory: its request, and its answer. -/
def sRow (m : Cmd) : State := let s := sHbm m
  { s with chip := { s.chip with tlb := [(0, [⟨1, 1, 0, 0x20000000004043B⟩])] } }
def cRow (a : Option FarAns) : Cmd := { cIn with far := a }
theorem wit_far_row : VirtualRange (sRow cIn).chip 0 cIn (cIn.field 16 8) 8 .r ⟨0x20000000004043B, 0, 0x40000⟩
    ∧ OnePiece ⟨0x20000000004043B, 0, 0x40000⟩ 8 ∧ Fresh ((sRow (cRow none)).chip.coreAt 0) .cp 0x81 (cRow none)
    ∧ Fresh ((sRow (cRow (some (.refused 3)))).chip.coreAt 0) .cp 0x81 (cRow (some (.refused 3))) :=
  ⟨⟨by decide, by decide, by decide, by decide, by decide, by decide, _, 0, rfl, by decide, by decide⟩, by unfold OnePiece; decide,
   by unfold Fresh; decide, by unfold Fresh; decide⟩
theorem test_far_row : runs (.cpCopy2d 0) (sRow (cRow none)) (fun t => (t.chip.here.reqs.map fun p => (p.2.msg.dest.pkg, p.2.msg.addr)) == [(32, 0x40000)]
      && t.chip.here.pad == (sRow cIn).chip.here.pad) = true
    ∧ runs (.cpCopy2d 0) (sRow (cRow (some (.refused 3)))) (fun t => bits t.chip.here.cperr 55 48 == 0x3D && t.chip.here.cpq == []) = true := by decide +kernel
theorem test_copy_hbm : runs (.cpCopy2d 0) (sHbm cIn) (fun t => t.chip.pad64 0x40 == 9) = true
    ∧ runs (.cpCopy2d 0) (sHbm cOut) (fun t => rd64 t.chip.hbm 0x4FFF8 == 8) = true := by decide +kernel
def cGat : Cmd := cmd [(0, 0x82), (16, 2 ^ 63 + 0x100), (24, 2 ^ 63 + 0x200), (32, 2 ^ 63 + 0x300), (40, 2), (44, 4)]
def cSca : Cmd := { cGat with data := cGat.data + 1 }
def sGat (m : Cmd) : State := st id (fun k => { cpOf m k with pad := words [(0x100, 0x0000000B0000000A), (0x300, 0x0000000000000001)] }) id
theorem wit_gather_scatter : Next ((sGat cGat).chip.coreAt 0) .cp 0x82 cGat ∧ Next ((sGat cSca).chip.coreAt 0) .cp 0x83 cSca ∧ cGat.zero 10 16 = true
    ∧ cGat.zero 48 64 = true ∧ (sGat cGat).chip.here.padPoison = [] := by unfold Next Fresh; decide
theorem test_gather_scatter : runs (.cpGather 0) (sGat cGat) (fun t => t.chip.pad64 0x200 == 0x0000000A0000000B) = true
    ∧ runs (.cpScatter 0) (sGat cSca) (fun t => t.chip.pad64 0x200 == 0x0000000A0000000B) = true := by decide
def cFill : Cmd := cmd [(0, 0x84), (16, 2 ^ 63 + 0x101), (24, 9), (32, 0x0807060504030201)]
theorem wit_fill : Next ((st id (cpOf cFill) id).chip.coreAt 0) .cp 0x84 cFill ∧ cFill.zero 28 32 = true ∧ cFill.zero 40 64 = true
    ∧ Operand ((st id (cpOf cFill) id).chip.coreAt 0) 10 cFill (cFill.byte 9) true padLoc (cFill.field 16 8) 9 0x101 := by unfold Next Fresh Operand; decide
theorem test_fill : runs (.cpFill 0) (st id (cpOf cFill) id) (fun t => t.chip.pad64 0x100 == 0x0706050403020100 && t.chip.pad64 0x108 == 0x108) = true := by decide
def cCpm : Cmd := cmd [(0, 0x85)]
theorem wit_cp_mark : Next ((st id (cpOf cCpm) id).chip.coreAt 0) .cp 0x85 cCpm ∧ cCpm.zero 8 64 = true := by unfold Next Fresh; decide
theorem test_cp_mark : runs (.cpMark 0) (st id (cpOf cCpm) id) (fun t => (t.chip.here.cpq.map (·.ran)) == [true]) = true := by decide
/-- One correction for element 2 of a tile at 0x100. -/
def sCorr : State := st id (fun k => { k with pad := words [(0x400, 0x0000000100000004), (0x410, 0x3F80000000000002)] }) (regs [(1, 0x100), (2, 2 ^ 63 + 0x400)])
theorem wit_corr : sCorr.chip.usable [.g 1, .g 2] [] = true ∧ min (rdLe sCorr.chip.here.pad 0x400 4) (rdLe sCorr.chip.here.pad 0x404 4) = 1
    ∧ sCorr.chip.padSound 0x400 8 = true ∧ sCorr.chip.padSound 0x410 8 = true ∧ sCorr.chip.inTurn 0x400 8 = true
    ∧ sCorr.chip.inTurn 0x410 8 = true ∧ sCorr.chip.inTurn 0x108 4 = true ∧ rdLe sCorr.chip.here.pad 0x410 4 = 2 := by decide
theorem test_corr : runs (.corr p0 (.g 1) (.g 2)) sCorr (fun t => t.chip.pad64 0x108 == 0x3F800000) = true := by decide

/-! ## Class 110 -/

/-- Objects at the base of the mapped page and in the scratchpad, and a configuration image. -/
def sO : State := st id (fun k => { k with pad := words [(0x400, 5)] })
  (regs [(1, 0x10000), (2, ref 0 0x2BFC0), (3, 9), (4, 0x2000000000000400), (5, 0x2000000000000404), (6, 0x4000000000000000)])
theorem wit_object_at : ObjectAt sO.chip (sO.chip.val (.g 1)) 256 64 false ⟨0, .hbm 0 0⟩ 0x40000
    ∧ ObjectAt sO.chip (sO.chip.val (.g 1)) 64 64 true ⟨0, .hbm 0 0⟩ 0x40000
    ∧ ObjectAt sO.chip (sO.chip.val (.g 2)) 64 64 true ⟨0, .core 0⟩ 0x2BFC0 ∧ ObjectAt sO.chip (sO.chip.val (.g 1)) 8 8 false ⟨0, .hbm 0 0⟩ 0x40000 := by
  refine ⟨?_, ?_, ?_, ?_⟩ <;> unfold ObjectAt
  · exact ⟨by decide, ⟨leaf, 0, 0x40000⟩, rfl, by decide, rfl, rfl⟩
  · exact ⟨by decide, ⟨leaf, 0, 0x40000⟩, rfl, by decide, rfl, rfl⟩
  · rw [if_pos (by decide)]; decide
  · exact ⟨by decide, ⟨leaf, 0, 0x40000⟩, rfl, by decide, rfl, rfl⟩
theorem wit_object_order : sO.chip.clear p0 = true ∧ sO.chip.mayAccess = true ∧ sO.chip.usable [.g 1, .g 3] [.g 9] = true
    ∧ sO.chip.usable [.g 3, .g 1, .g 3] [] = true ∧ sO.chip.releasable .sys = true ∧ sO.chip.releasable .pkg = true ∧ sO.chip.unrefused = true
    ∧ sO.chip.openIn sO.chip.core (.frame sO.chip.frame) .sys Req.isRead = false
    ∧ sO.chip.here.reissuing (.frame sO.chip.frame) 16 (sO.chip.val (.g 1)) = false
    ∧ sO.chip.modeOf sO.chip.me.launch = 0 := by decide
theorem wit_gosset : (let gs := sO.chip.val (.g 4); bits gs 63 61 = 1 ∧ bits gs 17 0 % 8 = 0 ∧ bits gs 17 0 + 64 ≤ Config.dataEnd)
    ∧ sO.chip.padSound 0x400 64 = true ∧ bits (sO.chip.val (.g 5)) 17 0 % 8 ≠ 0 ∧ bits (sO.chip.val (.g 6)) 63 61 ≠ 1 := by decide
/-- The operation, the operands and the place of the request that an instruction sends. -/
def asks (i : Instr) (l : List (ObjOp × Word × Word × Nat)) : Bool :=
  runs i sO fun t => (t.chip.net.filterMap fun m => match m.body with | .object op x y => some (op, x, y, m.addr) | _ => none) == l
    && t.chip.me.st == .stalled (.answer 1) && t.chip.me.pc == 0x10000
theorem test_mesh_reads : asks (.mgetTwin p0 (.g 9) (.g 1) (.g 3) 1) [(.mget .twin, 9, 0, 0x40000)] = true
    ∧ asks (.mnext p0 (.g 9) (.g 1) (.g 3) 1) [(.mget .next, 9, 0, 0x40000)] = true
    ∧ asks (.mfldHigh p0 (.g 9) (.g 1) (.g 3) 1 3) [(.mfld 7, 9, 0, 0x40000)] = true
    ∧ asks (.mfstLow p0 (.g 4) (.g 1) (.g 3) 1 2) [(.mfst 2, 9, 0x2000000000000400, 0x40000)] = true := by decide
theorem test_mesh_edits : asks (.msplit p0 (.g 4) (.g 1) (.g 3) 1) [(.edit .split none, 9, 0x2000000000000400, 0x40000)] = true
    ∧ asks (.mref p0 (.g 4) (.g 1) (.g 3) 1) [(.edit .refine none, 9, 0, 0x40000)] = true
    ∧ asks (.mclaim p0 (.g 1) (.g 3) 1) [(.mclaim, 9, 0, 0x40000)] = true ∧ asks (.mround p0 (.g 9) (.g 1)) [(.mround, 0, 0, 0x40000)] = true := by decide
theorem test_tile_asks : asks (.verpub p0 (.g 9) (.g 2)) [(.verpub, 0, 0, 0x2BFC0)] = true ∧ asks (.verchkD p0 (.g 2) (.g 3) 1) [(.verchkD, 9, 0, 0x2BFC0)] = true
    ∧ asks (.verwait p0 (.g 9) (.g 1) (.g 3)) [(.verwait, 9, 0, 0x40000)] = true ∧ asks (.versettle p0 (.g 1) 1) [(.versettle, 0, 0, 0x40000)] = true := by decide
theorem test_gossip_asks : asks (.gosadd p0 (.g 1) (.g 3)) [(.gosadd, 9, 0, 0x40000)] = true ∧ asks (.gosest p0 (.g 9) (.g 1) 2) [(.gosest, 0, 0, 0x40000)] = true
    ∧ asks (.gosset p0 (.g 9) (.g 1) (.g 6)) [(.gosset none, 0x4000000000000000, 0, 0x40000)] = true
    ∧ asks (.gosset p0 (.g 9) (.g 1) (.g 4)) [(.gosset (some (5 :: List.replicate 63 0)), 0x2000000000000400, 0, 0x40000)] = true := by decide
theorem test_sync_asks : asks (.bar p0 (.g 9) (.g 2)) [(.bar, 0, 0, 0x2BFC0)] = true ∧ asks (.barv p0 (.g 9) (.g 2) (.g 3)) [(.barv, 9, 0, 0x2BFC0)] = true
    ∧ asks (.bwait p0 (.g 2) (.g 3) 1) [(.bwait, 9, 0, 0x2BFC0)] = true ∧ asks (.chsend p0 (.g 2) (.g 3) 1) [(.chsend, 9, 0, 0x2BFC0)] = true
    ∧ asks (.chrecv p0 (.g 9) (.g 2) 1) [(.chrecv, 0, 0, 0x2BFC0)] = true ∧ asks (.hqput p0 (.g 9) (.g 1) (.g 3)) [(.hqput, 9, 0, 0x40000)] = true := by decide

/-! ## Objects at their homes -/

/-- An object request for an object at 0x1000 in core 0, and for one at the base of the mapped page. -/
def ob (op : ObjOp) (x : Word) : Msg := mail here 0x1000 (.object op x 0)
def obm (op : ObjOp) (x : Word) : Msg := { mail ⟨0, .hbm 0 0⟩ 0x40000 (.object op x 0) with va := 0x10000 }
def padOf (t : State) (k : Nat) : Memory := (t.chip.coreAt k).pad
/-- An object of a kind in HBM, with every right of context 1 to it. -/
def inHbm (kind : Word) (l : List (Nat × Word)) (m : Msg) : State := st (fun c => { c with net := [m], hbm := words (l ++ [(0x7000, 0x10000), (0x7008, 0x1FF00 + kind * 16)]), ctxs := [(1, { Ctx.reset with st := .live, rtbase := 0x7000, rtcount := 1 })] }) id id
/-- A barrier of three at generation 7 where n have arrived, with an accumulator of 40. -/
def barrier (a n : Nat) : List (Nat × Word) := [(a, 7), (a + 8, BitVec.ofNat 64 (n * 2 ^ 32 + 3)), (a + 16, 0x406), (a + 24, 40)]
def sBar (n : Nat) (m : Msg) : State := got m (fun k => { k with pad := words (barrier 0x1000 n) }) id
theorem wit_barrier : AtHome (sBar 1 (ob .bar 0)) 0 1 64 4 2 (ob .bar 0) .bar 0 ∧ (sBar 1 (ob .bar 0)).chip.badBarrier (ob .bar 0) = false
    ∧ (sBar 1 (ob .bar 0)).chip.headerBroken here.home 0x1000 = false ∧ AtHome (sBar 2 (ob .barv 2)) 0 1 64 4 2 (ob .barv 2) .barv 2
    ∧ (sBar 2 (ob .barv 2)).chip.badBarrier (ob .barv 2) = false ∧ (rdLe (padOf (sBar 2 (ob .barv 2)) 0) 0x100C 4 + 1) % 2 ^ 32 = rdLe (padOf (sBar 2 (ob .barv 2)) 0) 0x1008 4
    ∧ AtHome (sBar 2 (ob .bwait 6)) 0 1 64 4 1 (ob .bwait 6) .bwait 6 :=
  ⟨⟨by decide, rfl, rfl, by decide, (by decide : (padOf (sBar 1 (ob .bar 0)) 0).wf = true), by decide, rfl, by decide⟩, by decide, by decide,
   ⟨by decide, rfl, rfl, by decide, (by decide : (padOf (sBar 2 (ob .barv 2)) 0).wf = true), by decide, rfl, by decide⟩, by decide, by decide,
   ⟨by decide, rfl, rfl, by decide, (by decide : (padOf (sBar 2 (ob .bwait 6)) 0).wf = true), by decide, rfl, by decide⟩⟩
theorem wit_barrier_hbm : AtHome (inHbm 4 (barrier 0x40000 2) (obm .bar 0)) 0 1 64 4 2 (obm .bar 0) .bar 0
    ∧ (inHbm 4 (barrier 0x40000 2) (obm .bar 0)).chip.badBarrier (obm .bar 0) = false :=
  ⟨⟨by decide, rfl, rfl, by decide, (by decide : (inHbm 4 (barrier 0x40000 2) (obm .bar 0)).chip.hbm.wf = true), by decide, rfl, _, rfl⟩, by decide⟩
theorem test_barrier : runs (.objectRequest 0) (sBar 1 (ob .barv 2)) (fun t => rdLe (padOf t 0) 0x100C 4 == 2 && rd64 (padOf t 0) 0x1018 == 42
      && (t.chip.net.map fun m => m.body) == [.objReply (.ok 7 false)]) = true
    ∧ runs (.objectRequest 0) (inHbm 4 (barrier 0x40000 2) (obm .barv 2)) (fun t => rdLe t.chip.hbm 0x4000C 4 == 0 && rd64 t.chip.hbm 0x40000 == 8
      && rd64 t.chip.hbm 0x40018 == 0 && rd64 t.chip.hbm 0x40020 == 42) = true := by decide
/-- The last arrival where a `bwait` for generation 7 waits. -/
def sWake : State := got (ob .bar 0) (fun k => { k with pad := words (barrier 0x1000 2), waiters := [ob .bwait 7] }) id
theorem wit_barrier_wakes : sWake.chip.arriving 0 = some (ob .bar 0) ∧ sWake.chip.admitObject (ob .bar 0) 64 [62, 61] = .ok 1 ∧ (padOf sWake 0).wf = true
    ∧ sWake.chip.poisonAt (.core 0) 0x1000 64 = false ∧ sWake.chip.badBarrier (ob .bar 0) = false ∧ sWake.chip.headerBroken (.core 0) 0x1000 = false
    ∧ sWake.chip.here.waiters = [ob .bwait 7] ∧ (7 : Word).slt (rd64 (padOf sWake 0) 0x1000 + 1) = true := ⟨by decide, rfl, by decide, by decide, by decide, by decide, rfl, by decide⟩
theorem test_barrier_wakes : runs (.objectRequest 0) sWake (fun t => t.chip.here.waiters == []
    && (t.chip.net.map fun m => m.body) == [.objReply (.ok 7 false), .objReply (.ok 0 true)]) = true
    ∧ runs (.objectRequest 0) (sBar 2 (ob .bwait 7)) (fun t => t.chip.here.waiters.length == 1 && t.chip.net == []) = true := by decide
/-- A channel of two slots with the tail and head given; slot 1 holds 55. -/
def sCh (tl hd : Word) (m : Msg) : State := got m (fun k => { k with pad := words [(0x1000, tl), (0x1008, hd), (0x1010, 0x506), (0x1018, 2), (0x1048, 55)] }) id
theorem wit_channel : AtHome (sCh 3 2 (ob .chsend 9)) 0 1 80 5 16 (ob .chsend 9) .chsend 9 ∧ (sCh 3 2 (ob .chsend 9)).chip.badChannel (ob .chsend 9) = false
    ∧ (sCh 3 2 (ob .chsend 9)).chip.headerBroken here.home 0x1000 = false ∧ AtHome (sCh 2 1 (ob .chrecv 0)) 0 1 80 5 1 (ob .chrecv 0) .chrecv 0
    ∧ SlotAt (sCh 3 2 (ob .chsend 9)).chip (ob .chsend 9) 1 1 0x1048 :=
  ⟨⟨by decide, rfl, rfl, by decide, (by decide : (padOf (sCh 3 2 (ob .chsend 9)) 0).wf = true), by decide, rfl, by decide⟩, by decide, by decide,
   ⟨by decide, rfl, rfl, by decide, (by decide : (padOf (sCh 2 1 (ob .chrecv 0)) 0).wf = true), by decide, rfl, by decide⟩, ⟨_, rfl, rfl, by decide, by decide⟩⟩
theorem test_channel : runs (.objectRequest 0) (sCh 3 2 (ob .chsend 9)) (fun t => rd64 (padOf t 0) 0x1048 == 9 && rd64 (padOf t 0) 0x1000 == 4) = true
    ∧ runs (.objectRequest 0) (sCh 2 1 (ob .chrecv 0)) (fun t => rd64 (padOf t 0) 0x1008 == 2 && (t.chip.net.map fun m => m.body) == [.objReply (.ok 55 true)]) = true := by decide
/-- A tile at version 4, closed, whose slot 2 holds the consumer at core 1, counter 0x40. -/
def tile (a : Nat) : List (Nat × Word) := [(a, 0x0006000000000004), (a + 0x30, ref 1 0x40)]
def sTile (m : Msg) : State := got m (fun k => { k with pad := words (tile 0x1000) }) id
/-- A tile without an owner is open. -/
theorem tile_open (c : Chip) (m : Msg) (ctx : Nat) (h : c.tileBroken m.dest.home m.addr = false) (ho : c.tileOwner m.dest.home m.addr = none)
    (hb : c.badTile m = false) (hs : rd64 (memAt c m.dest.home) (m.addr + 8) = 0) : TileOpen c m ctx :=
  ⟨h, fun _ e => absurd (ho.symm.trans e) (by simp), hb, hs⟩
theorem wit_tile : AtHome (sTile (ob .verpub 0)) 0 1 64 2 2 (ob .verpub 0) .verpub 0 ∧ TileOpen (sTile (ob .verpub 0)).chip (ob .verpub 0) 1
    ∧ AtHome (sTile (ob .verchk 0x4000000004)) 0 1 64 2 5 (ob .verchk 0x4000000004) .verchk 0x4000000004
    ∧ FirstSlot (padOf (sTile (ob .verpub 0)) 0) 0x1000 2 (0, 1, 0x40) :=
  ⟨⟨by decide, rfl, rfl, by decide, (by decide : (padOf (sTile (ob .verpub 0)) 0).wf = true), by decide, rfl, by decide⟩,
   tile_open _ _ _ (by decide) (by decide) (by decide) (by decide),
   ⟨by decide, rfl, rfl, by decide, (by decide : (padOf (sTile (ob .verchk 0x4000000004)) 0).wf = true), by decide, rfl, by decide⟩,
   by unfold FirstSlot SlotUsed; decide⟩
theorem wit_tile_hbm : AtHome (inHbm 2 (tile 0x40000) (obm .verwait 0x80)) 0 1 64 2 4 (obm .verwait 0x80) .verwait 0x80
    ∧ (inHbm 2 (tile 0x40000) (obm .verwait 0x80)).chip.badTile (obm .verwait 0x80) = false :=
  ⟨⟨by decide, rfl, rfl, by decide, (by decide : (inHbm 2 (tile 0x40000) (obm .verwait 0x80)).chip.hbm.wf = true), by decide, rfl, _, rfl⟩, by decide⟩
theorem test_publish : runs (.objectRequest 0) (sTile (ob .verpub 0)) (fun t => rdLe (padOf t 0) 0x1000 4 == 5
    && t.chip.net.any fun m => m.body == .notice 0x40 5 && m.dest == ⟨0, .core 1⟩) = true
    ∧ runs (.objectRequest 0) (inHbm 2 (tile 0x40000) (obm .verwait 0x80)) (fun t => tst (rd64 t.chip.hbm 0x40010) 63 && bits (rd64 t.chip.hbm 0x40010) 17 0 == 0x80) = true := by decide
theorem test_check : runs (.objectRequest 0) (sTile (ob .verchk 0x4000000004)) (fun t => tst (rd64 (padOf t 0) 0x1030) 61
      && (t.chip.net.map fun m => m.body) == [.objReply (.ok 0 true)]) = true
    ∧ runs (.objectRequest 0) (sTile (ob .verchk 0x4000000003)) (fun t => (t.chip.net.map fun m => m.body) == [.objReply (.ok 0 false)]) = true := by decide
/-- A tile at version 4 with a settle word at 0x200 that holds 3, and no consumer. -/
def sSettle (m : Msg) : State := got m (fun k => { k with pad := words [(0x1000, 0x0006000000000004), (0x1008, ref 0 0x200), (0x200, 3)] }) id
theorem wit_settle : AtHome (sSettle (ob .verstop 0)) 0 1 64 2 2 (ob .verstop 0) .verstop 0 ∧ (sSettle (ob .verstop 0)).chip.badTile (ob .verstop 0) = false
    ∧ (sSettle (ob .verstop 0)).chip.tileOwner (.core 0) 0x1000 = none ∧ AllSettled (padOf (sSettle (ob .verstop 0)) 0) 0x1000 4 :=
  ⟨⟨by decide, rfl, rfl, by decide, (by decide : (padOf (sSettle (ob .verstop 0)) 0).wf = true), by decide, rfl, by decide⟩, by decide, by decide,
   by unfold AllSettled SlotUsed; decide⟩
theorem test_settle : runs (.objectRequest 0) (sSettle (ob .verstop 0)) (fun t => rd64 (padOf t 0) 0x200 == 2 && tst (rdByte (padOf t 0) 0x1004) 3) = true
    ∧ runs (.objectRequest 0) (sSettle (mail here 0x200 (.object .versettle 0 0))) (fun t => t.chip.here.waiters.length == 1) = true := by decide
/-- A user's message where no window is enabled, and an object request of a context without rights entries. -/
def mNo : Msg := { mail here 0x80 (.put [1] none) with frank := ⟨0, 1, 1, false, 0, none⟩ }
theorem wit_no_right : (got mNo id id).chip.arriving 0 = some mNo ∧ ¬MayAct (got mNo id id).chip mNo 1 61 1 := by
  refine ⟨by decide, ?_⟩
  rintro ⟨ctx, -, -, h | ⟨w, hw, h, -⟩⟩
  · cases h
  · have hn : (((got mNo id id).chip.coreAt 0).windowsAt (got mNo id id).chip.now).all (fun w => !tst w 63) = true := by decide
    have hw' := List.all_eq_true.mp hn w hw
    rw [h] at hw'; cases hw'
theorem wit_no_entry : (got (obm .bar 0) id id).chip.arriving 0 = some (obm .bar 0)
    ∧ ∀ ctx e, ActsIn (got (obm .bar 0) id id).chip (obm .bar 0) 64 3 ctx → ¬EntryGives (got (obm .bar 0) id id).chip (obm .bar 0) ctx 4 2 e := by
  refine ⟨by decide, fun ctx e ha hg => ?_⟩
  unfold ActsIn at ha
  rw [if_pos (by decide)] at ha
  have h := hg.1
  have hn : (got (obm .bar 0) id id).chip.rightsOf 1 = [] := by decide
  rw [show ctx = 1 from ha, hn] at h; cases h
theorem test_no_right : runs (.putArrival 0) (got mNo id id) (fun t => (t.chip.net.map fun m => m.body) == [.nack 1] && t.chip.here.pad == []) = true
    ∧ runs (.objectRequest 0) (got (obm .bar 0) id id) (fun t => (t.chip.net.map fun m => m.body) == [.objReply (.trap 7 0 0x10000)]) = true := by decide

/-- Holding queue 2 with room for four tokens, its page in context 1's rights with produce and check, and a request of core 0. -/
def hq2 : HoldQueue := ⟨1, 0x20000, 4, 1, 0, false, 4, 0x100, 2, 0x200, 0, [(1, 9), (2, 8), (3, 7)], false⟩
def mHq (op : ObjOp) (x : Word) : Msg := { mail ⟨0, .spine⟩ 0x20000 (.object op x 0) with va := 0x20000 }
def sHq (m : Msg) : State := st (fun c => { c with net := [m], hqs := [(2, hq2)], hbm := words [(0x300, 0x20000), (0x308, 0x13060)], ctxs := [(1, { Ctx.reset with st := .live, rtbase := 0x300, rtcount := 1 })] }) id id
theorem wit_hold_queue : ∀ p ∈ [(ObjOp.hqput, (77 : Word)), (.hqrel, 5), (.hqveto, 3), (.hqpeek, 2)], let m := mHq p.1 p.2
    (sHq m).chip.arriving 0 = some m ∧ ((sHq m).chip.admitObject m 64 []).toOption = some 1
    ∧ ((sHq m).chip.entryCheck m 1 6 (holdRight p.1 p.2)).toOption.isSome = true ∧ tfind (sHq m).chip.hqs 2 = some hq2
    ∧ (sHq m).chip.brokenFor 1 1 = false := by decide
/-- The answer of a holding queue, and the queue after it. -/
def holds (m : Msg) (v : Word) (p : HoldQueue → Bool) : Bool :=
  runs (.objectRequest 0) (sHq m) fun t => (t.chip.net.map fun m => m.body) == [.objReply (.ok v false)] && ((tfind t.chip.hqs 2).map p) == some true
theorem test_hold_queue : holds (mHq .hqput 77) 4 (fun q => q.nx == 5 && tfind q.tokens 4 == some 77) = true
    ∧ holds (mHq .hqrel 5) 3 (fun q => q.rt == 3) = true ∧ holds (mHq .hqveto 3) 3 (fun q => q.vt && q.nx == 3) = true
    ∧ holds (mHq .hqpeek 2) 8 (· == hq2) = true := by decide
theorem wit_stream : hq2.sn < hq2.rt ∧ (hq2.sn : Int) - hq2.pqack.toNat < hq2.sent ∧ (sHq mDown).chip.host.wf = true
    ∧ hq2.sring.toNat + 8 * (hq2.sn % hq2.sent) + 8 ≤ hq2.scount.toNat := by decide
theorem test_stream : runs (.hqStream 2) (sHq mDown) (fun t => rd64 t.chip.host 0x100 == 0x900000001 && rd64 t.chip.host 0x200 == 1) = true
    ∧ runs (.pqackWrite 2 5) (sHq mDown) (fun t => (tfind t.chip.hqs 2).map (·.pqack) == some 5) = true := by decide

/-- A gossip region of two words and a weight at 0x1_0000, its shadow area at 0x2_0000, running, with neighbour package 3. -/
def reg0 : Region := ⟨1, 0x10000, 2, 6, 0, 1, 0x20000, [3], [0x40000], [0x50000], .running, false, 4, 0, 8, 8, 0, none, [], []⟩
def sGos (r : Region) (m : Msg) (p : List Pending) : State := st (fun c => { c with now := 2000, net := [m], regions := [r], pending := p, ctxs := [(1, { Ctx.reset with st := .live, ptroot := 0x100000 })], hbm := words [(0x40000, 8), (0x40010, 8), (0x40110, 5),
    (0x100000, 0x200001), (0x200000, 0x300001), (0x300000, 0x400001), (0x400000, 0x500001), (0x500008, leaf)] }) id id
def mMass : Msg := { mail ⟨0, .spine⟩ 6 (.mass 6 1 [3, 4]) with frank := ⟨3, 0, 0, true, 0x7F, none⟩, pmark := 11 }
def mCommit : Msg := { mMass with body := .commit 11 }
def mDraw : Msg := { mMass with body := .withdrawal 11 }
def pend : Pending := ⟨3, 0, 11, 6, 1, [3]⟩
theorem wit_gossip : reg0.sent = [] ∧ reg0.started + reg0.period * 1250 ≤ (sGos reg0 mMass []).chip.now
    ∧ (sGos reg0 mMass []).chip.regionByGid 6 = some (0, reg0) ∧ mMass.frank.pkg ∈ reg0.nbr ∧ 1 + [3, 4].length ≤ reg0.n + 1
    ∧ (sGos reg0 mMass []).chip.regionByGid 7 = none ∧ (sGos reg0 mCommit [pend]).chip.massBefore 0 mCommit = false
    ∧ (sGos reg0 mCommit [pend]).chip.pendingMass mCommit 11 = some pend ∧ (sGos reg0 mCommit [pend]).chip.hbm.wf = true := by decide
theorem test_gossip_round : runs (.gossipRound 0) (sGos reg0 mMass []) (fun t => (t.chip.regions.map fun r => (r.k, r.started)) == [(5, 2000)]) = true
    ∧ runs (.gossipDrainComplete 0) (sGos { reg0 with st := .draining } mMass []) (fun t => (t.chip.regions.map (·.st)) == [.stopped]) = true := by decide
theorem test_gossip_mass : runs (.gossipMass 0) (sGos reg0 mMass []) (fun t => t.chip.pending == [⟨3, 0, 11, 6, 1, [3, 4]⟩] && t.chip.net == []) = true
    ∧ runs (.gossipMass 0) (sGos { reg0 with gid := 7 } mMass []) (fun t => t.chip.pending == [] && (t.chip.out.map fun w => w.msg.body) == [.nack 3]) = true := by decide
theorem test_gossip_commit : runs (.gossipCommit 0) (sGos reg0 mCommit [pend]) (fun t => t.chip.pending == []
      && rd64 t.chip.hbm 0x50020 == 3) = true
    ∧ runs (.gossipWithdrawal 0) (sGos reg0 mDraw [pend]) (fun t => t.chip.pending == [] && t.chip.hbm == (sGos reg0 mDraw [pend]).chip.hbm) = true := by decide

/-- A request of core 1 for word 1 of that region, of which context 1 has an entry with every right. -/
def mWord (op : ObjOp) (x : Word) : Msg := { mail mem 0x40008 (.object op x 0) with va := 0x10008 }
def sWord (r : Region) (m : Msg) : State := st (fun c => { c with now := 2000, net := [m], regions := [r], ctxs := [(1, { Ctx.reset with st := .live, ptroot := 0x100000, rtbase := 0x7000, rtcount := 1 })], hbm := words [(0x40008, 20), (0x40010, 8),
    (0x7000, 0x10000), (0x7008, 0x1FF30), (0x100000, 0x200001), (0x200000, 0x300001), (0x300000, 0x400001), (0x400000, 0x500001), (0x500008, leaf)] }) id id
theorem wit_gossip_word : AtRegion (sWord reg0 (mWord .gosadd 3)) 0 1 0 1 reg0 (mWord .gosadd 3) .gosadd 3 ⟨0, 0x10000, 3, 0xFF, 1, false⟩ 2
    ∧ Apart reg0 ∧ (0 : Word).slt reg0.wNow = true :=
  ⟨⟨by decide, rfl, by decide, by decide, ⟨0, 1, rfl⟩, rfl, by decide, rfl, by decide +kernel, by decide, by decide, by decide⟩, by unfold Apart; decide, by decide⟩
theorem test_gossip_word : runs (.objectRequest 0) (sWord reg0 (mWord .gosadd 3)) (fun t => rd64 t.chip.hbm 0x50038 == 3 && rd64 t.chip.hbm 0x40008 == 20) = true
    ∧ runs (.objectRequest 0) (sWord reg0 (mWord .gosest 0)) (fun t => (t.chip.net.map fun m => m.body) == [.objReply (.ok 2 true)]) = true := by decide +kernel
/-- A round of the same region: half of each word leaves for package 3. -/
theorem test_gossip_halves : runs (.gossipRound 0) (sWord reg0 (mWord .gosadd 3)) (fun t => rd64 t.chip.hbm 0x40008 == 10 && rd64 t.chip.hbm 0x40010 == 4
    && (t.chip.out.map fun w => w.msg.body) == [.mass 6 0 [0, 10, 4]]) = true := by decide +kernel

/-- A mesh at 0x1_0000 with its vertices at 0x1_0200, and an edit of two vertices by frame 3 of core 2. -/
def edit0 (p : EPhase) : EditRun := ⟨{ mail mem 0x40000 (.object (.edit .flip none) 0 0) with frank := ⟨0, 2, 1, false, 3, none⟩ }, 1, 0x10000, .flip, none, [0, 1], p, [], false⟩
def sEd (r : EditRun) (claim : Word) : State := st (fun c => { c with edits := [r], hbm := words [(0x40008, 0x10200), (0x40200, claim), (0x40220, claim)] }) id id
theorem ok_of_some {r : Except Nat Phys} {x : Phys} (h : r.toOption = some x) : r = .ok x := by
  cases r <;> simp_all [Except.toOption]
theorem ran_of_decide {r : EStateM.Result Done Work Mesh} {a : Mesh} {w : Work}
    (h : (match r with | .ok b v => decide (b = a ∧ v = w) | .error _ _ => false) = true) : r = .ok a w := by
  cases r <;> simp_all
theorem wit_edit : ElementAt (sEd (edit0 (.claim 0)) 0).chip (edit0 (.claim 0)) 0 ⟨leaf, 0, 0x40200⟩ :=
  ⟨meshOf (rdBytes (sEd (edit0 (.claim 0)) 0).chip.hbm 0x40000 256), ⟨leaf, 0, 0x40200⟩, ran_of_decide (by decide +kernel),
    ok_of_some (by decide +kernel), ok_of_some (by decide +kernel), rfl, rfl, rfl, by decide, by decide, by decide⟩
/-- The edit with its first claim taken, and with both. -/
def edit1 (p : EPhase) : EditRun := { edit0 p with held := [(leaf, 0, 0x40200)] }
def edit2 (p : EPhase) : EditRun := { edit0 p with held := [(leaf, 0, 0x40220), (leaf, 0, 0x40200)] }
theorem wit_edit_phases : (edit0 (.claim 0)).cavity[0]? = some 0 ∧ 0 + 1 < (edit0 (.claim 0)).cavity.length ∧ (sEd (edit0 (.claim 0)) 0).chip.hbm.wf = true
    ∧ bits (rd64 (sEd (edit0 (.claim 0)) 0).chip.hbm 0x40200) 63 62 = 0 ∧ bits (rd64 (sEd (edit0 (.claim 0)) 0x4000000000000000).chip.hbm 0x40200) 63 62 ≠ 0
    ∧ (edit0 (.claim 0)).expect = none ∧ (edit0 (.claim 0)).dead = false ∧ { edit0 (.claim 0) with dead := true }.dead = true
    ∧ bits leaf 11 10 = 0 := by decide
theorem test_mesh_claim : runs (.meshClaim 0) (sEd (edit0 (.claim 0)) 0) (fun t => rd64 t.chip.hbm 0x40200 == 0x4000000000000103
      && t.chip.edits == [edit1 (.claim 1)]) = true
    ∧ runs (.meshClaim 0) (sEd (edit1 (.claim 1)) 0x4000000000000000) (fun t => t.chip.edits == [edit1 (.release 1 (.ok 0 false))]) = true := by decide
theorem test_mesh_release : runs (.meshClaim 0) (sEd (edit2 (.release 2 (.ok 0 false))) 0x4000000000000103) (fun t => rd64 t.chip.hbm 0x40220 == 0
    && t.chip.edits == [edit1 (.release 1 (.ok 0 false))]) = true
    ∧ runs (.meshClaim 0) (sEd { edit0 (.claim 0) with dead := true } 0) (fun t => t.chip.edits == [] && rd64 t.chip.hbm 0x40200 == 0) = true := by decide

/-- A mesh of one slot of each kind, whose vertex 0 lives in generation 3, and a request for it of core 1. -/
def mMesh (op : ObjOp) (x y : Word) : Msg := { mail mem 0x40000 (.object op x y) with va := 0x10000 }
def sMesh (m : Msg) : State := st (fun c => { c with net := [m], cores := tset c.cores 1 (asked (.object none (some 1) none) Core.reset), ctxs := [(1, { Ctx.reset with st := .live, rtbase := 0x7000, rtcount := 1 })], hbm := words [(0x7000, 0x10000), (0x7008, 0x1FF10),
    (0x40000, 0x20005), (0x40008, 0x10200), (0x40028, 0x100000001), (0x40030, 0x100000001), (0x40038, 0xFFFFFFFFFFFFFFFF), (0x40040, 0xFFFFFFFFFFFFFFFF), (0x40208, 0x10003)] }) id id
/-- The handle of vertex 0. -/
def vertex0 : Word := 0x0050000300000000
theorem wit_mesh : ∃ sm, AtMesh (sMesh (mMesh .mclaim vertex0 0)) 0 1 (mMesh .mclaim vertex0 0) .mclaim vertex0 0 ⟨0, 0x10000, 1, 0xFF, 1, false⟩ sm
    ∧ LiveAt ((sMesh (mMesh .mclaim vertex0 0)).chip.taken 0) (whoOf (mMesh .mclaim vertex0 0) 1 0x10000) sm vertex0 ⟨leaf, 0, 0x40200⟩ ∧ sm.rounded = false :=
  ⟨meshOf (rdBytes (sMesh (mMesh .mclaim vertex0 0)).chip.hbm 0x40000 256),
   ⟨by decide, rfl, by decide, by decide, ⟨0, 1, rfl⟩, rfl, rfl, by decide, ran_of_decide (by decide +kernel), by decide +kernel⟩,
   ⟨by decide +kernel, ⟨ok_of_some (by decide +kernel), rfl, by decide, by decide⟩, by decide, by decide⟩, by decide +kernel⟩
theorem test_mesh_claims : runs (.objectRequest 0) (sMesh (mMesh .mclaim vertex0 0)) (fun t => rd64 t.chip.hbm 0x40200 == 0x4000000000000080
      && (t.chip.net.map fun m => m.body) == [.objReply (.ok 0 true)]) = true
    ∧ runs (.objectRequest 0) (sMesh (mMesh .mval 0x0050000200000000 0)) (fun t => (t.chip.net.map fun m => m.body) == [.objReply (.ok 0 false)]) = true := by decide +kernel

/-! ## Pre-emption -/

/-- Frame 0 of core 1 has asked for an operation on frame 0 of core 0, with 55 in its `paddr`. -/
def asking (op : Nat) (f : Frame → Frame) : State := st (fun c => { c with hbm := words [(0x40000, BitVec.ofNat 64 (causeWord (.wclr p0 (.g 9) (.g 1))).toNat)], cores := c.cores ++
  [(1, { Core.reset with paddr := 55, frames := [(0, { Frame.reset with st := .stalled (.request op 0 0), npc := 0x500 })] })] }) id f
/-- What the asker is told. -/
def told (n : Nat) (t : State) : Bool := (t.chip.coreAt 1).pstat == BitVec.ofNat 64 n && (t.chip.frameAt 1 0).pc == 0x500
/-- Frame 0 of core 0 is parked at an instruction that is to be skipped. -/
def skipping (i : Instr) : State := let s := asking 3 (as .parked)
  { s with chip := { s.chip with hbm := words [(0x40000, BitVec.ofNat 64 (causeWord i).toNat)] } }
theorem wit_asked (op : Nat) (f : Frame → Frame) : AsksFor (asking op f).chip (.frame 1 0) op 0 0 :=
  ⟨by decide, by decide, fun a g e => by cases e; rfl⟩
theorem wit_skip : ((asking 3 (as .parked)).chip.wordAt 0 0).bind decode = some (.wclr p0 (.g 9) (.g 1))
    ∧ skipFields (.wclr p0 (.g 9) (.g 1)) = ([.g 1], some (.g 9)) ∧ (asking 3 (as .parked)).chip.me.st = .parked
    ∧ ((skipping (.st p0 .b64 (.g 9) (.g 1) 0)).chip.wordAt 0 0).bind decode = some (.st p0 .b64 (.g 9) (.g 1) 0)
    ∧ (skipFields (.st p0 .b64 (.g 9) (.g 1) 0)).2 = none ∧ (asking 4 (as .parked)).chip.me.preempt = none := by decide
/-- R167: an instruction with a destination gives it `paddr`. -/
theorem test_skip_load : runs (.preqResumeSkip (.frame 1 0) 0 0) (skipping (.ld p0 .b64 (.g 9) (.g 1) 0)) (fun t => t.chip.me.pc == 0x10004 && t.chip.me.g[9] == 55) = true
    ∧ runs (.preqResumeSkip (.frame 1 0) 0 0) (skipping (.st p0 .b64 (.g 9) (.g 1) 0)) (fun t => t.chip.me.pc == 0x10004 && t.chip.me.g[9] == 0) = true := by decide
/-- A join and a wtab to be skipped, their record at 0x100, and a barrier that a discarded thread's launch has entered. -/
def skipped (i : Instr) : State := let s := skipping i
  { s with chip := s.chip.modFrame 0 0 fun f => { f with g := f.g.set 1 0x100, tname := 5, tjoin := ref 0 0x40 } }
theorem wit_skip_binds : ((skipped (.join p0 true (.g 2) (.g 3) (.g 1))).chip.wordAt 0 0).bind decode = some (.join p0 true (.g 2) (.g 3) (.g 1))
    ∧ ((skipped (.wtab p0 true (.g 9) (.g 2) (.g 3) (.g 1))).chip.wordAt 0 0).bind decode = some (.wtab p0 true (.g 9) (.g 2) (.g 3) (.g 1))
    ∧ rd64 (skipped (.wtab p0 true (.g 9) (.g 2) (.g 3) (.g 1))).chip.here.pad 0x110 = 0 ∧ (skipped (.wtab p0 true (.g 9) (.g 2) (.g 3) (.g 1))).chip.inTurn 0x110 8 = true := by decide
theorem test_skip_binds : runs (.preqResumeSkip (.frame 1 0) 0 0) (skipped (.join p0 true (.g 2) (.g 3) (.g 1))) (fun t => t.chip.pad64 0x110 == ref 0 0x40 && t.chip.pad64 0x118 == 5 && told 0 t) = true
    ∧ runs (.preqResumeSkip (.frame 1 0) 0 0) (skipped (.wtab p0 true (.g 9) (.g 2) (.g 3) (.g 1))) (fun t => t.chip.me.pc == 0x10004 && t.chip.me.g[9] == 55 && bits t.chip.me.tname 45 30 == 1) = true := by decide
def o3 : Listed := ⟨⟨0, .core 5⟩, 0x1000, none⟩
def sEntered : State := let s := asking 4 (fun f => { f with st := .parked, launch := some 3 })
  { s with chip := ({ s.chip with launches := [(3, { l3 with objects := [o3] })] }).modCore 5 fun k => { k with pad := words [(0x1000, 7), (0x1008, 3), (0x1010, 0x406), (0x1030, 3)] } }
theorem wit_discard_breaks : (tfind sEntered.chip.launches 3).map (·.objects) = some [o3] ∧ sEntered.chip.waitersAt (.core 5) = []
    ∧ (sEntered.chip.coreAt 5).pad.wf = true ∧ sEntered.chip.inLset (.core 5) 0x1000 (BitVec.ofNat 64 (sEntered.chip.pkg * 2 ^ 52 + 3)) = true := by decide
theorem test_discard_breaks : runs (.preqDiscard (.frame 1 0) 0 0) sEntered (fun t => t.chip.headerBroken (.core 5) 0x1000
    && rd64 (t.chip.coreAt 5).pad 0x1000 == 0x7FFFFFFFFFFFFFFF) = true := by decide +kernel
theorem test_preempt_reports : runs (.preqPreempt (.frame 1 0) 0 0) (asking 1 (as .free)) (told 1) = true
    ∧ runs (.preqPreempt (.frame 1 0) 0 0) (asking 1 sup) (told 3) = true
    ∧ runs (.preqPreempt (.frame 1 0) 0 0) (asking 1 id) (fun t => t.chip.me.preempt == some (.frame 1 0)) = true
    ∧ runs (.preqPreempt (.frame 1 0) 0 0) (asking 1 (as .parked)) (told 0) = true := by decide
theorem test_resume : runs (.preqResumeReissue (.frame 1 0) 0 0) (asking 2 (as .parked)) (fun t => t.chip.me.st == .ready && t.chip.me.pc == 0x10000 && told 0 t) = true
    ∧ runs (.preqResumeSkip (.frame 1 0) 0 0) (asking 3 (as .parked)) (fun t => t.chip.me.pc == 0x10004 && t.chip.me.g[9] == 55 && told 0 t) = true
    ∧ runs (.preqResumeSkip (.frame 1 0) 0 0) (asking 3 id) (told 2) = true := by decide
theorem test_discard : runs (.preqDiscard (.frame 1 0) 0 0) (asking 4 (as .parked)) (fun t => t.chip.me.st == .free && told 0 t) = true
    ∧ runs (.preqDiscard (.frame 1 0) 0 0) (asking 4 id) (fun t => told 2 t && t.chip.me.st == .ready) = true := by decide
/-- Frame 0 is to park, with its state saved to an address. -/
def parks (a : Word) (x : FSt) (own : Bool) : State := st id (fun k => vregs [(31, 7)] { k with
  vec := { k.vec with owner := if own then some 0 else none, words := [0x1234] }, mowner := if own then some 0 else none, acc := [(5, 9)] })
  (fun f => { f with preempt := some (.processor a), st := x })
theorem wit_park : (parks 0x80000 .ready true).chip.atBoundary 0 0 = true ∧ (parks 0x80000 .ready true).chip.saveFaults 0x80000 = false
    ∧ (parks 0x80001 .ready true).chip.saveFaults 0x80001 = true ∧ (parks 0 (.stalled (.sleep 99)) false).chip.atBoundary 0 0 = true
    ∧ (parks 0x80000 .ready true).chip.here.vec.writes = [] ∧ (parks 0x80000 .ready true).chip.hbm.wf = true
    ∧ (parks 0x80000 .ready true).chip.me.preempt = some (.processor 0x80000) ∧ (parks 0x80000 .ready true).chip.here.mowner = some 0
    ∧ (parks 0x80000 .ready true).chip.paddrOf (.processor 0x80000) = 0x80000 := by decide
theorem test_park : runs (.framePark 0 0) (parks 0 (.stalled (.sleep 99)) false) (fun t => t.chip.me.st == .parked && t.chip.me.pc == 0x10004) = true
    ∧ runs (.framePark 0 0) (parks 0x80001 .ready true) (fun t => t.chip.me.st == .parked && t.chip.here.vec.owner == some 0) = true := by decide
theorem test_park_saves : runs (.framePark 0 0) (parks 0x80000 .ready true) (fun t => t.chip.me.esave == 0x80000 && t.chip.here.vec.owner == none
    && rd64 t.chip.hbm 0x807C0 == 7 && rdLe t.chip.hbm 0x80840 4 == 0x1234 && rdLe t.chip.hbm 0x808D4 4 == 9 && t.chip.here.mowner == none) = true := by decide +kernel

/-! ## Records -/

/-- The page tables of contexts 1 and 2 to their level-0 tables at 0x50_0000 and 0x51_0000. -/
def tables (l : List (Nat × Word)) : Memory := words ([(0x100000, 0x200001), (0x200000, 0x300001), (0x300000, 0x400001), (0x400000, 0x500001),
  (0x110000, 0x210001), (0x210000, 0x310001), (0x310000, 0x410001), (0x410000, 0x510001)] ++ l)
/-- Contexts 0 to 2 live, with rights tables at 0x7000 and 0x7800, and context 5 in a state. -/
def ctxs5 (x : CSt) : Tab Ctx := [(0, { Ctx.reset with st := .live }), (1, { Ctx.reset with st := .live, ptroot := 0x100000, rtbase := 0x7000, rtcount := 2, nqueue := 1 }),
  (2, { Ctx.reset with st := .live, ptroot := 0x110000, rtbase := 0x7800, rtcount := 1, nqueue := 1 }), (5, { Ctx.reset with st := x })]
/-- Queue q has one record, given by its doublewords. -/
def sQ (q : Nat) (l : List (Nat × Word)) (m : List (Nat × Word)) (v : Chip → Chip) : State := st (fun c => v { c with devState := 1, ctxs := ctxs5 .live, queues := [(q, ⟨0x1000, 0x2000, 4, .running, 0, 1, 0⟩)], host := words (l.map fun p => (0x1000 + p.1, p.2)), hbm := tables m }) id id
/-- The record is the next and its header passes. -/
def takes (s : State) (q : Nat) : Bool := s.chip.nextQueue == some q && (s.chip.queueAt q).st == .running && (s.chip.headerCode q (s.chip.headRecord q)).isNone && s.chip.host.wf
/-- The record runs and completes with a code. -/
def acts (i : Instr) (s : State) (q code : Nat) (p : State → Bool) : Bool :=
  runs i s fun t => rdLe t.chip.host 0x2000 2 == code && rdLe t.chip.host 0x2003 1 == 1 && (t.chip.queueAt q).head == 1 && p t
def in5 (x : CSt) (c : Chip) : Chip := { c with ctxs := ctxs5 x }
def sCreate : State := sQ 0 [(0, 2), (8, 5), (16, 0x800000), (24, 0x300), (32, 0x900000), (40, 0x100030008)] [] (in5 .free)
def sCtx5 (k : Word) (x : CSt) : State := sQ 0 [(0, k), (8, 5)] [] (in5 x)
theorem wit_lifecycle : takes sCreate 0 = true ∧ targetCtx (sCreate.chip.headRecord 0) = some 5 ∧ (descriptor (sCreate.chip.headRecord 0)).isSome = true
    ∧ zeroBytes (sCreate.chip.headRecord 0) 80 176 = true ∧ takes (sCtx5 3 .building) 0 = true ∧ takes (sCtx5 4 .live) 0 = true
    ∧ takes (sCtx5 5 .draining) 0 = true ∧ targetCtx ((sCtx5 5 .live).chip.headRecord 0) = some 5 := by decide +kernel
theorem test_create : acts (.create 0) sCreate 0 0 (fun t => (t.chip.ctxAt 5).st == .building && (t.chip.ctxAt 5).tvbase == 0x300 && (t.chip.ctxAt 5).rtcount == 8) = true := by decide +kernel
theorem test_lifecycle : acts (.activate 0) (sCtx5 3 .building) 0 0 (fun t => (t.chip.ctxAt 5).st == .live) = true
    ∧ acts (.close 0) (sCtx5 4 .live) 0 0 (fun t => (t.chip.ctxAt 5).st == .draining) = true
    ∧ acts (.kill 0) (sCtx5 5 .draining) 0 0 (fun t => (t.chip.ctxAt 5).st == .killing) = true := by decide +kernel
def sFatal (b : Bool) : State := st (fun c => { c with reports := [.fatal 0 0] }) id (fun f => { f with fatal := b, st := .parked })
theorem wit_fatal : ((sFatal true).chip.reports.find? fun r => r.key == some (0, 0)) = some (.fatal 0 0) ∧ (sFatal true).chip.job = none
    ∧ ((sFatal true).chip.ctxAt 1).st = .live := by decide
theorem test_fatal : runs (.fatalTrapReport 0 0) (sFatal true) (fun t => (t.chip.ctxAt 1).st == .killing) = true
    ∧ runs (.fatalTrapReport 0 0) (sFatal false) (fun t => (t.chip.ctxAt 1).st == .live && t.chip.reports == []) = true := by decide
def sEnd (x : CSt) : State := st (fun c => { c with ctxs := ctxs5 x }) id id
theorem wit_context_ends : (sEnd .draining).chip.framesOf 5 = [] ∧ (sEnd .draining).chip.commandsIn 5 = false ∧ (sEnd .draining).chip.tasksIn 5 = false
    ∧ (sEnd .draining).chip.trafficOf 5 = false ∧ (sEnd .killing).chip.recordsIn 5 = false ∧ ((ctxs5 .closing).map Prod.fst).Pairwise (· < ·) := by decide
theorem test_context_ends : runs (.contextDrained 5) (sEnd .draining) (fun t => (t.chip.ctxAt 5).st == .closing) = true
    ∧ runs (.killComplete 5) (sEnd .killing) (fun t => (t.chip.ctxAt 5).st == .closing) = true
    ∧ runs (.contextCleanup 5) (sEnd .closing) (fun t => t.chip.ctxAt 5 == Ctx.reset) = true := by decide
theorem wit_malformed : takes (sQ 0 [(0, 0x0B)] [] id) 0 = true ∧ field ((sQ 0 [(0, 0x0B)] [] id).chip.headRecord 0) 0 1 = 0x0B := by decide +kernel
theorem test_malformed : acts (.malformedRecord 0) (sQ 0 [(0, 0x0B)] [] id) 0 1 (fun t => (t.chip.queueAt 0).st == .error && (t.chip.queueAt 0).err == 1) = true := by decide +kernel
/-- Queue 0 in a state, with registers set. -/
def sReg (x : QSt) : State := st (fun c => { c with queues := [(0, ⟨0x1000, 0x2000, 4, x, 3, 7, 9⟩)] }) id id
theorem wit_queue_registers : ∀ x ∈ [QSt.disabled, .running, .error], (sReg x).chip.hasQueue 0 = true ∧ ((sReg x).chip.queueAt 0).base.toNat % 4096 = 0
    ∧ ((sReg x).chip.queueAt 0).head < 2 ^ ((sReg x).chip.queueAt 0).lsize := by decide
theorem test_queue_control : runs (.queueEnable 0 0x1001) (sReg .disabled) (fun t => t.chip.queueAt 0 == ⟨0x1000, 0x2000, 16, .running, 0, 0, 0⟩) = true
    ∧ runs (.queueDisable 0 0) (sReg .error) (fun t => (t.chip.queueAt 0).st == .disabled) = true
    ∧ runs (.queueResume 0 5) (sReg .error) (fun t => t.chip.queueAt 0 == ⟨0x1000, 0x2000, 4, .running, 3, 7, 0⟩) = true
    ∧ runs (.queueFlush 0 9) (sReg .error) (fun t => t.chip.queueAt 0 == ⟨0x1000, 0x2000, 4, .running, 7, 7, 0⟩) = true := by decide
theorem test_doorbell : runs (.queueDoorbell 0 15) (sReg .running) (fun t => (t.chip.queueAt 0).tail == 15) = true
    ∧ runs (.queueDoorbell 0 16) (sReg .running) (fun t => (t.chip.queueAt 0).st == .error && (t.chip.queueAt 0).err == 0x30000000B) = true
    ∧ runs (.queueDoorbell 0 99) (sReg .error) (fun t => t.chip.queueAt 0 == ⟨0x1000, 0x2000, 4, .error, 3, 99, 9⟩) = true := by decide

/-! ## Rights -/

/-- Context 1 owns the object at 0x1_0040 with every right; its page is mapped. -/
def owned : List (Nat × Word) := [(0x500008, leaf), (0x7000, 0x10040), (0x7008, 0x1FF20)]
def sGrant : State := sQ 16 [(0, 7), (8, 0x10040), (16, 0x00000040000F0002)] owned id
theorem wit_grant : takes sGrant 16 = true ∧ ((sGrant.chip.entryAtBase 1 0x10040).map fun e => (e.bad, e.rights, e.kind)) = some (false, 0xFF, 2)
    ∧ sGrant.chip.grants = [] := by decide +kernel
theorem test_grant : acts (.grant 16) sGrant 16 0 (fun t => t.chip.grants == [⟨1, 2, 0x10040, 0x0F, 0x40, 2, 1, some 0x10040⟩]) = true := by decide +kernel
def g12 : Grant := ⟨1, 2, 0x10040, 0x0F, 0x40, 2, 1, some 0x10040⟩
def sAccept : State := sQ 32 [(0, 8), (8, 0x20040), (16, 1)] owned (fun c => { c with grants := [g12] })
theorem wit_accept : takes sAccept 32 = true ∧ (sAccept.chip.givenPage g12 0).isSome = true ∧ sAccept.chip.walk 2 0x20000 = none
    ∧ sAccept.chip.entryAtBase 2 0x20040 = none ∧ sAccept.chip.entryRoom 2 = some 0 ∧ EntryAt sAccept.chip 2 0x20000 0 0x510010
    ∧ tst (rd64 sAccept.chip.hbm 0x510010) 0 = false ∧ sAccept.chip.hbm.wf = true := by unfold EntryAt; decide +kernel
theorem test_accept : acts (.accept 32) sAccept 32 0 (fun t => t.chip.grants == [] && t.chip.shares == [⟨1, 2, 0x20040, 0x40, some 0x10040⟩]
    && rd64 t.chip.hbm 0x7800 == 0x20040 && rd64 t.chip.hbm 0x7808 == 0x10F20 && rd64 t.chip.hbm 0x510010 == leaf) = true := by decide +kernel
/-- Context 2 has an entry of the object, with right 4 alone, and its page mapped. -/
def sJoins : State := sQ 32 [(0, 8), (8, 0x20040), (16, 1)] (owned ++ [(0x510010, leaf), (0x7800, 0x20040), (0x7808, 0x11020)]) (fun c => { c with grants := [g12], shares := [⟨1, 2, 0x20040, 0x40, some 0x10040⟩] })
theorem wit_accept_joins : takes sJoins 32 = true ∧ (sJoins.chip.entryAtBase 2 0x20040).map (fun e => (e.index, e.rights, sJoins.chip.sameObject 2 g12 e)) = some (0, 0x10, true)
    ∧ (sJoins.chip.givenPage g12 0).bind (sJoins.chip.pageClash 2 0x20000) = some false := by decide +kernel
theorem test_accept_joins : acts (.accept 32) sJoins 32 0 (fun t => rd64 t.chip.hbm 0x7808 == 0x11F20 && rd64 t.chip.hbm 0x510010 == leaf) = true := by decide +kernel
/-- Context 2 holds rights 0x0F to the object of context 1; the revoke takes some. -/
def sRevoke (gone : Word) : State := sQ 16 [(0, 9), (8, 0x10040), (16, gone * 0x10000 + 2)]
  (owned ++ [(0x510010, leaf), (0x7800, 0x20040), (0x7808, 0x10F20)]) (fun c => { c with shares := [⟨1, 2, 0x20040, 0x40, some 0x10040⟩] })
theorem wit_revoke : takes (sRevoke 3) 16 = true ∧ ((sRevoke 3).chip.entryAtBase 1 0x10040).map (·.owner) = some 1
    ∧ (((sRevoke 3).chip.rightsOf 2).find? fun x => x.kind == 2 && (sRevoke 3).chip.namesObject 2 x 1 0x10040 false).isSome = true := by decide +kernel
theorem test_revoke : acts (.revoke 16) (sRevoke 3) 16 0 (fun t => rd64 t.chip.hbm 0x7808 == 0x10C20) = true
    ∧ runs (.revoke 16) (sRevoke 0xFF) (fun t => (t.chip.job.map fun j => (j.kind, j.ctx)) == some (.drain, 2) && t.chip.shares == []) = true := by decide +kernel
/-- The owner takes rights out of its own entry. -/
theorem test_revoke_own : acts (.revoke 16) (sQ 16 [(0, 9), (8, 0x10040), (16, 0x30001)] owned id) 16 0 (fun t => rd64 t.chip.hbm 0x7008 == 0x1FC20) = true := by decide +kernel
def sHold : State := sQ 16 [(0, 0x0A), (8, 0x30000), (16, 16), (24, 0x4000), (32, 16), (40, 0x5008)] owned id
theorem wit_create_hold : takes sHold 16 = true ∧ sHold.chip.walk 1 0x30000 = none ∧ EntryAt sHold.chip 1 0x30000 0 0x500018
    ∧ sHold.chip.entryRoom 1 = some 1 ∧ ((List.range 1024).find? fun h => !thas sHold.chip.hqs h) = some 0 ∧ sHold.chip.entryAtBase 1 0x30000 = none := by
  unfold EntryAt; decide +kernel
theorem test_create_hold : acts (.createHoldingQueue 16) sHold 16 0 (fun t => (tfind t.chip.hqs 0).map (fun q => (q.cap, q.sent, q.scount)) == some (16, 16, 0x5008)
    && rd64 t.chip.hbm 0x500018 == 0xC1B && rd64 t.chip.hbm 0x7018 == 0x1F160) = true := by decide +kernel

/-! ## Pages -/

/-- A map record of context 1: op, loc, page, address. -/
def sMap (op loc va pa pkg : Word) (v : Chip → Chip) : State :=
  sQ 16 [(0, 6), (8, op + 0x70000 + loc * 0x1000000 + 0x100000000), (16, va), (24, pa), (32, pkg)] owned v
theorem wit_map : takes (sMap 1 0 0x20000 0x90000 0 id) 16 = true ∧ (mapRec ((sMap 1 0 0x20000 0x90000 0 id).chip.headRecord 16)).ok ((sMap 1 0 0x20000 0x90000 0 id).chip.headRecord 16) = true
    ∧ EntryAt (sMap 1 0 0x20000 0x90000 0 id).chip 1 0x20000 0 0x500010 ∧ isMap 1 ((sMap 1 0 0x20000 0x90000 0 id).chip.headRecord 16) = true := by
  unfold EntryAt; decide +kernel
theorem test_map : acts (.map 16) (sMap 1 0 0x20000 0x90000 0 id) 16 0 (fun t => rd64 t.chip.hbm 0x500010 == 0x9003B) = true := by decide +kernel
theorem wit_unmap : takes (sMap 2 0 0x10000 0 0 id) 16 = true ∧ ((sMap 2 0 0x10000 0 0 id).chip.leavesOf 1 (mapRec ((sMap 2 0 0x10000 0 0 id).chip.headRecord 16))) = some [leaf]
    ∧ (sMap 2 0 0x10000 0 0 id).chip.pageInRegion 0 leaf = false := by decide +kernel
theorem test_unmap : runs (.unmap 16) (sMap 2 0 0x10000 0 0 id) (fun t => rd64 t.chip.hbm 0x500008 == 0 && tget [] t.chip.tlb 0 == []
    && (t.chip.job.map fun j => (j.kind, j.va, j.since)) == some (.drain, 0x10000, 1)) = true := by decide +kernel
/-- The rights of context 1 name nothing, so that its page can move. -/
def bare (c : Chip) : Chip := c.modCtx 1 fun x => { x with rtcount := 0 }
theorem wit_migrate : takes (sMap 3 1 0x10000 0x90000 7 bare) 16 = true ∧ takes (sMap 4 2 0x10000 0x90000 0 bare) 16 = true
    ∧ (sMap 3 1 0x10000 0x90000 7 bare).chip.holdsObject 0 leaf = false ∧ (sMap 4 2 0x10000 0x90000 0 bare).chip.pageInRegion 0 leaf = false ∧ (mapRec ((sMap 3 1 0x10000 0x90000 7 bare).chip.headRecord 16)).loc = 1
    ∧ (mapRec ((sMap 4 2 0x10000 0x90000 0 bare).chip.headRecord 16)).ok ((sMap 4 2 0x10000 0x90000 0 bare).chip.headRecord 16) = true := by decide +kernel
theorem test_migrate : runs (.migrate 16) (sMap 3 1 0x10000 0x90000 7 bare) (fun t => (t.chip.job.map fun j => (j.kind, j.va, j.st)) == some (.migrate, 0x10000, .mapped)) = true
    ∧ runs (.park 16) (sMap 4 2 0x10000 0x90000 0 bare) (fun t => (t.chip.job.map fun j => (j.kind, j.va, j.st)) == some (.park, 0x10000, .mapped)) = true := by decide +kernel
/-- A page to restore to HBM 0x9_0000 from a backing at host 0x10_0000. -/
def sBack : State := sMap 5 2 0x20000 0x100000 0x90000 (fun c => { c with host := wr64 (wr64 (wr64 (wr64 c.host 0x100008 0x20000) 0x100010 0x0000030000000001) 0x110000 77) 0x11FFF8 5 })
theorem wit_restore : takes sBack 16 = true ∧ (mapRec (sBack.chip.headRecord 16)).names (rdBytes sBack.chip.host 0x100000 64) = true ∧ rdLe sBack.chip.host 0x100015 1 % 8 = 3 ∧ EntryAt sBack.chip 1 0x20000 0 0x500010
    ∧ sBack.chip.hostFails 0x100000 64 = false ∧ (mapRec (sBack.chip.headRecord 16)).ok (sBack.chip.headRecord 16) = true := by unfold EntryAt; decide +kernel
/-- The job of a record whose page is in hand. -/
def jobOf (s : State) (k : JobKind) (x : PSt) : PageJob := ⟨k, 1, 16, 0, s.chip.headRecord 16, 0x10000, 0x10000, 0, 0, x, leaf, 0⟩
def sJob (loc pkg : Word) (k : JobKind) (x : PSt) : State := let s := sMap (if k = .park then 4 else 3) loc 0x10000 0x90000 pkg bare
  { s with chip := { s.chip with job := some (jobOf s k x) } }
theorem wit_seal : (sJob 1 7 .migrate .mapped).chip.pageLeaf 1 0x10000 0 = some leaf ∧ (jobOf (sJob 1 7 .migrate .mapped) .migrate .mapped).oldRange leaf = (0x40000, 0x10000)
    ∧ (sJob 1 7 .migrate .mapped).chip.claimed = [] := by decide +kernel
theorem test_seal : runs .pageSeal (sJob 1 7 .migrate .mapped) (fun t => (t.chip.job.map (·.st)) == some .sealed_ && t.chip.shut == [(0x40000, 0x10000)]) = true := by decide +kernel
/-- A page of host memory on its way to another backing. -/
def sHostPage : State := let s := sJob 2 0 .park .mapped
  { s with chip := { s.chip with hbm := wr64 s.chip.hbm 0x500008 0x4083B } }
theorem wit_seal_host : sHostPage.chip.pageLeaf 1 0x10000 0 = some 0x4083B ∧ bits (0x4083B : Word) 11 10 = 2 := by decide +kernel
theorem test_seal_host : runs .pageSeal sHostPage (fun t => (t.chip.job.map (·.st)) == some .sealed_ && t.chip.shut == [(hostMark + 0x40000, 0x10000)]) = true := by decide +kernel
theorem wit_copy : (sJob 1 7 .migrate .sealed_).chip.job.map (fun j => (j.fields.loc, j.fields.pkg, j.fields.pa, j.fields.count)) = some (1, 7, 0x90000, 1)
    ∧ (sJob 1 7 .migrate .sealed_).chip.far.wf = true ∧ EntryAt (sJob 1 7 .migrate .sealed_).chip 1 0x10000 0 0x500008 := by unfold EntryAt; decide +kernel
theorem test_released : runs .pageReleased (sJob 1 7 .migrate .moved) (fun t => t.chip.job == none && rdLe t.chip.host 0x2000 4 == 0x01060000) = true
    ∧ runs .pageReleased (sJob 2 0 .park .moved) (fun t => t.chip.job == none) = true := by decide +kernel
def sWalk (l : List (Nat × Word)) : State := st (fun c => { c with ctxs := ctxs5 .live, hbm := tables l, walks := [(0, [⟨1, 0x20000, [0], [(0, 0)], []⟩])] }) id (as (.stalled (.walk 2)))
theorem wit_walk : (sWalk []).chip.walk 1 0x20000 = none ∧ (sWalk [(0x500010, leaf)]).chip.walk 1 0x20000 = some (leaf, 0)
    ∧ ((sWalk []).chip.frameAt 0 0).ctx = 1 := by decide +kernel
theorem test_walk : runs (.translationWalk 0) (sWalk []) (fun t => t.chip.me.st == .ready && t.chip.me.walkFault == some (2, 6)) = true
    ∧ runs (.translationWalk 0) (sWalk [(0x500010, leaf)]) (fun t => (tget [] t.chip.tlb 0).contains ⟨1, 2, 0, leaf⟩ && t.chip.me.walkFault == none) = true := by decide +kernel
/-- A read that was turned away from the home that the page has left, or from its home, which is shut. -/
def rq (a : Nat) : Req := ⟨.frame 0, .load (.g 3) 8, { mail mem a (.get 8) with id := 9, frank := ⟨0, 0, 1, false, 0, none⟩, va := 0x10100 }, false, 0, 0, some 10, 0⟩
def sTry (a : Nat) : State := st (fun c => { c with ctxs := ctxs5 .live, hbm := tables owned, shut := [(0x40000, 0x10000)] }) (fun k => { k with reqs := [(9, rq a)] }) id
theorem wit_retry : (sTry 0x90100).chip.walk 1 0x10100 = some (leaf, 0) ∧ (sTry 0x90100).chip.retriesBefore 0 9 (rq 0x90100) mem 0x90100 = false
    ∧ (sTry 0x90100).chip.retriesBefore 0 9 (rq 0x90100) ⟨0, .hbm 0 1⟩ 0x40100 = false
    ∧ (sTry 0x90100).chip.preempted 0 (rq 0x90100) = false ∧ leafRights leaf (needOf (.get 8)) false = true
    ∧ (sTry 0x40100).chip.isShut 0x40100 1 = true ∧ (sTry 0x40100).chip.placeOf ⟨leaf, 0, 0x40100⟩ = (rq 0x40100).msg.dest := by decide +kernel
theorem test_retry : runs (.pageMovedRetry 0 9) (sTry 0x90100) (fun t => (t.chip.net.map (·.addr)) == [0x40100] && (t.chip.here.reqs.map fun p => p.2.retry) == [none]) = true
    ∧ runs (.pageMovedRetry 0 9) (sTry 0x40100) (fun t => t.chip.net == [] && (t.chip.here.reqs.map fun p => p.2.retry) == [some 74]) = true := by decide +kernel

/-! ## Launches -/

/-- A launch record of context 1: two cores with four frames and 64 bytes each from 0x100, filled from an image. -/
def recL : List (Nat × Word) := [(0, 1), (8, 0x10000), (16, 3), (24, 0x10000), (32, 0x10000000040), (64, 0x100000000), (128, 0x400020101), (136, 64)]
def sLaunch (l : List (Nat × Word)) : State := sQ 16 (recL ++ l) ((0x40038, 99) :: owned) id
/-- The record with its second reserved word set. -/
def sLaunch' : State := sLaunch [(84, 1)]
def lOf (s : State) : Launch := ⟨1, 16, 0, s.chip.headRecord 16, false, false, [], false, [], 0⟩
theorem wit_launch : takes (sLaunch []) 16 = true ∧ (sLaunch []).chip.launchCode (lOf (sLaunch [])) = none ∧ takes sLaunch' 16 = true
    ∧ sLaunch'.chip.launchCode (lOf sLaunch') = some 1 := by decide +kernel
theorem test_launch : runs (.launch 16) (sLaunch []) (fun t => t.chip.launches == [(1, lOf (sLaunch []))] && t.chip.nextLaunch == 2) = true
    ∧ acts (.launch 16) sLaunch' 16 1 (fun t => t.chip.launches == [] && (t.chip.queueAt 16).st == .error) = true := by decide +kernel
/-- The launch accepted, and placed. -/
def sWait : State := let s := sLaunch []; { s with chip := { s.chip with launches := [(1, lOf s)] } }
theorem wit_placement : sWait.chip.firstOfClass 1 (lOf (sLaunch [])) = true ∧ sWait.chip.urgentFirst (lOf (sLaunch [])) = false
    ∧ sWait.chip.outerUnits (lOf (sLaunch [])) = some [0, 1] ∧ sWait.chip.coreFree (lOf (sLaunch [])) 0 = true
    ∧ (sWait.chip.range 1 .r 0x10000 64).isSome = true ∧ sWait.chip.devState ≠ 4 ∧ sWait.chip.dequeFree 0 = true ∧ sWait.chip.dequeFree 1 = true := by decide +kernel
theorem test_placement : runs (.launchPlacement 1) sWait (fun t => ((tfind t.chip.launches 1).map fun l => (l.placed, l.cores)) == some (true, [0, 1])
    && ((t.chip.coreAt 1).deque.map fun k => (k.entry, k.arg)) == [(0x10000, 3)] && rd64 (t.chip.coreAt 1).pad 0x138 == 99
    && ((List.range 96).filter fun f => (t.chip.frameAt 1 f).reservedFor == some 1).length == 4) = true := by decide +kernel
def sDone (killed : Bool) (out : Word) : State := let s := sLaunch (if out = 0 then [] else [(56, out), (64, 1)])
  { s with chip := { s.chip with launches := [(1, { lOf s with placed := true, cores := [0], killed := killed })] } }
theorem wit_completion_of_launch : (sDone true 0).chip.worksFor 1 = false ∧ (sDone false 0).chip.outputs { lOf (sLaunch []) with placed := true } = some []
    ∧ (sDone false 0x70000).chip.outputs { lOf (sDone false 0x70000) with placed := true } = none ∧ (lOf (sDone true 0)).record ≠ [] := by decide +kernel
theorem test_launch_ends : runs (.launchCompletion 1) (sDone true 0) (fun t => t.chip.launches == [] && rdLe t.chip.host 0x2000 2 == 6) = true
    ∧ runs (.launchCompletion 1) (sDone false 0x70000) (fun t => rdLe t.chip.host 0x2000 2 == 7) = true := by decide +kernel

/-! ## Traffic between packages -/

/-- A put of core 1 for core 3 of package 2. -/
def mFar : Msg := mail ⟨2, .core 3⟩ 0x80 (.put [1, 0, 0, 0, 0, 0, 0, 0] none)
/-- Port 5 carries traffic, or trains, or is down. -/
def portIs (x : Port) (c : Chip) : Chip := c.modPort 5 fun _ => x
def up5 : Port := { Port.reset with st := .up, lanes := 8, rate := 3, dis := false, credits := fullCredits }
def sOut (x : Port) (m : Msg) (now : Nat) : State := st (fun c => portIs x { c with now := now, starts := 1, out := [⟨m, 0⟩] }) id id
def sKeep (x : Port) (m : Msg) (port now : Nat) : State := st (fun c => portIs x { c with now := now, starts := 1, retained := [⟨m, port, 0, 0⟩] }) id id
theorem wit_leaves : (sOut up5 mFar 9).chip.candidate mFar = some 5 ∧ marked mFar.body = true ∧ (sOut up5 mFar 9).chip.retained.length < 8192
    ∧ marked (Body.deliveryAck 3) = false ∧ isMass mFar.body = false ∧ (sKeep up5 mFar 16 9).chip.candidate mFar = some 5
    ∧ (sKeep up5 mFar 16 9).chip.candidateBut (some 0) mFar = some 5 ∧ (sKeep up5 mFar 21 9).chip.candidateBut (some 5) mFar = none
    ∧ carries up5.st = true ∧ ReplayRoom (sOut up5 mFar 9).chip 5 mFar := by unfold ReplayRoom; decide
theorem test_leaves : runs (.offpackageSend 0) (sOut up5 mFar 9) (fun t => t.chip.out == [] && (t.chip.retained.map fun r => (r.msg.pmark, r.msg.epoch, r.port)) == [(1, 1, 5)]
      && (t.chip.portAt 5).credits[0] + flitsOf mFar == 576) = true
    ∧ runs (.offpackageSend 0) (sOut up5 { mFar with body := .deliveryAck 3 } 9) (fun t => t.chip.out == [] && t.chip.retained == []) = true := by decide
theorem test_resend : runs (.retentionResend 0) (sKeep up5 mFar 16 9) (fun t => (t.chip.retained.map fun r => (r.port, r.sent)) == [(5, 9)]) = true
    ∧ runs (.retentionResend 0) (sKeep up5 mFar 5 9) (fun _ => true) = false := by decide
theorem test_credits : runs (.creditReturn 5 2 144) (sOut { up5 with credits := Vector.replicate 3 0 } mFar 9) (fun t => (t.chip.portAt 5).credits[2] == 144) = true
    ∧ runs (.creditReturn 5 2 1) (sOut up5 mFar 9) (fun _ => true) = false := by decide
/-- A message from core 4 of package 2 with a postmark; the stream stands at 7 and holds postmark 10. -/
def mIn (p : Nat) : Msg := { mail here 0x80 (.put [1] none) with frank := ⟨2, 4, 1, true, 0, none⟩, pmark := p, epoch := 3 }
def sIn : State := st (fun c => portIs up5 { c with streamsIn := [⟨2, 4, 3, 7, [mIn 10]⟩] }) id id
theorem wit_arrives : (sIn.chip.streamFor (mIn 8)).last = 7 ∧ pmarkPast 8 7 = 1 ∧ (∀ h ∈ (sIn.chip.streamFor (mIn 8)).held, pmarkPast h.pmark 8 ≠ 1) ∧ pmarkPast 7 7 = 0
    ∧ 2 ^ 31 ≤ pmarkPast 6 7 ∧ 1 < pmarkPast 9 7 ∧ (∀ h ∈ (sIn.chip.streamFor (mIn 9)).held, h.pmark ≠ 9) ∧ sIn.chip.heldIn 0 < 1024
    ∧ marked (mIn 8).body = true ∧ carries (sIn.chip.portAt 5).st = true := by decide
theorem test_arrives : runs (.postmarkArrival 5 (mIn 8)) sIn (fun t => t.chip.net == [mIn 8] && (t.chip.out.map fun w => w.msg.body) == [.deliveryAck 8]) = true
    ∧ runs (.postmarkArrival 5 (mIn 7)) sIn (fun t => t.chip.net == [] && (t.chip.out.map fun w => w.msg.body) == [.deliveryAck 7]) = true
    ∧ runs (.postmarkArrival 5 (mIn 9)) sIn (fun t => t.chip.net == [] && (t.chip.streamFor (mIn 9)).held == [mIn 10, mIn 9]) = true
    ∧ runs (.postmarkArrival 5 (mIn 6)) sIn (fun t => t.chip.net == [] && (t.chip.streamFor (mIn 9)).last == 7) = true := by decide
def mBack : Msg := { mFar with body := .nack 5 }
def mInv : Msg := { mFar with body := .invalid 0x55 }
theorem test_invalid_kind : runs (.postmarkArrival 5 mInv) sIn (fun t => t.chip.net == [] && (t.chip.portAt 5).replay == 1) = true
    ∧ (headBytes 0 mFar).map (·.take 4) = some [1, 0x10, 2, 0] := by decide
theorem wit_returned : (sKeep up5 mFar 5 9).chip.returned mBack = some ⟨mFar, 5, 0, 0⟩ := by decide
theorem test_returned : runs (.postmarkArrival 5 mBack) (sKeep up5 mFar 5 9) (fun t => t.chip.retained == [] && (t.chip.net.map fun m => (m.body, m.id)) == [(.nack 5, 9)]) = true := by decide
def mDel (last : Nat) : Msg := { mail ⟨0, .core 1⟩ 0 (.deliveryAck last) with frank := ⟨2, 0, 0, true, 0x7F, none⟩, epoch := 1 }
theorem wit_delivery_ack : (mDel 6).dest = ⟨(sKeep up5 mFar 5 9).chip.pkg, .core 1⟩ ∧ (mDel 6).epoch = (sKeep up5 mFar 5 9).chip.epoch
    ∧ carries ((sKeep up5 mFar 5 9).chip.portAt 5).st = true ∧ (mDel 6).frank.pkg ≠ (sKeep up5 mFar 5 9).chip.pkg := by decide
theorem test_delivery_ack : runs (.deliveryAck (mDel 6)) (sKeep up5 { mFar with pmark := 6 } 5 9) (fun t => t.chip.retained == []) = true
    ∧ runs (.deliveryAck (mDel 6)) (sKeep up5 { mFar with pmark := 7 } 5 9) (fun t => t.chip.retained.length == 1) = true := by decide
def mGo : Msg := { mFar with body := .mass 6 1 [3], pmark := 12, dest := ⟨2, .spine⟩ }
def late : Nat := 1000 * 10 * 1250
theorem wit_no_port : (sKeep Port.reset mGo 5 late).chip.tmo = late ∧ (sOut Port.reset mFar late).chip.portless 0 = some (mFar, 0)
    ∧ (sOut Port.reset mFar late).chip.candidate mFar = none ∧ isRequest mFar.body = true ∧ isRequest (Body.ack 0) = false ∧ classOf (Body.ack 0) ≠ 2
    ∧ isMass mGo.body = true ∧ mGo.dest.pkg ≠ (sOut Port.reset mGo late).chip.pkg := by decide
theorem test_mass_timeout : runs (.gossipMassTimeout 0) (sKeep Port.reset mGo 5 late) (fun t => t.chip.retained == []
    && (t.chip.out.map fun w => (w.msg.body, w.msg.dest)) == [(.withdrawal 12, ⟨2, .spine⟩)]) = true := by decide
theorem test_no_route : runs (.noRouteReturn 0) (sOut Port.reset mFar late) (fun t => t.chip.out == [] && (t.chip.net.map fun m => m.body) == [.nack 5]) = true
    ∧ runs (.nonrequestDrop 0) (sOut Port.reset { mFar with body := .ack 0 } late) (fun t => t.chip.out == []) = true
    ∧ runs (.nonrequestDrop 0) (sOut Port.reset mGo late) (fun t => (t.chip.out.map fun w => w.msg.body) == [.withdrawal 0]) = true := by decide
def tr5 : Port := { Port.reset with st := .training, dis := false, trains := 7 }
theorem wit_ports : oneMs ≤ late ∧ 100 * 1250 ≤ late ∧ ((sOut { up5 with entries := [1, 2] } mFar 9).chip.recentEntries 5).length = 2
    ∧ (sOut up5 mFar 9).chip.recentEntries 5 = [] := by decide
theorem test_training : runs (.linkTrainingStart 5) (sOut { Port.reset with dis := false } mFar late) (fun t => (t.chip.portAt 5).st == .training) = true
    ∧ runs (.linkTrained 5 8 3) (sOut tr5 mFar 9) (fun t => (t.chip.portAt 5).st == .up && (t.chip.portAt 5).credits == fullCredits) = true
    ∧ runs (.linkTrained 5 8 2) (sOut tr5 mFar 9) (fun t => (t.chip.portAt 5).st == .degraded) = true
    ∧ runs (.linkTrainingTimeout 5) (sOut tr5 mFar late) (fun t => (t.chip.portAt 5).st == .quarantined) = true := by decide
theorem test_link_faults : runs (.linkReplay 5) (sOut { up5 with replay := 0xFFFF } mFar 9) (fun t => (t.chip.portAt 5).replay == 0xFFFF) = true
    ∧ runs (.linkFault 5) (sOut up5 mFar 9) (fun t => (t.chip.portAt 5).st == .training) = true
    ∧ runs (.linkRetrain 5) (sOut { up5 with entries := [1, 2] } mFar 9) (fun t => (t.chip.portAt 5).st == .quarantined) = true := by decide
/-- The 65th replay within a millisecond. -/
theorem test_replays : runs (.linkReplay 5) (sOut { up5 with recentReplays := List.replicate 64 5 } mFar 9) (fun t => (t.chip.portAt 5).st == .training) = true
    ∧ runs (.linkReplay 5) (sOut { up5 with recentReplays := List.replicate 63 5 } mFar 9) (fun t => (t.chip.portAt 5).st == .up) = true := by decide
theorem test_link_commands : runs (.linkDisable 5) (sOut up5 mFar 9) (fun t => (t.chip.portAt 5).st == .down && (t.chip.portAt 5).dis) = true
    ∧ runs (.linkRelease 5) (sOut { up5 with st := .quarantined } mFar 9) (fun t => (t.chip.portAt 5).st == .down && !(t.chip.portAt 5).dis) = true := by decide

/-! ## Health, the start and attestation -/

/-- Every kind of granule, at the ends of its range. -/
theorem wit_granules : ∀ g ∈ [Granule.pad 0 0, .pad 32767 0x57FF, .pad 5 0x5FFF, .hbm 0, .link 15], granuleExists g = true := by decide
theorem test_ecc : runs (.eccError (.hbm 7) true) (st id id id) (fun t => t.chip.hlhead == 1 && t.chip.hbmPoison == []) = true
    ∧ runs (.eccError (.hbm 7) false) (st id id id) (fun t => t.chip.hbmPoison == [7] && (t.chip.testing.map (·.1)) == [.channel 0 0]) = true
    ∧ runs (.eccError (.pad 3 9) false) (st id id id) (fun t => (t.chip.coreAt 3).padPoison == [9] && (t.chip.testing.map (·.1)) == [.signature 0]) = true := by decide
def sTest (b : Block) (sp : List Nat) : State := st (fun c => { c with testing := [(b, 9)], spares := sp }) id id
theorem wit_self_test : (∃ x ∈ (sTest (.signature 33) []).chip.testing, x.1 = .signature 33 ∧ (sTest (.signature 33) []).chip.testRuns x = true)
    ∧ (sTest (.signature 33) []).chip.devState ≠ 4 ∧ 33 / 16 ∉ (sTest (.signature 33) []).chip.spares
    ∧ 33 / 16 ∈ (sTest (.signature 33) [2]).chip.spares := by decide
theorem test_self_test : runs (.selfTestComplete (.signature 33) .spare) (sTest (.signature 33) []) (fun t => t.chip.spares == [2] && t.chip.testing == []) = true
    ∧ runs (.selfTestComplete (.signature 33) .noSpare) (sTest (.signature 33) [2]) (fun t => t.chip.failed == [33] && t.chip.devState == 2) = true
    ∧ runs (.selfTestComplete (.channel 1 3) (.unrepaired [8])) (sTest (.channel 1 3) []) (fun t => t.chip.dead == [8] && t.chip.devState == 2) = true
    ∧ runs (.selfTestComplete (.port 5) .portFailed) (sTest (.port 5) []) (fun t => (t.chip.portAt 5).st == .quarantined) = true := by decide
theorem wit_thermal : 0x5F0 ≤ (0x5F0 : BitVec 16).toInt ∧ 0x6E0 ≤ (0x6E0 : BitVec 16).toInt ∧ tst ((st id id id).chip.monitor 8).tmon 32 = false
    ∧ tst ((st id id id).chip.monitor 8).tmon 33 = false := by decide
theorem test_thermal : runs (.thermalWarning 8 0x5F0) (st id id id) (fun t => tst (t.chip.monitor 8).tmon 32 && t.chip.hlhead == 1) = true
    ∧ runs (.thermalStop 8 0x6E0) (st id id id) (fun t => t.chip.devState == 4 && (t.chip.ctxAt 1).st != .live) = true := by decide
theorem wit_start : (st id id id).chip.jalt = [] ∧ (st id id id).chip.jstarted = [] ∧ (st id id id).chip.failed = [] ∧ (st id id id).chip.dead = [] := by decide
theorem test_start : runs (.packageStart none []) (st id id id) (fun t => t.chip.devState == 1 && t.chip.starts == 1) = true := by decide +kernel
theorem test_journal_reset : runs .journalReset (st id id id) (fun t => t.chip.jreset) = true := by decide
def sAtt : State := st (fun c => { c with atst := 1, atstSince := 5, report := [1, 2] }) id id
theorem wit_attest : bits (0x2000000000000000 : Word) 60 3 = 0 ∧ bits (0x2000000000000000 : Word) 63 61 = 1 ∧ bits (0x4000000000000007 : Word) 63 61 = 2
    ∧ 4 ≤ bits (0x4000000000000007 : Word) 2 0 ∧ (st id id id).chip.atst ≠ 1 ∧ sAtt.chip.now ≤ sAtt.chip.atstSince + 5 * oneMs := by decide
theorem test_attest : runs (.attestReport 0x2000000000000000) (st id id id) (fun t => t.chip.atst == 1) = true
    ∧ runs (.attestExtend 0x4000000000000007) (st id id id) (fun t => t.chip.atst == 2) = true
    ∧ runs .attestComplete sAtt (fun t => t.chip.atst == 2 && t.chip.report.take 2 == [1, 2]) = true := by decide
theorem wit_register_write : ownBehaviour 0x2010000 0x700001234 = false ∧ ownBehaviour 0x1FF8 5 = false ∧ ownBehaviour 0x4000008 5 = false
    ∧ (st id id id).chip.hasQueue 0 = true ∧ ((st id id id).chip.queueAt 0).st = .disabled ∧ (∀ p < 16, ((st id id id).chip.portAt p).st = .down) := by decide
theorem test_register_write : runs (.registerWrite 0x2010000 0x700001234) (st id id id) (fun t => t.chip.pkg == 7 && bits t.chip.fabcfg 15 0 == 0x1234) = true
    ∧ runs (.registerWrite 0x4000008 0x5000) (st id id id) (fun t => (t.chip.queueAt 0).cpl == 0x5000) = true := by decide

/-! ## The whole machine -/

/-- An instruction completes, stalls and traps, its frame's registers, others' state and memory as they were. -/
theorem wit_frames : OwnEffects sA (.add p0 (.g 3) (.g 1) (.g 2)) ∧ (∃ t, exec (.add p0 (.g 3) (.g 1) (.g 2)) sA = .next t)
    ∧ Reg.g 1 ∉ writes (.add p0 (.g 3) (.g 1) (.g 2)) ∧ writesFlags (.add p0 (.g 3) (.g 1) (.g 2)) = false
    ∧ writesPad (.add p0 (.g 3) (.g 1) (.g 2)) = false ∧ sA.chip.modeOf sA.chip.me.launch = 0 :=
  ⟨⟨rfl, by simp, by simp⟩, ⟨_, rfl⟩, by decide, rfl, rfl, by decide⟩
theorem test_frames_kept : ∀ i ∈ [Instr.add p0 (.g 3) (.g 1) (.g 2), .div p0 (.g 4) (.g 1) (.g 3), .gld p0 .b64 (.g 7) (.g 1) none 0, .halt p0],
    runs i sA (fun t => t.chip.me.g[5] == sA.chip.me.g[5] && t.chip.here.pad == sA.chip.here.pad && t.chip.now == 10 && (t.chip.frameAt 0 1) == (sA.chip.frameAt 0 1)) = true := by decide
/-- A store by a user writes its own bytes, and a count-up of a spawn those of the join block. -/
theorem wit_stores : storesAt sG.chip sG.chip.here.vec.v (.st p0 .b16 (.g 2) (.g 1) 8) = [(0x8000010000000014, 2)]
    ∧ storesAt sC.chip sC.chip.here.vec.v (.spawn p0 (.g 1)) = [(0x200, 8), (0x218, 8)] ∧ sC.chip.here.pad.wf = true
    ∧ OwnEffects sC (.spawn p0 (.g 1)) ∧ (∃ t, exec (.spawn p0 (.g 1)) sC = .next t) ∧ mayLog (.spawn p0 (.g 1)) = false :=
  ⟨by decide, by decide, by decide, ⟨rfl, by simp, by simp⟩, ⟨_, rfl⟩, rfl⟩
/-- A conversion with an outlier list of which no page is cached. -/
def sOl : State := { sVe with chip := { sVe.chip with tlb := [] } }
/-- A supervisor's store into g3 of frame 2. -/
def sImage : State := st id id (fun f => regs [(1, 0x2C000 + 160 * 2 + 24), (2, 77)] (sup f))
theorem wit_image_store : Config.dataEnd ≤ storeAt sImage.chip .b64 (.g 2) (.g 1) 0 ∧ ¬AskedBy sImage.chip 0 2 ∧ (∃ t, exec (.st p0 .b64 (.g 2) (.g 1) 0) sImage = .next t) :=
  ⟨by decide, by unfold AskedBy; decide, _, rfl⟩
theorem test_image_store : runs (.st p0 .b64 (.g 2) (.g 1) 0) sImage (fun t => (t.chip.frameAt 0 2).g[3] == 77 && (t.chip.frameAt 0 2).pc == 0 && t.chip.here.pad == []) = true := by decide
/-- The words of a tile that `corr` writes. -/
theorem test_corr_stores : storesAt sCorr.chip sCorr.chip.here.vec.v (.corr p0 (.g 1) (.g 2)) = [(0x108, 4)] := by decide
theorem wit_list_bytes (loc x : Nat) : ¬ ListByte sOl.chip loc x := by
  rintro ⟨k, p, -, h, -⟩
  have hc : ∀ a b v, sOl.chip.cached a b v = none := fun _ _ _ => rfl
  unfold Chip.lookup at h
  simp only [hc] at h
  split at h
  · cases h
  · split at h <;> cases h
theorem wit_list_frames : OwnEffects sOl (.vcvtOl p0 0 false false 9 1 .f32e4m3 .rne) ∧ sOl.chip.hbm.wf = true ∧ sOl.chip.far.wf = true
    ∧ sOl.chip.host.wf = true := ⟨⟨rfl, by simp, by simp⟩, by decide⟩
theorem test_list_frames : runs (.vcvtOl p0 0 false false 9 1 .f32e4m3 .rne) sOl (fun t => t.chip.hbm == sOl.chip.hbm) = true := by decide
theorem wit_guard : guardHolds (guardOf (.add ⟨true, 0⟩ (.g 3) (.g 1) (.g 2))) sA.chip.me.sw = false ∧ sA.chip.capturing = false ∧ sA.chip.me.inSlot = false := by decide
/-- A false guard at a fork, and in a delay slot. -/
def sSlot : State := st id id (fun f => { f with slots := [0x10000, 0x10004] })
theorem wit_guard_slot : sSlot.chip.me.inSlot = true ∧ standsInSlot (.add ⟨true, 0⟩ .zr .zr .zr) = true ∧ standsInSlot (.fork ⟨true, 0⟩ (.g 2) 4) = false := by decide
theorem test_guard_slot : runs (.fork ⟨true, 0⟩ (.g 2) 4) sA (fun t => t.chip.me.slots == [0x10004, 0x10008] && t.chip.me.pc == 0x10004 && t.chip.here.deque == []) = true
    ∧ runs (.add ⟨true, 0⟩ (.g 3) (.g 1) (.g 2)) sSlot (fun t => t.chip.me.slots == [0x10004] && t.chip.me.pc == 0x10004) = true := by decide
theorem test_guard_false : runs (.add ⟨false, 1⟩ (.g 3) (.g 1) (.g 2)) sA (fun t => t.chip.me.g == sA.chip.me.g && t.chip.me.pc == 0x10004) = true := by decide
/-- What the entry of a cause in the vector table reads as, where the cache holds its page. -/
def entryOf (c : Chip) (cause : Nat) : Option (Nat × Bool) :=
  let va := (c.ctxAt c.me.ctx).tvbase + BitVec.ofNat 64 (8 * cause)
  (c.cached (sigOf 0) c.me.ctx va.toNat).map fun e =>
    let p : Phys := ⟨e.1, e.2, leafAddr e.1 e.2 va.toNat⟩
    (leNat (c.readPhys p 8), c.physBad p 8)
theorem wit_trap_entry : sTr.chip.me.inTrap = false ∧ entryOf sTr.chip 0x07 = some (0x10840, false)
    ∧ entryOf sTr.chip 0x11 = some (0x10900, false) ∧ entryOf sTr.chip 0x10 = some (0, false)
    ∧ (st id id inTrap).chip.me.inTrap = true := by decide
/-- The table's page is not in the cache: the trap waits for its walk; a fault of the walk makes it fatal. -/
def sMiss (f : Frame → Frame) : State := let s := st id id f
  { s with chip := { s.chip with tlb := [] } }
theorem wit_trap_waits : (sMiss id).chip.cached 0 1 0x10188 = none ∧ addrCheck 0x10188 false = none ∧ (sMiss id).chip.me.walkFault = none := by decide
theorem test_trap_waits : runs (.trap p0 1) (sMiss id) (fun t => t.chip.me.st == .stalled (.walk 1) && t.chip.walking 0 0 1 && t.chip.me.pc == 0x10000) = true
    ∧ runs (.trap p0 1) (sMiss fun f => { f with walkFault := some (1, 6) }) (fun t => t.chip.me.fatal) = true := by decide
theorem test_trap_in_handler : runs (.trap p0 1) (st id id inTrap) (fun t => t.chip.me.fatal && t.chip.reports == [.fatal 0 0]) = true := by decide
/-- The core issues next, and the word at its pc is an addition. -/
def sStep : State := { (st (fun c => { c with hbm := words [(0x40000, BitVec.ofNat 64 (causeWord (.add p0 (.g 3) (.g 1) (.g 2))).toNat)] }) id (regs [(1, 5), (2, 6)])) with
  agenda := [⟨3, .issue 0⟩] }
/-- What the issue slot of core 0 finds. -/
def slot0 (s : State) (after : Nat) : Chip := (s.chip.pass after).freeSlot 0
/-- Nothing is left for the banks, the deques and the waiters. -/
def quiet (c : Chip) : Bool := c.cores.all (fun p => p.2.touched == [] && p.2.dequeOps == 0 && p.2.advanced == [] && p.2.padPoison == [] && p.2.stuck == []) && c.waitedAt == []
theorem wit_step : (slot0 sStep 3).pick 0 = some 0 ∧ (((slot0 sStep 3).begin_ 0 0).lookup 0x10000 .x false).toOption = some ⟨leaf, 0, 0x40000⟩
    ∧ ((slot0 sStep 3).begin_ 0 0).physBad ⟨leaf, 0, 0x40000⟩ 4 = false := by decide
theorem wit_images : (((slot0 sStep 3).begin_ 0 0).coreAt 0).badImage 0 = none ∧ (slot0 sStep 3).withheld ((slot0 sStep 3).begin_ 0 0).wordWriter = false := by decide
theorem wit_quiet : runs (.add p0 (.g 3) (.g 1) (.g 2)) { sStep with chip := (slot0 sStep 3).begin_ 0 0, agenda := [] } (fun t => quiet t.chip) = true := by decide
/-- The core issues a word in a cycle whose merge step holds a remote put of two bytes, above a write of the sequencer (R78). -/
def sMerge (i : Instr) : State := { (st (fun c => { c with hbm := words [(0x40000, BitVec.ofNat 64 (causeWord i).toNat)] }) (fun k => { k with
    pad := words [(0x100, 0x3333222222222222), (0x108, 0x2222222222222222)]
    cycle := { Cycle.fresh 10 with parts := [⟨88, 0x100, 64, .write, 137, none, []⟩, ⟨98, 0x106, 2, .write, 127, none, []⟩] } })
  (regs [(1, 0x100), (2, 0x1111111111111111)])) with agenda := [⟨0, .issue 0⟩] }
/-- What the merge makes of the word's issue. -/
def merged (s : State) (i : Instr) : Option Merged :=
  let b := (slot0 s 0).begin_ 0 0
  match exec i { s with chip := b, agenda := [] } with
  | .next t => some ((slot0 s 0).merge t.chip b.wordWriter)
  | _ => none
theorem wit_merge : (match merged (sMerge (.st p0 .b64 (.g 2) (.g 1) 0)) (.st p0 .b64 (.g 2) (.g 1) 0) with | some (.taken _) => true | _ => false) = true
    ∧ (match merged (sMerge (.amoAdd p0 (.g 3) (.g 1) (.g 2) true)) (.amoAdd p0 (.g 3) (.g 1) (.g 2) true) with | some (.held _) => true | _ => false) = true := by decide
/-- R78: the put's bytes stand, the store's bytes stand over the sequencer's; R79: an atomic is made in the next cycle. -/
theorem test_merge : (match step (sMerge (.st p0 .b64 (.g 2) (.g 1) 0)) with
      | .next t => t.chip.pad64 0x100 == 0x3333111111111111 && t.chip.pad64 0x108 == 0x2222222222222222 && t.chip.me.pc == 0x10004 | _ => false) = true
    ∧ (match step (sMerge (.amoAdd p0 (.g 3) (.g 1) (.g 2) true)) with
      | .next t => t.chip.pad64 0x100 == 0x3333222222222222 && t.chip.me.pc == 0x10000 && t.chip.now == 11 | _ => false) = true := by decide
theorem test_step : (match step sStep with | .next t => t.chip.me.g[3] == 11 && t.chip.now == 13 && t.agenda == [] | _ => false) = true := by decide
theorem test_encode : encode (.sub p0 (.g 5) (.g 6) (.g 7)) = some 0x00531C02 ∧ WellFormed (.sub p0 (.g 5) (.g 6) (.g 7)) = true := by decide
theorem wit_measured : Measured (Vector.replicate 8 0) sStep := ⟨rfl, by intro x h; cases h with | head => exact ⟨by simp, by simp⟩ | tail _ h => cases h⟩
theorem test_reset : State.reset.mr[7] = 0 ∧ (State.reset.chip.portAt 15).dis = true ∧ State.reset.chip.nextLaunch = 1 := by decide
/-- R94, R207, R208, R422: a queue page, a port page, `fabcfg` and `devst` as the host reads them. -/
theorem test_bar_read :
    let s : State := { State.reset with chip := { Chip.reset with starts := 3, devState := 2, queues := [(17, { HostQueue.reset with lsize := 4, st := .error, head := 5, err := 0x400000002 })], ctxs := [(1, { Ctx.reset with st := .live, nqueue := 2 })] } }
    s.barRead 0x2010000 = 0x3E8 ∧ s.barRead 0x2003008 = 4 ∧ s.barRead 0 = 0x300000002 ∧ s.barRead 0x4011010 = 0x421 ∧ s.barRead 0x4011020 = 5
      ∧ s.barRead 0x4011028 = 0x400000002 ∧ s.barRead 0x4012010 = 0 ∧ s.barRead 0x0F000000 = 0 := by decide
end Sys2Proof.Tests
end

section
/-! Traps and returns (R158, R400 to R402, R408, R289): what a run of `trap`, `brkpt`, `rfe` and a word of no instruction comes
to, on the laws of the issue. -/

namespace Sys2Proof.Machine

/-! ## Bits of a status word -/

/-- A bit of a word in which a field has been replaced: the field's bits are the new value's, the others stay. -/
theorem tst_putBits {m : Nat} (x : BitVec m) {h l n : Nat} (v : Nat) (hl : l ≤ h) (hn : n < m) :
    tst (putBits x h l v) n = if l ≤ n ∧ n ≤ h then v.testBit (n - l) else tst x n := by
  obtain ⟨w, rfl⟩ : ∃ w, h = l + w := ⟨h - l, by omega⟩
  have hw : l + w + 1 - l = w + 1 := by omega
  have whole : x.toNat = 2 ^ l * (2 ^ (w + 1) * (x.toNat / 2 ^ l / 2 ^ (w + 1)) + x.toNat / 2 ^ l % 2 ^ (w + 1))
      + x.toNat % 2 ^ l := by
    rw [Nat.div_add_mod, Nat.div_add_mod]
  have field : x.toNat - x.toNat / 2 ^ l % 2 ^ (w + 1) * 2 ^ l + v % 2 ^ (w + 1) * 2 ^ l
      = 2 ^ l * (2 ^ (w + 1) * (x.toNat / 2 ^ l / 2 ^ (w + 1)) + v % 2 ^ (w + 1)) + x.toNat % 2 ^ l := by
    simp only [Nat.mul_add, Nat.mul_comm _ (2 ^ l)] at whole ⊢
    omega
  have bit : (x.toNat / 2 ^ l / 2 ^ (w + 1)).testBit (n - l - (w + 1)) = x.toNat.testBit (n - l - (w + 1) + (w + 1) + l) := by
    rw [Nat.testBit_div_two_pow, Nat.testBit_div_two_pow]
  have low : v % 2 ^ (w + 1) < 2 ^ (w + 1) := Nat.mod_lt _ (Nat.two_pow_pos _)
  rw [tst, tst, putBits, hw, field, BitVec.getLsbD_ofNat, Nat.testBit_two_pow_mul_add _ (Nat.mod_lt _ (Nat.two_pow_pos l))]
  by_cases below : n < l
  · simp [below, hn, Nat.not_le.2 below, Nat.testBit_mod_two_pow, BitVec.getLsbD]
  · rw [if_neg below, Nat.testBit_two_pow_mul_add _ low]
    by_cases inside : n ≤ l + w
    · have : n - l < w + 1 := by omega
      simp [hn, this, inside, Nat.not_lt.1 below, Nat.testBit_mod_two_pow]
    · have above : ¬ n - l < w + 1 := by omega
      have back : n - l - (w + 1) + (w + 1) + l = n := by omega
      simp [hn, inside, above, bit, back, BitVec.getLsbD]

/-- `rfe` gives the status back as it was saved (R158), but for the two ownership bits, which the core holds. -/
theorem leave_sw_restored (f : Frame) {n : Nat} (hn : n < 64) (h0 : n ≠ 0) (h15 : n ≠ 15) (h16 : n ≠ 16) :
    tst f.leave.sw n = tst f.esw n := by
  rw [Frame.leave_sw, tst_putBits _ _ (Nat.le_refl 0) hn, if_neg (by omega), tst_putBits _ _ (by omega) hn, if_neg (by omega)]
/-- p0 reads as 1 after a return (R263). -/
theorem leave_sw_p0 (f : Frame) : tst f.leave.sw 0 = true := by
  rw [Frame.leave_sw, tst_putBits _ _ (Nat.le_refl 0) (by omega)]
  rfl

/-! ## The wait for the sequencer -/

/-- An instruction that needs the sequencer at rest waits while it runs (R326). -/
theorem notSequencing_wait (c : Chip) (h : c.atRest = false) : notSequencing c = .error (.wait .sequencer) c := by
  have h : (c.coreAt c.core).sequencing c.frame = true := by simpa [Chip.atRest, Chip.here] using h
  simp only [notSequencing, M.bind_run, M.get_run, h, waitIf_true, notReady_run]
/-- A wait for the sequencer changes of the issuing frame its state alone. -/
theorem stall_sequencer_me (c : Chip) : (c.stall c.core c.frame .sequencer).me = { c.me with st := .stalled .sequencer } :=
  Chip.frameAt_modFrame ..

/-! ## Instructions that always trap -/

/-- A plain instruction that waits for the sequencer and then raises takes its trap while the sequencer is at rest. -/
theorem plain_raise {i : Instr} {s : State} {cause detail : Nat} {eaddr : Word} (hc : s.chip.clear (guardOf i) = true)
    (hr : s.chip.atRest = true) :
    plain i (do notSequencing; raise cause eaddr detail) s
      = .next (s.withChip (((s.chip.issuing i).linksOf s.chip s.chip.core).takeTrap s.chip.core s.chip.frame (causeWord i) false
          cause detail eaddr)) :=
  plain_trap hc (by rw [M.bind_ok (notSequencing_ok _ ((issuing_atRest ..).trans hr)), raise_run])

/-- A word of no instruction raises 0x01 (R289): its issue comes to the trap itself. -/
theorem illegalInstruction_traps {w : BitVec 32} {s : State} (hc : s.chip.capturing = false) :
    Claims.Traps s (.illegalInstruction w) w 0x01 0 0 := by
  have hc : Chip.capturing { s.chip with word := w } = false := hc
  have body : illegal { s.chip with word := w } = .error (.trap 1 0 0) { s.chip with word := w } := by
    simp only [illegal, M.bind_run, M.get_run, hc, Bool.false_eq_true, if_false, raise_run]
  show execIllegalInstruction w s = _
  rw [execIllegalInstruction, finishWord, body]
  rfl

/-! ## The return -/

/-- An instruction's end depends on its body only through what the body comes to. -/
theorem finish_congr {i : Instr} {seq : Bool} {x y : M Unit} {c : Chip} (h : x (c.issuing i) = y (c.issuing i)) :
    finish i seq x c = finish i seq y c := by
  rw [finish, finish, finishWord, finishWord, show x { c with word := causeWord i } = y { c with word := causeWord i } from h]

/-- An instruction whose body completes leaves the package that the body leaves. -/
theorem finish_ok {i : Instr} {seq : Bool} {body : M Unit} {c d : Chip} (hb : body (c.issuing i) = .ok () d) :
    finish i seq body c = d := by
  rw [finish, finishWord, show body { c with word := causeWord i } = .ok () d from hb]

/-- `rfe` where no capture and no guard stands before it: `execRfe_of_clear` ties it to the model. -/
def returnBody : M Unit := do
  let c ← get
  let f ← theFrame
  notSequencing
  raiseIf (!f.inTrap) 1
  raiseIf f.inSlot 2
  modCore fun k => k.resumeSeq c.frame
  modFrame Frame.leave

/-- The package after the return: the core's sequencer goes on and the frame leaves its handler (R158, R160). `returnBody_returns`
and `execRfe_returns` say that the model comes to it. -/
def returned (c : Chip) : Chip := (c.modCore c.core fun k => k.resumeSeq c.frame).modFrame c.core c.frame Frame.leave

/-- `rfe` whose guard holds, outside a capture, is the return or what stops it (R158, R261). -/
theorem execRfe_of_clear {g : Guard} {s : State} (hc : s.chip.clear g = true) :
    execRfe g s = .next (s.withChip (finish (.rfe g) false returnBody s.chip)) := by
  simp only [Chip.clear, Bool.and_eq_true, Bool.not_eq_true'] at hc
  obtain ⟨hcap, hg⟩ := hc
  rw [execRfe, finish_congr (y := returnBody)]
  · rfl
  · simp only [returnBody, M.bind_run, M.get_run, issuing_capturing, hcap, Bool.false_eq_true, if_false, theFrame_run,
      issuing_me, hg, if_true, Bool.true_and]

/-- While the sequencer runs for the frame, the return waits (R326). -/
theorem returnBody_waits {c : Chip} (hr : c.atRest = false) : returnBody c = .error (.wait .sequencer) c := by
  rw [returnBody, M.bind_ok (M.get_run c), M.bind_ok (theFrame_run c), M.bind_error (notSequencing_wait c hr)]
/-- Outside a handler it raises 0x01 (R158), in a delay slot or not (R153). -/
theorem returnBody_outside {c : Chip} (hr : c.atRest = true) (ht : c.me.inTrap = false) :
    returnBody c = .error (.trap 1 0 0) c := by
  rw [returnBody, M.bind_ok (M.get_run c), M.bind_ok (theFrame_run c), M.bind_ok (notSequencing_ok c hr), ht]
  rfl
/-- In a handler's delay slot it raises 0x02 (R158). -/
theorem returnBody_inSlot {c : Chip} (hr : c.atRest = true) (ht : c.me.inTrap = true) (hs : c.me.inSlot = true) :
    returnBody c = .error (.trap 2 0 0) c := by
  rw [returnBody, M.bind_ok (M.get_run c), M.bind_ok (theFrame_run c), M.bind_ok (notSequencing_ok c hr), ht, hs]
  rfl
/-- Elsewhere in a handler the core's sequencer goes on and the frame leaves the handler (R158, R160). -/
theorem returnBody_returns {c : Chip} (hr : c.atRest = true) (ht : c.me.inTrap = true) (hs : c.me.inSlot = false) :
    returnBody c = .ok () (returned c) := by
  rw [returnBody, M.bind_ok (M.get_run c), M.bind_ok (theFrame_run c), M.bind_ok (notSequencing_ok c hr), ht, hs]
  rfl

/-- `rfe` that raises takes its trap, with its links as they were. -/
theorem execRfe_traps {g : Guard} {s : State} {cause : Nat} (hc : s.chip.clear g = true)
    (hb : returnBody (s.chip.issuing (.rfe g)) = .error (.trap cause 0 0) (s.chip.issuing (.rfe g))) :
    Claims.Traps s (.rfe g) (causeWord (.rfe g)) cause 0 0 :=
  (execRfe_of_clear hc).trans (by rw [finish_trap hb]; rfl)

/-- `rfe` waits while the sequencer runs for its frame. -/
theorem execRfe_waits {g : Guard} {s : State} (hc : s.chip.clear g = true) (hr : s.chip.atRest = false) :
    execRfe g s = .next (s.withChip (s.chip.stall s.chip.core s.chip.frame .sequencer)) :=
  (execRfe_of_clear hc).trans (by rw [finish_wait (returnBody_waits (by rwa [issuing_atRest]))])
/-- `rfe` in a handler, outside a slot, returns. -/
theorem execRfe_returns {g : Guard} {s : State} (hc : s.chip.clear g = true) (hr : s.chip.atRest = true)
    (ht : s.chip.me.inTrap = true) (hs : s.chip.me.inSlot = false) :
    execRfe g s = .next (s.withChip (returned (s.chip.issuing (.rfe g)))) :=
  (execRfe_of_clear hc).trans
    (by rw [finish_ok (returnBody_returns (by rwa [issuing_atRest]) (by rwa [issuing_me]) (by rwa [issuing_me]))])

/-- The sequencer's going on leaves the frames alone. -/
theorem resumeSeq_frameAt (k : Core) (f n : Nat) : (k.resumeSeq f).frameAt n = k.frameAt n := by
  rw [Core.resumeSeq]; split <;> rfl
/-- The returning frame is the frame that left its handler. -/
theorem returned_me (c : Chip) : (returned c).me = c.me.leave := by
  show (returned c).frameAt c.core c.frame = c.me.leave
  rw [returned, Chip.frameAt_modFrame, Chip.frameAt, Chip.coreAt_modCore, resumeSeq_frameAt]
  rfl

end Sys2Proof.Machine

namespace Sys2Proof.Proofs
open Sys2Proof.Machine

/-- Settles O25, by what the body of each of the four instructions comes to: `trap`, `brkpt` and an unassigned word always raise;
`rfe` waits, raises 0x01 or 0x02, or leaves the handler, and the two fields that `Frame.leave` writes over `esw` are the ones the
statement sets apart. -/
theorem trapsAndReturns : Obligations.TrapsAndReturns := by
  unfold Obligations.TrapsAndReturns
  refine ⟨fun s g i hc hr => ?trap, fun s g hc hr => ?brkpt, fun s w hc => ?illegal, fun s g hc hr ht => ?outside,
    fun s g hc hr ht hs => ?inSlot, fun s g hc hr => ?waits, fun s g hc ht hs hr => ?returns⟩
  case trap => exact plain_raise hc hr
  case brkpt => exact plain_raise hc hr
  case illegal => exact illegalInstruction_traps hc
  case outside => exact execRfe_traps hc (returnBody_outside (by rwa [issuing_atRest]) (by rwa [issuing_me]))
  case inSlot => exact execRfe_traps hc (returnBody_inSlot (by rwa [issuing_atRest]) (by rwa [issuing_me]) (by rwa [issuing_me]))
  case waits => exact ⟨_, execRfe_waits hc hr, stall_sequencer_me s.chip⟩
  case returns =>
    refine ⟨_, execRfe_returns hc hr ht hs, ?_⟩
    rw [State.withChip, returned_me, issuing_me]
    exact ⟨rfl, rfl, rfl, rfl, fun n hn h0 h15 h16 => leave_sw_restored _ hn h0 h15 h16, leave_sw_p0 _⟩

end Sys2Proof.Proofs
end

section
/-! Guards (R261, R262, R266): what the issue of an instruction comes to where its guard does not hold, by the way in which the
instruction issues, and a predicate that guards the instruction that writes it. -/

namespace Sys2Proof.Machine

open Sys2Proof.Claims (standsInSlot Traps compares)

/-! ## The ways in which an instruction issues -/

/-- How an instruction issues in a state: with a body, in a delay slot too; as a class 100 instruction; with a body, but not in a
slot; by an issue of its own, which `fork`, `go` and `rfe` have; as a branch, whose guard is its condition (R267); or with no guard.
`issues` says that every instruction is one of these. -/
inductive Issues (s : State) : Instr → Prop
  | anywhere {i : Instr} (body : M Unit) :
      exec i s = .next (s.withChip (issueChip i true body s.chip)) → standsInSlot i = true → Issues s i
  | vector {i : Instr} (body : M Unit) : exec i s = vector i body s → standsInSlot i = true → Issues s i
  | slotless {i : Instr} (body : M Unit) : exec i s = slotless i body s → standsInSlot i = false → Issues s i
  | fork (g : Guard) (j : Reg) (d : BitVec 16) : Issues s (.fork g j d)
  | go (g : Guard) (a : Reg) : Issues s (.go g a)
  | rfe (g : Guard) : Issues s (.rfe g)
  | br (g : Guard) (an : BitVec 2) (d : BitVec 19) : Issues s (.br g an d)
  | call (g : Guard) (an : BitVec 2) (d : BitVec 19) : Issues s (.call g an d)
  | jr (g : Guard) (an : BitVec 2) (a : Reg) : Issues s (.jr g an a)
  | ret (g : Guard) (an : BitVec 2) : Issues s (.ret g an)
  | unguarded {i : Instr} : guardOf i = ⟨false, 0⟩ → Issues s i

/-- Every instruction issues in one of these ways; a step of another agent and a word of no instruction have no guard. -/
theorem issues (s : State) (i : Instr) : Issues s i := by
  cases i with
  | fork g j d => exact .fork g j d
  | go g a => exact .go g a
  | rfe g => exact .rfe g
  | br g an d => exact .br g an d
  | call g an d => exact .call g an d
  | jr g an a => exact .jr g an a
  | ret g an => exact .ret g an
  | join | spawn | yield | tail | endThread => exact .slotless _ rfl rfl
  | vfmaF32 | vfmaBf16 | vaddF32 | vsubF32 | vmulF32 | vmaxF32 | vminF32 | vaddI32 | vsubI32 | vmulI32 | vdotF0 | vdotF1
  | vdotF2 | vdotF3 | vmaxI32 | vminI32 | vand | vor | vxor | vandn | vshlI32 | vshrI32 | vsarI32 | vcmpEq | vcmpLt | vcmpLe
  | vsel | vcvt | vcvtOl | vwid | vred | vperm | vbcst | vext | vlane | vexp2F32 | vrcpF32 | vrsqF32 | vld | vldG | vst | vstG
  | vgather | vscatter | vamo | vamoG => exact .vector _ rfl rfl
  | add | sub | mul | mulh | mulhu | div | divu | rem | remu | and | or | xor | andn | shl | shr | sar | rol | ror | min
  | max | minu | maxu | popc | clz | ctz | sext8 | sext16 | sext32 | zext8 | zext16 | zext32 | bfx | bfxu | bfi | lea | cmp
  | sel | pand | por | pxor | pandn | mov | addImm | subImm | andImm | orImm | xorImm | shlImm | shrImm | sarImm | cmpImm
  | movi | wtab | wclr | wait | ld | lds | gld | gst | tlk | tins | tinv | tinvAll | fence | fenceRel | fenceAcq | cas | qwait
  | qroom | qadvP | qadvC | qset | qpos | amoAdd | amoAnd | amoOr | amoXor | amoMin | amoMax | amoMinu | amoMaxu | amoSwap
  | rep | putv | amsg | red | rll | rsc | postMx | postCp | fwd | corr | trap | getc | brkpt | olog | probe | windowWrite
  | tgcfgWrite | tvbaseWrite | swWrite | errorRegisterClear | slpcfgWrite | st | put | get | mgetLink | mgetTwin | mgetOrigin
  | mgetEdge | mgetFace | mnext | mfldLow | mfldHigh | mfstLow | mfstHigh | mval | mclaim | mrel | msplit | mcoll | mflip
  | mref | mround | verpub | verpubO | verpubFin | verstop | verwait | verchk | verchkD | versettle | versettleT | gosadd
  | gosest | gosspr | gosset | bar | barv | bwait | chsend | chrecv | hqput | hqpeek | hqrel | hqveto | setc | sleep | xinv
  | halt => exact .anywhere _ rfl rfl
  | _ => exact .unguarded rfl

/-! ## A guard that does not hold -/

/-- The rest of an issue where an instruction that may not stand in a delay slot is passed over: 0x02 in a slot (R266), and else on
to `next`. `slotless_off`, `execGo_off`, `execRfe_off` and `execFork_off` tie it to the model. -/
def passOver (next : M Unit) : M Unit := do
  let f ← theFrame
  raiseIf f.inSlot 2
  next

/-- In a slot the passing over raises 0x02. -/
theorem passOver_inSlot {c : Chip} (next : M Unit) (hs : c.me.inSlot = true) : passOver next c = .error (.trap 2 0 0) c := by
  rw [passOver, M.bind_ok (theFrame_run c), hs, raiseIf_true, M.bind_error (raise_run ..)]
/-- Outside a slot it goes on. -/
theorem passOver_outside {c : Chip} (next : M Unit) (hs : c.me.inSlot = false) : passOver next c = next c := by
  rw [passOver, M.bind_ok (theFrame_run c), hs, raiseIf_false, M.bind_ok (M.pure_run ..)]

/-- An instruction that is passed over in a slot takes the trap 0x02 (R266). -/
theorem passed_traps {i : Instr} {s : State} {next : M Unit}
    (he : exec i s = .next (s.withChip (finish i false (passOver next) s.chip))) (hs : s.chip.me.inSlot = true) :
    Traps s i (causeWord i) 0x02 0 0 :=
  he.trans (by rw [finish_trap (passOver_inSlot next (by rwa [issuing_me]))]; rfl)

/-- The next state of an issue depends on its body only through what the body comes to. -/
theorem next_finish_congr {i : Instr} {s : State} {x y : M Unit} (h : x (s.chip.issuing i) = y (s.chip.issuing i)) :
    (Host.Outcome.next { s with chip := finish i false x s.chip } : Host.Outcome State Fault Refusal)
      = .next (s.withChip (finish i false y s.chip)) := by
  rw [finish_congr h]; rfl

/-- The branch that `fork` is, where it is not taken, leaves its two slots to issue (R267, R310). -/
def leaveSlots : M Unit := modFrame fun f => f.branch 0 false 0

/-- The guard p0 always holds (R260, R261). -/
theorem guardHolds_p0 (sw : Word) : guardHolds ⟨false, 0⟩ sw = true := rfl

section
variable {s : State} (hcap : s.chip.capturing = false)
include hcap

/-- An instruction that may not stand in a slot is passed over. -/
theorem slotless_off {i : Instr} (body : M Unit) (hg : guardHolds (guardOf i) s.chip.me.sw = false) :
    slotless i body s = .next (s.withChip (finish i false (passOver advance) s.chip)) :=
  next_finish_congr (by simp [passOver, M.bind_run, hcap, hg])
/-- So is `go`. -/
theorem execGo_off {g : Guard} (a : Reg) (hg : guardHolds g s.chip.me.sw = false) :
    execGo g a s = .next (s.withChip (finish (.go g a) false (passOver advance) s.chip)) :=
  next_finish_congr (by simp [passOver, M.bind_run, hcap, hg])
/-- So is `rfe`. -/
theorem execRfe_off {g : Guard} (hg : guardHolds g s.chip.me.sw = false) :
    execRfe g s = .next (s.withChip (finish (.rfe g) false (passOver advance) s.chip)) :=
  next_finish_congr (by simp [passOver, M.bind_run, hcap, hg])
/-- `fork` is a branch that is not taken. -/
theorem execFork_off {g : Guard} (j : Reg) (d : BitVec 16) (hg : guardHolds g s.chip.me.sw = false) :
    execFork g j d s = .next (s.withChip (finish (.fork g j d) false (passOver leaveSlots) s.chip)) :=
  next_finish_congr (by simp [passOver, leaveSlots, M.bind_run, hcap, hg])

/-- A class 100 instruction whose guard does not hold only advances (R261), and takes no vector state. -/
theorem vector_off {i : Instr} (body : M Unit) (hg : guardHolds (guardOf i) s.chip.me.sw = false) :
    vector i body s = .next (s.withChip (s.chip.issuing i).goOn) := by
  rw [vector, vectorChip, finish_ok (d := (s.chip.issuing i).goOn)]
  · rfl
  · simp only [M.bind_run, theFrame_run, issuing_me, hcap, hg, Bool.false_eq_true, if_false, advance_run]

/-- An instruction that may stand in a slot only advances where its guard does not hold, in a slot or not (R261). -/
theorem exec_off_anywhere {i : Instr} (hg : guardHolds (guardOf i) s.chip.me.sw = false) (hi : standsInSlot i = true)
    (hbr : ∀ g an d, i ≠ .br g an d ∧ i ≠ .call g an d) (hjr : ∀ g an a, i ≠ .jr g an a) (hret : ∀ g an, i ≠ .ret g an) :
    exec i s = .next (s.withChip (s.chip.issuing i).goOn) := by
  cases issues s i with
  | anywhere body he => rw [he, issue_skip hcap hg true (.inl rfl)]
  | vector body he => rw [he, vector_off hcap body hg]
  | slotless body _ h => exact absurd hi (by rw [h]; decide)
  | fork | go | rfe => cases hi
  | br g an d => exact absurd rfl (hbr g an d).1
  | call g an d => exact absurd rfl (hbr g an d).2
  | jr g an a => exact absurd rfl (hjr g an a)
  | ret g an => exact absurd rfl (hret g an)
  | unguarded h => rw [h, guardHolds_p0] at hg; cases hg

/-- One that may not stand in a slot is passed over where its guard does not hold (R261, R266); `fork` is apart. -/
theorem exec_off_slotless {i : Instr} (hg : guardHolds (guardOf i) s.chip.me.sw = false) (hi : standsInSlot i = false)
    (hfork : ∀ g j d, i ≠ .fork g j d) : exec i s = .next (s.withChip (finish i false (passOver advance) s.chip)) := by
  cases issues s i with
  | slotless body he => rw [he, slotless_off hcap body hg]
  | go g a => exact execGo_off hcap a hg
  | rfe g => exact execRfe_off hcap hg
  | fork g j d => exact absurd rfl (hfork g j d)
  | anywhere body _ h | vector body _ h => exact absurd hi (by rw [h]; decide)
  | br | call | jr | ret => cases hi
  | unguarded h => rw [h, guardHolds_p0] at hg; cases hg

/-- In a slot, an instruction that may not stand there traps 0x02 though its guard does not hold (R266). -/
theorem exec_off_traps {i : Instr} (hg : guardHolds (guardOf i) s.chip.me.sw = false) (hi : standsInSlot i = false)
    (hs : s.chip.me.inSlot = true) : Traps s i (causeWord i) 0x02 0 0 := by
  by_cases hfork : ∃ g j d, i = .fork g j d
  · obtain ⟨g, j, d, rfl⟩ := hfork
    exact passed_traps (execFork_off hcap j d hg) hs
  · simp only [not_exists] at hfork
    exact passed_traps (exec_off_slotless hcap hg hi hfork) hs

/-- Where it may stand, an instruction that is neither a branch nor a `fork` only advances while its guard does not hold (R261). -/
theorem exec_off_goes_on {i : Instr} (hg : guardHolds (guardOf i) s.chip.me.sw = false)
    (hs : s.chip.me.inSlot = true → standsInSlot i = true) (hfork : ∀ g j d, i ≠ .fork g j d)
    (hbr : ∀ g an d, i ≠ .br g an d ∧ i ≠ .call g an d) (hjr : ∀ g an a, i ≠ .jr g an a) (hret : ∀ g an, i ≠ .ret g an) :
    exec i s = .next (s.withChip (s.chip.issuing i).goOn) := by
  cases hi : standsInSlot i with
  | true => exact exec_off_anywhere hcap hg hi hbr hjr hret
  | false =>
    have outside : s.chip.me.inSlot = false := by simpa [hi] using hs
    rw [exec_off_slotless hcap hg hi hfork,
      finish_ok ((passOver_outside advance (by rwa [issuing_me])).trans (advance_run _))]

/-- Outside a slot a `fork` whose guard does not hold advances, with its two slots to issue (R310). -/
theorem execFork_off_outside {g : Guard} (j : Reg) (d : BitVec 16) (hg : guardHolds g s.chip.me.sw = false)
    (hs : s.chip.me.inSlot = false) : let c := s.chip.issuing (.fork g j d)
    execFork g j d s = .next (s.withChip (c.modFrame c.core c.frame fun f => { f.advance with slots := [f.npc, f.nnpc] })) := by
  rw [execFork_off hcap j d hg, finish_ok (passOver_outside leaveSlots (by rwa [issuing_me]))]
  rfl

/-! ## A predicate that guards its own instruction -/

/-- A plain instruction whose body completes has its effect exactly where its guard, as read at issue, holds (R261, R262). -/
theorem plain_lands {i : Instr} {body : M Unit} {d : Chip} (hb : body (s.chip.issuing i) = .ok () d) :
    plain i body s
      = .next (s.withChip (if guardHolds (guardOf i) s.chip.me.sw then d.goOn else (s.chip.issuing i).goOn)) := by
  cases hg : guardHolds (guardOf i) s.chip.me.sw with
  | true => exact plain_ok (by rw [Chip.clear, hcap, hg]; rfl) hb
  | false => rw [plain, issue_skip hcap hg true (.inl rfl)]; rfl

end

/-- The condition of a compare is the one that its code names (R303). -/
theorem condHolds_eq_compares (q : Cond) (x y : Word) : condHolds q x y = compares q.code x y := by
  cases q with
  | ne => exact (decide_not ..).symm
  | _ => rfl

/-- The three bits of an immediate compare are the code of its condition (R281). -/
theorem code_condOfCode (q : BitVec 3) : (condOfCode q).code = q.toNat := by
  revert q; decide

/-- A compare of two registers has its effect exactly where its guard holds, its operands being ready (R261, R303). -/
theorem execCmp_lands {s : State} {g : Guard} (p : BitVec 3) {a b : Reg} (q : Cond) (hcap : s.chip.capturing = false)
    (hu : s.chip.usable [a, b] [] = true) : let c := s.chip.issuing (.cmp g p a b q)
    execCmp g p a b q s = .next (s.withChip (if guardHolds g s.chip.me.sw then
      ((c.poppedAll [a, b]).flagged p (compares q.code (c.val a) ((c.popped a).val b))).goOn else c.goOn)) := by
  intro c
  have hu : c.usable [a, b] [] = true := (issuing_usable ..).trans hu
  obtain ⟨ha, hflow⟩ := rd_flow (flow_of_usable hu)
  obtain ⟨hb, -⟩ := rd_flow hflow
  refine plain_lands hcap ?_
  rw [M.bind_ok (use_ok _ _ _ hu), M.bind_ok ha, M.bind_ok hb, condHolds_eq_compares, writePred_run]
  rfl

/-- So has a compare with an immediate, which is sign-extended (R261, R303). -/
theorem execCmpImm_lands {s : State} {g : Guard} (p q : BitVec 3) {a : Reg} (d : BitVec 12) (hcap : s.chip.capturing = false)
    (hu : s.chip.usable [a] [] = true) : let c := s.chip.issuing (.cmpImm g p q a d)
    execCmpImm g p q a d s = .next (s.withChip (if guardHolds g s.chip.me.sw then
      ((c.popped a).flagged p (compares q.toNat (c.val a) (BitVec.ofInt 64 d.toInt))).goOn else c.goOn)) := by
  intro c
  have hu : c.usable [a] [] = true := (issuing_usable ..).trans hu
  obtain ⟨ha, -⟩ := rd_flow (flow_of_usable hu)
  refine plain_lands hcap ?_
  rw [M.bind_ok (use_ok _ _ _ hu), M.bind_ok ha, condHolds_eq_compares, code_condOfCode, writePred_run]
  rfl

/-- A predicate operation reads its two predicates and writes the third (R305). -/
theorem predicate_run (f : Bool → Bool → Bool) (p a b : BitVec 3) (c : Chip) :
    predicate f p a b c = .ok () (c.flagged p (f (predOf c.me.sw a) (predOf c.me.sw b))) := by
  rw [predicate, M.bind_ok (readPred_run a c), M.bind_ok (readPred_run b c), writePred_run]

end Sys2Proof.Machine

namespace Sys2Proof.Proofs
open Sys2Proof.Machine

/-- Settles O53, by the way in which each instruction issues (`issues`): where the guard does not hold, none but a branch reaches
its body. The operations that write the predicate of their own guard are plain, and a plain instruction's body has its effect
exactly where the guard, as read at issue, holds (`plain_lands`). -/
theorem guardedOff : Obligations.GuardedOff := by
  unfold Obligations.GuardedOff
  refine ⟨fun s i hcap hg hbr hjr hret => ⟨fun hs hfork => ?goesOn, fun hs hi => ?fork, fun hs hi => ?traps⟩,
    fun s neg p hcap => ⟨fun q a i hu => ?cmpImm, fun q a b hu => ?cmp, fun a b => ?predicates⟩⟩
  case goesOn => exact exec_off_goes_on hcap hg hs hfork hbr hjr hret
  case fork =>
    obtain ⟨g, j, d, rfl⟩ := hi
    exact execFork_off_outside hcap j d hg hs
  case traps => exact exec_off_traps hcap hg hi hs
  case cmpImm => exact execCmpImm_lands p q i hcap hu
  case cmp => exact execCmp_lands p q hcap hu
  case predicates =>
    simp only [List.forall_mem_cons]
    exact ⟨plain_lands hcap (predicate_run ..), plain_lands hcap (predicate_run ..), plain_lands hcap (predicate_run ..),
      plain_lands hcap (predicate_run ..), List.forall_mem_nil _⟩

end Sys2Proof.Proofs
end

section
/-! Two-source scalar instructions (R290 to R297, R301): the words that the model computes are the numbers that the rules give,
and what a run of the shape with two sources, and of a divide, comes to. -/

namespace Sys2Proof.Machine

open Sys2Proof.Claims (Binary Divides)

/-! ## The words as numbers -/

/-- A difference of words is the difference of their numbers (R292). -/
theorem sub_eq_ofInt {w : Nat} (x y : BitVec w) : x - y = BitVec.ofInt w ((x.toNat : Int) - y.toNat) := by
  simp [Int.sub_eq_add_neg, BitVec.ofInt_add, BitVec.ofInt_neg, BitVec.sub_eq_add_neg]

/-- A product of words is the product of their numbers (R292). -/
theorem mul_eq_ofNat {w : Nat} (x y : BitVec w) : x * y = BitVec.ofNat w (x.toNat * y.toNat) := by
  simp [BitVec.ofNat_mul]

/-- A shift to the left multiplies by a power of two (R296). -/
theorem shiftLeft_eq_ofNat {w : Nat} (x : BitVec w) (n : Nat) : x <<< n = BitVec.ofNat w (x.toNat * 2 ^ n) :=
  BitVec.eq_of_toNat_eq (by rw [BitVec.toNat_shiftLeft, Nat.shiftLeft_eq, BitVec.toNat_ofNat])

/-- A logical shift to the right divides by a power of two (R296). -/
theorem ushiftRight_eq_ofNat {w : Nat} (x : BitVec w) (n : Nat) : x >>> n = BitVec.ofNat w (x.toNat / 2 ^ n) := by
  rw [← Nat.shiftRight_eq_div_pow, ← BitVec.toNat_ushiftRight, BitVec.ofNat_toNat, BitVec.setWidth_eq]

/-- An arithmetic shift to the right divides the signed number by a power of two, rounding down (R296). -/
theorem sshiftRight_eq_ofInt {w : Nat} (x : BitVec w) (n : Nat) : x.sshiftRight n = BitVec.ofInt w (x.toInt / 2 ^ n) := by
  rw [← BitVec.ofInt_toInt (x := x.sshiftRight n), BitVec.toInt_sshiftRight, Int.shiftRight_eq_div_pow, Int.natCast_pow]
  rfl

/-- The shift count is the second source modulo 64 (R296). -/
theorem count_eq (y : Word) : count y = y.toNat % 64 := by
  simp only [count, bits, Nat.pow_zero, Nat.div_one, Nat.sub_zero, Nat.reduceAdd, Nat.reducePow]

/-- The address of `lea` (R301). -/
theorem lea_eq_ofNat (x y : Word) (n : Nat) : x + y <<< n = BitVec.ofNat 64 (x.toNat + y.toNat * 2 ^ n) := by
  rw [BitVec.ofNat_add, BitVec.ofNat_toNat, BitVec.setWidth_eq, shiftLeft_eq_ofNat]

/-- The signed remainder is what the truncated quotient leaves of the dividend (R294). -/
theorem remS_eq (x y : Word) : remS x y = BitVec.ofInt 64 (x.toInt - y.toInt * x.toInt.tdiv y.toInt) := by
  rw [remS, Int.tmod_def]

/-- A choice by the signed order of words is one by the order of their signed numbers (R297). -/
theorem ite_slt {α : Type} {w : Nat} (x y : BitVec w) (u v : α) :
    (if x.slt y then u else v) = if x.toInt < y.toInt then u else v := by
  simp only [BitVec.slt_iff_toInt_lt]

/-- A choice by the unsigned order of words is one by the order of their numbers (R297). -/
theorem ite_ult {α : Type} {w : Nat} (x y : BitVec w) (u v : α) :
    (if x.ult y then u else v) = if x.toNat < y.toNat then u else v := by
  simp only [BitVec.ult_iff_lt, BitVec.lt_def]

/-! ## The shapes -/

/-- A plain instruction whose body is the shape with two sources and a function of words has that function as its meaning (R290).
That `exec` runs the body under the instruction's own guard is the dispatch, by `rfl` for each instruction. -/
theorem binary_of_exec {k : Guard → Reg → Reg → Reg → Instr} {f f' : Word → Word → Word}
    (hf : ∀ x y, f' x y = f x y)
    (he : ∀ g d a b s, exec (k g d a b) s = plain (k g d a b) (binary f' d a b) s := by intros; rfl)
    (hg : ∀ g d a b, guardOf (k g d a b) = g := by intros; rfl) : Binary k f := by
  obtain rfl : f' = f := funext fun x => funext (hf x)
  intro s g d a b hc hu
  exact (he ..).trans (plain_ok (by rwa [hg]) (binary_ok f' d a b _ ((issuing_usable ..).trans hu)))

/-- A divide whose operands are ready and whose divider is idle raises 0x0D where the divisor is zero, and else starts the divider
(R291, R294). -/
theorem divide_run (f : Word → Word → Word) {d a b : Reg} {c : Chip} (hu : c.usable [a, b] [d] = true)
    (hi : c.here.divide = none) :
    divide f d a b c = if (c.popped a).val b = 0 then .error (.trap 0x0D 0 0) (c.poppedAll [a, b])
      else .ok () ((c.poppedAll [a, b]).modCore c.core fun h =>
        { h with divide := some ⟨c.frame, c.me.thread, d, f (c.val a) ((c.popped a).val b), c.now + 24⟩ }) := by
  obtain ⟨ha, hflow⟩ := rd_flow (flow_of_usable hu)
  obtain ⟨hb, -⟩ := rd_flow hflow
  have idle : waitIf c.here.divide.isSome .divider c = .ok () c := waitIf_ok _ c (by rw [hi]; rfl)
  have thread : (((c.popped a).popped b).frameAt c.core c.frame).thread = c.me.thread := by
    rw [← popped_me c a, ← popped_me (c.popped a) b, Chip.me, popped_core, popped_core, popped_frame, popped_frame]
  rw [divide, M.bind_ok (use_ok _ _ _ hu), M.bind_ok (theCore_run c), M.bind_ok idle, M.bind_ok ha, M.bind_ok hb]
  by_cases hy : (c.popped a).val b = 0
  · rw [if_pos hy, hy]
    rfl
  · rw [if_neg hy, beq_false_of_ne hy, raiseIf_false, M.bind_ok (M.pure_run ..), M.bind_ok (M.get_run _), modCore_run]
    simp only [popped_core, popped_frame, popped_now, thread, Chip.poppedAll]

/-- A plain instruction whose body is a divide with a function of words starts the divider with that function's result, or takes the
trap 0x0D (R291, R294). -/
theorem divides_of_exec {k : Guard → Reg → Reg → Reg → Instr} {f f' : Word → Word → Word}
    (hf : ∀ x y, f' x y = f x y)
    (he : ∀ g d a b s, exec (k g d a b) s = plain (k g d a b) (divide f' d a b) s := by intros; rfl)
    (hg : ∀ g d a b, guardOf (k g d a b) = g := by intros; rfl) : Divides k f := by
  obtain rfl : f' = f := funext fun x => funext (hf x)
  intro s g d a b hc hu hi
  have hc : s.chip.clear (guardOf (k g d a b)) = true := by rwa [hg]
  have run := divide_run f' ((issuing_usable s.chip (k g d a b) ..).trans hu) hi
  refine ⟨fun hy => ?starts, fun hy => ?traps⟩
  case starts => exact (he ..).trans (plain_ok hc (run.trans (if_neg hy)))
  case traps => exact (he ..).trans (plain_trap hc (run.trans (if_pos hy)))

end Sys2Proof.Machine

namespace Sys2Proof.Proofs
open Sys2Proof.Machine

/-- What each two-source instruction of class 000 writes: the shape's run, with the model's function of words read as numbers. -/
theorem twoSourceResults : Claims.TwoSourceResults := by
  refine ⟨?add, ?sub, ?mul, ?mulh, ?mulhu, ?and, ?or, ?xor, ?andn, ?shl, ?shr, ?sar, ?rol, ?ror, ?min, ?max, ?minu, ?maxu,
    fun m => ?lea⟩
  case add => exact binary_of_exec BitVec.add_def
  case sub => exact binary_of_exec sub_eq_ofInt
  case mul => exact binary_of_exec mul_eq_ofNat
  case mulh | mulhu | and | or | xor | andn => exact binary_of_exec fun _ _ => rfl
  case shl => exact binary_of_exec fun x y => (shiftLeft_eq_ofNat x (count y)).trans (by rw [count_eq])
  case shr => exact binary_of_exec fun x y => (ushiftRight_eq_ofNat x (count y)).trans (by rw [count_eq])
  case sar => exact binary_of_exec fun x y => (sshiftRight_eq_ofInt x (count y)).trans (by rw [count_eq])
  case rol => exact binary_of_exec fun x y => congrArg x.rotateLeft (count_eq y)
  case ror => exact binary_of_exec fun x y => congrArg x.rotateRight (count_eq y)
  case min | max => exact binary_of_exec fun x y => ite_slt x y _ _
  case minu | maxu => exact binary_of_exec fun x y => ite_ult x y _ _
  case lea => exact binary_of_exec fun x y => lea_eq_ofNat x y m.toNat

/-- What each divide does: the divider's run, with the model's quotient or remainder. -/
theorem divideStartsOrTraps : Claims.DivideStartsOrTraps := by
  refine ⟨?div, ?rem, ?divu, ?remu⟩
  case rem => exact divides_of_exec remS_eq
  case div | divu | remu => exact divides_of_exec fun _ _ => rfl

/-- Settles O2, by the run of the shape with two sources (`binary_of_exec`) and of a divide (`divides_of_exec`), each with the law
that reads the model's function of words as the number that the rule gives. -/
theorem scalarResults : Obligations.ScalarResults := by
  unfold Obligations.ScalarResults
  exact ⟨twoSourceResults, divideStartsOrTraps⟩

end Sys2Proof.Proofs
end
